-- ==== Sys2Proof/Word.lean ====
section
/-! DEFINITION. The word types of the machine (00_scope.md R7, R9): XLEN is 32, a byte is 8 bits,
an `f` register is 64 bits (FLEN with the D subset). -/

namespace Sys2Proof

/-- A 32-bit register value or address (R7). -/
abbrev Word := BitVec 32

/-- One byte of memory (20_memory.md R160). -/
abbrev Byte := BitVec 8

/-- The value of a 64-bit floating-point register (10_state.md R26). -/
abbrev DWord := BitVec 64

/-- A 5-bit register field naming one of 32 registers (30_encoding.md R225). -/
abbrev Reg := BitVec 5

/-- A 3-bit register field of a 16-bit instruction; it names register `8 + v` (30_encoding.md R243). -/
abbrev CReg := BitVec 3

/-- A 12-bit CSR address (10_state.md R30). -/
abbrev CsrAddr := BitVec 12

end Sys2Proof
end

