-- ==== Sys2Proof/Config.lean ====
section
/-! DEFINITION. The implementation parameters of 00_scope.md R8 as one plain record, the values the model takes
for them by default, and the free values: constants without a body, one for each value the spec leaves open. -/

namespace Sys2Proof

/-- What a claiming read of mnxti and jalmnxti take as handler address (`MNXTI_RETURNS`, R8 and 92_eei_decisions.md D15;
log 48). -/
inductive MnxtiReturns
  | handler   -- the vector-table word
  | entry     -- the address of that word
deriving DecidableEq, Repr

/-- NaN handling of FMIN and FMAX (`FMINMAX_VARIANT`, R8 and 44_rv32f.md R419). -/
inductive FminmaxVariant
  | v20
  | v22
deriving DecidableEq, Repr

/-- The alignment at which an 8-byte access counts as aligned (`FLD_ALIGN`, R8 and 20_memory.md R168). -/
inductive FldAlign
  | four
  | eight
deriving DecidableEq, Repr

/-- Addresses the platform's bus answers with an error, by kind of access (20_memory.md R174). -/
structure BusErrorRegion where
  base  : Nat
  size  : Nat
  fetch : Bool
  load  : Bool
  store : Bool
deriving DecidableEq, Repr

/-- The parameters of one implementation (R8). They never change while the machine runs. -/
structure Config where
  hasM : Bool
  hasA : Bool
  hasC : Bool
  hasF : Bool
  hasD : Bool
  hasP : Bool
  hasUmode : Bool
  hasPmp : Bool
  pmpEntries : Nat
  hasMisaligned : Bool
  hasBpu : Bool
  hasNestedStack : Bool
  hasIcache : Bool
  hasDcache : Bool
  hasIlm : Bool
  hasDlm : Bool
  hasEcc : Bool
  hasNice : Bool
  hasPpi : Bool
  hasFio : Bool
  hasPlic : Bool
  hasClic : Bool
  hasTee : Bool
  /-- the letters of misa the sources do not determine (10_state.md R41) -/
  misaN : Bool
  misaP : Bool
  misaX : Bool
  numInterrupt : Nat
  clicIntCtlBits : Nat
  eclicVersion : BitVec 8
  timerBase : Word
  eclicBase : Word
  resetVector : Word
  mhartid : Word
  mvendorid : Word
  marchid : Word
  mimpid : Word
  ilmBpa : BitVec 22
  ilmSize : BitVec 5
  ilmXonly : Bool
  ilmEcc : Bool
  dlmBpa : BitVec 22
  dlmSize : BitVec 5
  dlmEcc : Bool
  ppiBpa : BitVec 22
  ppiSize : BitVec 5
  fioBpa : BitVec 22
  fioSize : BitVec 5
  icSet : BitVec 4
  icWay : BitVec 3
  icLsize : BitVec 3
  icEcc : Bool
  dcSet : BitVec 4
  dcWay : BitVec 3
  dcLsize : BitVec 3
  dcEcc : Bool
  eccCodeWidth : Nat
  preciseAccessFaults : Bool
  mnxtiReturns : MnxtiReturns
  scSpuriousFail : Bool
  fldAlign : FldAlign
  fminmaxVariant : FminmaxVariant
  busErrors : List BusErrorRegion
deriving DecidableEq, Repr

namespace Config

/-- The configuration `State.reset` runs with. DESIGN CHOICE (log 2, log 3): R8 leaves every one of these OPEN or gives
the suggested default; no statement of the package rests on these values. -/
def default : Config where
  hasM := true
  hasA := true
  hasC := true
  hasF := true
  hasD := true
  hasP := false
  hasUmode := true
  hasPmp := true
  pmpEntries := 16
  hasMisaligned := true
  hasBpu := true
  hasNestedStack := true
  hasIcache := true
  hasDcache := true
  hasIlm := true
  hasDlm := true
  hasEcc := true
  hasNice := false
  hasPpi := false
  hasFio := false
  hasPlic := false
  hasClic := true
  hasTee := false
  misaN := false
  misaP := false
  misaX := false
  numInterrupt := 32
  clicIntCtlBits := 4
  eclicVersion := 0
  timerBase := 0x02000000
  eclicBase := 0x0C000000
  resetVector := 0x00001000
  mhartid := 0
  mvendorid := 0
  marchid := 0
  mimpid := 0
  ilmBpa := 0x200000
  ilmSize := 9
  ilmXonly := false
  ilmEcc := true
  dlmBpa := 0x240000
  dlmSize := 9
  dlmEcc := true
  ppiBpa := 0
  ppiSize := 0
  fioBpa := 0
  fioSize := 0
  icSet := 3
  icWay := 1
  icLsize := 3
  icEcc := true
  dcSet := 3
  dcWay := 1
  dcLsize := 3
  dcEcc := true
  eccCodeWidth := 7
  preciseAccessFaults := true
  mnxtiReturns := .handler
  scSpuriousFail := false
  fldAlign := .four
  fminmaxVariant := .v20
  busErrors := []

/-- The ranges R8 states for the parameters: `HAS_D` implies `HAS_F`, 2 <= CLICINTCTLBITS <= 8, at most 4096
sources, PMP entries that fit the CSR addresses of 10_state.md R31, and a RESET_VECTOR aligned to 4 bytes (D20). -/
def wf (c : Config) : Bool :=
  (!c.hasD || c.hasF) && 2 ≤ c.clicIntCtlBits && c.clicIntCtlBits ≤ 8 && c.numInterrupt ≤ 4096
    && c.pmpEntries ≤ 64 && c.resetVector.extractLsb' 0 2 = 0#2 && 7 ≤ c.eccCodeWidth && c.eccCodeWidth ≤ 9

/-! ### Free values

Each is applied to the counter `State.free`, which the step advances, or to the operands the open value depends on.
Nothing in Lean can evaluate one. -/

/-- By how much mcycle grows in a step (10_state.md R61: an unspecified non-negative number). Log 7. -/
opaque freeCycles : Nat → Nat

/-- mtval after ECALL and EBREAK (60_exceptions.md R524: unspecified). Log 8. -/
opaque freeMtval : Nat → Word

/-- mdcause after an exception other than codes 1, 5, 7 (60_exceptions.md R523: unspecified). Log 8. -/
opaque freeMdcause : Nat → BitVec 2

/-- Whether MPP becomes User after an unsupported value is stored in it (10_state.md R43). Log 9. -/
opaque freeMppIsUser : Nat → Bool

/-- mepc after a failed vector-table read of interrupt entry (60_exceptions.md R564: unspecified). Log 10. -/
opaque freeMepc : Nat → Word

/-- The byte the ILM holds at an address after mode switch number `n` (20_memory.md R206: unspecified). Log 11. -/
opaque freeIlmByte : Nat → Nat → Byte

/-- The byte a load of the PPI or FIO reads at an address: the platform's device's (20_memory.md R173). Log 26. -/
opaque freePort : Nat → Nat → Byte

/-- The byte a fetch finds at an address of the PPI or FIO: the platform's device's (30_encoding.md R221, 20_memory.md
R173). Log 26. -/
opaque freeFetchPort : Nat → Nat → Byte

/-- The byte a vector-table read finds at an address of the PPI or FIO: the platform's device's (60_exceptions.md R564,
20_memory.md R173). Log 26. -/
opaque freeTablePort : Nat → Nat → Byte

/-- Which of the words an address held since the last FENCE.I a fetch sees (20_memory.md R204). Log 12. -/
opaque freeFetch : Nat → Nat → Nat

/-- Whether a pending imprecise fault is delivered at this boundary (60_exceptions.md R526). Log 13. -/
opaque freeFaultNow : Nat → Bool

/-- Whether a second imprecise fault replaces the first one that waits (60_exceptions.md R526). Log 13. -/
opaque freeFaultReplaces : Nat → Bool

/-- What a faulting imprecise load writes to its register (60_exceptions.md R526: unspecified). Log 13. -/
opaque freeLoad : Nat → DWord

/-- Whether the imprecise exception of a D-cache copy-back is a store fault (60_exceptions.md R607: no code). Log 31. -/
opaque freeEvictIsStore : Nat → Bool

/-- Whether SC.W fails with a valid reservation when `SC_SPURIOUS_FAIL` is set (43_rv32a.md R383). Log 14. -/
opaque freeScFails : Nat → Bool

/-- IP of a source after software changes its trigger while it is active (60_exceptions.md R577). Log 15. -/
opaque freeIp : Nat → Nat → Bool

end Config

end Sys2Proof
end

