-- ==== Sys2Proof/Machine/State.lean ====
section
/-! DEFINITION. The machine's state as plain data, every piece of state of 10_state.md, 11_state_nuclei_csr.md,
60_exceptions.md and the hidden state of 10_state.md R29; the reasons a step stops; the state after reset
(70_reset_and_hazards.md R621, R622). -/

namespace Sys2Proof.Machine

/-- The two Privilege Modes (10_state.md R24); the encodings 1 and 2 never occur. -/
inductive Priv
  | user
  | machine
deriving DecidableEq, Repr

/-- mstatus without MPP and MPIE, which are below, and without SD, which is computed (10_state.md R40). -/
structure Mstatus where
  mie  : Bool
  mpie : Bool        -- also mcause.MPIE (R43)
  mpp  : Priv        -- also mcause.MPP (R43)
  fs   : BitVec 2
  xs   : BitVec 2
  mprv : Bool
  sum  : Bool
deriving DecidableEq, Repr

/-- mcause without its mirrored MPP and MPIE (10_state.md R56). -/
structure Mcause where
  interrupt : Bool
  minhv     : Bool
  mpil      : BitVec 8
  exccode   : BitVec 12
deriving DecidableEq, Repr

/-- mtvt2 (11_state_nuclei_csr.md R113). -/
structure Mtvt2 where
  entry : BitVec 30   -- bits 31:2
  en    : Bool
deriving DecidableEq, Repr

/-- msubm (11_state_nuclei_csr.md R104). -/
structure Msubm where
  ptyp : BitVec 2
  typ  : BitVec 2
deriving DecidableEq, Repr

/-- mintstatus (10_state.md R59). -/
structure Mintstatus where
  mil : BitVec 8
  uil : BitVec 8
deriving DecidableEq, Repr

/-- A saved mcause, with the MPP and MPIE bits it has of its own (11_state_nuclei_csr.md R110). -/
structure SavedCause where
  interrupt : Bool
  minhv     : Bool
  mpp       : BitVec 2
  mpie      : Bool
  mpil      : BitVec 8
  exccode   : BitVec 12
deriving DecidableEq, Repr

/-- One level of the two-level NMI/exception state stack (11_state_nuclei_csr.md R108 to R111). -/
structure SaveLevel where
  epc    : Word
  cause  : SavedCause
  dcause : BitVec 2
  ptyp   : BitVec 2
  mpp    : BitVec 2
  mpie   : Bool
deriving DecidableEq, Repr

/-- The enables of mcounteren (10_state.md R66). -/
structure Mcounteren where
  cy : Bool
  tm : Bool
  ir : Bool
deriving DecidableEq, Repr

/-- mcountinhibit (11_state_nuclei_csr.md R100). -/
structure Mcountinhibit where
  cy : Bool
  ir : Bool
deriving DecidableEq, Repr

/-- fcsr (10_state.md R68). -/
structure Fcsr where
  frm    : BitVec 3
  fflags : BitVec 5   -- NV DZ OF UF NX
deriving DecidableEq, Repr

/-- pmp<n>cfg.A (10_state.md R72); the value 1 cannot be stored. -/
inductive PmpMode
  | off
  | na4
  | napot
deriving DecidableEq, Repr

/-- One PMP entry: its configuration byte and pmpaddr (10_state.md R72, R73). -/
structure PmpEntry where
  lock : Bool
  mode : PmpMode
  x    : Bool
  w    : Bool
  r    : Bool
  addr : BitVec 30
deriving DecidableEq, Repr

/-- The writable bits 3:1 of milm_ctl and mdlm_ctl (11_state_nuclei_csr.md R101, R102). -/
structure LocalMemCtl where
  rwecc  : Bool
  excpEn : Bool
  eccEn  : Bool
deriving DecidableEq, Repr

/-- One half of mcache_ctl: the bits the D-cache and the I-cache both have (11_state_nuclei_csr.md R106). -/
structure CacheCtl where
  rwdecc : Bool
  rwtecc : Bool
  excpEn : Bool
  eccEn  : Bool
  en     : Bool
deriving DecidableEq, Repr

/-- mmisc_ctl (11_state_nuclei_csr.md R107). -/
structure MmiscCtl where
  nmiCauseFff : Bool
  misalign    : Bool
  bpu         : Bool
deriving DecidableEq, Repr

/-- mecc_code (11_state_nuclei_csr.md R130); `code` is ECC_CODE_WIDTH bits wide. -/
structure MeccCode where
  sramid : BitVec 5
  ramid  : BitVec 5
  code   : BitVec 9
deriving DecidableEq, Repr

/-- Every CSR that has storage, but for mcycle, which `State` holds apart (10_state.md R31). -/
structure Csrs where
  mstatus       : Mstatus
  mcause        : Mcause
  mtvec         : Word
  mtvt          : Word
  mtvt2         : Mtvt2
  mscratch      : Word
  mepc          : Word
  mtval         : Word
  mdcause       : BitVec 2
  msubm         : Msubm
  mintstatus    : Mintstatus
  save1         : SaveLevel
  save2         : SaveLevel
  mcounteren    : Mcounteren
  mcountinhibit : Mcountinhibit
  minstret      : BitVec 64
  fcsr          : Fcsr
  pmp           : List PmpEntry
  milm          : LocalMemCtl
  mdlm          : LocalMemCtl
  dcache        : CacheCtl
  icache        : CacheCtl
  icScpdMod     : Bool
  mmisc         : MmiscCtl
  mecc          : MeccCode
  meccLock      : Bool
  sleepvalue    : Bool
  wfe           : Bool
  ucodeOv       : Bool
deriving DecidableEq, Repr

/-- The exceptions the core has (60_exceptions.md R521). -/
inductive ExcCode
  | instrAddrMisaligned
  | instrAccessFault
  | illegalInstr
  | breakpoint
  | loadAddrMisaligned
  | loadAccessFault
  | storeAmoAddrMisaligned
  | storeAmoAccessFault
  | ecallU
  | ecallM
deriving DecidableEq, Repr

/-- What an exception writes to mdcause (60_exceptions.md R523, R605). -/
inductive Detail
  | pmp        -- 1
  | bus        -- 2
  | keep       -- a 2-bit ECC error leaves mdcause as it is
  | unstated   -- the spec gives no value
deriving DecidableEq, Repr

/-- One exception: its code, its trap value (`none` where the spec gives none) and its detail. -/
structure Exc where
  code   : ExcCode
  tval   : Option Word
  detail : Detail
deriving DecidableEq, Repr

/-- One ECLIC source: its input line, which is also its edge detector, and its four registers
(60_exceptions.md R574 to R578). -/
structure EclicSrc where
  line : Bool
  ip   : Bool          -- the latch of an edge-triggered source
  held : Option Bool   -- IP of a source just made level-triggered while active: a drawn value (log 15)
  ie   : Bool
  trig : BitVec 2
  shv  : Bool
  ctl  : BitVec 8      -- the bits above the implemented ones are storage, the rest read 1
deriving DecidableEq, Repr

/-- The ECLIC (60_exceptions.md R570): sources 0 to NUM_INTERRUPT - 1. -/
structure Eclic where
  nlbits : BitVec 4
  mth    : BitVec 8
  srcs   : List EclicSrc
deriving DecidableEq, Repr

/-- The TIMER (60_exceptions.md R588). -/
structure Timer where
  mtime    : BitVec 64
  mtimecmp : BitVec 64
  msftrst  : Bool
  clksrc   : Bool
  cmpclren : Bool
  timestop : Bool
  msip     : Bool
deriving DecidableEq, Repr

/-- The mark of the last mode switch that left the ILM's contents unspecified (20_memory.md R206). -/
structure IlmDraw where
  index : Nat
  base  : Nat
  size  : Nat
deriving DecidableEq, Repr

/-- Memory: the listed bytes in rising order of address, none equal to what an unlisted address reads as. -/
structure Memory where
  cells : List Host.Cell
  draw  : Option IlmDraw
deriving DecidableEq, Repr

/-- The memories that can carry ECC (20_memory.md R210). -/
inductive EccUnit
  | icache
  | dcache
  | ilm
  | dlm
deriving DecidableEq, Repr

/-- The RAM of a memory an ECC error is in; only the caches have a tag RAM (20_memory.md R210). -/
inductive EccRam
  | data
  | tag
deriving DecidableEq, Repr

/-- Which access of the hart an ECC error meets. -/
inductive AccessPath
  | fetch
  | load
  | store
deriving DecidableEq, Repr

/-- An ECC error in this step (20_memory.md R210, R211; 60_exceptions.md R609): 1 or 2 bits in the data unit of a memory that
holds the byte `addr`, or in a tag that the lookup of its line compares. The accesses on a path meet it, and `flip` says
which bits of the data unit arrive wrong. -/
structure EccHit where
  path   : AccessPath
  unit   : EccUnit
  ram    : EccRam
  addr   : Word
  double : Bool
  flip   : DWord
deriving DecidableEq, Repr

/-- Whose access met an ECC error that no instruction is told of (60_exceptions.md R606, R609): an outside bus master's
through the slave port, the debug SBA's, or another, such as the fetch of a word that is flushed later. -/
inductive EccOrigin
  | slavePort
  | sba
  | other
deriving DecidableEq, Repr

/-- The core's ECC outputs, one bit per memory for 1-bit and one for 2-bit errors, placed as in SRAMID and RAMID
(60_exceptions.md R609, 11_state_nuclei_csr.md R130), and the bus-error answers of the slave port and to the debug SBA, of
which R609 says that they report a 2-bit error. -/
structure EccOutputs where
  single     : BitVec 5
  double     : BitVec 5
  slaveError : Bool
  sbaError   : Bool
deriving DecidableEq, Repr

/-- What the environment can do between two steps (00_scope.md R16). The model's own; log 6. -/
inductive Input
  | tick                                     -- mtime (60_exceptions.md R590)
  | irq (id : Nat) (level : Bool)            -- an external interrupt line
  | nmiEdge                                  -- a rising edge of `nmi`
  | rxEvt (level : Bool)                     -- the event input
  | reset (keepMemory : Bool)                -- 70_reset_and_hazards.md R620, R623
  | busWrite (addr : Word) (value : Byte)    -- another bus master writes a byte
  | eccHit (hit : EccHit)                    -- an ECC error on this step's access
  | eccOther (origin : EccOrigin) (unit : EccUnit) (double : Bool) -- one met by another's access (60_exceptions.md R606)
  | eccEvict                                 -- a 2-bit one in a line the D-cache copies back (60_exceptions.md R607)
deriving DecidableEq, Repr

/-- The state of the machine. -/
structure State where
  pc           : Word
  x            : Vector Word 32
  f            : Vector DWord 32
  priv         : Priv
  csr          : Csrs
  mcycle       : BitVec 64
  mem          : Memory
  stale        : List (Nat × Word)   -- words a fetch may still see, by word address (20_memory.md R204)
  eclic        : Eclic
  timer        : Timer
  resv         : Option Word         -- 43_rv32a.md R381
  asleep       : Bool
  nmiPending   : Bool
  pendingFault : Option Exc          -- 60_exceptions.md R526
  rxEvt        : Bool
  txEvt        : Bool                -- the one-cycle output pulse (11_state_nuclei_csr.md R116)
  eccOut       : EccOutputs          -- the ECC outputs of this step (60_exceptions.md R609, log 34)
  eccHits      : List EccHit         -- the model's own (log 31)
  inputs       : List (List Input)   -- the model's own (log 6)
  free         : Nat                 -- the model's own: what the free values are applied to (log 43)
  cfg          : Config
deriving DecidableEq, Repr

/-- Reasons a step stops with a fault. -/
inductive Fault
  /-- MRET with a saved mode the core does not have; raised by MRET only. Safe: 46_system.md R490 asks for the stop and
  10_state.md R43 makes it unreachable. -/
  | illegalMode
deriving DecidableEq, Repr

/-- Reasons a step is refused; each but the first is a stop 93_implementation_defined.md A4 asks for. All are safe: the model predicts nothing. -/
inductive Refusal
  /-- An instruction without a meaning; raised by exec's arms only. Safe. -/
  | notModelled (mnemonic : String)
  /-- An interrupt would be taken while mtvec.MODE is not 3 (60_exceptions.md R559); raised at a step boundary. Safe. -/
  | defaultInterruptMode
  /-- A load, store or atomic to an execute-only ILM (20_memory.md R163); raised by data accesses. Safe. -/
  | ilmExecuteOnly
  /-- A TIMER or ECLIC access of a size or alignment the unit does not support (60_exceptions.md R583, R589). Safe. -/
  | deviceAccess
  /-- LR, SC or AMO to a TIMER or ECLIC register (43_rv32a.md R394). Safe. -/
  | deviceAtomic
  /-- A form of a CSR instruction the spec does not define for an access point (46_system.md R493 to R499). Safe. -/
  | csrForm
  /-- A CSR write that turns ECC error injection on (20_memory.md R211). Safe. -/
  | eccInjection
deriving DecidableEq, Repr

/-- The outcome of a step or of an instruction. -/
abbrev Out := Host.Outcome State Fault Refusal

/-! ### Reset -/

/-- A saved cause of zeros. DESIGN CHOICE (log 1): the spec gives no reset value. -/
def SavedCause.zero : SavedCause :=
  { interrupt := false, minhv := false, mpp := 0, mpie := false, mpil := 0, exccode := 0 }

/-- A level of the state stack, all zeros. DESIGN CHOICE (log 1). -/
def SaveLevel.zero : SaveLevel :=
  { epc := 0, cause := .zero, dcause := 0, ptyp := 0, mpp := 0, mpie := false }

/-- A PMP entry after reset: OFF, unlocked, no permission (R622); its address is a DESIGN CHOICE (log 1). -/
def PmpEntry.zero : PmpEntry :=
  { lock := false, mode := .off, x := false, w := false, r := false, addr := 0 }

/-- An ECLIC source after reset with its line low (R622); clicintctl's writable bits are a DESIGN CHOICE (log 1). -/
def EclicSrc.zero : EclicSrc :=
  { line := false, ip := false, held := none, ie := false, trig := 0, shv := false, ctl := 0 }

/-- The CSRs after reset (70_reset_and_hazards.md R622); where it says "not given": 0, DESIGN CHOICE (log 1). -/
def Csrs.reset (cfg : Config) : Csrs where
  mstatus := { mie := false, mpie := false, mpp := if cfg.hasUmode then .user else .machine, fs := 0, xs := 0,
               mprv := false, sum := false }
  mcause := { interrupt := false, minhv := false, mpil := 0, exccode := 0 }
  mtvec := 0
  mtvt := 0
  mtvt2 := { entry := 0, en := false }
  mscratch := 0
  mepc := 0
  mtval := 0
  mdcause := 0
  msubm := { ptyp := 0, typ := 0 }
  mintstatus := { mil := 0, uil := 0 }
  save1 := .zero
  save2 := .zero
  mcounteren := { cy := false, tm := false, ir := false }
  mcountinhibit := { cy := false, ir := false }
  minstret := 0
  fcsr := { frm := 0, fflags := 0 }
  pmp := List.replicate cfg.pmpEntries .zero
  milm := { rwecc := false, excpEn := false, eccEn := false }
  mdlm := { rwecc := false, excpEn := false, eccEn := false }
  dcache := { rwdecc := false, rwtecc := false, excpEn := false, eccEn := false, en := false }
  icache := { rwdecc := false, rwtecc := false, excpEn := false, eccEn := false, en := false }
  icScpdMod := true
  mmisc := { nmiCauseFff := false, misalign := cfg.hasMisaligned, bpu := cfg.hasBpu }
  mecc := { sramid := 0, ramid := 0, code := 0 }
  meccLock := false
  sleepvalue := false
  wfe := false
  ucodeOv := false

/-- The TIMER after reset (60_exceptions.md R588). -/
def Timer.reset : Timer where
  mtime := 0
  mtimecmp := 0xFFFFFFFFFFFFFFFF
  msftrst := false
  clksrc := false
  cmpclren := false
  timestop := false
  msip := false

/-- The ECLIC after reset, every line low (R622); mth is a DESIGN CHOICE (log 1). -/
def Eclic.reset (cfg : Config) : Eclic where
  nlbits := 0
  mth := 0
  srcs := List.replicate cfg.numInterrupt .zero

/-- No ECC output is high. -/
def EccOutputs.none : EccOutputs := { single := 0, double := 0, slaveError := false, sbaError := false }

/-- Memory with nothing listed. -/
def Memory.empty : Memory := { cells := [], draw := none }

/-- The state right after reset of a core configured as `cfg`, with nothing still to come from the environment
(70_reset_and_hazards.md R621, R622). -/
def State.resetWith (cfg : Config) : State where
  pc := cfg.resetVector
  x := Vector.replicate 32 0
  f := Vector.replicate 32 0
  priv := .machine
  csr := Csrs.reset cfg
  mcycle := 0
  mem := Memory.empty
  stale := []
  eclic := Eclic.reset cfg
  timer := Timer.reset
  resv := none
  asleep := false
  nmiPending := false
  pendingFault := none
  rxEvt := false
  txEvt := false
  eccOut := .none
  eccHits := []
  inputs := []
  free := 0
  cfg := cfg

/-- The machine right after reset, with the default configuration (log 2). -/
def State.reset : State := State.resetWith Config.default

end Sys2Proof.Machine
end

