-- ==== Sys2Proof/Machine/Memory.lean ====
section
/-! DEFINITION. Memory by bytes: the canonical list of 20_memory.md R160, reads and writes, byte order (R165). -/

namespace Sys2Proof.Machine

/-- What a byte nothing has written reads as: 0 (DESIGN CHOICE, log 4), or, in the ILM after a mode switch, a byte
the spec leaves open (R206, log 11). -/
def Memory.unlisted (m : Memory) (a : Nat) : Byte :=
  match m.draw with
  | none => 0
  | some d => if d.base ≤ a ∧ a < d.base + d.size then Config.freeIlmByte d.index a else 0

/-- The byte listed for an address. -/
def lookupCell : List Host.Cell → Nat → Option Byte
  | [], _ => none
  | (k, b) :: rest, a => if a = k then some b else lookupCell rest a

/-- List a byte at its place in the rising order. -/
def insertCell (a : Nat) (b : Byte) : List Host.Cell → List Host.Cell
  | [] => [(a, b)]
  | (k, c) :: rest =>
    if a < k then (a, b) :: (k, c) :: rest
    else if a = k then (a, b) :: rest
    else (k, c) :: insertCell a b rest

/-- Take an address off the list. -/
def removeCell (a : Nat) : List Host.Cell → List Host.Cell
  | [] => []
  | (k, c) :: rest => if a = k then rest else (k, c) :: removeCell a rest

/-- Addresses strictly rising from `lo` on. -/
def risingFrom : Nat → List Host.Cell → Bool
  | _, [] => true
  | lo, (k, _) :: rest => lo ≤ k && risingFrom (k + 1) rest

/-- The canonical form: addresses strictly rising and below 2^32, no entry equal to what an unlisted address reads. -/
def Memory.wf (m : Memory) : Bool :=
  risingFrom 0 m.cells && m.cells.all (fun c => decide (c.1 < 4294967296) && c.2 != m.unlisted c.1)

/-- One byte (R160). -/
def Memory.read (m : Memory) (a : Word) : Byte :=
  (lookupCell m.cells a.toNat).getD (m.unlisted a.toNat)

/-- Store one byte, keeping the canonical form. -/
def Memory.write (m : Memory) (a : Word) (b : Byte) : Memory :=
  { m with cells := if b = m.unlisted a.toNat then removeCell a.toNat m.cells else insertCell a.toNat b m.cells }

/-- `n` bytes from `a` upward; addresses wrap (R160). -/
def Memory.readBytes (m : Memory) (a : Word) : Nat → List Byte
  | 0 => []
  | n + 1 => m.read a :: m.readBytes (a + 1) n

/-- Store bytes from `a` upward (R165). -/
def Memory.writeBytes (m : Memory) (a : Word) : List Byte → Memory
  | [] => m
  | b :: rest => (m.write a b).writeBytes (a + 1) rest

/-- Four bytes, least significant first, as a word (R165). -/
def joinWord (byte : Nat → Byte) : Word := byte 3 ++ byte 2 ++ byte 1 ++ byte 0

/-- A little-endian word (R165). -/
def Memory.read32 (m : Memory) (a : Word) : Word :=
  m.read (a + 3) ++ m.read (a + 2) ++ m.read (a + 1) ++ m.read a

/-- The low `n` bytes of a value, least significant first (R165). -/
def splitBytes : Nat → DWord → List Byte
  | 0, _ => []
  | n + 1, v => v.setWidth 8 :: splitBytes n (v >>> 8)

/-- Bytes, least significant first, as a value (R165). -/
def joinBytes : List Byte → DWord
  | [] => 0
  | b :: rest => (joinBytes rest <<< 8) ||| b.setWidth 64

/-- Leave the bytes of a range unspecified (R206): nothing listed there, every read a drawn byte. -/
def Memory.redraw (m : Memory) (d : IlmDraw) : Memory :=
  { cells := m.cells.filter (fun c => !(decide (d.base ≤ c.1) && decide (c.1 < d.base + d.size)) && c.2 != 0)
    draw := some d }

end Sys2Proof.Machine
end

