-- ==== Sys2Proof/Syntax.lean ====
section
/-! DEFINITION. The instructions, one constructor per row of spec/opcode_table.json, in the table's order.
Immediates are kept as the bits of the encoding put in order of significance, without the low bits that are always 0
(30_encoding.md R226, R244); a meaning extends them. Fields that the hardware ignores are kept, so that every word
that decodes can be written back (30_encoding.md R233). -/

namespace Sys2Proof

inductive Instr
  -- RV32I (40_rv32i.md)
  | lui (rd : Reg) (imm : BitVec 20)
  | auipc (rd : Reg) (imm : BitVec 20)
  | jal (rd : Reg) (off : BitVec 20)
  | jalr (rd rs1 : Reg) (imm : BitVec 12)
  | beq (rs1 rs2 : Reg) (off : BitVec 12)
  | bne (rs1 rs2 : Reg) (off : BitVec 12)
  | blt (rs1 rs2 : Reg) (off : BitVec 12)
  | bge (rs1 rs2 : Reg) (off : BitVec 12)
  | bltu (rs1 rs2 : Reg) (off : BitVec 12)
  | bgeu (rs1 rs2 : Reg) (off : BitVec 12)
  | lb (rd rs1 : Reg) (imm : BitVec 12)
  | lh (rd rs1 : Reg) (imm : BitVec 12)
  | lw (rd rs1 : Reg) (imm : BitVec 12)
  | lbu (rd rs1 : Reg) (imm : BitVec 12)
  | lhu (rd rs1 : Reg) (imm : BitVec 12)
  | sb (rs2 rs1 : Reg) (imm : BitVec 12)
  | sh (rs2 rs1 : Reg) (imm : BitVec 12)
  | sw (rs2 rs1 : Reg) (imm : BitVec 12)
  | addi (rd rs1 : Reg) (imm : BitVec 12)
  | slti (rd rs1 : Reg) (imm : BitVec 12)
  | sltiu (rd rs1 : Reg) (imm : BitVec 12)
  | xori (rd rs1 : Reg) (imm : BitVec 12)
  | ori (rd rs1 : Reg) (imm : BitVec 12)
  | andi (rd rs1 : Reg) (imm : BitVec 12)
  | slli (rd rs1 : Reg) (shamt : BitVec 5)
  | srli (rd rs1 : Reg) (shamt : BitVec 5)
  | srai (rd rs1 : Reg) (shamt : BitVec 5)
  | add (rd rs1 rs2 : Reg)
  | sub (rd rs1 rs2 : Reg)
  | sll (rd rs1 rs2 : Reg)
  | slt (rd rs1 rs2 : Reg)
  | sltu (rd rs1 rs2 : Reg)
  | xor (rd rs1 rs2 : Reg)
  | srl (rd rs1 rs2 : Reg)
  | sra (rd rs1 rs2 : Reg)
  | or (rd rs1 rs2 : Reg)
  | and (rd rs1 rs2 : Reg)
  | fence (fm pred succ : BitVec 4) (rs1 rd : Reg)
  | fenceI (imm : BitVec 12) (rs1 rd : Reg)
  -- M (41_rv32m.md)
  | mul (rd rs1 rs2 : Reg)
  | mulh (rd rs1 rs2 : Reg)
  | mulhsu (rd rs1 rs2 : Reg)
  | mulhu (rd rs1 rs2 : Reg)
  | div (rd rs1 rs2 : Reg)
  | divu (rd rs1 rs2 : Reg)
  | rem (rd rs1 rs2 : Reg)
  | remu (rd rs1 rs2 : Reg)
  -- C (42_rv32c.md)
  | cAddi4spn (rd : CReg) (imm : BitVec 8)
  | cFld (rd rs1 : CReg) (imm : BitVec 5)
  | cLw (rd rs1 : CReg) (imm : BitVec 5)
  | cFlw (rd rs1 : CReg) (imm : BitVec 5)
  | cFsd (rs2 rs1 : CReg) (imm : BitVec 5)
  | cSw (rs2 rs1 : CReg) (imm : BitVec 5)
  | cFsw (rs2 rs1 : CReg) (imm : BitVec 5)
  | cNop (imm : BitVec 6)
  | cAddi (rd : Reg) (imm : BitVec 6)
  | cJal (off : BitVec 11)
  | cLi (rd : Reg) (imm : BitVec 6)
  | cAddi16sp (imm : BitVec 6)
  | cLui (rd : Reg) (imm : BitVec 6)
  | cSrli (rd : CReg) (shamt : BitVec 5)
  | cSrai (rd : CReg) (shamt : BitVec 5)
  | cAndi (rd : CReg) (imm : BitVec 6)
  | cSub (rd rs2 : CReg)
  | cXor (rd rs2 : CReg)
  | cOr (rd rs2 : CReg)
  | cAnd (rd rs2 : CReg)
  | cJ (off : BitVec 11)
  | cBeqz (rs1 : CReg) (off : BitVec 8)
  | cBnez (rs1 : CReg) (off : BitVec 8)
  | cSlli (rd : Reg) (shamt : BitVec 5)
  | cFldsp (rd : Reg) (imm : BitVec 6)
  | cLwsp (rd : Reg) (imm : BitVec 6)
  | cFlwsp (rd : Reg) (imm : BitVec 6)
  | cJr (rs1 : Reg)
  | cMv (rd rs2 : Reg)
  | cEbreak
  | cJalr (rs1 : Reg)
  | cAdd (rd rs2 : Reg)
  | cFsdsp (rs2 : Reg) (imm : BitVec 6)
  | cSwsp (rs2 : Reg) (imm : BitVec 6)
  | cFswsp (rs2 : Reg) (imm : BitVec 6)
  -- A (43_rv32a.md)
  | lrW (rd rs1 : Reg) (aq rl : Bool)
  | scW (rd rs1 rs2 : Reg) (aq rl : Bool)
  | amoswapW (rd rs1 rs2 : Reg) (aq rl : Bool)
  | amoaddW (rd rs1 rs2 : Reg) (aq rl : Bool)
  | amoxorW (rd rs1 rs2 : Reg) (aq rl : Bool)
  | amoandW (rd rs1 rs2 : Reg) (aq rl : Bool)
  | amoorW (rd rs1 rs2 : Reg) (aq rl : Bool)
  | amominW (rd rs1 rs2 : Reg) (aq rl : Bool)
  | amomaxW (rd rs1 rs2 : Reg) (aq rl : Bool)
  | amominuW (rd rs1 rs2 : Reg) (aq rl : Bool)
  | amomaxuW (rd rs1 rs2 : Reg) (aq rl : Bool)
  -- F (44_rv32f.md)
  | flw (rd rs1 : Reg) (imm : BitVec 12)
  | fsw (rs2 rs1 : Reg) (imm : BitVec 12)
  | fmaddS (rd rs1 rs2 rs3 : Reg) (rm : BitVec 3)
  | fmsubS (rd rs1 rs2 rs3 : Reg) (rm : BitVec 3)
  | fnmsubS (rd rs1 rs2 rs3 : Reg) (rm : BitVec 3)
  | fnmaddS (rd rs1 rs2 rs3 : Reg) (rm : BitVec 3)
  | faddS (rd rs1 rs2 : Reg) (rm : BitVec 3)
  | fsubS (rd rs1 rs2 : Reg) (rm : BitVec 3)
  | fmulS (rd rs1 rs2 : Reg) (rm : BitVec 3)
  | fdivS (rd rs1 rs2 : Reg) (rm : BitVec 3)
  | fsqrtS (rd rs1 : Reg) (rm : BitVec 3)
  | fsgnjS (rd rs1 rs2 : Reg)
  | fsgnjnS (rd rs1 rs2 : Reg)
  | fsgnjxS (rd rs1 rs2 : Reg)
  | fminS (rd rs1 rs2 : Reg)
  | fmaxS (rd rs1 rs2 : Reg)
  | fcvtWS (rd rs1 : Reg) (rm : BitVec 3)
  | fcvtWuS (rd rs1 : Reg) (rm : BitVec 3)
  | fmvXW (rd rs1 : Reg)
  | feqS (rd rs1 rs2 : Reg)
  | fltS (rd rs1 rs2 : Reg)
  | fleS (rd rs1 rs2 : Reg)
  | fclassS (rd rs1 : Reg)
  | fcvtSW (rd rs1 : Reg) (rm : BitVec 3)
  | fcvtSWu (rd rs1 : Reg) (rm : BitVec 3)
  | fmvWX (rd rs1 : Reg)
  -- D (45_rv32d.md)
  | fld (rd rs1 : Reg) (imm : BitVec 12)
  | fsd (rs2 rs1 : Reg) (imm : BitVec 12)
  | fmaddD (rd rs1 rs2 rs3 : Reg) (rm : BitVec 3)
  | fmsubD (rd rs1 rs2 rs3 : Reg) (rm : BitVec 3)
  | fnmsubD (rd rs1 rs2 rs3 : Reg) (rm : BitVec 3)
  | fnmaddD (rd rs1 rs2 rs3 : Reg) (rm : BitVec 3)
  | faddD (rd rs1 rs2 : Reg) (rm : BitVec 3)
  | fsubD (rd rs1 rs2 : Reg) (rm : BitVec 3)
  | fmulD (rd rs1 rs2 : Reg) (rm : BitVec 3)
  | fdivD (rd rs1 rs2 : Reg) (rm : BitVec 3)
  | fsqrtD (rd rs1 : Reg) (rm : BitVec 3)
  | fsgnjD (rd rs1 rs2 : Reg)
  | fsgnjnD (rd rs1 rs2 : Reg)
  | fsgnjxD (rd rs1 rs2 : Reg)
  | fminD (rd rs1 rs2 : Reg)
  | fmaxD (rd rs1 rs2 : Reg)
  | fcvtSD (rd rs1 : Reg) (rm : BitVec 3)
  | fcvtDS (rd rs1 : Reg) (rm : BitVec 3)
  | feqD (rd rs1 rs2 : Reg)
  | fltD (rd rs1 rs2 : Reg)
  | fleD (rd rs1 rs2 : Reg)
  | fclassD (rd rs1 : Reg)
  | fcvtWD (rd rs1 : Reg) (rm : BitVec 3)
  | fcvtWuD (rd rs1 : Reg) (rm : BitVec 3)
  | fcvtDW (rd rs1 : Reg) (rm : BitVec 3)
  | fcvtDWu (rd rs1 : Reg) (rm : BitVec 3)
  -- SYSTEM (46_system.md)
  | csrrw (rd : Reg) (csr : CsrAddr) (rs1 : Reg)
  | csrrs (rd : Reg) (csr : CsrAddr) (rs1 : Reg)
  | csrrc (rd : Reg) (csr : CsrAddr) (rs1 : Reg)
  | csrrwi (rd : Reg) (csr : CsrAddr) (uimm : BitVec 5)
  | csrrsi (rd : Reg) (csr : CsrAddr) (uimm : BitVec 5)
  | csrrci (rd : Reg) (csr : CsrAddr) (uimm : BitVec 5)
  | ebreak
  | ecall
  | mret
  | wfi
deriving DecidableEq, Repr

end Sys2Proof
end

