-- ==== Sys2Proof/WellFormed.lean ====
section
/-! DEFINITION. Which instructions have an encoding (30_encoding.md R250, 42_rv32c.md R366): a 16-bit form whose field
value belongs to another instruction or to an illegal encoding is not well-formed. Every other constructor has an
encoding for every value of its fields. -/

namespace Sys2Proof

/-- The field values that the encoding of the instruction admits. -/
def Instr.wellFormed : Instr → Bool
  | .cAddi4spn _ imm => imm != 0#8               -- R331: nzuimm = 0 is illegal
  | .cAddi rd _ => rd != 0#5                     -- R339: rd = 0 is C.NOP
  | .cAddi16sp imm => imm != 0#6                 -- R342: nzimm = 0 is illegal
  | .cLui rd imm => rd != 2#5 && imm != 0#6      -- R343: rd = 2 is C.ADDI16SP, nzimm = 0 is illegal
  | .cLwsp rd _ => rd != 0#5                     -- R356: rd = 0 is illegal
  | .cJr rs1 => rs1 != 0#5                       -- R358: rs1 = 0 is illegal
  | .cMv _ rs2 => rs2 != 0#5                     -- R359: rs2 = 0 is C.JR
  | .cJalr rs1 => rs1 != 0#5                     -- R361: rs1 = 0 is C.EBREAK
  | .cAdd _ rs2 => rs2 != 0#5                    -- R362: rs2 = 0 is C.JALR
  | .lui .. | .auipc .. | .jal .. | .jalr .. | .beq .. | .bne .. | .blt .. | .bge .. | .bltu .. | .bgeu .. | .lb ..
  | .lh .. | .lw .. | .lbu .. | .lhu .. | .sb .. | .sh .. | .sw .. | .addi .. | .slti .. | .sltiu .. | .xori ..
  | .ori .. | .andi .. | .slli .. | .srli .. | .srai .. | .add .. | .sub .. | .sll .. | .slt .. | .sltu ..
  | .xor .. | .srl .. | .sra .. | .or .. | .and .. | .fence .. | .fenceI .. | .mul .. | .mulh .. | .mulhsu ..
  | .mulhu .. | .div .. | .divu .. | .rem .. | .remu .. | .cFld .. | .cLw .. | .cFlw .. | .cFsd .. | .cSw ..
  | .cFsw .. | .cNop .. | .cJal .. | .cLi .. | .cSrli .. | .cSrai .. | .cAndi .. | .cSub .. | .cXor .. | .cOr ..
  | .cAnd .. | .cJ .. | .cBeqz .. | .cBnez .. | .cSlli .. | .cFldsp .. | .cFlwsp .. | .cEbreak | .cFsdsp ..
  | .cSwsp .. | .cFswsp .. | .lrW .. | .scW .. | .amoswapW .. | .amoaddW .. | .amoxorW .. | .amoandW ..
  | .amoorW .. | .amominW .. | .amomaxW .. | .amominuW .. | .amomaxuW .. | .flw .. | .fsw .. | .fmaddS ..
  | .fmsubS .. | .fnmsubS .. | .fnmaddS .. | .faddS .. | .fsubS .. | .fmulS .. | .fdivS .. | .fsqrtS ..
  | .fsgnjS .. | .fsgnjnS .. | .fsgnjxS .. | .fminS .. | .fmaxS .. | .fcvtWS .. | .fcvtWuS .. | .fmvXW ..
  | .feqS .. | .fltS .. | .fleS .. | .fclassS .. | .fcvtSW .. | .fcvtSWu .. | .fmvWX .. | .fld .. | .fsd ..
  | .fmaddD .. | .fmsubD .. | .fnmsubD .. | .fnmaddD .. | .faddD .. | .fsubD .. | .fmulD .. | .fdivD ..
  | .fsqrtD .. | .fsgnjD .. | .fsgnjnD .. | .fsgnjxD .. | .fminD .. | .fmaxD .. | .fcvtSD .. | .fcvtDS ..
  | .feqD .. | .fltD .. | .fleD .. | .fclassD .. | .fcvtWD .. | .fcvtWuD .. | .fcvtDW .. | .fcvtDWu .. | .csrrw ..
  | .csrrs .. | .csrrc .. | .csrrwi .. | .csrrsi .. | .csrrci .. | .ebreak | .ecall | .mret | .wfi => true

end Sys2Proof
end

