-- ==== Sys2Proof/Decode.lean ====
section
/-! DEFINITION. Decoding and encoding of instructions (30_encoding.md). A 32-bit instruction is its six common fields
(R225), a 16-bit one its five (R240); the immediates are put together from those fields. -/

namespace Sys2Proof

/-- The bits of one instruction: 16 or 32 of them (30_encoding.md R220). -/
inductive Code
  | half (c : BitVec 16)
  | word (w : BitVec 32)
deriving DecidableEq, Repr

/-- The length in bytes (R222). -/
def Code.len : Code → Word
  | .half _ => 2
  | .word _ => 4

/-- The encoding as mtval records it: 16 bits are extended with zeros (30_encoding.md R231). -/
def Code.bits : Code → Word
  | .half c => c.zeroExtend 32
  | .word w => w

/-! ### Fields of a 32-bit instruction (R225) -/

def opField (w : BitVec 32) : BitVec 7 := w.extractLsb' 0 7
def rdField (w : BitVec 32) : BitVec 5 := w.extractLsb' 7 5
def f3Field (w : BitVec 32) : BitVec 3 := w.extractLsb' 12 3
def rs1Field (w : BitVec 32) : BitVec 5 := w.extractLsb' 15 5
def rs2Field (w : BitVec 32) : BitVec 5 := w.extractLsb' 20 5
def f7Field (w : BitVec 32) : BitVec 7 := w.extractLsb' 25 7

/-- The I immediate `inst[31:20]`, not yet extended (R226). -/
def immI (f7 : BitVec 7) (rs2 : BitVec 5) : BitVec 12 := f7 ++ rs2

/-- The S immediate, not yet extended (R226). -/
def immS (f7 : BitVec 7) (rd : BitVec 5) : BitVec 12 := f7 ++ rd

/-- The B immediate without its low 0: `inst[31], inst[7], inst[30:25], inst[11:8]` (R226). -/
def immB (f7 : BitVec 7) (rd : BitVec 5) : BitVec 12 :=
  f7.extractLsb' 6 1 ++ rd.extractLsb' 0 1 ++ f7.extractLsb' 0 6 ++ rd.extractLsb' 1 4

/-- The U immediate `inst[31:12]` (R226). -/
def immU (f7 : BitVec 7) (rs2 rs1 : BitVec 5) (f3 : BitVec 3) : BitVec 20 := f7 ++ rs2 ++ rs1 ++ f3

/-- The J immediate without its low 0: `inst[31], inst[19:12], inst[20], inst[30:21]` (R226). -/
def immJ (f7 : BitVec 7) (rs2 rs1 : BitVec 5) (f3 : BitVec 3) : BitVec 20 :=
  f7.extractLsb' 6 1 ++ rs1 ++ f3 ++ rs2.extractLsb' 0 1 ++ f7.extractLsb' 0 6 ++ rs2.extractLsb' 1 4

/-! ### Decoding a 32-bit instruction, one opcode at a time (R227) -/

/-- BRANCH (40_rv32i.md R302). -/
def decodeBranch (f7 : BitVec 7) (rs2 rs1 : Reg) (f3 : BitVec 3) (rd : Reg) : Option Instr :=
  match f3 with
  | 0#3 => some (.beq rs1 rs2 (immB f7 rd))
  | 1#3 => some (.bne rs1 rs2 (immB f7 rd))
  | 4#3 => some (.blt rs1 rs2 (immB f7 rd))
  | 5#3 => some (.bge rs1 rs2 (immB f7 rd))
  | 6#3 => some (.bltu rs1 rs2 (immB f7 rd))
  | 7#3 => some (.bgeu rs1 rs2 (immB f7 rd))
  | _ => none

/-- LOAD (40_rv32i.md R303). -/
def decodeLoad (f7 : BitVec 7) (rs2 rs1 : Reg) (f3 : BitVec 3) (rd : Reg) : Option Instr :=
  match f3 with
  | 0#3 => some (.lb rd rs1 (immI f7 rs2))
  | 1#3 => some (.lh rd rs1 (immI f7 rs2))
  | 2#3 => some (.lw rd rs1 (immI f7 rs2))
  | 4#3 => some (.lbu rd rs1 (immI f7 rs2))
  | 5#3 => some (.lhu rd rs1 (immI f7 rs2))
  | _ => none

/-- STORE (40_rv32i.md R304). -/
def decodeStore (f7 : BitVec 7) (rs2 rs1 : Reg) (f3 : BitVec 3) (rd : Reg) : Option Instr :=
  match f3 with
  | 0#3 => some (.sb rs2 rs1 (immS f7 rd))
  | 1#3 => some (.sh rs2 rs1 (immS f7 rd))
  | 2#3 => some (.sw rs2 rs1 (immS f7 rd))
  | _ => none

/-- OP-IMM (40_rv32i.md R306); a shift with any other funct7 is illegal (R287, R289). -/
def decodeOpImm (f7 : BitVec 7) (rs2 rs1 : Reg) (f3 : BitVec 3) (rd : Reg) : Option Instr :=
  match f3 with
  | 0#3 => some (.addi rd rs1 (immI f7 rs2))
  | 2#3 => some (.slti rd rs1 (immI f7 rs2))
  | 3#3 => some (.sltiu rd rs1 (immI f7 rs2))
  | 4#3 => some (.xori rd rs1 (immI f7 rs2))
  | 6#3 => some (.ori rd rs1 (immI f7 rs2))
  | 7#3 => some (.andi rd rs1 (immI f7 rs2))
  | 1#3 =>
    match f7 with
    | 0x00#7 => some (.slli rd rs1 rs2)
    | _ => none
  | _ =>
    match f7 with
    | 0x00#7 => some (.srli rd rs1 rs2)
    | 0x20#7 => some (.srai rd rs1 rs2)
    | _ => none

/-- OP (40_rv32i.md R307, 41_rv32m.md R320). -/
def decodeOp (f7 : BitVec 7) (rs2 rs1 : Reg) (f3 : BitVec 3) (rd : Reg) : Option Instr :=
  match f7 with
  | 0x00#7 =>
    match f3 with
    | 0#3 => some (.add rd rs1 rs2)
    | 1#3 => some (.sll rd rs1 rs2)
    | 2#3 => some (.slt rd rs1 rs2)
    | 3#3 => some (.sltu rd rs1 rs2)
    | 4#3 => some (.xor rd rs1 rs2)
    | 5#3 => some (.srl rd rs1 rs2)
    | 6#3 => some (.or rd rs1 rs2)
    | _ => some (.and rd rs1 rs2)
  | 0x20#7 =>
    match f3 with
    | 0#3 => some (.sub rd rs1 rs2)
    | 5#3 => some (.sra rd rs1 rs2)
    | _ => none
  | 0x01#7 =>
    match f3 with
    | 0#3 => some (.mul rd rs1 rs2)
    | 1#3 => some (.mulh rd rs1 rs2)
    | 2#3 => some (.mulhsu rd rs1 rs2)
    | 3#3 => some (.mulhu rd rs1 rs2)
    | 4#3 => some (.div rd rs1 rs2)
    | 5#3 => some (.divu rd rs1 rs2)
    | 6#3 => some (.rem rd rs1 rs2)
    | _ => some (.remu rd rs1 rs2)
  | _ => none

/-- MISC-MEM: the fields FENCE and FENCE.I ignore are kept (30_encoding.md R233, 40_rv32i.md R300, R301). -/
def decodeMiscMem (f7 : BitVec 7) (rs2 rs1 : Reg) (f3 : BitVec 3) (rd : Reg) : Option Instr :=
  match f3 with
  | 0#3 =>
    some (.fence (f7.extractLsb' 3 4) (f7.extractLsb' 0 3 ++ rs2.extractLsb' 4 1) (rs2.extractLsb' 0 4) rs1 rd)
  | 1#3 => some (.fenceI (immI f7 rs2) rs1 rd)
  | _ => none

/-- AMO: funct5 = `inst[31:27]`, aq = `inst[26]`, rl = `inst[25]` (43_rv32a.md R380, R393). -/
def decodeAmo (f7 : BitVec 7) (rs2 rs1 : Reg) (f3 : BitVec 3) (rd : Reg) : Option Instr :=
  let aq := f7.getLsbD 1
  let rl := f7.getLsbD 0
  match f3 with
  | 2#3 =>
    match f7.extractLsb' 2 5 with
    | 0x02#5 => if rs2 = 0#5 then some (.lrW rd rs1 aq rl) else none
    | 0x03#5 => some (.scW rd rs1 rs2 aq rl)
    | 0x01#5 => some (.amoswapW rd rs1 rs2 aq rl)
    | 0x00#5 => some (.amoaddW rd rs1 rs2 aq rl)
    | 0x04#5 => some (.amoxorW rd rs1 rs2 aq rl)
    | 0x0C#5 => some (.amoandW rd rs1 rs2 aq rl)
    | 0x08#5 => some (.amoorW rd rs1 rs2 aq rl)
    | 0x10#5 => some (.amominW rd rs1 rs2 aq rl)
    | 0x14#5 => some (.amomaxW rd rs1 rs2 aq rl)
    | 0x18#5 => some (.amominuW rd rs1 rs2 aq rl)
    | 0x1C#5 => some (.amomaxuW rd rs1 rs2 aq rl)
    | _ => none
  | _ => none

/-- LOAD-FP (44_rv32f.md R405, 45_rv32d.md R441). -/
def decodeLoadFp (f7 : BitVec 7) (rs2 rs1 : Reg) (f3 : BitVec 3) (rd : Reg) : Option Instr :=
  match f3 with
  | 2#3 => some (.flw rd rs1 (immI f7 rs2))
  | 3#3 => some (.fld rd rs1 (immI f7 rs2))
  | _ => none

/-- STORE-FP (44_rv32f.md R406, 45_rv32d.md R442). -/
def decodeStoreFp (f7 : BitVec 7) (rs2 rs1 : Reg) (f3 : BitVec 3) (rd : Reg) : Option Instr :=
  match f3 with
  | 2#3 => some (.fsw rs2 rs1 (immS f7 rd))
  | 3#3 => some (.fsd rs2 rs1 (immS f7 rd))
  | _ => none

/-- The four fused multiply-add opcodes: rs3 = `inst[31:27]`, fmt = `inst[26:25]` (44_rv32f.md R432). -/
def decodeFma (single double : Reg → Reg → Reg → Reg → BitVec 3 → Instr)
    (f7 : BitVec 7) (rs2 rs1 : Reg) (f3 : BitVec 3) (rd : Reg) : Option Instr :=
  match f7.extractLsb' 0 2 with
  | 0#2 => some (single rd rs1 rs2 (f7.extractLsb' 2 5) f3)
  | 1#2 => some (double rd rs1 rs2 (f7.extractLsb' 2 5) f3)
  | _ => none

/-- OP-FP (44_rv32f.md R411 to R431, 45_rv32d.md R447 to R467). -/
def decodeOpFp (f7 : BitVec 7) (rs2 rs1 : Reg) (f3 : BitVec 3) (rd : Reg) : Option Instr :=
  match f7 with
  | 0x00#7 => some (.faddS rd rs1 rs2 f3)
  | 0x04#7 => some (.fsubS rd rs1 rs2 f3)
  | 0x08#7 => some (.fmulS rd rs1 rs2 f3)
  | 0x0C#7 => some (.fdivS rd rs1 rs2 f3)
  | 0x2C#7 => if rs2 = 0#5 then some (.fsqrtS rd rs1 f3) else none
  | 0x10#7 =>
    match f3 with
    | 0#3 => some (.fsgnjS rd rs1 rs2)
    | 1#3 => some (.fsgnjnS rd rs1 rs2)
    | 2#3 => some (.fsgnjxS rd rs1 rs2)
    | _ => none
  | 0x14#7 =>
    match f3 with
    | 0#3 => some (.fminS rd rs1 rs2)
    | 1#3 => some (.fmaxS rd rs1 rs2)
    | _ => none
  | 0x60#7 =>
    match rs2 with
    | 0#5 => some (.fcvtWS rd rs1 f3)
    | 1#5 => some (.fcvtWuS rd rs1 f3)
    | _ => none
  | 0x70#7 =>
    match rs2, f3 with
    | 0#5, 0#3 => some (.fmvXW rd rs1)
    | 0#5, 1#3 => some (.fclassS rd rs1)
    | _, _ => none
  | 0x50#7 =>
    match f3 with
    | 2#3 => some (.feqS rd rs1 rs2)
    | 1#3 => some (.fltS rd rs1 rs2)
    | 0#3 => some (.fleS rd rs1 rs2)
    | _ => none
  | 0x68#7 =>
    match rs2 with
    | 0#5 => some (.fcvtSW rd rs1 f3)
    | 1#5 => some (.fcvtSWu rd rs1 f3)
    | _ => none
  | 0x78#7 =>
    match rs2, f3 with
    | 0#5, 0#3 => some (.fmvWX rd rs1)
    | _, _ => none
  | 0x01#7 => some (.faddD rd rs1 rs2 f3)
  | 0x05#7 => some (.fsubD rd rs1 rs2 f3)
  | 0x09#7 => some (.fmulD rd rs1 rs2 f3)
  | 0x0D#7 => some (.fdivD rd rs1 rs2 f3)
  | 0x2D#7 => if rs2 = 0#5 then some (.fsqrtD rd rs1 f3) else none
  | 0x11#7 =>
    match f3 with
    | 0#3 => some (.fsgnjD rd rs1 rs2)
    | 1#3 => some (.fsgnjnD rd rs1 rs2)
    | 2#3 => some (.fsgnjxD rd rs1 rs2)
    | _ => none
  | 0x15#7 =>
    match f3 with
    | 0#3 => some (.fminD rd rs1 rs2)
    | 1#3 => some (.fmaxD rd rs1 rs2)
    | _ => none
  | 0x20#7 => if rs2 = 1#5 then some (.fcvtSD rd rs1 f3) else none
  | 0x21#7 => if rs2 = 0#5 then some (.fcvtDS rd rs1 f3) else none
  | 0x51#7 =>
    match f3 with
    | 2#3 => some (.feqD rd rs1 rs2)
    | 1#3 => some (.fltD rd rs1 rs2)
    | 0#3 => some (.fleD rd rs1 rs2)
    | _ => none
  | 0x71#7 =>
    match rs2, f3 with
    | 0#5, 1#3 => some (.fclassD rd rs1)
    | _, _ => none
  | 0x61#7 =>
    match rs2 with
    | 0#5 => some (.fcvtWD rd rs1 f3)
    | 1#5 => some (.fcvtWuD rd rs1 f3)
    | _ => none
  | 0x69#7 =>
    match rs2 with
    | 0#5 => some (.fcvtDW rd rs1 f3)
    | 1#5 => some (.fcvtDWu rd rs1 f3)
    | _ => none
  | _ => none

/-- SYSTEM (46_system.md R501): funct3 = 000 matches the whole word, 100 is illegal, the rest are CSR instructions. -/
def decodeSystem (f7 : BitVec 7) (rs2 rs1 : Reg) (f3 : BitVec 3) (rd : Reg) : Option Instr :=
  match f3 with
  | 0#3 =>
    if rd = 0#5 ∧ rs1 = 0#5 then
      match immI f7 rs2 with
      | 0x000#12 => some .ecall
      | 0x001#12 => some .ebreak
      | 0x302#12 => some .mret
      | 0x105#12 => some .wfi
      | _ => none
    else none
  | 1#3 => some (.csrrw rd (immI f7 rs2) rs1)
  | 2#3 => some (.csrrs rd (immI f7 rs2) rs1)
  | 3#3 => some (.csrrc rd (immI f7 rs2) rs1)
  | 5#3 => some (.csrrwi rd (immI f7 rs2) rs1)
  | 6#3 => some (.csrrsi rd (immI f7 rs2) rs1)
  | 7#3 => some (.csrrci rd (immI f7 rs2) rs1)
  | _ => none

/-- A 32-bit instruction from its six fields (R227); any other opcode is illegal. -/
def decodeFields (f7 : BitVec 7) (rs2 rs1 : Reg) (f3 : BitVec 3) (rd : Reg) (op : BitVec 7) : Option Instr :=
  match op with
  | 0x37#7 => some (.lui rd (immU f7 rs2 rs1 f3))
  | 0x17#7 => some (.auipc rd (immU f7 rs2 rs1 f3))
  | 0x6F#7 => some (.jal rd (immJ f7 rs2 rs1 f3))
  | 0x67#7 =>
    match f3 with
    | 0#3 => some (.jalr rd rs1 (immI f7 rs2))
    | _ => none
  | 0x63#7 => decodeBranch f7 rs2 rs1 f3 rd
  | 0x03#7 => decodeLoad f7 rs2 rs1 f3 rd
  | 0x23#7 => decodeStore f7 rs2 rs1 f3 rd
  | 0x13#7 => decodeOpImm f7 rs2 rs1 f3 rd
  | 0x33#7 => decodeOp f7 rs2 rs1 f3 rd
  | 0x0F#7 => decodeMiscMem f7 rs2 rs1 f3 rd
  | 0x2F#7 => decodeAmo f7 rs2 rs1 f3 rd
  | 0x07#7 => decodeLoadFp f7 rs2 rs1 f3 rd
  | 0x27#7 => decodeStoreFp f7 rs2 rs1 f3 rd
  | 0x43#7 => decodeFma .fmaddS .fmaddD f7 rs2 rs1 f3 rd
  | 0x47#7 => decodeFma .fmsubS .fmsubD f7 rs2 rs1 f3 rd
  | 0x4B#7 => decodeFma .fnmsubS .fnmsubD f7 rs2 rs1 f3 rd
  | 0x4F#7 => decodeFma .fnmaddS .fnmaddD f7 rs2 rs1 f3 rd
  | 0x53#7 => decodeOpFp f7 rs2 rs1 f3 rd
  | 0x73#7 => decodeSystem f7 rs2 rs1 f3 rd
  | _ => none

/-- Decoding a 32-bit instruction; `none` is an illegal instruction (R230). -/
def decodeWord (w : BitVec 32) : Option Instr :=
  decodeFields (f7Field w) (rs2Field w) (rs1Field w) (f3Field w) (rdField w) (opField w)

/-! ### Decoding a 16-bit instruction (R240 to R251) -/

def cOpField (c : BitVec 16) : BitVec 2 := c.extractLsb' 0 2
/-- `c[6:2]` -/
def cLoField (c : BitVec 16) : BitVec 5 := c.extractLsb' 2 5
/-- `c[11:7]` -/
def cHiField (c : BitVec 16) : BitVec 5 := c.extractLsb' 7 5
/-- `c[12]` -/
def cBitField (c : BitVec 16) : BitVec 1 := c.extractLsb' 12 1
def cF3Field (c : BitVec 16) : BitVec 3 := c.extractLsb' 13 3

/-- A 3-bit register field in the low bits of a 5-bit field: `c[9:7]` or `c[4:2]` (R240). -/
def cReg (f : BitVec 5) : CReg := f.extractLsb' 0 3

/-- The two bits above it: `c[11:10]` or `c[6:5]`. -/
def cTop (f : BitVec 5) : BitVec 2 := f.extractLsb' 3 2

/-- `{c[10:7], c[12:11], c[5], c[6]}`, bits 9:2 of the C.ADDI4SPN immediate (R244). -/
def immCiw (b : BitVec 1) (hi lo : BitVec 5) : BitVec 8 :=
  hi.extractLsb' 0 4 ++ b ++ hi.extractLsb' 4 1 ++ lo.extractLsb' 3 1 ++ lo.extractLsb' 4 1

/-- `{c[5], c[12:10], c[6]}`, bits 6:2 of the C.LW immediate (R244). -/
def immClw (b : BitVec 1) (hi lo : BitVec 5) : BitVec 5 :=
  lo.extractLsb' 3 1 ++ b ++ cTop hi ++ lo.extractLsb' 4 1

/-- `{c[6:5], c[12:10]}`, bits 7:3 of the C.FLD immediate (R244). -/
def immCld (b : BitVec 1) (hi lo : BitVec 5) : BitVec 5 := cTop lo ++ b ++ cTop hi

/-- `{c[12], c[6:2]}` (R244). -/
def immCi (b : BitVec 1) (lo : BitVec 5) : BitVec 6 := b ++ lo

/-- `{c[12], c[8], c[10:9], c[6], c[7], c[2], c[11], c[5:3]}`, bits 11:1 of the C.J offset (R244). -/
def immCj (b : BitVec 1) (hi lo : BitVec 5) : BitVec 11 :=
  b ++ hi.extractLsb' 1 1 ++ hi.extractLsb' 2 2 ++ lo.extractLsb' 4 1 ++ hi.extractLsb' 0 1
    ++ lo.extractLsb' 0 1 ++ hi.extractLsb' 4 1 ++ lo.extractLsb' 1 3

/-- `{c[12], c[4:3], c[5], c[2], c[6]}`, bits 9:4 of the C.ADDI16SP immediate (R244). -/
def immC16sp (b : BitVec 1) (lo : BitVec 5) : BitVec 6 :=
  b ++ lo.extractLsb' 1 2 ++ lo.extractLsb' 3 1 ++ lo.extractLsb' 0 1 ++ lo.extractLsb' 4 1

/-- `{c[12], c[6:5], c[2], c[11:10], c[4:3]}`, bits 8:1 of the C.BEQZ offset (R244). -/
def immCb (b : BitVec 1) (hi lo : BitVec 5) : BitVec 8 :=
  b ++ cTop lo ++ lo.extractLsb' 0 1 ++ cTop hi ++ lo.extractLsb' 1 2

/-- `{c[3:2], c[12], c[6:4]}`, bits 7:2 of the C.LWSP immediate (R244). -/
def immClwsp (b : BitVec 1) (lo : BitVec 5) : BitVec 6 := lo.extractLsb' 0 2 ++ b ++ lo.extractLsb' 2 3

/-- `{c[4:2], c[12], c[6:5]}`, bits 8:3 of the C.FLDSP immediate (R244). -/
def immCldsp (b : BitVec 1) (lo : BitVec 5) : BitVec 6 := lo.extractLsb' 0 3 ++ b ++ lo.extractLsb' 3 2

/-- `{c[8:7], c[12:9]}`, bits 7:2 of the C.SWSP immediate (R244). -/
def immCswsp (b : BitVec 1) (hi : BitVec 5) : BitVec 6 := hi.extractLsb' 0 2 ++ b ++ hi.extractLsb' 2 3

/-- `{c[9:7], c[12:10]}`, bits 8:3 of the C.FSDSP immediate (R244). -/
def immCsdsp (b : BitVec 1) (hi : BitVec 5) : BitVec 6 := hi.extractLsb' 0 3 ++ b ++ hi.extractLsb' 3 2

/-- Quadrant 0 (R245); C.ADDI4SPN with nzuimm = 0 and funct3 = 100 are illegal (R250). -/
def decodeQ0 (f3 : BitVec 3) (b : BitVec 1) (hi lo : BitVec 5) : Option Instr :=
  match f3 with
  | 0#3 => if immCiw b hi lo = 0#8 then none else some (.cAddi4spn (cReg lo) (immCiw b hi lo))
  | 1#3 => some (.cFld (cReg lo) (cReg hi) (immCld b hi lo))
  | 2#3 => some (.cLw (cReg lo) (cReg hi) (immClw b hi lo))
  | 3#3 => some (.cFlw (cReg lo) (cReg hi) (immClw b hi lo))
  | 5#3 => some (.cFsd (cReg lo) (cReg hi) (immCld b hi lo))
  | 6#3 => some (.cSw (cReg lo) (cReg hi) (immClw b hi lo))
  | 7#3 => some (.cFsw (cReg lo) (cReg hi) (immClw b hi lo))
  | _ => none

/-- Quadrant 1, funct3 = 100 (R366): shifts, C.ANDI and the register forms. -/
def decodeQ1Alu (b : BitVec 1) (hi lo : BitVec 5) : Option Instr :=
  match cTop hi with
  | 0#2 => if b = 0#1 then some (.cSrli (cReg hi) lo) else none
  | 1#2 => if b = 0#1 then some (.cSrai (cReg hi) lo) else none
  | 2#2 => some (.cAndi (cReg hi) (immCi b lo))
  | _ =>
    if b = 0#1 then
      match cTop lo with
      | 0#2 => some (.cSub (cReg hi) (cReg lo))
      | 1#2 => some (.cXor (cReg hi) (cReg lo))
      | 2#2 => some (.cOr (cReg hi) (cReg lo))
      | _ => some (.cAnd (cReg hi) (cReg lo))
    else none

/-- Quadrant 1 (R245, R366). -/
def decodeQ1 (f3 : BitVec 3) (b : BitVec 1) (hi lo : BitVec 5) : Option Instr :=
  match f3 with
  | 0#3 => if hi = 0#5 then some (.cNop (immCi b lo)) else some (.cAddi hi (immCi b lo))
  | 1#3 => some (.cJal (immCj b hi lo))
  | 2#3 => some (.cLi hi (immCi b lo))
  | 3#3 =>
    if immCi b lo = 0#6 then none
    else if hi = 2#5 then some (.cAddi16sp (immC16sp b lo))
    else some (.cLui hi (immCi b lo))
  | 4#3 => decodeQ1Alu b hi lo
  | 5#3 => some (.cJ (immCj b hi lo))
  | 6#3 => some (.cBeqz (cReg hi) (immCb b hi lo))
  | _ => some (.cBnez (cReg hi) (immCb b hi lo))

/-- Quadrant 2, funct3 = 100 (R366). -/
def decodeQ2Jump (b : BitVec 1) (hi lo : BitVec 5) : Option Instr :=
  if b = 0#1 then
    if lo = 0#5 then
      if hi = 0#5 then none else some (.cJr hi)
    else some (.cMv hi lo)
  else
    if lo = 0#5 then
      if hi = 0#5 then some .cEbreak else some (.cJalr hi)
    else some (.cAdd hi lo)

/-- Quadrant 2 (R245, R250). -/
def decodeQ2 (f3 : BitVec 3) (b : BitVec 1) (hi lo : BitVec 5) : Option Instr :=
  match f3 with
  | 0#3 => if b = 0#1 then some (.cSlli hi lo) else none
  | 1#3 => some (.cFldsp hi (immCldsp b lo))
  | 2#3 => if hi = 0#5 then none else some (.cLwsp hi (immClwsp b lo))
  | 3#3 => some (.cFlwsp hi (immClwsp b lo))
  | 4#3 => decodeQ2Jump b hi lo
  | 5#3 => some (.cFsdsp lo (immCsdsp b hi))
  | 6#3 => some (.cSwsp lo (immCswsp b hi))
  | _ => some (.cFswsp lo (immCswsp b hi))

/-- A 16-bit instruction from its five fields. -/
def decodeHalfFields (f3 : BitVec 3) (b : BitVec 1) (hi lo : BitVec 5) (op : BitVec 2) : Option Instr :=
  match op with
  | 0#2 => decodeQ0 f3 b hi lo
  | 1#2 => decodeQ1 f3 b hi lo
  | 2#2 => decodeQ2 f3 b hi lo
  | _ => none

/-- Decoding a 16-bit instruction; `none` is an illegal instruction (R250). -/
def decodeHalf (c : BitVec 16) : Option Instr :=
  decodeHalfFields (cF3Field c) (cBitField c) (cHiField c) (cLoField c) (cOpField c)

/-- Decoding the bits of one instruction. -/
def decode : Code → Option Instr
  | .half c => decodeHalf c
  | .word w => decodeWord w

/-! ### Decoding bytes -/

/-- Why bytes are no instruction (R221, R231). -/
inductive DecodeError
  | tooFewBytes
  | longFormat (lo hi : BitVec 16)   -- 48 bits and longer
  | illegal (c : Code)
deriving DecidableEq, Repr

/-- Two bytes as a little-endian parcel (20_memory.md R166). -/
def parcel (b0 b1 : Byte) : BitVec 16 := b1 ++ b0

/-- Bits 1:0 = 11 mark an instruction longer than 16 bits (R221). -/
def isLong (lo : BitVec 16) : Bool := lo.extractLsb' 0 2 == 3#2

/-- Bits 4:2 = 111 mark a format of 48 bits or more (R221). -/
def isVeryLong (lo : BitVec 16) : Bool := lo.extractLsb' 2 3 == 7#3

/-- The bits of a 32-bit instruction from its two parcels (20_memory.md R166). -/
def joinParcels (lo hi : BitVec 16) : BitVec 32 := hi ++ lo

/-- One instruction from the bytes at its address, and the bytes after it. Total on any bytes. -/
def decodeBytes : List Byte → Except DecodeError (Instr × List Byte)
  | b0 :: b1 :: rest =>
    let lo := parcel b0 b1
    if isLong lo then
      match rest with
      | b2 :: b3 :: rest' =>
        let hi := parcel b2 b3
        if isVeryLong lo then .error (.longFormat lo hi)
        else
          match decodeWord (joinParcels lo hi) with
          | some i => .ok (i, rest')
          | none => .error (.illegal (.word (joinParcels lo hi)))
      | _ => .error .tooFewBytes
    else
      match decodeHalf lo with
      | some i => .ok (i, rest)
      | none => .error (.illegal (.half lo))
  | _ => .error .tooFewBytes

/-! ### Encoding, from the same tables -/

/-- A 32-bit instruction from its six fields (R225). -/
def joinWord (f7 : BitVec 7) (rs2 rs1 : Reg) (f3 : BitVec 3) (rd : Reg) (op : BitVec 7) : BitVec 32 :=
  f7 ++ rs2 ++ rs1 ++ f3 ++ rd ++ op

/-- A 16-bit instruction from its five fields (R240). -/
def joinHalf (f3 : BitVec 3) (b : BitVec 1) (hi lo : BitVec 5) (op : BitVec 2) : BitVec 16 :=
  f3 ++ b ++ hi ++ lo ++ op

/-- R-type: three registers, or a shift amount in place of rs2 (30_encoding.md R225). -/
def encR (f7 : BitVec 7) (f3 : BitVec 3) (op : BitVec 7) (rd rs1 rs2 : Reg) : Code :=
  .word (joinWord f7 rs2 rs1 f3 rd op)

/-- I-type: a 12-bit immediate (R225, R226). -/
def encI (f3 : BitVec 3) (op : BitVec 7) (rd rs1 : Reg) (imm : BitVec 12) : Code :=
  .word (joinWord (imm.extractLsb' 5 7) (imm.extractLsb' 0 5) rs1 f3 rd op)

/-- S-type: a store offset in two pieces (R226). -/
def encS (f3 : BitVec 3) (op : BitVec 7) (rs2 rs1 : Reg) (imm : BitVec 12) : Code :=
  .word (joinWord (imm.extractLsb' 5 7) rs2 rs1 f3 (imm.extractLsb' 0 5) op)

/-- B-type: a branch offset without its bit 0 (R226). -/
def encB (f3 : BitVec 3) (rs1 rs2 : Reg) (off : BitVec 12) : Code :=
  .word (joinWord (off.extractLsb' 11 1 ++ off.extractLsb' 4 6) rs2 rs1 f3
    (off.extractLsb' 0 4 ++ off.extractLsb' 10 1) 0x63#7)

/-- U-type: the upper 20 bits (R226). -/
def encU (op : BitVec 7) (rd : Reg) (imm : BitVec 20) : Code :=
  .word (joinWord (imm.extractLsb' 13 7) (imm.extractLsb' 8 5) (imm.extractLsb' 3 5) (imm.extractLsb' 0 3) rd op)

/-- J-type: a jump offset without its bit 0 (R226). -/
def encJ (rd : Reg) (off : BitVec 20) : Code :=
  .word (joinWord (off.extractLsb' 19 1 ++ off.extractLsb' 4 6) (off.extractLsb' 0 4 ++ off.extractLsb' 10 1)
    (off.extractLsb' 14 5) (off.extractLsb' 11 3) rd 0x6F#7)

/-- The atomics: funct5, aq, rl (43_rv32a.md R393). -/
def encAmo (f5 : BitVec 5) (rd rs1 rs2 : Reg) (aq rl : Bool) : Code :=
  .word (joinWord (f5 ++ BitVec.ofBool aq ++ BitVec.ofBool rl) rs2 rs1 2#3 rd 0x2F#7)

/-- The multiply-adds: rs3 and fmt (44_rv32f.md R432). -/
def encR4 (fmt : BitVec 2) (op : BitVec 7) (rd rs1 rs2 rs3 : Reg) (rm : BitVec 3) : Code :=
  .word (joinWord (rs3 ++ fmt) rs2 rs1 rm rd op)

/-- CIW: C.ADDI4SPN (R244). -/
def encCiw (rd : CReg) (imm : BitVec 8) : Code :=
  .half (joinHalf 0#3 (imm.extractLsb' 3 1) (imm.extractLsb' 2 1 ++ imm.extractLsb' 4 4)
    (imm.extractLsb' 0 1 ++ imm.extractLsb' 1 1 ++ rd) 0#2)

/-- CL and CS with a word offset (R244). -/
def encClw (f3 : BitVec 3) (r rs1 : CReg) (imm : BitVec 5) : Code :=
  .half (joinHalf f3 (imm.extractLsb' 3 1) (imm.extractLsb' 1 2 ++ rs1)
    (imm.extractLsb' 0 1 ++ imm.extractLsb' 4 1 ++ r) 0#2)

/-- CL and CS with a doubleword offset (R244). -/
def encCld (f3 : BitVec 3) (r rs1 : CReg) (imm : BitVec 5) : Code :=
  .half (joinHalf f3 (imm.extractLsb' 2 1) (imm.extractLsb' 0 2 ++ rs1) (imm.extractLsb' 3 2 ++ r) 0#2)

/-- CI: a 6-bit immediate (R244). -/
def encCi (f3 : BitVec 3) (op : BitVec 2) (rd : Reg) (imm : BitVec 6) : Code :=
  .half (joinHalf f3 (imm.extractLsb' 5 1) rd (imm.extractLsb' 0 5) op)

/-- CJ: a jump offset without its bit 0 (R244). -/
def encCj (f3 : BitVec 3) (off : BitVec 11) : Code :=
  .half (joinHalf f3 (off.extractLsb' 10 1)
    (off.extractLsb' 3 1 ++ off.extractLsb' 7 2 ++ off.extractLsb' 9 1 ++ off.extractLsb' 5 1)
    (off.extractLsb' 6 1 ++ off.extractLsb' 0 3 ++ off.extractLsb' 4 1) 1#2)

/-- CI of C.ADDI16SP (R244). -/
def encC16sp (imm : BitVec 6) : Code :=
  .half (joinHalf 3#3 (imm.extractLsb' 5 1) 2#5
    (imm.extractLsb' 0 1 ++ imm.extractLsb' 2 1 ++ imm.extractLsb' 3 2 ++ imm.extractLsb' 1 1) 1#2)

/-- Quadrant 1, funct3 = 100: the arithmetic forms (42_rv32c.md R366). -/
def encCalu (b : BitVec 1) (top : BitVec 2) (rd : CReg) (lo : BitVec 5) : Code :=
  .half (joinHalf 4#3 b (top ++ rd) lo 1#2)

/-- CB: a branch offset without its bit 0 (R244). -/
def encCb (f3 : BitVec 3) (rs1 : CReg) (off : BitVec 8) : Code :=
  .half (joinHalf f3 (off.extractLsb' 7 1) (off.extractLsb' 2 2 ++ rs1)
    (off.extractLsb' 5 2 ++ off.extractLsb' 0 2 ++ off.extractLsb' 4 1) 1#2)

/-- CI of a word load relative to sp (R244). -/
def encClwsp (f3 : BitVec 3) (rd : Reg) (imm : BitVec 6) : Code :=
  .half (joinHalf f3 (imm.extractLsb' 3 1) rd (imm.extractLsb' 0 3 ++ imm.extractLsb' 4 2) 2#2)

/-- CI of a doubleword load relative to sp (R244). -/
def encCldsp (f3 : BitVec 3) (rd : Reg) (imm : BitVec 6) : Code :=
  .half (joinHalf f3 (imm.extractLsb' 2 1) rd (imm.extractLsb' 0 2 ++ imm.extractLsb' 3 3) 2#2)

/-- CSS of a word store relative to sp (R244). -/
def encCswsp (f3 : BitVec 3) (rs2 : Reg) (imm : BitVec 6) : Code :=
  .half (joinHalf f3 (imm.extractLsb' 3 1) (imm.extractLsb' 0 3 ++ imm.extractLsb' 4 2) rs2 2#2)

/-- CSS of a doubleword store relative to sp (R244). -/
def encCsdsp (f3 : BitVec 3) (rs2 : Reg) (imm : BitVec 6) : Code :=
  .half (joinHalf f3 (imm.extractLsb' 2 1) (imm.extractLsb' 0 2 ++ imm.extractLsb' 3 3) rs2 2#2)

/-- The bits of an instruction: its word or half-word as the spec's encoding tables give it. -/
def encode : Instr → Code
  | .lui rd imm => encU 0x37 rd imm
  | .auipc rd imm => encU 0x17 rd imm
  | .jal rd off => encJ rd off
  | .jalr rd rs1 imm => encI 0 0x67 rd rs1 imm
  | .beq rs1 rs2 off => encB 0 rs1 rs2 off
  | .bne rs1 rs2 off => encB 1 rs1 rs2 off
  | .blt rs1 rs2 off => encB 4 rs1 rs2 off
  | .bge rs1 rs2 off => encB 5 rs1 rs2 off
  | .bltu rs1 rs2 off => encB 6 rs1 rs2 off
  | .bgeu rs1 rs2 off => encB 7 rs1 rs2 off
  | .lb rd rs1 imm => encI 0 0x03 rd rs1 imm
  | .lh rd rs1 imm => encI 1 0x03 rd rs1 imm
  | .lw rd rs1 imm => encI 2 0x03 rd rs1 imm
  | .lbu rd rs1 imm => encI 4 0x03 rd rs1 imm
  | .lhu rd rs1 imm => encI 5 0x03 rd rs1 imm
  | .sb rs2 rs1 imm => encS 0 0x23 rs2 rs1 imm
  | .sh rs2 rs1 imm => encS 1 0x23 rs2 rs1 imm
  | .sw rs2 rs1 imm => encS 2 0x23 rs2 rs1 imm
  | .addi rd rs1 imm => encI 0 0x13 rd rs1 imm
  | .slti rd rs1 imm => encI 2 0x13 rd rs1 imm
  | .sltiu rd rs1 imm => encI 3 0x13 rd rs1 imm
  | .xori rd rs1 imm => encI 4 0x13 rd rs1 imm
  | .ori rd rs1 imm => encI 6 0x13 rd rs1 imm
  | .andi rd rs1 imm => encI 7 0x13 rd rs1 imm
  | .slli rd rs1 shamt => encR 0x00 1 0x13 rd rs1 shamt
  | .srli rd rs1 shamt => encR 0x00 5 0x13 rd rs1 shamt
  | .srai rd rs1 shamt => encR 0x20 5 0x13 rd rs1 shamt
  | .add rd rs1 rs2 => encR 0x00 0 0x33 rd rs1 rs2
  | .sub rd rs1 rs2 => encR 0x20 0 0x33 rd rs1 rs2
  | .sll rd rs1 rs2 => encR 0x00 1 0x33 rd rs1 rs2
  | .slt rd rs1 rs2 => encR 0x00 2 0x33 rd rs1 rs2
  | .sltu rd rs1 rs2 => encR 0x00 3 0x33 rd rs1 rs2
  | .xor rd rs1 rs2 => encR 0x00 4 0x33 rd rs1 rs2
  | .srl rd rs1 rs2 => encR 0x00 5 0x33 rd rs1 rs2
  | .sra rd rs1 rs2 => encR 0x20 5 0x33 rd rs1 rs2
  | .or rd rs1 rs2 => encR 0x00 6 0x33 rd rs1 rs2
  | .and rd rs1 rs2 => encR 0x00 7 0x33 rd rs1 rs2
  | .fence fm pred succ rs1 rd =>
    .word (joinWord (fm ++ pred.extractLsb' 1 3) (pred.extractLsb' 0 1 ++ succ) rs1 0#3 rd 0x0F#7)
  | .fenceI imm rs1 rd => encI 1 0x0F rd rs1 imm
  | .mul rd rs1 rs2 => encR 0x01 0 0x33 rd rs1 rs2
  | .mulh rd rs1 rs2 => encR 0x01 1 0x33 rd rs1 rs2
  | .mulhsu rd rs1 rs2 => encR 0x01 2 0x33 rd rs1 rs2
  | .mulhu rd rs1 rs2 => encR 0x01 3 0x33 rd rs1 rs2
  | .div rd rs1 rs2 => encR 0x01 4 0x33 rd rs1 rs2
  | .divu rd rs1 rs2 => encR 0x01 5 0x33 rd rs1 rs2
  | .rem rd rs1 rs2 => encR 0x01 6 0x33 rd rs1 rs2
  | .remu rd rs1 rs2 => encR 0x01 7 0x33 rd rs1 rs2
  | .cAddi4spn rd imm => encCiw rd imm
  | .cFld rd rs1 imm => encCld 1 rd rs1 imm
  | .cLw rd rs1 imm => encClw 2 rd rs1 imm
  | .cFlw rd rs1 imm => encClw 3 rd rs1 imm
  | .cFsd rs2 rs1 imm => encCld 5 rs2 rs1 imm
  | .cSw rs2 rs1 imm => encClw 6 rs2 rs1 imm
  | .cFsw rs2 rs1 imm => encClw 7 rs2 rs1 imm
  | .cNop imm => encCi 0 1 0 imm
  | .cAddi rd imm => encCi 0 1 rd imm
  | .cJal off => encCj 1 off
  | .cLi rd imm => encCi 2 1 rd imm
  | .cAddi16sp imm => encC16sp imm
  | .cLui rd imm => encCi 3 1 rd imm
  | .cSrli rd shamt => encCalu 0 0 rd shamt
  | .cSrai rd shamt => encCalu 0 1 rd shamt
  | .cAndi rd imm => encCalu (imm.extractLsb' 5 1) 2 rd (imm.extractLsb' 0 5)
  | .cSub rd rs2 => encCalu 0 3 rd (0#2 ++ rs2)
  | .cXor rd rs2 => encCalu 0 3 rd (1#2 ++ rs2)
  | .cOr rd rs2 => encCalu 0 3 rd (2#2 ++ rs2)
  | .cAnd rd rs2 => encCalu 0 3 rd (3#2 ++ rs2)
  | .cJ off => encCj 5 off
  | .cBeqz rs1 off => encCb 6 rs1 off
  | .cBnez rs1 off => encCb 7 rs1 off
  | .cSlli rd shamt => .half (joinHalf 0#3 0#1 rd shamt 2#2)
  | .cFldsp rd imm => encCldsp 1 rd imm
  | .cLwsp rd imm => encClwsp 2 rd imm
  | .cFlwsp rd imm => encClwsp 3 rd imm
  | .cJr rs1 => .half (joinHalf 4#3 0#1 rs1 0#5 2#2)
  | .cMv rd rs2 => .half (joinHalf 4#3 0#1 rd rs2 2#2)
  | .cEbreak => .half (joinHalf 4#3 1#1 0#5 0#5 2#2)
  | .cJalr rs1 => .half (joinHalf 4#3 1#1 rs1 0#5 2#2)
  | .cAdd rd rs2 => .half (joinHalf 4#3 1#1 rd rs2 2#2)
  | .cFsdsp rs2 imm => encCsdsp 5 rs2 imm
  | .cSwsp rs2 imm => encCswsp 6 rs2 imm
  | .cFswsp rs2 imm => encCswsp 7 rs2 imm
  | .lrW rd rs1 aq rl => encAmo 0x02 rd rs1 0 aq rl
  | .scW rd rs1 rs2 aq rl => encAmo 0x03 rd rs1 rs2 aq rl
  | .amoswapW rd rs1 rs2 aq rl => encAmo 0x01 rd rs1 rs2 aq rl
  | .amoaddW rd rs1 rs2 aq rl => encAmo 0x00 rd rs1 rs2 aq rl
  | .amoxorW rd rs1 rs2 aq rl => encAmo 0x04 rd rs1 rs2 aq rl
  | .amoandW rd rs1 rs2 aq rl => encAmo 0x0C rd rs1 rs2 aq rl
  | .amoorW rd rs1 rs2 aq rl => encAmo 0x08 rd rs1 rs2 aq rl
  | .amominW rd rs1 rs2 aq rl => encAmo 0x10 rd rs1 rs2 aq rl
  | .amomaxW rd rs1 rs2 aq rl => encAmo 0x14 rd rs1 rs2 aq rl
  | .amominuW rd rs1 rs2 aq rl => encAmo 0x18 rd rs1 rs2 aq rl
  | .amomaxuW rd rs1 rs2 aq rl => encAmo 0x1C rd rs1 rs2 aq rl
  | .flw rd rs1 imm => encI 2 0x07 rd rs1 imm
  | .fsw rs2 rs1 imm => encS 2 0x27 rs2 rs1 imm
  | .fmaddS rd rs1 rs2 rs3 rm => encR4 0 0x43 rd rs1 rs2 rs3 rm
  | .fmsubS rd rs1 rs2 rs3 rm => encR4 0 0x47 rd rs1 rs2 rs3 rm
  | .fnmsubS rd rs1 rs2 rs3 rm => encR4 0 0x4B rd rs1 rs2 rs3 rm
  | .fnmaddS rd rs1 rs2 rs3 rm => encR4 0 0x4F rd rs1 rs2 rs3 rm
  | .faddS rd rs1 rs2 rm => encR 0x00 rm 0x53 rd rs1 rs2
  | .fsubS rd rs1 rs2 rm => encR 0x04 rm 0x53 rd rs1 rs2
  | .fmulS rd rs1 rs2 rm => encR 0x08 rm 0x53 rd rs1 rs2
  | .fdivS rd rs1 rs2 rm => encR 0x0C rm 0x53 rd rs1 rs2
  | .fsqrtS rd rs1 rm => encR 0x2C rm 0x53 rd rs1 0
  | .fsgnjS rd rs1 rs2 => encR 0x10 0 0x53 rd rs1 rs2
  | .fsgnjnS rd rs1 rs2 => encR 0x10 1 0x53 rd rs1 rs2
  | .fsgnjxS rd rs1 rs2 => encR 0x10 2 0x53 rd rs1 rs2
  | .fminS rd rs1 rs2 => encR 0x14 0 0x53 rd rs1 rs2
  | .fmaxS rd rs1 rs2 => encR 0x14 1 0x53 rd rs1 rs2
  | .fcvtWS rd rs1 rm => encR 0x60 rm 0x53 rd rs1 0
  | .fcvtWuS rd rs1 rm => encR 0x60 rm 0x53 rd rs1 1
  | .fmvXW rd rs1 => encR 0x70 0 0x53 rd rs1 0
  | .feqS rd rs1 rs2 => encR 0x50 2 0x53 rd rs1 rs2
  | .fltS rd rs1 rs2 => encR 0x50 1 0x53 rd rs1 rs2
  | .fleS rd rs1 rs2 => encR 0x50 0 0x53 rd rs1 rs2
  | .fclassS rd rs1 => encR 0x70 1 0x53 rd rs1 0
  | .fcvtSW rd rs1 rm => encR 0x68 rm 0x53 rd rs1 0
  | .fcvtSWu rd rs1 rm => encR 0x68 rm 0x53 rd rs1 1
  | .fmvWX rd rs1 => encR 0x78 0 0x53 rd rs1 0
  | .fld rd rs1 imm => encI 3 0x07 rd rs1 imm
  | .fsd rs2 rs1 imm => encS 3 0x27 rs2 rs1 imm
  | .fmaddD rd rs1 rs2 rs3 rm => encR4 1 0x43 rd rs1 rs2 rs3 rm
  | .fmsubD rd rs1 rs2 rs3 rm => encR4 1 0x47 rd rs1 rs2 rs3 rm
  | .fnmsubD rd rs1 rs2 rs3 rm => encR4 1 0x4B rd rs1 rs2 rs3 rm
  | .fnmaddD rd rs1 rs2 rs3 rm => encR4 1 0x4F rd rs1 rs2 rs3 rm
  | .faddD rd rs1 rs2 rm => encR 0x01 rm 0x53 rd rs1 rs2
  | .fsubD rd rs1 rs2 rm => encR 0x05 rm 0x53 rd rs1 rs2
  | .fmulD rd rs1 rs2 rm => encR 0x09 rm 0x53 rd rs1 rs2
  | .fdivD rd rs1 rs2 rm => encR 0x0D rm 0x53 rd rs1 rs2
  | .fsqrtD rd rs1 rm => encR 0x2D rm 0x53 rd rs1 0
  | .fsgnjD rd rs1 rs2 => encR 0x11 0 0x53 rd rs1 rs2
  | .fsgnjnD rd rs1 rs2 => encR 0x11 1 0x53 rd rs1 rs2
  | .fsgnjxD rd rs1 rs2 => encR 0x11 2 0x53 rd rs1 rs2
  | .fminD rd rs1 rs2 => encR 0x15 0 0x53 rd rs1 rs2
  | .fmaxD rd rs1 rs2 => encR 0x15 1 0x53 rd rs1 rs2
  | .fcvtSD rd rs1 rm => encR 0x20 rm 0x53 rd rs1 1
  | .fcvtDS rd rs1 rm => encR 0x21 rm 0x53 rd rs1 0
  | .feqD rd rs1 rs2 => encR 0x51 2 0x53 rd rs1 rs2
  | .fltD rd rs1 rs2 => encR 0x51 1 0x53 rd rs1 rs2
  | .fleD rd rs1 rs2 => encR 0x51 0 0x53 rd rs1 rs2
  | .fclassD rd rs1 => encR 0x71 1 0x53 rd rs1 0
  | .fcvtWD rd rs1 rm => encR 0x61 rm 0x53 rd rs1 0
  | .fcvtWuD rd rs1 rm => encR 0x61 rm 0x53 rd rs1 1
  | .fcvtDW rd rs1 rm => encR 0x69 rm 0x53 rd rs1 0
  | .fcvtDWu rd rs1 rm => encR 0x69 rm 0x53 rd rs1 1
  | .csrrw rd csr rs1 => encI 1 0x73 rd rs1 csr
  | .csrrs rd csr rs1 => encI 2 0x73 rd rs1 csr
  | .csrrc rd csr rs1 => encI 3 0x73 rd rs1 csr
  | .csrrwi rd csr uimm => encI 5 0x73 rd uimm csr
  | .csrrsi rd csr uimm => encI 6 0x73 rd uimm csr
  | .csrrci rd csr uimm => encI 7 0x73 rd uimm csr
  | .ebreak => encI 0 0x73 0 0 0x001
  | .ecall => encI 0 0x73 0 0 0x000
  | .mret => encI 0 0x73 0 0 0x302
  | .wfi => encI 0 0x73 0 0 0x105

/-- The length of an instruction in bytes. -/
def Instr.len (i : Instr) : Word := (encode i).len

/-- The bytes of an instruction in memory order (20_memory.md R166). -/
def Code.bytes : Code → List Byte
  | .half c => [c.extractLsb' 0 8, c.extractLsb' 8 8]
  | .word w => [w.extractLsb' 0 8, w.extractLsb' 8 8, w.extractLsb' 16 8, w.extractLsb' 24 8]

/-! ### The opcode table's numbering -/

/-- The four bytes from an instruction's address on, of an instruction whose first `nbits` bits are `w` and whose
other bits are 0, bit 0 being the least significant bit of the first byte. -/
def tableBytes (nbits w : Nat) : List Byte :=
  let v := BitVec.ofNat 32 (w % 2 ^ min nbits 32)
  Code.bytes (.word v)

/-- The instruction the decoder reads from an instruction of the opcode table whose bits are `w`. -/
def decodeTableWord (nbits w : Nat) : Option Instr :=
  match decodeBytes (tableBytes nbits w) with
  | .ok (i, _) => some i
  | .error _ => none

end Sys2Proof
end

