-- ==== Sys2Proof/Machine/Operands.lean ====
section
/-! DEFINITION. The operand forms: integer and floating-point registers (10_state.md R20, R26, R27), the extension of
immediates (30_encoding.md R226, R243, R244), and one setter for each part of the state. -/

namespace Sys2Proof.Machine

/-! ### Setters -/

def State.withPc (s : State) (pc : Word) : State := { s with pc := pc }
def State.withPriv (s : State) (priv : Priv) : State := { s with priv := priv }
def State.withCsr (s : State) (csr : Csrs) : State := { s with csr := csr }
def State.withMcycle (s : State) (v : BitVec 64) : State := { s with mcycle := v }
def State.withMem (s : State) (mem : Memory) : State := { s with mem := mem }
def State.withStale (s : State) (stale : List (Nat × Word)) : State := { s with stale := stale }
def State.withEclic (s : State) (eclic : Eclic) : State := { s with eclic := eclic }
def State.withTimer (s : State) (timer : Timer) : State := { s with timer := timer }
def State.withResv (s : State) (resv : Option Word) : State := { s with resv := resv }
def State.withAsleep (s : State) (asleep : Bool) : State := { s with asleep := asleep }
def State.withNmiPending (s : State) (b : Bool) : State := { s with nmiPending := b }
def State.withPendingFault (s : State) (e : Option Exc) : State := { s with pendingFault := e }
def State.withRxEvt (s : State) (b : Bool) : State := { s with rxEvt := b }
def State.withTxEvt (s : State) (b : Bool) : State := { s with txEvt := b }
def State.withEccOut (s : State) (o : EccOutputs) : State := { s with eccOut := o }
def State.withEccHits (s : State) (h : List EccHit) : State := { s with eccHits := h }
def State.withInputs (s : State) (i : List (List Input)) : State := { s with inputs := i }
def State.withFree (s : State) (n : Nat) : State := { s with free := n }

/-! ### Registers -/

/-- `x[r]`; `x[0]` reads 0 (R20). -/
def State.getX (s : State) (r : Reg) : Word := if r = 0#5 then 0 else s.x[r.toNat]'r.isLt

/-- `x[r] <- v`; a write to `x[0]` is discarded (R20). -/
def State.setX (s : State) (r : Reg) (v : Word) : State :=
  if r = 0#5 then s else { s with x := s.x.set r.toNat v r.isLt }

/-- `f[r]`, all 64 bits (R26). -/
def State.getF (s : State) (r : Reg) : DWord := s.f[r.toNat]'r.isLt

/-- `f[r] <- v`, all 64 bits (R26). -/
def State.setF (s : State) (r : Reg) (v : DWord) : State := { s with f := s.f.set r.toNat v r.isLt }

/-- The single-precision canonical NaN (44_rv32f.md R401). -/
def canonicalNanS : Word := 0x7FC00000

/-- The double-precision canonical NaN (45_rv32d.md R440). -/
def canonicalNanD : DWord := 0x7FF8000000000000

/-- A single-precision value of a register of FLEN bits: with FLEN = 64 an unboxed value is the canonical NaN
(R27). -/
def unboxS (hasD : Bool) (v : DWord) : Word :=
  if hasD = true ∧ v.extractLsb' 32 32 ≠ 0xFFFFFFFF#32 then canonicalNanS else v.setWidth 32

/-- A single-precision value as a register of FLEN bits holds it (R27). With FLEN = 32 the upper half, which the
register does not have, is 0 (log 23). -/
def boxS (hasD : Bool) (v : Word) : DWord := (if hasD then 0xFFFFFFFF#32 else 0#32) ++ v

/-- `S(r)`: the single-precision operand (44_rv32f.md R401). -/
def State.getS (s : State) (r : Reg) : Word := unboxS s.cfg.hasD (s.getF r)

/-- `f[r] <-S v` (44_rv32f.md R401). -/
def State.setS (s : State) (r : Reg) (v : Word) : State := s.setF r (boxS s.cfg.hasD v)

/-- The register a 3-bit field names: `8 + v` (30_encoding.md R243). -/
def creg (r : CReg) : Reg := 1#2 ++ r

/-! ### Immediates -/

/-- A 12-bit I or S immediate (R226). -/
def sext12 (imm : BitVec 12) : Word := imm.signExtend 32

/-- A U immediate (R226). -/
def immUpper (imm : BitVec 20) : Word := imm ++ 0#12

/-- A B offset: 13 bits, the lowest 0 (R226). -/
def offB (off : BitVec 12) : Word := (off ++ 0#1).signExtend 32

/-- A J offset: 21 bits, the lowest 0 (R226). -/
def offJ (off : BitVec 20) : Word := (off ++ 0#1).signExtend 32

/-- The C.ADDI4SPN immediate, a multiple of 4 (R244). -/
def offCiw (imm : BitVec 8) : Word := (imm ++ 0#2).zeroExtend 32

/-- The C.LW and C.SW offset, a multiple of 4 (R244). -/
def offClw (imm : BitVec 5) : Word := (imm ++ 0#2).zeroExtend 32

/-- The C.FLD and C.FSD offset, a multiple of 8 (R244). -/
def offCld (imm : BitVec 5) : Word := (imm ++ 0#3).zeroExtend 32

/-- The 6-bit signed immediate (R244). -/
def sext6 (imm : BitVec 6) : Word := imm.signExtend 32

/-- The C.ADDI16SP immediate, a multiple of 16 (R244). -/
def immSp16 (imm : BitVec 6) : Word := (imm ++ 0#4).signExtend 32

/-- The C.LUI immediate (R244). -/
def immClui (imm : BitVec 6) : Word := (imm ++ 0#12).signExtend 32

/-- The C.J and C.JAL offset (R244). -/
def offCj (off : BitVec 11) : Word := (off ++ 0#1).signExtend 32

/-- The C.BEQZ and C.BNEZ offset (R244). -/
def offCb (off : BitVec 8) : Word := (off ++ 0#1).signExtend 32

/-- The C.LWSP and C.SWSP offset, a multiple of 4 (R244). -/
def offCwsp (imm : BitVec 6) : Word := (imm ++ 0#2).zeroExtend 32

/-- The C.FLDSP and C.FSDSP offset, a multiple of 8 (R244). -/
def offCdsp (imm : BitVec 6) : Word := (imm ++ 0#3).zeroExtend 32

end Sys2Proof.Machine
end

