-- ==== Sys2Proof/Machine/Flags.lean ====
section
/-! DEFINITION. The flags: the integer instructions have none (10_state.md R28), so a comparison's outcome is a
register value; the floating-point flags accrue in fcsr.fflags (10_state.md R68, 44_rv32f.md R400, R403). -/

namespace Sys2Proof.Machine

/-- A comparison's outcome as a register value. -/
def flagWord (b : Bool) : Word := if b then 1 else 0

/-- `x <s y` (00_scope.md R10). -/
def ltSigned (x y : Word) : Bool := x.slt y

/-- `x <u y` (00_scope.md R10). -/
def ltUnsigned (x y : Word) : Bool := x.ult y

/-! ### fflags (10_state.md R68) -/

def flagNV : BitVec 5 := 0b10000
def flagDZ : BitVec 5 := 0b01000
def flagOF : BitVec 5 := 0b00100
def flagUF : BitVec 5 := 0b00010
def flagNX : BitVec 5 := 0b00001

/-- No flag, or the given one. -/
def flagIf (b : Bool) (fl : BitVec 5) : BitVec 5 := if b then fl else 0

/-- OR flags into fflags; an instruction never clears one (44_rv32f.md R400). -/
def Csrs.accrue (c : Csrs) (fl : BitVec 5) : Csrs :=
  { c with fcsr := { c.fcsr with fflags := c.fcsr.fflags ||| fl } }

/-- `mstatus.FS <- 3` after a floating-point instruction (10_state.md R45). -/
def Csrs.dirtyFs (c : Csrs) : Csrs := { c with mstatus := { c.mstatus with fs := 3 } }

/-- A floating-point instruction that completes: its flags accrue and FS becomes Dirty (44_rv32f.md R400). -/
def State.fpDone (s : State) (fl : BitVec 5) : State := s.withCsr ((s.csr.accrue fl).dirtyFs)

end Sys2Proof.Machine
end

