-- ==== Sys2Proof/Machine/Ops.lean ====
section
/-! DEFINITION. The operations every meaning is made of: completing an instruction, transferring control, taking an
exception (60_exceptions.md R530) and returning from a trap (46_system.md R490, R491). -/

namespace Sys2Proof.Machine

/-! ### Completing an instruction -/

/-- minstret counts a completed instruction unless mcountinhibit.IR is set (10_state.md R63). -/
def Csrs.countInstr (c : Csrs) : Csrs :=
  if c.mcountinhibit.ir then c else { c with minstret := c.minstret + 1 }

/-- The instruction completes and the next one is at `t` (00_scope.md R11). -/
def retireAt (t : Word) (s : State) : Out := .next ((s.withCsr s.csr.countInstr).withPc t)

/-- The instruction, `len` bytes long, completes and the next one follows it (30_encoding.md R222). -/
def retire (len : Word) (s : State) : Out := retireAt (s.pc + len) s

/-- The instruction completes and adds nothing to minstret, which it wrote itself (10_state.md R63). -/
def retireUncounted (len : Word) (s : State) : Out := .next (s.withPc (s.pc + len))

/-- The instruction writes `x[rd]` and completes (40_rv32i.md R260). -/
def writeRd (len : Word) (rd : Reg) (v : Word) (s : State) : Out := retire len (s.setX rd v)

/-! ### Exceptions -/

/-- The exception code (60_exceptions.md R521). -/
def ExcCode.num : ExcCode → BitVec 12
  | .instrAddrMisaligned => 0
  | .instrAccessFault => 1
  | .illegalInstr => 2
  | .breakpoint => 3
  | .loadAddrMisaligned => 4
  | .loadAccessFault => 5
  | .storeAmoAddrMisaligned => 6
  | .storeAmoAccessFault => 7
  | .ecallU => 8
  | .ecallM => 11

/-- The 2-bit encoding of a mode in MPP fields (00_scope.md R7). -/
def Priv.bits : Priv → BitVec 2
  | .user => 0
  | .machine => 3

/-- The whole of mcause with its MPP and MPIE bits, as the state stack saves it (R551). -/
def Csrs.causeToSave (c : Csrs) : SavedCause :=
  { interrupt := c.mcause.interrupt, minhv := c.mcause.minhv, mpp := c.mstatus.mpp.bits, mpie := c.mstatus.mpie,
    mpil := c.mcause.mpil, exccode := c.mcause.exccode }

/-- The push of the two-level state stack: level 1 goes to level 2, the live registers to level 1 (R551). -/
def Csrs.push (c : Csrs) : Csrs :=
  { c with
    save2 := c.save1
    save1 := { epc := c.mepc, cause := c.causeToSave, dcause := c.mdcause, ptyp := c.msubm.ptyp,
               mpp := c.mstatus.mpp.bits, mpie := c.mstatus.mpie } }

/-- The push where the core has the stack. -/
def Csrs.pushIf (c : Csrs) (hasStack : Bool) : Csrs := if hasStack then c.push else c

/-- mstatus at the entry of a trap taken in mode `p` (R533, R547, R563). -/
def Mstatus.enter (m : Mstatus) (p : Priv) : Mstatus := { m with mpie := m.mie, mpp := p, mie := false }

/-- msubm at the entry of a trap of type `t` (R535, R549, R566). -/
def Msubm.enter (m : Msubm) (t : BitVec 2) : Msubm := { ptyp := m.typ, typ := t }

/-- An address with bit 0 cleared (10_state.md R23, R55). -/
def evenAddr (a : Word) : Word := a &&& ~~~1#32

/-- An address with its low two bits cleared (10_state.md R52). -/
def alignedAddr (a : Word) : Word := a &&& ~~~3#32

/-- What an exception writes to mdcause (R523). -/
def detailBits (d : Detail) (old : BitVec 2) (free : Nat) : BitVec 2 :=
  match d with
  | .pmp => 1
  | .bus => 2
  | .keep => old
  | .unstated => Config.freeMdcause free

/-- The CSRs after exception entry (R530 to R535). -/
def Csrs.enterException (c : Csrs) (e : Exc) (epc : Word) (p : Priv) (hasStack : Bool) (free : Nat) : Csrs :=
  { c.pushIf hasStack with
    mepc := evenAddr epc
    mcause := { c.mcause with interrupt := false, exccode := e.code.num }
    mdcause := detailBits e.detail c.mdcause free
    mtval := e.tval.getD (Config.freeMtval free)
    mstatus := c.mstatus.enter p
    msubm := c.msubm.enter 2 }

/-- TAKING AN EXCEPTION (R530): the one entry every exception goes through. `epc` is the pc mepc receives. -/
def takeException (e : Exc) (epc : Word) (s : State) : State :=
  (((s.withCsr (s.csr.enterException e epc s.priv s.cfg.hasNestedStack s.free)).withPriv .machine).withResv
    none).withPc (alignedAddr s.csr.mtvec)

/-- An instruction, or the fetch at `pc`, raises an exception: the entry above with mepc = pc (R531). An imprecise
access fault that waits is reported first, at the latest here, and the instruction is executed again later (R526). -/
def raise (e : Exc) (s : State) : Out :=
  match s.pendingFault with
  | none => .next (takeException e s.pc s)
  | some p => .next (takeException p s.pc (s.withPendingFault none))

/-- An illegal instruction whose bits are `bits` (30_encoding.md R231). -/
def illegalBits (bits : Word) (s : State) : Out := raise ⟨.illegalInstr, some bits, .unstated⟩ s

/-- An instruction that is illegal in this configuration, mode or state (30_encoding.md R231, R232). -/
def illegal (i : Instr) (s : State) : Out := illegalBits (encode i).bits s

/-- Execute only where the condition holds, else the instruction is illegal (30_encoding.md R230). -/
def whenLegal (ok : Bool) (i : Instr) (s : State) (run : State → Out) : Out := if ok then run s else illegal i s

/-! ### Control transfer -/

/-- A target the instruction alignment of this core forbids (40_rv32i.md R262). -/
def badTarget (s : State) (t : Word) : Bool := !s.cfg.hasC && t.getLsbD 1

/-- A jump with link to an even target (40_rv32i.md R262, R265). -/
def jumpLink (len : Word) (rd : Reg) (t : Word) (s : State) : Out :=
  if badTarget s t then raise ⟨.instrAddrMisaligned, some t, .unstated⟩ s
  else retireAt t (s.setX rd (s.pc + len))

/-- A conditional branch by an even offset (40_rv32i.md R302). -/
def branchIf (len : Word) (taken : Bool) (off : Word) (s : State) : Out :=
  if taken then
    if badTarget s (s.pc + off) then raise ⟨.instrAddrMisaligned, some (s.pc + off), .unstated⟩ s
    else retireAt (s.pc + off) s
  else retire len s

/-! ### Return from a trap -/

/-- MPP when the two bits of a field are stored in it: a legal mode is kept, of the others a free choice is made
(10_state.md R43, log 9). -/
def storeMpp (cfg : Config) (free : Nat) (b : BitVec 2) : Priv :=
  if b = 3#2 then .machine
  else if cfg.hasUmode then
    if b = 0#2 then .user
    else if Config.freeMppIsUser free then .user else .machine
  else .machine

/-- The CSRs after MRET without the pop of the state stack (R490). -/
def Csrs.leaveTrap (c : Csrs) (hasUmode : Bool) : Csrs :=
  { c with
    mstatus := { c.mstatus with mie := c.mstatus.mpie, mpie := true, mpp := if hasUmode then .user else .machine }
    msubm := { c.msubm with typ := c.msubm.ptyp }
    mintstatus := { c.mintstatus with mil := if c.mcause.interrupt then c.mcause.mpil else c.mintstatus.mil } }

/-- The CSRs after MRET with the pop of the state stack (R491). -/
def Csrs.leaveTrapPop (c : Csrs) (cfg : Config) (free : Nat) : Csrs :=
  { c with
    mstatus := { c.mstatus with mie := c.mstatus.mpie, mpie := c.save1.mpie, mpp := storeMpp cfg free c.save1.mpp }
    msubm := { ptyp := c.save1.ptyp, typ := c.msubm.ptyp }
    mepc := c.save1.epc
    mcause := { interrupt := c.save1.cause.interrupt, minhv := c.save1.cause.minhv, mpil := c.save1.cause.mpil,
                exccode := c.save1.cause.exccode }
    mdcause := c.save1.dcause
    save1 := c.save2 }

/-- RETURN FROM A TRAP in Machine Mode (R490, R491). An imprecise access fault that waits is reported instead, at
the latest here (60_exceptions.md R526). -/
def returnFromTrap (s : State) : Out :=
  match s.pendingFault with
  | some p => .next (takeException p s.pc (s.withPendingFault none))
  | none =>
    if s.csr.mstatus.mpp = .user ∧ s.cfg.hasUmode = false then .fault .illegalMode
    else
      let c := if s.cfg.hasNestedStack = true ∧ s.csr.mcause.interrupt = false
        then s.csr.leaveTrapPop s.cfg s.free else s.csr.leaveTrap s.cfg.hasUmode
      retireAt s.csr.mepc (((s.withCsr c).withPriv s.csr.mstatus.mpp).withResv none)

end Sys2Proof.Machine
end

