-- ==== Sys2Proof/Machine/Regions.lean ====
section
/-! DEFINITION. The regions of the address space (20_memory.md R162) and the platform's bus errors (R174). -/

namespace Sys2Proof.Machine

/-- The regions R162 names. -/
inductive Region
  | timer
  | eclic
  | ilm
  | dlm
  | ppi
  | fio
  | system   -- everything else, through the system bus
deriving DecidableEq, Repr

/-- Which kind of access is made (20_memory.md R185). -/
inductive AccessKind
  | fetch   -- X
  | load    -- R
  | store   -- W
  | amo     -- R and W
deriving DecidableEq, Repr

/-- The size in bytes that ILM_SIZE or DLM_SIZE codes (11_state_nuclei_csr.md R121). DESIGN CHOICE (log 46): a reserved
code, 23 to 31, continues the progression. -/
def localMemSize (code : BitVec 5) : Nat := if code = 0#5 then 0 else 2 ^ (7 + code.toNat)

/-- The size in bytes that PPI_SIZE or FIO_SIZE codes (11_state_nuclei_csr.md R123). DESIGN CHOICE (log 46): of the
reserved codes 0 stands for no bytes and 23 to 31 continue the progression. -/
def portSize (code : BitVec 5) : Nat := if code = 0#5 then 0 else 2 ^ (9 + code.toNat)

/-- The bytes of a cache line that IC_LSIZE or DC_LSIZE codes (11_state_nuclei_csr.md R121, R122). DESIGN CHOICE (log 46): 0,
which stands for no cache, and the reserved codes 6 and 7 continue the progression. -/
def cacheLineSize (code : BitVec 3) : Nat := 2 ^ (2 + code.toNat)

/-- The base address whose upper 22 bits are given (11_state_nuclei_csr.md R101). -/
def baseOf (bpa : BitVec 22) : Nat := (bpa ++ 0#10).toNat

/-- `base <= a < base + size`. -/
def within (base size a : Nat) : Bool := decide (base ≤ a) && decide (a < base + size)

/-- The region of an address (R162). Where a configuration makes two overlap, the first here wins (log 29). -/
def region (cfg : Config) (a : Word) : Region :=
  let n := a.toNat
  if within cfg.timerBase.toNat 0x1000 n then .timer
  else if within cfg.eclicBase.toNat 0x10000 n then .eclic
  else if cfg.hasIlm && within (baseOf cfg.ilmBpa) (localMemSize cfg.ilmSize) n then .ilm
  else if cfg.hasDlm && within (baseOf cfg.dlmBpa) (localMemSize cfg.dlmSize) n then .dlm
  else if cfg.hasPpi && within (baseOf cfg.ppiBpa) (portSize cfg.ppiSize) n then .ppi
  else if cfg.hasFio && within (baseOf cfg.fioBpa) (portSize cfg.fioSize) n then .fio
  else .system

/-- Whether a bus-error region answers this kind of access with an error. -/
def answersWithError (r : BusErrorRegion) (t : AccessKind) : Bool :=
  match t with
  | .fetch => r.fetch
  | .load => r.load
  | .store => r.store
  | .amo => r.load || r.store

/-- Whether a region may answer this kind of access with an error: the TIMER and ECLIC answer no load, store or atomic with
one (R174). Whether they answer a fetch is the configuration's (R162, log 28). -/
def Region.mayFail (r : Region) (t : AccessKind) : Bool :=
  match r with
  | .timer | .eclic => t == .fetch
  | .ilm | .dlm | .ppi | .fio | .system => true

/-- `BusError(addr, kind)` for an access of `n` bytes (R174). -/
def busError (cfg : Config) (t : AccessKind) (a : Word) (n : Nat) : Bool :=
  (region cfg a).mayFail t && cfg.busErrors.any fun r =>
    answersWithError r t && decide (0 < r.size) && decide (a.toNat < r.base + r.size) && decide (r.base < a.toNat + n)

end Sys2Proof.Machine
end

