-- ==== Sys2Proof/Machine/Pmp.lean ====
section
/-! DEFINITION. Physical memory protection (20_memory.md R180 to R187). -/

namespace Sys2Proof.Machine

/-- The number of consecutive 1 bits at the low end of a number, looking at the given count of bits. -/
def trailingOnes : Nat → Nat → Nat
  | 0, _ => 0
  | bits + 1, p => if p % 2 = 1 then trailingOnes bits (p / 2) + 1 else 0

/-- The size in bytes of the region of an entry (R181). -/
def PmpEntry.size (e : PmpEntry) : Nat :=
  match e.mode with
  | .off => 0
  | .na4 => 4
  | .napot => 2 ^ (trailingOnes 30 e.addr.toNat + 3)

/-- The base address of the region of an entry: `{p, 2'b00}` with the bits below the size cleared (R181). -/
def PmpEntry.base (e : PmpEntry) : Nat :=
  match e.mode with
  | .off => 0
  | .na4 => 4 * e.addr.toNat
  | .napot => 4 * e.addr.toNat / e.size * e.size

/-- Whether an address is inside the region of the entry (R181). -/
def PmpEntry.covers (e : PmpEntry) (a : Word) : Bool := within e.base e.size a.toNat

/-- The deciding entry: the lowest-numbered one that matches (R182). -/
def decidingEntry (entries : List PmpEntry) (a : Word) : Option PmpEntry := entries.find? (·.covers a)

/-- The permissions the kind of access needs (R185). -/
def PmpEntry.allows (e : PmpEntry) (t : AccessKind) : Bool :=
  match t with
  | .fetch => e.x
  | .load => e.r
  | .store => e.w
  | .amo => e.r && e.w

/-- `PmpCheck` (R185): whether an access of this kind, made in mode `p`, passes. -/
def pmpCheck (s : State) (p : Priv) (t : AccessKind) (a : Word) : Bool :=
  if s.cfg.hasPmp then
    match decidingEntry s.csr.pmp a, p with
    | none, .machine => true
    | none, .user => false
    | some e, .user => e.allows t
    | some e, .machine =>
      if s.csr.mstatus.mprv = true ∧ s.csr.mstatus.mpp = .user ∧ t ≠ .fetch then e.allows t
      else if e.lock then e.allows t
      else true
  else true

end Sys2Proof.Machine
end

