-- ==== Sys2Proof/Machine/Eclic.lean ====
section
/-! DEFINITION. The ECLIC: pending bits, levels, arbitration and the register map (60_exceptions.md R570 to R584). -/

namespace Sys2Proof.Machine

/-- trig[0] = 1: edge-triggered (R576). -/
def EclicSrc.isEdge (src : EclicSrc) : Bool := src.trig.getLsbD 0

/-- The pending bit IP (R577): the line of a level-triggered source (or its drawn value just after a change of trig,
log 15), the latch of an edge-triggered one. -/
def EclicSrc.pending (src : EclicSrc) : Bool :=
  if src.isEdge then src.ip else src.held.getD src.line

/-- The input line takes a value; the edge that trig selects sets the latch (R577). -/
def EclicSrc.setLine (src : EclicSrc) (b : Bool) : EclicSrc :=
  let edge := if src.trig.getLsbD 1 then src.line && !b else !src.line && b
  { src with
    line := b
    ip := src.ip || (src.isEdge && edge)
    held := if src.line = b then src.held else none }

/-- The constant-1 bits of clicintctl[i]: the low `8 - CLICINTCTLBITS` (R578). -/
def ctlOnes (n : Nat) : Byte := 0xFF#8 >>> n

/-- What clicintctl[i] reads (R578). -/
def EclicSrc.ctlRead (n : Nat) (src : EclicSrc) : Byte := src.ctl ||| ctlOnes n

/-- `Level(i)` from the value clicintctl[i] reads (R579). -/
def levelOf (nlbits : BitVec 4) (c : Byte) : Byte := c ||| (0xFF#8 >>> min nlbits.toNat 8)

/-- `Priority(i)` (R580). -/
def priorityOf (n : Nat) (nlbits : BitVec 4) (c : Byte) : Byte :=
  (c <<< min nlbits.toNat n) ||| (0xFF#8 >>> (n - min nlbits.toNat n))

/-- A source that takes part in the arbitration. -/
structure Candidate where
  id    : Nat
  level : Byte
  prio  : Byte
  shv   : Bool
deriving DecidableEq, Repr

/-- The request presented to the core: `(id, level, shv)` (R582). -/
structure Request where
  id    : Nat
  level : Byte
  shv   : Bool
deriving DecidableEq, Repr

/-- Whether `c` wins against `best`, which has a smaller id: level, then priority, then id (R582). -/
def Candidate.wins (c best : Candidate) : Bool :=
  best.level.ult c.level || (best.level == c.level && best.prio.ule c.prio)

/-- The winner among the sources from number `i` on and the best so far (R582). -/
def arbitrate (n : Nat) (nlbits : BitVec 4) : Nat → List EclicSrc → Option Candidate → Option Candidate
  | _, [], best => best
  | i, src :: rest, best =>
    let here : Candidate :=
      { id := i, level := levelOf nlbits (src.ctlRead n), prio := priorityOf n nlbits (src.ctlRead n), shv := src.shv }
    let best' :=
      if src.ie && src.pending then
        match best with
        | none => some here
        | some b => if here.wins b then some here else some b
      else best
    arbitrate n nlbits (i + 1) rest best'

/-- The request: the single winner, presented only when its level is above mth (R582). -/
def presented (cfg : Config) (e : Eclic) : Option Request :=
  match arbitrate cfg.clicIntCtlBits e.nlbits 0 e.srcs none with
  | none => none
  | some c => if e.mth.ult c.level then some { id := c.id, level := c.level, shv := c.shv } else none

/-- Drive the input line of a source; a source that does not exist has none. -/
def Eclic.setLine (e : Eclic) (i : Nat) (b : Bool) : Eclic := { e with srcs := e.srcs.modify i (·.setLine b) }

/-- The hardware clear of an edge-triggered source's IP (R577). -/
def Eclic.claim (e : Eclic) (i : Nat) : Eclic :=
  { e with srcs := e.srcs.modify i fun src => if src.isEdge then { src with ip := false } else src }

/-- clicinfo (R572). -/
def clicinfo (cfg : Config) : Word :=
  0#7 ++ BitVec.ofNat 4 cfg.clicIntCtlBits ++ cfg.eclicVersion ++ BitVec.ofNat 13 cfg.numInterrupt

/-- Register byte `k` of a source: clicintip, clicintie, clicintattr, clicintctl (R574 to R578). -/
def EclicSrc.readByte (n : Nat) (src : EclicSrc) (k : Nat) : Byte :=
  match k with
  | 0 => 0#7 ++ BitVec.ofBool src.pending
  | 1 => 0#7 ++ BitVec.ofBool src.ie
  | 2 => 3#2 ++ 0#3 ++ src.trig ++ BitVec.ofBool src.shv
  | _ => src.ctlRead n

/-- A byte of the ECLIC's registers; every other byte of the 64 KiB reads 0 (R570, R583). -/
def Eclic.readByte (cfg : Config) (e : Eclic) (off : Nat) : Byte :=
  if off = 0 then 0#3 ++ e.nlbits ++ 1#1
  else if 4 ≤ off ∧ off < 8 then (clicinfo cfg).extractLsb' (8 * (off - 4)) 8
  else if off = 0xB then e.mth
  else if 0x1000 ≤ off ∧ off < 0x5000 then
    match e.srcs[(off - 0x1000) / 4]? with
    | none => 0
    | some src => src.readByte cfg.clicIntCtlBits ((off - 0x1000) % 4)
  else 0

/-- IP after a write of clicintip (R577): stored for an edge-triggered source, ignored for a level-triggered one,
whose drawn value (log 15) it ends. -/
def EclicSrc.writeIp (src : EclicSrc) (b : Bool) : EclicSrc :=
  if src.isEdge then { src with ip := b, held := none } else { src with held := none }

/-- trig takes a new value. If it changes while the line is active or IP is set, IP is a free value `drawn`
(R577, log 15). -/
def EclicSrc.setTrig (src : EclicSrc) (trig : BitVec 2) (drawn : Bool) : EclicSrc :=
  if trig = src.trig then src
  else
    let active := src.line || src.pending
    if trig.getLsbD 0 then { src with trig := trig, ip := active && drawn, held := none }
    else { src with trig := trig, held := if active then some drawn else none }

/-- A write to register byte `k` of a source (R574 to R578). -/
def EclicSrc.writeByte (n : Nat) (src : EclicSrc) (k : Nat) (drawn : Bool) (b : Byte) : EclicSrc :=
  match k with
  | 0 => src.writeIp (b.getLsbD 0)
  | 1 => { src with ie := b.getLsbD 0 }
  | 2 => { src.setTrig (b.extractLsb' 1 2) drawn with shv := b.getLsbD 0 }
  | _ => { src with ctl := b &&& ~~~ctlOnes n }

/-- A write to a byte of the ECLIC's registers; read-only bytes ignore it (R583). `free` selects the free value of a
change of trig. -/
def Eclic.writeByte (cfg : Config) (free : Nat) (e : Eclic) (off : Nat) (b : Byte) : Eclic :=
  if off = 0 then { e with nlbits := b.extractLsb' 1 4 }
  else if off = 0xB then { e with mth := b }
  else if 0x1000 ≤ off ∧ off < 0x5000 then
    { e with
      srcs := e.srcs.modify ((off - 0x1000) / 4) fun src =>
        src.writeByte cfg.clicIntCtlBits ((off - 0x1000) % 4) (Config.freeIp free ((off - 0x1000) / 4)) b }
  else e

/-- `n` register bytes from an offset upward (R583). -/
def Eclic.readBytes (cfg : Config) (e : Eclic) (off : Nat) : Nat → List Byte
  | 0 => []
  | n + 1 => e.readByte cfg off :: e.readBytes cfg (off + 1) n

/-- Register bytes written from an offset upward, in rising order (R583, log 20). -/
def Eclic.writeBytes (cfg : Config) (free : Nat) (e : Eclic) (off : Nat) : List Byte → Eclic
  | [] => e
  | b :: rest => (e.writeByte cfg free off b).writeBytes cfg free (off + 1) rest

end Sys2Proof.Machine
end

