-- ==== Sys2Proof/Machine/Timer.lean ====
section
/-! DEFINITION. The TIMER unit (60_exceptions.md R588 to R596). -/

namespace Sys2Proof.Machine

/-- `irq[7]`: mtime >=u mtimecmp (R591). -/
def Timer.line (t : Timer) : Bool := t.mtimecmp.ule t.mtime

/-- The word at an offset; a word with no register reads 0 (R588, R589). -/
def Timer.readWord (t : Timer) (off : Nat) : Word :=
  match off with
  | 0x000 => t.mtime.setWidth 32
  | 0x004 => t.mtime.extractLsb' 32 32
  | 0x008 => t.mtimecmp.setWidth 32
  | 0x00C => t.mtimecmp.extractLsb' 32 32
  | 0xFF0 => BitVec.ofBool t.msftrst ++ 0#31
  | 0xFF8 => 0#29 ++ BitVec.ofBool t.clksrc ++ BitVec.ofBool t.cmpclren ++ BitVec.ofBool t.timestop
  | 0xFFC => 0#31 ++ BitVec.ofBool t.msip
  | _ => 0

/-- The registers after a word is written, before the lines follow (R592 to R596). -/
def Timer.writeWord (t : Timer) (off : Nat) (v : Word) : Timer :=
  match off with
  | 0x000 => { t with mtime := t.mtime.extractLsb' 32 32 ++ v }
  | 0x004 => { t with mtime := v ++ t.mtime.setWidth 32 }
  | 0x008 => { t with mtimecmp := t.mtimecmp.extractLsb' 32 32 ++ v }
  | 0x00C => { t with mtimecmp := v ++ t.mtimecmp.setWidth 32 }
  | 0xFF0 => { t with msftrst := t.msftrst || v == 0x80000A5F#32 }
  | 0xFF8 => { t with clksrc := v.getLsbD 2, cmpclren := v.getLsbD 1, timestop := v.getLsbD 0 }
  | 0xFFC => { t with msip := v.getLsbD 0 }
  | _ => t

/-- The TIMER takes new register values: its two lines follow (R591); with CMPCLREN = 1 mtime is cleared when the
comparison becomes true, and the line falls again unless mtimecmp is 0 (R592, log 21). -/
def State.setTimer (s : State) (t : Timer) : State :=
  let e := (s.eclic.setLine 3 t.msip).setLine 7 t.line
  if t.cmpclren = true ∧ t.line = true ∧ s.timer.line = false then
    let t' := { t with mtime := 0 }
    (s.withTimer t').withEclic (e.setLine 7 t'.line)
  else (s.withTimer t).withEclic e

/-- One tick of mtime (R590). -/
def State.tick (s : State) : State :=
  if s.timer.timestop then s else s.setTimer { s.timer with mtime := s.timer.mtime + 1 }

end Sys2Proof.Machine
end

