-- ==== Sys2Proof/Machine/Access.lean ====
section
/-! DEFINITION. Data accesses and instruction fetch: alignment, PMP, bus errors, regions, ECC reports, and what is read
or written (20_memory.md R165 to R187, R204, R210; 40_rv32i.md R261; 30_encoding.md R221). -/

namespace Sys2Proof.Machine

/-- The outcome of an access: a value, an exception (both with the state after the access), or a refusal. -/
inductive Res (α : Type)
  | ok (v : α) (s : State)
  | exc (e : Exc) (s : State)
  | refuse (r : Refusal)

/-! ### ECC errors the environment makes happen (R210, R211; 60_exceptions.md R605, R606) -/

/-- The bit of SRAMID and RAMID that stands for a memory (11_state_nuclei_csr.md R130). -/
def EccUnit.mask : EccUnit → BitVec 5
  | .icache => 0b00001
  | .dcache => 0b00010
  | .ilm => 0b01000
  | .dlm => 0b10000

/-- Whether ECC is on for a memory (R210). DESIGN CHOICE (log 47): the enable bit alone says so, also where the configuration
gives the memory no ECC. -/
def eccOn (c : Csrs) : EccUnit → Bool
  | .icache => c.icache.eccEn
  | .dcache => c.dcache.eccEn
  | .ilm => c.milm.eccEn
  | .dlm => c.mdlm.eccEn

/-- Whether a 2-bit error of a memory raises an exception (60_exceptions.md R605). -/
def eccExcpOn (c : Csrs) : EccUnit → Bool
  | .icache => c.icache.excpEn
  | .dcache => c.dcache.excpEn
  | .ilm => c.milm.excpEn
  | .dlm => c.mdlm.excpEn

/-- Whether an access on this path to this address goes through the memory. -/
def EccUnit.serves (s : State) (u : EccUnit) (path : AccessPath) (a : Word) : Bool :=
  match u with
  | .ilm => region s.cfg a == .ilm
  | .dlm => region s.cfg a == .dlm
  | .icache => s.csr.icache.en && path == .fetch && region s.cfg a == .system
  | .dcache => s.csr.dcache.en && path != .fetch && region s.cfg a == .system

/-- SRAMID or RAMID records an error (60_exceptions.md R606). -/
def Csrs.noteEcc (c : Csrs) (u : EccUnit) (double : Bool) : Csrs :=
  if double then { c with mecc := { c.mecc with ramid := c.mecc.ramid ||| u.mask } }
  else { c with mecc := { c.mecc with sramid := c.mecc.sramid ||| u.mask } }

/-- The output of a memory rises (60_exceptions.md R609). -/
def EccOutputs.note (o : EccOutputs) (u : EccUnit) (double : Bool) : EccOutputs :=
  if double then { o with double := o.double ||| u.mask } else { o with single := o.single ||| u.mask }

/-- An error of 1 or 2 bits is recorded and put out (60_exceptions.md R606, R609). -/
def State.noteEcc (s : State) (u : EccUnit) (double : Bool) : State :=
  (s.withCsr (s.csr.noteEcc u double)).withEccOut (s.eccOut.note u double)

/-- A 2-bit error is reported to whose access met it (60_exceptions.md R609): at the slave port and to the SBA as a bus
error. -/
def EccOutputs.report (o : EccOutputs) : EccOrigin → EccOutputs
  | .slavePort => { o with slaveError := true }
  | .sba => { o with sbaError := true }
  | .other => o

/-- An access that is no instruction's meets an error: with ECC on it is recorded and put out, and one of 2 bits is reported
to whose access it is, whatever the exception enable of the memory (60_exceptions.md R606, R609, log 31). -/
def State.eccElsewhere (s : State) (origin : EccOrigin) (u : EccUnit) (double : Bool) : State :=
  if eccOn s.csr u then
    let s' := s.noteEcc u double
    if double then s'.withEccOut (s'.eccOut.report origin) else s'
  else s

/-- The bytes of one ECC unit of a memory's data (R210). -/
def EccUnit.bytes : EccUnit → Nat
  | .icache | .ilm => 8
  | .dcache | .dlm => 4

/-- The first address of the ECC unit that holds an address. -/
def EccUnit.base (u : EccUnit) (a : Word) : Word := if u.bytes = 8 then a &&& ~~~7#32 else a &&& ~~~3#32

/-- Whether two addresses are in one line of a cache, and so looked up by the same tags; a local memory has none (R210). -/
def EccUnit.sameLine (cfg : Config) (u : EccUnit) (a b : Word) : Bool :=
  match u with
  | .icache => a.toNat / cacheLineSize cfg.icLsize == b.toNat / cacheLineSize cfg.icLsize
  | .dcache => a.toNat / cacheLineSize cfg.dcLsize == b.toNat / cacheLineSize cfg.dcLsize
  | .ilm | .dlm => false

/-- What an error does at all: with ECC on it is noticed (R210). -/
def EccHit.noticed (c : Csrs) (h : EccHit) : Bool := eccOn c h.unit

/-- Whether an error raises an exception: 2 bits, and the exception is enabled (60_exceptions.md R605). -/
def EccHit.traps (c : Csrs) (h : EccHit) : Bool := h.noticed c && h.double && eccExcpOn c h.unit

/-- Whether wrong bits are what is read: with ECC on of a 2-bit error, the corrected ones otherwise; with it off of any
error. With ECC off a partial store reads no data (R210). -/
def EccHit.spoils (c : Csrs) (h : EccHit) : Bool :=
  if h.noticed c then h.double else h.path != .store || h.ram == .tag

/-- Every error that ECC notices is recorded. -/
def State.noteHits (s : State) : List EccHit → State
  | [] => s
  | h :: rest => (if h.noticed s.csr then s.noteEcc h.unit h.double else s).noteHits rest

/-- The bits of the byte at an address that arrive wrong. -/
def wrongByte : List EccHit → Word → Byte
  | [], _ => 0
  | h :: rest, a =>
    (if h.unit.base h.addr = h.unit.base a then (h.flip >>> (8 * (a - h.unit.base a).toNat)).setWidth 8 else 0)
      ^^^ wrongByte rest a

/-- Bytes read from an address upward, as they arrive. -/
def spoilBytes (wrong : List EccHit) (a : Word) : List Byte → List Byte
  | [] => []
  | b :: rest => (b ^^^ wrongByte wrong a) :: spoilBytes wrong (a + 1) rest

/-- The bits of the word at an address that arrive wrong. -/
def wrongWord (wrong : List EccHit) (a : Word) : Word :=
  wrongByte wrong (a + 3) ++ wrongByte wrong (a + 2) ++ wrongByte wrong (a + 1) ++ wrongByte wrong a

/-! ### The parts of a data access (R167, R168) -/

/-- One access on the bus: an address and a size. -/
structure Part where
  addr : Word
  size : Nat
deriving DecidableEq, Repr

/-- A misaligned access is split into bytes, in rising order (R167, log 36). -/
def byteParts (a : Word) : Nat → List Part
  | 0 => []
  | n + 1 => ⟨a, 1⟩ :: byteParts (a + 1) n

/-- An access of 1, 2 or 4 bytes (R167). -/
def smallParts (a : Word) (n : Nat) : List Part := if a.toNat % n = 0 then [⟨a, n⟩] else byteParts a n

/-- The parts of an access of 1, 2, 4 or 8 bytes; 8 bytes are two words, the lower address first (R168). -/
def parts (a : Word) (n : Nat) : List Part :=
  if n = 8 then smallParts a 4 ++ smallParts (a + 4) 4 else smallParts a n

/-- Whether a part of an access reads the unit of data an error is in. A store reads a unit only to write a part of it: to a
whole unit, the aligned word of the DLM or D-cache, it reads nothing (R210, 60_exceptions.md R605). -/
def EccHit.inData (path : AccessPath) (p : Part) (h : EccHit) : Bool :=
  h.unit.base h.addr == h.unit.base p.addr && (path != .store || decide (p.size < h.unit.bytes))

/-- Whether a part of an access meets an error: in the data it reads, or in a tag. Every access through a cache compares
tags, and an error in any way of them is met, a hit or not (60_exceptions.md R609). -/
def EccHit.meets (s : State) (path : AccessPath) (p : Part) (h : EccHit) : Bool :=
  h.path == path && h.unit.serves s path p.addr &&
    (match h.ram with
    | .data => h.inData path p
    | .tag => h.unit.sameLine s.cfg h.addr p.addr)

/-- The errors the parts of an access meet. -/
def eccMet (s : State) (path : AccessPath) (ps : List Part) : List EccHit :=
  s.eccHits.filter fun h => ps.any fun p => h.meets s path p

/-- What an access sees of errors: those whose wrong bits it reads, or the exception of a 2-bit one at the first part that
meets one which traps (R605, R608). -/
def eccEffect (s : State) (path : AccessPath) (ps : List Part) (code : ExcCode) : Res (List EccHit) :=
  let met := eccMet s path ps
  match ps.find? fun p => met.any fun h => h.traps s.csr && h.meets s path p with
  | some p => .exc ⟨code, some p.addr, .keep⟩ (s.noteHits met)
  | none => .ok (met.filter (·.spoils s.csr)) (s.noteHits met)

/-- The alignment an access of `n` bytes needs to count as aligned (R167, R168). -/
def accessAlign (cfg : Config) (n : Nat) : Nat :=
  if n = 8 then (match cfg.fldAlign with | .four => 4 | .eight => 8) else n

/-- A misaligned access that the core does not carry out in hardware (R167). -/
def misaligned (s : State) (a : Word) (n : Nat) : Bool :=
  a.toNat % accessAlign s.cfg n != 0 && !(s.cfg.hasMisaligned && s.csr.mmisc.misalign)

/-- The misaligned-address exception of an access kind (60_exceptions.md R521). -/
def misalignCode : AccessKind → ExcCode
  | .load => .loadAddrMisaligned
  | _ => .storeAmoAddrMisaligned

/-- The access-fault exception of an access kind (R186). -/
def faultCode : AccessKind → ExcCode
  | .fetch => .instrAccessFault
  | .load => .loadAccessFault
  | _ => .storeAmoAccessFault

/-- PMP, then bus error, of one part (40_rv32i.md R261). -/
def partFault (s : State) (t : AccessKind) (p : Part) : Option Exc :=
  if pmpCheck s s.priv t p.addr then
    if busError s.cfg t p.addr p.size then some ⟨faultCode t, some p.addr, .bus⟩ else none
  else some ⟨faultCode t, some p.addr, .pmp⟩

/-- A part of an access of `n` bytes that the model cannot carry out (93_implementation_defined.md A4). -/
def partRefusal (cfg : Config) (n : Nat) (p : Part) : Option Refusal :=
  match region cfg p.addr with
  | .timer => if n = 4 ∧ p.size = 4 then none else some .deviceAccess
  | .eclic => if p.size = n then none else some .deviceAccess
  | .ilm => if cfg.ilmXonly then some .ilmExecuteOnly else none
  | .dlm | .ppi | .fio | .system => none

/-- The checks of a data access, in order: alignment, PMP and bus errors part by part, then what the model refuses
(40_rv32i.md R261). -/
def checkData (s : State) (t : AccessKind) (a : Word) (n : Nat) : Res (List Part) :=
  if misaligned s a n then .exc ⟨misalignCode t, some a, .unstated⟩ s
  else
    match (parts a n).findSome? (partFault s t) with
    | some e => .exc e s
    | none =>
      match (parts a n).findSome? (partRefusal s.cfg n) with
      | some r => .refuse r
      | none => .ok (parts a n) s

/-! ### Reading and writing -/

/-- The bytes one part reads. Those of the PPI and FIO are the devices' of the platform (R173, log 26). -/
def partRead (s : State) (p : Part) : List Byte :=
  match region s.cfg p.addr with
  | .timer => splitBytes p.size ((s.timer.readWord (p.addr - s.cfg.timerBase).toNat).setWidth 64)
  | .eclic => s.eclic.readBytes s.cfg (p.addr - s.cfg.eclicBase).toNat p.size
  | .ppi | .fio => (List.range p.size).map fun k => Config.freePort s.free (p.addr.toNat + k)
  | .ilm | .dlm | .system => s.mem.readBytes p.addr p.size

/-- The word a fetch or a vector-table read finds at an address (30_encoding.md R221, 60_exceptions.md R564), by its region:
memory, the registers of the TIMER or ECLIC, read without side effects (60_exceptions.md R583), or, in the PPI and FIO,
what the platform's device answers, given by `port`. DESIGN CHOICE (log 26): 20_memory.md R162 leaves open whether a fetch
reaches the regions beside the ILM and the system bus. -/
def busWord (s : State) (port : Nat → Nat → Byte) (a : Word) : Word :=
  match region s.cfg a with
  | .timer => s.timer.readWord (a - s.cfg.timerBase).toNat
  | .eclic => joinWord fun k => s.eclic.readByte s.cfg ((a - s.cfg.eclicBase).toNat + k)
  | .ppi | .fio => joinWord fun k => port s.free (a.toNat + k)
  | .ilm | .dlm | .system => s.mem.read32 a

/-- A store to an address: until FENCE.I a fetch may still see the word as it was (R204, log 12). -/
def State.keepOld (s : State) (a : Word) : State :=
  s.withStale (((alignedAddr a).toNat, busWord s Config.freeFetchPort (alignedAddr a)) :: s.stale)

/-- A store to memory. -/
def State.storeMem (s : State) (a : Word) (bytes : List Byte) : State :=
  (s.keepOld a).withMem (s.mem.writeBytes a bytes)

/-- Store the bytes of one part. What a device of the PPI or FIO makes of a store is the platform's, and comes back by
the events of the environment (R173, log 26). -/
def partWrite (s : State) (p : Part) (bytes : List Byte) : State :=
  match region s.cfg p.addr with
  | .timer =>
    (s.keepOld p.addr).setTimer
      (s.timer.writeWord (p.addr - s.cfg.timerBase).toNat ((joinBytes bytes).setWidth 32))
  | .eclic =>
    (s.keepOld p.addr).withEclic (s.eclic.writeBytes s.cfg s.free (p.addr - s.cfg.eclicBase).toNat bytes)
  | .ppi | .fio => s
  | .ilm | .dlm | .system => s.storeMem p.addr bytes

/-- Store bytes over the parts of an access, in order. -/
def writeParts (s : State) : List Part → List Byte → State
  | [], _ => s
  | p :: rest, bytes => writeParts (partWrite s p (bytes.take p.size)) rest (bytes.drop p.size)

/-- A load of `n` bytes (40_rv32i.md R261): its little-endian value, of the bytes as they arrive (R210). -/
def dataLoad (s : State) (a : Word) (n : Nat) : Res DWord :=
  match checkData s .load a n with
  | .exc e s' => .exc e s'
  | .refuse r => .refuse r
  | .ok ps _ =>
    match eccEffect s .load ps .loadAccessFault with
    | .exc e s' => .exc e s'
    | .refuse r => .refuse r
    | .ok wrong s' => .ok (joinBytes (ps.flatMap fun p => spoilBytes wrong p.addr (partRead s p))) s'

/-- A unit that a partial store read with wrong bits is written back with them (R210). -/
def State.spoilUnit (s : State) (h : EccHit) : State :=
  let a := h.unit.base h.addr
  let s1 := s.storeMem a (spoilBytes [h] a (s.mem.readBytes a 4))
  if h.unit.bytes = 8 then s1.storeMem (a + 4) (spoilBytes [h] (a + 4) (s1.mem.readBytes (a + 4) 4)) else s1

/-- The units that a store read, or found by a wrong tag, with wrong bits, before its own bytes are written (R210). -/
def State.spoilUnits (s : State) : List EccHit → State
  | [] => s
  | h :: rest => (s.spoilUnit h).spoilUnits rest

/-- A store of the low `n` bytes of `v` (40_rv32i.md R261). -/
def dataStore (s : State) (a : Word) (n : Nat) (v : DWord) : Res Unit :=
  match checkData s .store a n with
  | .exc e s' => .exc e s'
  | .refuse r => .refuse r
  | .ok ps _ =>
    match eccEffect s .store ps .storeAmoAccessFault with
    | .exc e s' => .exc e s'
    | .refuse r => .refuse r
    | .ok wrong s' => .ok () (writeParts (s'.spoilUnits wrong) ps (splitBytes n v))

/-- The checks of an atomic at `a` (43_rv32a.md R380): alignment always, PMP, bus error; a device is refused (R394). -/
def checkAtomic (s : State) (t : AccessKind) (a : Word) : Res Unit :=
  if a.toNat % 4 ≠ 0 then .exc ⟨misalignCode t, some a, .unstated⟩ s
  else
    match partFault s t ⟨a, 4⟩ with
    | some e => .exc e s
    | none =>
      match region s.cfg a with
      | .timer | .eclic => .refuse .deviceAtomic
      | _ =>
        match partRefusal s.cfg 4 ⟨a, 4⟩ with
        | some r => .refuse r
        | none => .ok () s

/-! ### Faults of data accesses: precise or imprecise (60_exceptions.md R526) -/

/-- Whether an exception is one that is reported imprecisely (60_exceptions.md R521). -/
def isImprecise (s : State) (e : Exc) : Bool :=
  !s.cfg.preciseAccessFaults && (e.code == .loadAccessFault || e.code == .storeAmoAccessFault)

/-- The fault waits; of two that wait, which is kept is a free choice (R526, log 13). -/
def State.noteFault (s : State) (e : Exc) : State :=
  match s.pendingFault with
  | none => s.withPendingFault (some e)
  | some _ => if Config.freeFaultReplaces s.free then s.withPendingFault (some e) else s

/-- A data access of an instruction of `len` bytes failed: the exception, or, where it is imprecise, the instruction
retires with the effect `unstated` and the fault waits (R526). -/
def failAccess (len : Word) (unstated : State → State) (e : Exc) (s : State) : Out :=
  if isImprecise s e then retire len (unstated (s.noteFault e)) else raise e s

/-- A load into an integer register (40_rv32i.md R303). -/
def loadX (len : Word) (rd : Reg) (ea : Word) (n : Nat) (ext : DWord → Word) (s : State) : Out :=
  match dataLoad s ea n with
  | .ok v s' => retire len (s'.setX rd (ext v))
  | .exc e s' => failAccess len (fun t => t.setX rd ((Config.freeLoad t.free).setWidth 32)) e s'
  | .refuse r => .refused r

/-- A store (40_rv32i.md R304). -/
def storeX (len : Word) (ea : Word) (n : Nat) (v : DWord) (s : State) : Out :=
  match dataStore s ea n v with
  | .ok _ s' => retire len s'
  | .exc e s' => failAccess len id e s'
  | .refuse r => .refused r

/-! ### Fetch (30_encoding.md R221) -/

/-- The checks of a fetch of the aligned word at `a` in mode `p`: PMP, bus error, ECC. The value is the errors whose wrong
bits arrive. -/
def checkFetch (s : State) (p : Priv) (a : Word) : Res (List EccHit) :=
  if pmpCheck s p .fetch a then
    if busError s.cfg .fetch a 4 then .exc ⟨.instrAccessFault, some a, .bus⟩ s
    else eccEffect s .fetch [⟨a, 4⟩] .instrAccessFault
  else .exc ⟨.instrAccessFault, some a, .pmp⟩ s

/-- The aligned word a fetch sees: the one that is there, or one that was since the last FENCE.I, a free choice
(20_memory.md R204, log 12). -/
def fetchView (s : State) (a : Word) : Word :=
  match s.stale.filter (fun w => w.1 == a.toNat) with
  | [] => busWord s Config.freeFetchPort a
  | old =>
    match old[Config.freeFetch s.free a.toNat]? with
    | some w => w.2
    | none => busWord s Config.freeFetchPort a

/-- The instruction word's upper parcel when the instruction starts in the upper half of a word. -/
def fetchUpper (s : State) (a : Word) : Res (BitVec 16) :=
  match checkFetch s s.priv a with
  | .exc e s' => .exc e s'
  | .refuse r => .refuse r
  | .ok wrong s' => .ok ((fetchView s a ^^^ wrongWord wrong a).setWidth 16) s'

/-- What the parcels of an instruction say: its bits, or an illegal instruction (R221). -/
def fetchLong (lo hi : BitVec 16) (s : State) : Res Code :=
  if isVeryLong lo then .exc ⟨.illegalInstr, some (joinParcels lo hi), .unstated⟩ s
  else .ok (.word (joinParcels lo hi)) s

/-- `Fetch(pc)` (R221). A pc no rule of the spec can produce raises code 0 (log 30). -/
def fetch (s : State) : Res Code :=
  if s.pc.getLsbD 0 || badTarget s s.pc then .exc ⟨.instrAddrMisaligned, some s.pc, .unstated⟩ s
  else
    match checkFetch s s.priv (alignedAddr s.pc) with
    | .exc e s' => .exc e s'
    | .refuse r => .refuse r
    | .ok wrong s1 =>
      let w := fetchView s (alignedAddr s.pc) ^^^ wrongWord wrong (alignedAddr s.pc)
      let lo : BitVec 16 := if s.pc.getLsbD 1 then w.extractLsb' 16 16 else w.setWidth 16
      if isLong lo then
        if s.pc.getLsbD 1 then
          match fetchUpper s1 (alignedAddr s.pc + 4) with
          | .exc e s' => .exc e s'
          | .refuse r => .refuse r
          | .ok hi s2 => fetchLong lo hi s2
        else fetchLong lo (w.extractLsb' 16 16) s1
      else if s.cfg.hasC then .ok (.half lo) s1
      else .exc ⟨.illegalInstr, some (lo.zeroExtend 32), .unstated⟩ s1

/-- `VectorTableRead(id)`: the word at `mtvt + 4*id`, checked as a fetch in Machine Mode (60_exceptions.md R564). DESIGN
CHOICE (log 50): R564 names the PMP and bus errors only, and an ECC error the read meets is treated as one on a fetch: it is
recorded, a 2-bit one with its exception on raises InstrAccessFault with mdcause kept, and otherwise the bits arrive
corrected or wrong. -/
def vectorTableRead (s : State) (id : Nat) : Res Word :=
  let a := s.csr.mtvt + 4 * BitVec.ofNat 32 id
  match checkFetch s .machine a with
  | .exc e s' => .exc e s'
  | .refuse r => .refuse r
  | .ok wrong s' => .ok (busWord s Config.freeTablePort a ^^^ wrongWord wrong a) s'

end Sys2Proof.Machine
end

