-- ==== Sys2Proof/Machine/Rv32a.lean ====
section
/-! DEFINITION. RV32A (43_rv32a.md): LR.W, SC.W and the AMOs. They exist only with HAS_A; aq and rl show no difference to one
hart (R380). -/

namespace Sys2Proof.Machine

/-- The word an atomic reads. -/
def wordRead (s : State) (a : Word) : Word := (joinBytes (partRead s ⟨a, 4⟩)).setWidth 32

/-- The word an atomic stores, after the units it read with wrong bits. -/
def wordWrite (s : State) (a v : Word) (wrong : List EccHit) : State :=
  partWrite (s.spoilUnits wrong) ⟨a, 4⟩ (splitBytes 4 (v.setWidth 64))

/-- LR.W (R382): load the word and reserve it. An ECC error is one on a load. -/
def loadReserved (rd rs1 : Reg) (s : State) : Out :=
  let a := s.getX rs1
  let failed := failAccess 4 fun t => t.setX rd ((Config.freeLoad t.free).setWidth 32)
  match checkAtomic s .load a with
  | .exc e s' => failed e s'
  | .refuse r => .refused r
  | .ok _ _ =>
    match eccEffect s .load [⟨a, 4⟩] .loadAccessFault with
    | .ok wrong s' => retire 4 ((s'.setX rd (wordRead s a ^^^ wrongWord wrong a)).withResv (some a))
    | .exc e s' => failed e s'
    | .refuse r => .refused r

/-- Whether SC.W stores: the reservation is this word, and, where the core may fail it all the same, it does not
(R383, log 14). -/
def scSucceeds (s : State) (a : Word) : Bool :=
  s.resv == some a && !(s.cfg.scSpuriousFail && Config.freeScFails s.free)

/-- SC.W (R383): store if the reservation holds, and give it up (R381). DESIGN CHOICE (log 31): one that stores is to ECC a
store, one that fails makes no access and meets no error. -/
def storeConditional (rd rs1 rs2 : Reg) (s : State) : Out :=
  let a := s.getX rs1
  let failed := failAccess 4 fun t => (t.setX rd ((Config.freeLoad t.free).setWidth 32)).withResv none
  match checkAtomic s .store a with
  | .exc e s' => failed e s'
  | .refuse r => .refused r
  | .ok _ _ =>
    if scSucceeds s a then
      match eccEffect s .store [⟨a, 4⟩] .storeAmoAccessFault with
      | .ok wrong s' => retire 4 (((wordWrite s' a (s.getX rs2) wrong).setX rd 0).withResv none)
      | .exc e s' => failed e s'
      | .refuse r => .refused r
    else retire 4 ((s.setX rd 1).withResv none)

/-- An AMO (R384 to R392): read the word, store the operation's result, return the word read. DESIGN CHOICE (log 31): to
ECC it is a load and then a store, and an error on either raises the AMO's code, 7. -/
def atomicOp (op : Word → Word → Word) (rd rs1 rs2 : Reg) (s : State) : Out :=
  let a := s.getX rs1
  let failed := failAccess 4 fun t => t.setX rd ((Config.freeLoad t.free).setWidth 32)
  match checkAtomic s .amo a with
  | .exc e s' => failed e s'
  | .refuse r => .refused r
  | .ok _ _ =>
    match eccEffect s .load [⟨a, 4⟩] .storeAmoAccessFault with
    | .exc e s' => failed e s'
    | .refuse r => .refused r
    | .ok wrong s1 =>
      let t := wordRead s a ^^^ wrongWord wrong a
      match eccEffect s1 .store [⟨a, 4⟩] .storeAmoAccessFault with
      | .exc e s' => failed e s'
      | .refuse r => .refused r
      | .ok spoilt s2 => retire 4 ((wordWrite s2 a (op t (s.getX rs2)) spoilt).setX rd t)

/-- AMOSWAP.W stores `x[rs2]` (R384). -/
def amoSwap (_t v : Word) : Word := v

/-- AMOMIN.W (R389). -/
def amoMin (t v : Word) : Word := if ltSigned t v then t else v

/-- AMOMAX.W (R390). -/
def amoMax (t v : Word) : Word := if ltSigned t v then v else t

/-- AMOMINU.W (R391). -/
def amoMinu (t v : Word) : Word := if ltUnsigned t v then t else v

/-- AMOMAXU.W (R392). -/
def amoMaxu (t v : Word) : Word := if ltUnsigned t v then v else t

/-- LR.W (R382). -/
def execLrW (rd rs1 : Reg) (aq rl : Bool) (s : State) : Out :=
  whenLegal s.cfg.hasA (.lrW rd rs1 aq rl) s (loadReserved rd rs1)

/-- SC.W (R383). -/
def execScW (rd rs1 rs2 : Reg) (aq rl : Bool) (s : State) : Out :=
  whenLegal s.cfg.hasA (.scW rd rs1 rs2 aq rl) s (storeConditional rd rs1 rs2)

/-- AMOSWAP.W (R384). -/
def execAmoswapW (rd rs1 rs2 : Reg) (aq rl : Bool) (s : State) : Out :=
  whenLegal s.cfg.hasA (.amoswapW rd rs1 rs2 aq rl) s (atomicOp amoSwap rd rs1 rs2)

/-- AMOADD.W (R385). -/
def execAmoaddW (rd rs1 rs2 : Reg) (aq rl : Bool) (s : State) : Out :=
  whenLegal s.cfg.hasA (.amoaddW rd rs1 rs2 aq rl) s (atomicOp (· + ·) rd rs1 rs2)

/-- AMOXOR.W (R386). -/
def execAmoxorW (rd rs1 rs2 : Reg) (aq rl : Bool) (s : State) : Out :=
  whenLegal s.cfg.hasA (.amoxorW rd rs1 rs2 aq rl) s (atomicOp (· ^^^ ·) rd rs1 rs2)

/-- AMOAND.W (R387). -/
def execAmoandW (rd rs1 rs2 : Reg) (aq rl : Bool) (s : State) : Out :=
  whenLegal s.cfg.hasA (.amoandW rd rs1 rs2 aq rl) s (atomicOp (· &&& ·) rd rs1 rs2)

/-- AMOOR.W (R388). -/
def execAmoorW (rd rs1 rs2 : Reg) (aq rl : Bool) (s : State) : Out :=
  whenLegal s.cfg.hasA (.amoorW rd rs1 rs2 aq rl) s (atomicOp (· ||| ·) rd rs1 rs2)

/-- AMOMIN.W (R389). -/
def execAmominW (rd rs1 rs2 : Reg) (aq rl : Bool) (s : State) : Out :=
  whenLegal s.cfg.hasA (.amominW rd rs1 rs2 aq rl) s (atomicOp amoMin rd rs1 rs2)

/-- AMOMAX.W (R390). -/
def execAmomaxW (rd rs1 rs2 : Reg) (aq rl : Bool) (s : State) : Out :=
  whenLegal s.cfg.hasA (.amomaxW rd rs1 rs2 aq rl) s (atomicOp amoMax rd rs1 rs2)

/-- AMOMINU.W (R391). -/
def execAmominuW (rd rs1 rs2 : Reg) (aq rl : Bool) (s : State) : Out :=
  whenLegal s.cfg.hasA (.amominuW rd rs1 rs2 aq rl) s (atomicOp amoMinu rd rs1 rs2)

/-- AMOMAXU.W (R392). -/
def execAmomaxuW (rd rs1 rs2 : Reg) (aq rl : Bool) (s : State) : Out :=
  whenLegal s.cfg.hasA (.amomaxuW rd rs1 rs2 aq rl) s (atomicOp amoMaxu rd rs1 rs2)

end Sys2Proof.Machine
end

