-- ==== Sys2Proof/Machine/Float.lean ====
section
/-! DEFINITION. IEEE 754 arithmetic on numbers (44_rv32f.md R400 to R403, R419 to R427): operands become exact integers
times a power of two, the operation is exact (or exact up to one sticky bit), and one rounding ends it. -/

namespace Sys2Proof.Machine

/-- A binary format by the widths of its exponent and its fraction. -/
structure FFmt where
  expBits  : Nat
  fracBits : Nat
deriving DecidableEq, Repr

/-- Binary32 (R401). -/
def fmtS : FFmt := ⟨8, 23⟩

/-- Binary64 (45_rv32d.md R440). -/
def fmtD : FFmt := ⟨11, 52⟩

/-- The rounding modes (R402). -/
inductive RMode
  | rne
  | rtz
  | rdn
  | rup
  | rmm
deriving DecidableEq, Repr

/-- The mode a 3-bit encoding names; 5, 6 and 7 name none (R402). -/
def RMode.ofBits (b : BitVec 3) : Option RMode :=
  match b with
  | 0#3 => some .rne
  | 1#3 => some .rtz
  | 2#3 => some .rdn
  | 3#3 => some .rup
  | 4#3 => some .rmm
  | _ => none

/-- The mode an instruction's rm field resolves to; `none` is illegal (R402). -/
def resolveRm (rm frm : BitVec 3) : Option RMode := if rm = 7#3 then RMode.ofBits frm else RMode.ofBits rm

/-- A value: a NaN, an infinity, or `(-1)^neg * m * 2^e` exactly. -/
inductive FVal
  | nan (signaling : Bool)
  | inf (neg : Bool)
  | fin (neg : Bool) (m : Nat) (e : Int)
deriving DecidableEq, Repr

/-- A result: its bits and the flags it raises. -/
structure FOut where
  bits  : Nat
  flags : BitVec 5
deriving DecidableEq, Repr

namespace FFmt

/-- The exponent of the last bit of a subnormal: -149 or -1074. -/
def qMin (f : FFmt) : Int := 2 - (2 ^ (f.expBits - 1) : Nat) - f.fracBits

/-- The magnitude bits of infinity. -/
def infBits (f : FFmt) : Nat := (2 ^ f.expBits - 1) <<< f.fracBits

/-- The sign bit in its place. -/
def signBits (f : FFmt) (neg : Bool) : Nat := if neg then 1 <<< (f.expBits + f.fracBits) else 0

/-- The canonical NaN (R401, R440). -/
def nanBits (f : FFmt) : Nat := f.infBits + 1 <<< (f.fracBits - 1)

/-- Read an encoding (R401). -/
def unpack (f : FFmt) (n : Nat) : FVal :=
  let frac := n % 2 ^ f.fracBits
  let ex := n >>> f.fracBits % 2 ^ f.expBits
  let neg := n.testBit (f.expBits + f.fracBits)
  if ex = 2 ^ f.expBits - 1 then
    if frac = 0 then .inf neg else .nan (!frac.testBit (f.fracBits - 1))
  else if ex = 0 then .fin neg frac f.qMin
  else .fin neg (frac + 2 ^ f.fracBits) (f.qMin + (ex - 1 : Nat))

end FFmt

/-! ### Results -/

def FOut.nan (f : FFmt) (invalid : Bool) : FOut := ⟨f.nanBits, flagIf invalid flagNV⟩
def FOut.inf (f : FFmt) (neg : Bool) : FOut := ⟨f.signBits neg + f.infBits, 0⟩
def FOut.zero (f : FFmt) (neg : Bool) : FOut := ⟨f.signBits neg, 0⟩

/-! ### Rounding (R402, R403) -/

/-- Whether a magnitude `k + r / 2^s` with `r < 2^s` is rounded away from zero. -/
def roundsUp (rm : RMode) (neg : Bool) (k r s : Nat) : Bool :=
  match rm with
  | .rne => decide (2 ^ s < 2 * r) || (decide (2 * r = 2 ^ s) && k % 2 == 1)
  | .rtz => false
  | .rdn => neg && r != 0
  | .rup => !neg && r != 0
  | .rmm => decide (2 ^ s ≤ 2 * r)

/-- `m / 2^s` rounded to an integer, and whether that is inexact. -/
def roundShift (rm : RMode) (neg : Bool) (m s : Nat) : Nat × Bool :=
  let k := m >>> s
  let r := m % 2 ^ s
  (if roundsUp rm neg k r s then k + 1 else k, r != 0)

/-- `m * 2^e` as a multiple of `2^q`, rounded, and whether that is inexact. -/
def roundAt (rm : RMode) (neg : Bool) (m : Nat) (e q : Int) : Nat × Bool :=
  if q ≤ e then (m <<< (e - q).toNat, false) else roundShift rm neg m (q - e).toNat

/-- Whether an overflow gives infinity and not the largest finite number (R403). -/
def overflowsToInf (rm : RMode) (neg : Bool) : Bool :=
  match rm with
  | .rne | .rmm => true
  | .rtz => false
  | .rdn => neg
  | .rup => !neg

/-- Round `(-1)^neg * m * 2^e` to the format: OF, UF with tininess after rounding, NX (R403). -/
def roundTo (f : FFmt) (rm : RMode) (neg : Bool) (m : Nat) (e : Int) : FOut :=
  if m = 0 then .zero f neg
  else
    let q : Int := e + m.log2 - f.fracBits              -- the last place with an unbounded exponent
    let q' : Int := max q f.qMin
    let (k, inexact) := roundAt rm neg m e q'
    let enc := (q' - f.qMin).toNat <<< f.fracBits + k
    if f.infBits ≤ enc then
      ⟨f.signBits neg + (if overflowsToInf rm neg then f.infBits else f.infBits - 1), flagOF ||| flagNX⟩
    else
      let (ku, _) := roundAt rm neg m e q
      let tiny := decide (q < f.qMin) && !(decide (q + 1 = f.qMin) && decide (ku = 2 ^ (f.fracBits + 1)))
      ⟨f.signBits neg + enc, flagIf inexact flagNX ||| flagIf (tiny && inexact) flagUF⟩

/-! ### Arithmetic (R403, R407 to R415) -/

/-- The sum of two finite numbers; an exact zero is -0 only if both are negative or the mode is RDN. -/
def addFin (f : FFmt) (rm : RMode) (n1 : Bool) (m1 : Nat) (e1 : Int) (n2 : Bool) (m2 : Nat) (e2 : Int) : FOut :=
  let e := min e1 e2
  let a : Int := (m1 <<< (e1 - e).toNat : Nat)
  let b : Int := (m2 <<< (e2 - e).toNat : Nat)
  let sum := (if n1 then -a else a) + (if n2 then -b else b)
  if sum = 0 then .zero f (if n1 = n2 ∧ m1 = 0 then n1 else rm == .rdn)
  else roundTo f rm (decide (sum < 0)) sum.natAbs e

/-- `x + y` of values that are no NaN. -/
def addVals (f : FFmt) (rm : RMode) (x y : FVal) : FOut :=
  match x, y with
  | .inf a, .inf b => if a = b then .inf f a else .nan f true
  | .inf a, _ => .inf f a
  | _, .inf b => .inf f b
  | .fin n1 m1 e1, .fin n2 m2 e2 => addFin f rm n1 m1 e1 n2 m2 e2
  | .nan _, _ => .nan f false
  | _, .nan _ => .nan f false

/-- `-x`. -/
def FVal.negate : FVal → FVal
  | .nan s => .nan s
  | .inf n => .inf (!n)
  | .fin n m e => .fin (!n) m e

/-- A signaling NaN. -/
def FVal.isSignaling : FVal → Bool
  | .nan s => s
  | _ => false

/-- Any NaN. -/
def FVal.isNan : FVal → Bool
  | .nan _ => true
  | _ => false

/-- The sign; a NaN has none. -/
def FVal.isNeg : FVal → Bool
  | .nan _ => false
  | .inf n => n
  | .fin n _ _ => n

/-- `x + y` (R411). -/
def fAdd (f : FFmt) (rm : RMode) (x y : FVal) : FOut :=
  if x.isNan || y.isNan then .nan f (x.isSignaling || y.isSignaling) else addVals f rm x y

/-- `x - y` (R412). -/
def fSub (f : FFmt) (rm : RMode) (x y : FVal) : FOut := fAdd f rm x y.negate

/-- The exact product of values that are no NaN; `none` is infinity times zero. -/
def mulVals (x y : FVal) : Option FVal :=
  let neg := x.isNeg != y.isNeg
  match x, y with
  | .fin _ m1 e1, .fin _ m2 e2 => some (.fin neg (m1 * m2) (e1 + e2))
  | .fin _ m _, .inf _ => if m = 0 then none else some (.inf neg)
  | .inf _, .fin _ m _ => if m = 0 then none else some (.inf neg)
  | .inf _, .inf _ => some (.inf neg)
  | .nan s, _ => some (.nan s)
  | _, .nan s => some (.nan s)

/-- A value of exact arithmetic as a result. -/
def roundVal (f : FFmt) (rm : RMode) (v : FVal) : FOut :=
  match v with
  | .nan s => .nan f s
  | .inf n => .inf f n
  | .fin n m e => roundTo f rm n m e

/-- `x * y` (R413). -/
def fMul (f : FFmt) (rm : RMode) (x y : FVal) : FOut :=
  if x.isNan || y.isNan then .nan f (x.isSignaling || y.isSignaling)
  else
    match mulVals x y with
    | none => .nan f true
    | some p => roundVal f rm p

/-- `x * y + z`, one rounding; infinity times zero is invalid even when `z` is a quiet NaN (R403, R407). -/
def fFma (f : FFmt) (rm : RMode) (x y z : FVal) : FOut :=
  let signaling := x.isSignaling || y.isSignaling || z.isSignaling
  if x.isNan || y.isNan then .nan f signaling
  else
    match mulVals x y with
    | none => .nan f true
    | some p => if z.isNan then .nan f signaling else addVals f rm p z

/-- The number of bits the quotient and the root get before their sticky bit. -/
def FFmt.work (f : FFmt) : Nat := f.fracBits + 3

/-- `x / y` (R414). -/
def fDiv (f : FFmt) (rm : RMode) (x y : FVal) : FOut :=
  let neg := x.isNeg != y.isNeg
  match x, y with
  | .nan s, v => .nan f (s || v.isSignaling)
  | _, .nan s => .nan f s
  | .inf _, .inf _ => .nan f true
  | .inf _, .fin _ _ _ => .inf f neg
  | .fin _ _ _, .inf _ => .zero f neg
  | .fin _ m1 e1, .fin _ m2 e2 =>
    if m2 = 0 then
      if m1 = 0 then .nan f true else ⟨f.signBits neg + f.infBits, flagDZ⟩
    else
      let k := f.work + m2.log2 + 1
      let n := m1 <<< k
      roundTo f rm neg (2 * (n / m2) + (if n % m2 = 0 then 0 else 1)) (e1 - e2 - k - 1)

/-- The integer square root, one bit at a time: the largest `acc + x`, `x < 2^i`, whose square is at most `n`. -/
def isqrtFrom : Nat → Nat → Nat → Nat
  | 0, acc, _ => acc
  | i + 1, acc, n => isqrtFrom i (if (acc + 2 ^ i) * (acc + 2 ^ i) ≤ n then acc + 2 ^ i else acc) n

/-- The integer square root. -/
def isqrt (n : Nat) : Nat := isqrtFrom (n.log2 / 2 + 1) 0 n

/-- The square root (R415). -/
def fSqrt (f : FFmt) (rm : RMode) (x : FVal) : FOut :=
  match x with
  | .nan s => .nan f s
  | .inf n => if n then .nan f true else .inf f false
  | .fin n m e =>
    if m = 0 then .zero f n
    else if n then .nan f true
    else
      let k := 2 * f.work + (e % 2).toNat
      let r := isqrt (m <<< k)
      roundTo f rm false (2 * r + (if r * r = m <<< k then 0 else 1)) ((e - k) / 2 - 1)

/-- Conversion to another format (45_rv32d.md R457, R458). -/
def fConvert (f : FFmt) (rm : RMode) (x : FVal) : FOut := roundVal f rm x

/-! ### Integers (R421, R422, R428, R429) -/

/-- A signed integer as a floating-point number. -/
def ofInt (f : FFmt) (rm : RMode) (v : Int) : FOut := roundTo f rm (decide (v < 0)) v.natAbs 0

/-- A value as an integer between `lo` and `hi`: out of range, an infinity or a NaN saturates with NV. -/
def toInt (lo hi : Int) (rm : RMode) (x : FVal) : Int × BitVec 5 :=
  match x with
  | .nan _ => (hi, flagNV)
  | .inf n => (if n then lo else hi, flagNV)
  | .fin n m e =>
    let (k, inexact) := roundAt rm n m e 0
    let v : Int := if n then -(k : Int) else k
    if v < lo then (lo, flagNV)
    else if hi < v then (hi, flagNV)
    else (v, flagIf inexact flagNX)

/-- To a signed 32-bit integer (R421). -/
def toSigned (rm : RMode) (x : FVal) : Word × BitVec 5 :=
  let r := toInt (-2147483648) 2147483647 rm x
  (BitVec.ofInt 32 r.1, r.2)

/-- To an unsigned 32-bit integer (R422). -/
def toUnsigned (rm : RMode) (x : FVal) : Word × BitVec 5 :=
  let r := toInt 0 4294967295 rm x
  (BitVec.ofInt 32 r.1, r.2)

/-! ### Comparison, minimum and maximum, class, sign (R416 to R420, R424 to R427) -/

/-- The place of an encoding, no NaN, among all numbers: its magnitude bits with its sign. -/
def FFmt.order (f : FFmt) (n : Nat) : Int :=
  let mag : Int := (n % 2 ^ (f.expBits + f.fracBits) : Nat)
  if n.testBit (f.expBits + f.fracBits) then -mag else mag

/-- A comparison: 0 with a NaN; NV for any NaN if it signals, else for a signaling NaN only (R424 to R426, R435). -/
def fCompare (f : FFmt) (signals : Bool) (cmp : Int → Int → Bool) (a b : Nat) : Bool × BitVec 5 :=
  let x := f.unpack a
  let y := f.unpack b
  if x.isNan || y.isNan then (false, flagIf (signals || x.isSignaling || y.isSignaling) flagNV)
  else (cmp (f.order a) (f.order b), 0)

/-- The smaller of two encodings, no NaN; -0 is smaller than +0 (R419). -/
def FFmt.smaller (f : FFmt) (a b : Nat) : Nat :=
  if f.order a < f.order b then a
  else if f.order b < f.order a then b
  else if a.testBit (f.expBits + f.fracBits) then a else b

/-- The larger of two encodings, no NaN (R420). -/
def FFmt.larger (f : FFmt) (a b : Nat) : Nat :=
  if f.order a < f.order b then b
  else if f.order b < f.order a then a
  else if a.testBit (f.expBits + f.fracBits) then b else a

/-- FMIN and FMAX, with the NaN handling of the two variants (R419, R420). -/
def fMinMax (f : FFmt) (variant : FminmaxVariant) (pick : Nat → Nat → Nat) (a b : Nat) : FOut :=
  let x := f.unpack a
  let y := f.unpack b
  let signaling := x.isSignaling || y.isSignaling
  if x.isNan && y.isNan then .nan f signaling
  else if signaling && variant == .v20 then .nan f true
  else if x.isNan then ⟨b, flagIf signaling flagNV⟩
  else if y.isNan then ⟨a, flagIf signaling flagNV⟩
  else ⟨pick a b, 0⟩

/-- The class of a value as one bit out of ten (R427). -/
def fClass (f : FFmt) (n : Nat) : Word :=
  match f.unpack n with
  | .inf neg => if neg then 0x001 else 0x080
  | .nan signaling => if signaling then 0x100 else 0x200
  | .fin neg m _ =>
    if m = 0 then (if neg then 0x008 else 0x010)
    else if m < 2 ^ f.fracBits then (if neg then 0x004 else 0x020)
    else if neg then 0x002 else 0x040

end Sys2Proof.Machine
end

