-- ==== Sys2Proof/Machine/FpOps.lean ====
section
/-! DEFINITION. What the floating-point instructions share: the legality checks, writing results, loads and stores
(44_rv32f.md R400 to R406). -/

namespace Sys2Proof.Machine

/-! ### Executing a floating-point instruction (44_rv32f.md R400, R402) -/

/-- The check every floating-point instruction makes first: its subset exists and FS is not Off (R400). -/
def fpLegal (has : Bool) (i : Instr) (s : State) (run : State → Out) : Out :=
  whenLegal (has && s.csr.mstatus.fs != 0) i s run

/-- The check of the rounding mode after it (R402). -/
def fpRounded (has : Bool) (i : Instr) (rm : BitVec 3) (s : State) (run : RMode → State → Out) : Out :=
  fpLegal has i s fun s =>
    match resolveRm rm s.csr.fcsr.frm with
    | none => illegal i s
    | some mode => run mode s

/-- A single-precision result: boxed into `f[rd]`, its flags accrued (R400, R401). -/
def finishS (rd : Reg) (r : FOut) (s : State) : Out :=
  retire 4 ((s.setS rd (BitVec.ofNat 32 r.bits)).fpDone r.flags)

/-- A double-precision result (45_rv32d.md R440). -/
def finishD (rd : Reg) (r : FOut) (s : State) : Out :=
  retire 4 ((s.setF rd (BitVec.ofNat 64 r.bits)).fpDone r.flags)

/-- A result in an integer register. -/
def finishX (rd : Reg) (v : Word) (fl : BitVec 5) (s : State) : Out := retire 4 ((s.setX rd v).fpDone fl)

/-- A single-precision operand as a value (R401). -/
def State.valS (s : State) (r : Reg) : FVal := fmtS.unpack (s.getS r).toNat

/-- A double-precision operand as a value (45_rv32d.md R440). -/
def State.valD (s : State) (r : Reg) : FVal := fmtD.unpack (s.getF r).toNat

/-! ### Loads and stores (R405, R406; 45_rv32d.md R441, R442) -/

/-- The unspecified value a failing imprecise load leaves in an f register of FLEN bits (60_exceptions.md R526). -/
def freeF (hasD : Bool) (free : Nat) : DWord :=
  if hasD then Config.freeLoad free else ((Config.freeLoad free).setWidth 32 : Word).setWidth 64

/-- A single-precision load: the bits move unchanged, boxed (R405). -/
def loadS (len : Word) (rd : Reg) (ea : Word) (s : State) : Out :=
  match dataLoad s ea 4 with
  | .ok v s' => retire len ((s'.setS rd (v.setWidth 32)).fpDone 0)
  | .exc e s' => failAccess len (fun t => (t.setF rd (freeF t.cfg.hasD t.free)).fpDone 0) e s'
  | .refuse r => .refused r

/-- A double-precision load (45_rv32d.md R441). -/
def loadD (len : Word) (rd : Reg) (ea : Word) (s : State) : Out :=
  match dataLoad s ea 8 with
  | .ok v s' => retire len ((s'.setF rd v).fpDone 0)
  | .exc e s' => failAccess len (fun t => (t.setF rd (freeF t.cfg.hasD t.free)).fpDone 0) e s'
  | .refuse r => .refused r

/-- A floating-point store of the low `n` bytes of `f[rs2]`, without a check of the box (R406). -/
def storeF (len : Word) (rs2 : Reg) (ea : Word) (n : Nat) (s : State) : Out :=
  match dataStore s ea n (s.getF rs2) with
  | .ok _ s' => retire len (s'.fpDone 0)
  | .exc e s' => failAccess len (fun t => t.fpDone 0) e s'
  | .refuse r => .refused r

/-! ### Operations both precisions have -/

/-- FSGNJ.S, FSGNJN.S and FSGNJX.S: the sign `neg`, the other bits of `a` (R416 to R418). -/
def withSignS (neg : Bool) (a : Word) : Word := BitVec.ofBool neg ++ a.setWidth 31

/-- FSGNJ.D, FSGNJN.D and FSGNJX.D (45_rv32d.md R452 to R454). -/
def withSignD (neg : Bool) (a : DWord) : DWord := BitVec.ofBool neg ++ a.setWidth 63

/-- `a < b`. -/
def cmpLt (a b : Int) : Bool := decide (a < b)

/-- `a <= b`. -/
def cmpLe (a b : Int) : Bool := decide (a ≤ b)

/-- `a = b`. -/
def cmpEq (a b : Int) : Bool := decide (a = b)

/-- A comparison of single-precision registers (R435). -/
def compareS (signals : Bool) (cmp : Int → Int → Bool) (rd rs1 rs2 : Reg) (s : State) : Out :=
  let r := fCompare fmtS signals cmp (s.getS rs1).toNat (s.getS rs2).toNat
  finishX rd (flagWord r.1) r.2 s

/-- A comparison of double-precision registers (45_rv32d.md R469). -/
def compareD (signals : Bool) (cmp : Int → Int → Bool) (rd rs1 rs2 : Reg) (s : State) : Out :=
  let r := fCompare fmtD signals cmp (s.getF rs1).toNat (s.getF rs2).toNat
  finishX rd (flagWord r.1) r.2 s

end Sys2Proof.Machine
end

