-- ==== Sys2Proof/Machine/Rv32i.lean ====
section
/-! DEFINITION. RV32I (40_rv32i.md): the integer instructions, loads and stores, jumps and branches, FENCE and FENCE.I. -/

namespace Sys2Proof.Machine

/-- LUI (R263). -/
def execLui (rd : Reg) (imm : BitVec 20) (s : State) : Out := writeRd 4 rd (immUpper imm) s

/-- AUIPC (R264). -/
def execAuipc (rd : Reg) (imm : BitVec 20) (s : State) : Out := writeRd 4 rd (s.pc + immUpper imm) s

/-- JAL (R265). -/
def execJal (rd : Reg) (off : BitVec 20) (s : State) : Out := jumpLink 4 rd (s.pc + offJ off) s

/-- JALR (R266). -/
def execJalr (rd rs1 : Reg) (imm : BitVec 12) (s : State) : Out :=
  jumpLink 4 rd (evenAddr (s.getX rs1 + sext12 imm)) s

/-! ### Conditional branches (R302) -/

/-- BEQ (R267). -/
def execBeq (rs1 rs2 : Reg) (off : BitVec 12) (s : State) : Out := branchIf 4 (s.getX rs1 == s.getX rs2) (offB off) s

/-- BNE (R268). -/
def execBne (rs1 rs2 : Reg) (off : BitVec 12) (s : State) : Out := branchIf 4 (s.getX rs1 != s.getX rs2) (offB off) s

/-- BLT (R269). -/
def execBlt (rs1 rs2 : Reg) (off : BitVec 12) (s : State) : Out :=
  branchIf 4 (ltSigned (s.getX rs1) (s.getX rs2)) (offB off) s

/-- BGE (R270). -/
def execBge (rs1 rs2 : Reg) (off : BitVec 12) (s : State) : Out :=
  branchIf 4 (!ltSigned (s.getX rs1) (s.getX rs2)) (offB off) s

/-- BLTU (R271). -/
def execBltu (rs1 rs2 : Reg) (off : BitVec 12) (s : State) : Out :=
  branchIf 4 (ltUnsigned (s.getX rs1) (s.getX rs2)) (offB off) s

/-- BGEU (R272). -/
def execBgeu (rs1 rs2 : Reg) (off : BitVec 12) (s : State) : Out :=
  branchIf 4 (!ltUnsigned (s.getX rs1) (s.getX rs2)) (offB off) s

/-! ### Loads and stores (R261, R303, R304) -/

/-- The effective address of a load or store (R303, R304). -/
def eaI (s : State) (rs1 : Reg) (imm : BitVec 12) : Word := s.getX rs1 + sext12 imm

/-- A byte extended with its sign. -/
def extByte (v : DWord) : Word := (v.setWidth 8).signExtend 32

/-- A half-word extended with its sign. -/
def extHalf (v : DWord) : Word := (v.setWidth 16).signExtend 32

/-- A byte extended with zeros. -/
def zextByte (v : DWord) : Word := (v.setWidth 8).zeroExtend 32

/-- A half-word extended with zeros. -/
def zextHalf (v : DWord) : Word := (v.setWidth 16).zeroExtend 32

/-- A word as it is. -/
def lowWord (v : DWord) : Word := v.setWidth 32

/-- LB (R273). -/
def execLb (rd rs1 : Reg) (imm : BitVec 12) (s : State) : Out := loadX 4 rd (eaI s rs1 imm) 1 extByte s

/-- LH (R274). -/
def execLh (rd rs1 : Reg) (imm : BitVec 12) (s : State) : Out := loadX 4 rd (eaI s rs1 imm) 2 extHalf s

/-- LW (R275). -/
def execLw (rd rs1 : Reg) (imm : BitVec 12) (s : State) : Out := loadX 4 rd (eaI s rs1 imm) 4 lowWord s

/-- LBU (R276). -/
def execLbu (rd rs1 : Reg) (imm : BitVec 12) (s : State) : Out := loadX 4 rd (eaI s rs1 imm) 1 zextByte s

/-- LHU (R277). -/
def execLhu (rd rs1 : Reg) (imm : BitVec 12) (s : State) : Out := loadX 4 rd (eaI s rs1 imm) 2 zextHalf s

/-- SB (R278). -/
def execSb (rs2 rs1 : Reg) (imm : BitVec 12) (s : State) : Out :=
  storeX 4 (eaI s rs1 imm) 1 ((s.getX rs2).setWidth 64) s

/-- SH (R279). -/
def execSh (rs2 rs1 : Reg) (imm : BitVec 12) (s : State) : Out :=
  storeX 4 (eaI s rs1 imm) 2 ((s.getX rs2).setWidth 64) s

/-- SW (R280). -/
def execSw (rs2 rs1 : Reg) (imm : BitVec 12) (s : State) : Out :=
  storeX 4 (eaI s rs1 imm) 4 ((s.getX rs2).setWidth 64) s

/-! ### Register and immediate (R306) -/

/-- ADDI (R281). -/
def execAddi (rd rs1 : Reg) (imm : BitVec 12) (s : State) : Out := writeRd 4 rd (s.getX rs1 + sext12 imm) s

/-- SLTI (R282). -/
def execSlti (rd rs1 : Reg) (imm : BitVec 12) (s : State) : Out :=
  writeRd 4 rd (flagWord (ltSigned (s.getX rs1) (sext12 imm))) s

/-- SLTIU (R283). -/
def execSltiu (rd rs1 : Reg) (imm : BitVec 12) (s : State) : Out :=
  writeRd 4 rd (flagWord (ltUnsigned (s.getX rs1) (sext12 imm))) s

/-- XORI (R284). -/
def execXori (rd rs1 : Reg) (imm : BitVec 12) (s : State) : Out := writeRd 4 rd (s.getX rs1 ^^^ sext12 imm) s

/-- ORI (R285). -/
def execOri (rd rs1 : Reg) (imm : BitVec 12) (s : State) : Out := writeRd 4 rd (s.getX rs1 ||| sext12 imm) s

/-- ANDI (R286). -/
def execAndi (rd rs1 : Reg) (imm : BitVec 12) (s : State) : Out := writeRd 4 rd (s.getX rs1 &&& sext12 imm) s

/-- SLLI (R287). -/
def execSlli (rd rs1 : Reg) (shamt : BitVec 5) (s : State) : Out := writeRd 4 rd (s.getX rs1 <<< shamt) s

/-- SRLI (R288). -/
def execSrli (rd rs1 : Reg) (shamt : BitVec 5) (s : State) : Out := writeRd 4 rd (s.getX rs1 >>> shamt) s

/-- SRAI (R289). -/
def execSrai (rd rs1 : Reg) (shamt : BitVec 5) (s : State) : Out :=
  writeRd 4 rd ((s.getX rs1).sshiftRight shamt.toNat) s

/-! ### Register and register (R307) -/

/-- The shift amount of SLL, SRL and SRA: the low 5 bits (R292). -/
def shiftBy (v : Word) : BitVec 5 := v.setWidth 5

/-- ADD (R290). -/
def execAdd (rd rs1 rs2 : Reg) (s : State) : Out := writeRd 4 rd (s.getX rs1 + s.getX rs2) s

/-- SUB (R291). -/
def execSub (rd rs1 rs2 : Reg) (s : State) : Out := writeRd 4 rd (s.getX rs1 - s.getX rs2) s

/-- SLL (R292). -/
def execSll (rd rs1 rs2 : Reg) (s : State) : Out := writeRd 4 rd (s.getX rs1 <<< shiftBy (s.getX rs2)) s

/-- SLT (R293). -/
def execSlt (rd rs1 rs2 : Reg) (s : State) : Out := writeRd 4 rd (flagWord (ltSigned (s.getX rs1) (s.getX rs2))) s

/-- SLTU (R294). -/
def execSltu (rd rs1 rs2 : Reg) (s : State) : Out := writeRd 4 rd (flagWord (ltUnsigned (s.getX rs1) (s.getX rs2))) s

/-- XOR (R295). -/
def execXor (rd rs1 rs2 : Reg) (s : State) : Out := writeRd 4 rd (s.getX rs1 ^^^ s.getX rs2) s

/-- SRL (R296). -/
def execSrl (rd rs1 rs2 : Reg) (s : State) : Out := writeRd 4 rd (s.getX rs1 >>> shiftBy (s.getX rs2)) s

/-- SRA (R297). -/
def execSra (rd rs1 rs2 : Reg) (s : State) : Out :=
  writeRd 4 rd ((s.getX rs1).sshiftRight (shiftBy (s.getX rs2)).toNat) s

/-- OR (R298). -/
def execOr (rd rs1 rs2 : Reg) (s : State) : Out := writeRd 4 rd (s.getX rs1 ||| s.getX rs2) s

/-- AND (R299). -/
def execAnd (rd rs1 rs2 : Reg) (s : State) : Out := writeRd 4 rd (s.getX rs1 &&& s.getX rs2) s

/-! ### Ordering -/

/-- FENCE (R300): one hart sees no difference; its fields are ignored. -/
def execFence (_fm _pred _succ : BitVec 4) (_rs1 _rd : Reg) (s : State) : Out := retire 4 s

/-- FENCE.I (R301): from here on a fetch sees every earlier store; its fields are ignored. -/
def execFenceI (_imm : BitVec 12) (_rs1 _rd : Reg) (s : State) : Out := retire 4 (s.withStale [])

end Sys2Proof.Machine
end

