-- ==== Sys2Proof/Machine/Rv32c.lean ====
section
/-! DEFINITION. RV32C (42_rv32c.md): what the 32-bit expansions do, 2 bytes long. The instructions exist only with HAS_C,
those of F and D only with these subsets as well (R330). -/

namespace Sys2Proof.Machine

/-- C.ADDI4SPN (R331). -/
def execCAddi4spn (rd : CReg) (imm : BitVec 8) (s : State) : Out :=
  whenLegal s.cfg.hasC (.cAddi4spn rd imm) s (writeRd 2 (creg rd) (s.getX 2 + offCiw imm))

/-- C.FLD (R332). -/
def execCFld (rd rs1 : CReg) (imm : BitVec 5) (s : State) : Out :=
  fpLegal (s.cfg.hasC && s.cfg.hasD) (.cFld rd rs1 imm) s (loadD 2 (creg rd) (s.getX (creg rs1) + offCld imm))

/-- C.LW (R333). -/
def execCLw (rd rs1 : CReg) (imm : BitVec 5) (s : State) : Out :=
  whenLegal s.cfg.hasC (.cLw rd rs1 imm) s (loadX 2 (creg rd) (s.getX (creg rs1) + offClw imm) 4 lowWord)

/-- C.FLW (R334). -/
def execCFlw (rd rs1 : CReg) (imm : BitVec 5) (s : State) : Out :=
  fpLegal (s.cfg.hasC && s.cfg.hasF) (.cFlw rd rs1 imm) s (loadS 2 (creg rd) (s.getX (creg rs1) + offClw imm))

/-- C.FSD (R335). -/
def execCFsd (rs2 rs1 : CReg) (imm : BitVec 5) (s : State) : Out :=
  fpLegal (s.cfg.hasC && s.cfg.hasD) (.cFsd rs2 rs1 imm) s (storeF 2 (creg rs2) (s.getX (creg rs1) + offCld imm) 8)

/-- C.SW (R336). -/
def execCSw (rs2 rs1 : CReg) (imm : BitVec 5) (s : State) : Out :=
  whenLegal s.cfg.hasC (.cSw rs2 rs1 imm) s (storeX 2 (s.getX (creg rs1) + offClw imm) 4 ((s.getX (creg rs2)).setWidth 64))

/-- C.FSW (R337). -/
def execCFsw (rs2 rs1 : CReg) (imm : BitVec 5) (s : State) : Out :=
  fpLegal (s.cfg.hasC && s.cfg.hasF) (.cFsw rs2 rs1 imm) s (storeF 2 (creg rs2) (s.getX (creg rs1) + offClw imm) 4)

/-- C.NOP (R338): with a non-zero immediate a HINT, also no operation. -/
def execCNop (imm : BitVec 6) (s : State) : Out := whenLegal s.cfg.hasC (.cNop imm) s (retire 2)

/-- C.ADDI (R339). -/
def execCAddi (rd : Reg) (imm : BitVec 6) (s : State) : Out :=
  whenLegal s.cfg.hasC (.cAddi rd imm) s (writeRd 2 rd (s.getX rd + sext6 imm))

/-- C.JAL (R340). -/
def execCJal (off : BitVec 11) (s : State) : Out :=
  whenLegal s.cfg.hasC (.cJal off) s (jumpLink 2 1 (s.pc + offCj off))

/-- C.LI (R341). -/
def execCLi (rd : Reg) (imm : BitVec 6) (s : State) : Out :=
  whenLegal s.cfg.hasC (.cLi rd imm) s (writeRd 2 rd (sext6 imm))

/-- C.ADDI16SP (R342). -/
def execCAddi16sp (imm : BitVec 6) (s : State) : Out :=
  whenLegal s.cfg.hasC (.cAddi16sp imm) s (writeRd 2 2 (s.getX 2 + immSp16 imm))

/-- C.LUI (R343). -/
def execCLui (rd : Reg) (imm : BitVec 6) (s : State) : Out :=
  whenLegal s.cfg.hasC (.cLui rd imm) s (writeRd 2 rd (immClui imm))

/-- C.SRLI (R344). -/
def execCSrli (rd : CReg) (shamt : BitVec 5) (s : State) : Out :=
  whenLegal s.cfg.hasC (.cSrli rd shamt) s (writeRd 2 (creg rd) (s.getX (creg rd) >>> shamt))

/-- C.SRAI (R345). -/
def execCSrai (rd : CReg) (shamt : BitVec 5) (s : State) : Out :=
  whenLegal s.cfg.hasC (.cSrai rd shamt) s (writeRd 2 (creg rd) ((s.getX (creg rd)).sshiftRight shamt.toNat))

/-- C.ANDI (R346). -/
def execCAndi (rd : CReg) (imm : BitVec 6) (s : State) : Out :=
  whenLegal s.cfg.hasC (.cAndi rd imm) s (writeRd 2 (creg rd) (s.getX (creg rd) &&& sext6 imm))

/-- C.SUB (R347). -/
def execCSub (rd rs2 : CReg) (s : State) : Out :=
  whenLegal s.cfg.hasC (.cSub rd rs2) s (writeRd 2 (creg rd) (s.getX (creg rd) - s.getX (creg rs2)))

/-- C.XOR (R348). -/
def execCXor (rd rs2 : CReg) (s : State) : Out :=
  whenLegal s.cfg.hasC (.cXor rd rs2) s (writeRd 2 (creg rd) (s.getX (creg rd) ^^^ s.getX (creg rs2)))

/-- C.OR (R349). -/
def execCOr (rd rs2 : CReg) (s : State) : Out :=
  whenLegal s.cfg.hasC (.cOr rd rs2) s (writeRd 2 (creg rd) (s.getX (creg rd) ||| s.getX (creg rs2)))

/-- C.AND (R350). -/
def execCAnd (rd rs2 : CReg) (s : State) : Out :=
  whenLegal s.cfg.hasC (.cAnd rd rs2) s (writeRd 2 (creg rd) (s.getX (creg rd) &&& s.getX (creg rs2)))

/-- C.J (R351). -/
def execCJ (off : BitVec 11) (s : State) : Out := whenLegal s.cfg.hasC (.cJ off) s (jumpLink 2 0 (s.pc + offCj off))

/-- C.BEQZ (R352). -/
def execCBeqz (rs1 : CReg) (off : BitVec 8) (s : State) : Out :=
  whenLegal s.cfg.hasC (.cBeqz rs1 off) s (branchIf 2 (s.getX (creg rs1) == 0) (offCb off))

/-- C.BNEZ (R353). -/
def execCBnez (rs1 : CReg) (off : BitVec 8) (s : State) : Out :=
  whenLegal s.cfg.hasC (.cBnez rs1 off) s (branchIf 2 (s.getX (creg rs1) != 0) (offCb off))

/-- C.SLLI (R354). -/
def execCSlli (rd : Reg) (shamt : BitVec 5) (s : State) : Out :=
  whenLegal s.cfg.hasC (.cSlli rd shamt) s (writeRd 2 rd (s.getX rd <<< shamt))

/-- C.FLDSP (R355). -/
def execCFldsp (rd : Reg) (imm : BitVec 6) (s : State) : Out :=
  fpLegal (s.cfg.hasC && s.cfg.hasD) (.cFldsp rd imm) s (loadD 2 rd (s.getX 2 + offCdsp imm))

/-- C.LWSP (R356). -/
def execCLwsp (rd : Reg) (imm : BitVec 6) (s : State) : Out :=
  whenLegal s.cfg.hasC (.cLwsp rd imm) s (loadX 2 rd (s.getX 2 + offCwsp imm) 4 lowWord)

/-- C.FLWSP (R357). -/
def execCFlwsp (rd : Reg) (imm : BitVec 6) (s : State) : Out :=
  fpLegal (s.cfg.hasC && s.cfg.hasF) (.cFlwsp rd imm) s (loadS 2 rd (s.getX 2 + offCwsp imm))

/-- C.JR (R358). -/
def execCJr (rs1 : Reg) (s : State) : Out := whenLegal s.cfg.hasC (.cJr rs1) s (jumpLink 2 0 (evenAddr (s.getX rs1)))

/-- C.MV (R359). -/
def execCMv (rd rs2 : Reg) (s : State) : Out := whenLegal s.cfg.hasC (.cMv rd rs2) s (writeRd 2 rd (s.getX rs2))

/-- C.EBREAK (R360). -/
def execCEbreak (s : State) : Out := whenLegal s.cfg.hasC .cEbreak s (raise ⟨.breakpoint, none, .unstated⟩)

/-- C.JALR (R361). -/
def execCJalr (rs1 : Reg) (s : State) : Out :=
  whenLegal s.cfg.hasC (.cJalr rs1) s (jumpLink 2 1 (evenAddr (s.getX rs1)))

/-- C.ADD (R362). -/
def execCAdd (rd rs2 : Reg) (s : State) : Out :=
  whenLegal s.cfg.hasC (.cAdd rd rs2) s (writeRd 2 rd (s.getX rd + s.getX rs2))

/-- C.FSDSP (R363). -/
def execCFsdsp (rs2 : Reg) (imm : BitVec 6) (s : State) : Out :=
  fpLegal (s.cfg.hasC && s.cfg.hasD) (.cFsdsp rs2 imm) s (storeF 2 rs2 (s.getX 2 + offCdsp imm) 8)

/-- C.SWSP (R364). -/
def execCSwsp (rs2 : Reg) (imm : BitVec 6) (s : State) : Out :=
  whenLegal s.cfg.hasC (.cSwsp rs2 imm) s (storeX 2 (s.getX 2 + offCwsp imm) 4 ((s.getX rs2).setWidth 64))

/-- C.FSWSP (R365). -/
def execCFswsp (rs2 : Reg) (imm : BitVec 6) (s : State) : Out :=
  fpLegal (s.cfg.hasC && s.cfg.hasF) (.cFswsp rs2 imm) s (storeF 2 rs2 (s.getX 2 + offCwsp imm) 4)

end Sys2Proof.Machine
end

