-- ==== Sys2Proof/Machine/Rv32d.lean ====
section
/-! DEFINITION. RV32D (45_rv32d.md). The instructions exist only with HAS_D (R440). -/

namespace Sys2Proof.Machine

/-- FLD (R441). -/
def execFld (rd rs1 : Reg) (imm : BitVec 12) (s : State) : Out :=
  fpLegal s.cfg.hasD (.fld rd rs1 imm) s (loadD 4 rd (eaI s rs1 imm))

/-- FSD (R442). -/
def execFsd (rs2 rs1 : Reg) (imm : BitVec 12) (s : State) : Out :=
  fpLegal s.cfg.hasD (.fsd rs2 rs1 imm) s (storeF 4 rs2 (eaI s rs1 imm) 8)

/-- FMADD.D (R443). -/
def execFmaddD (rd rs1 rs2 rs3 : Reg) (rm : BitVec 3) (s : State) : Out :=
  fpRounded s.cfg.hasD (.fmaddD rd rs1 rs2 rs3 rm) rm s fun mode s =>
    finishD rd (fFma fmtD mode (s.valD rs1) (s.valD rs2) (s.valD rs3)) s

/-- FMSUB.D (R444). -/
def execFmsubD (rd rs1 rs2 rs3 : Reg) (rm : BitVec 3) (s : State) : Out :=
  fpRounded s.cfg.hasD (.fmsubD rd rs1 rs2 rs3 rm) rm s fun mode s =>
    finishD rd (fFma fmtD mode (s.valD rs1) (s.valD rs2) (s.valD rs3).negate) s

/-- FNMSUB.D (R445). -/
def execFnmsubD (rd rs1 rs2 rs3 : Reg) (rm : BitVec 3) (s : State) : Out :=
  fpRounded s.cfg.hasD (.fnmsubD rd rs1 rs2 rs3 rm) rm s fun mode s =>
    finishD rd (fFma fmtD mode (s.valD rs1).negate (s.valD rs2) (s.valD rs3)) s

/-- FNMADD.D (R446). -/
def execFnmaddD (rd rs1 rs2 rs3 : Reg) (rm : BitVec 3) (s : State) : Out :=
  fpRounded s.cfg.hasD (.fnmaddD rd rs1 rs2 rs3 rm) rm s fun mode s =>
    finishD rd (fFma fmtD mode (s.valD rs1).negate (s.valD rs2) (s.valD rs3).negate) s

/-- FADD.D (R447). -/
def execFaddD (rd rs1 rs2 : Reg) (rm : BitVec 3) (s : State) : Out :=
  fpRounded s.cfg.hasD (.faddD rd rs1 rs2 rm) rm s fun mode s =>
    finishD rd (fAdd fmtD mode (s.valD rs1) (s.valD rs2)) s

/-- FSUB.D (R448). -/
def execFsubD (rd rs1 rs2 : Reg) (rm : BitVec 3) (s : State) : Out :=
  fpRounded s.cfg.hasD (.fsubD rd rs1 rs2 rm) rm s fun mode s =>
    finishD rd (fSub fmtD mode (s.valD rs1) (s.valD rs2)) s

/-- FMUL.D (R449). -/
def execFmulD (rd rs1 rs2 : Reg) (rm : BitVec 3) (s : State) : Out :=
  fpRounded s.cfg.hasD (.fmulD rd rs1 rs2 rm) rm s fun mode s =>
    finishD rd (fMul fmtD mode (s.valD rs1) (s.valD rs2)) s

/-- FDIV.D (R450). -/
def execFdivD (rd rs1 rs2 : Reg) (rm : BitVec 3) (s : State) : Out :=
  fpRounded s.cfg.hasD (.fdivD rd rs1 rs2 rm) rm s fun mode s =>
    finishD rd (fDiv fmtD mode (s.valD rs1) (s.valD rs2)) s

/-- FSQRT.D (R451). -/
def execFsqrtD (rd rs1 : Reg) (rm : BitVec 3) (s : State) : Out :=
  fpRounded s.cfg.hasD (.fsqrtD rd rs1 rm) rm s fun mode s => finishD rd (fSqrt fmtD mode (s.valD rs1)) s

/-- FSGNJ.D (R452). -/
def execFsgnjD (rd rs1 rs2 : Reg) (s : State) : Out :=
  fpLegal s.cfg.hasD (.fsgnjD rd rs1 rs2) s fun s =>
    retire 4 ((s.setF rd (withSignD ((s.getF rs2).getLsbD 63) (s.getF rs1))).fpDone 0)

/-- FSGNJN.D (R453). -/
def execFsgnjnD (rd rs1 rs2 : Reg) (s : State) : Out :=
  fpLegal s.cfg.hasD (.fsgnjnD rd rs1 rs2) s fun s =>
    retire 4 ((s.setF rd (withSignD (!(s.getF rs2).getLsbD 63) (s.getF rs1))).fpDone 0)

/-- FSGNJX.D (R454). -/
def execFsgnjxD (rd rs1 rs2 : Reg) (s : State) : Out :=
  fpLegal s.cfg.hasD (.fsgnjxD rd rs1 rs2) s fun s =>
    retire 4 ((s.setF rd (withSignD ((s.getF rs1).getLsbD 63 != (s.getF rs2).getLsbD 63) (s.getF rs1))).fpDone 0)

/-- FMIN.D (R455). -/
def execFminD (rd rs1 rs2 : Reg) (s : State) : Out :=
  fpLegal s.cfg.hasD (.fminD rd rs1 rs2) s fun s =>
    finishD rd (fMinMax fmtD s.cfg.fminmaxVariant fmtD.smaller (s.getF rs1).toNat (s.getF rs2).toNat) s

/-- FMAX.D (R456). -/
def execFmaxD (rd rs1 rs2 : Reg) (s : State) : Out :=
  fpLegal s.cfg.hasD (.fmaxD rd rs1 rs2) s fun s =>
    finishD rd (fMinMax fmtD s.cfg.fminmaxVariant fmtD.larger (s.getF rs1).toNat (s.getF rs2).toNat) s

/-- FCVT.S.D (R457). -/
def execFcvtSD (rd rs1 : Reg) (rm : BitVec 3) (s : State) : Out :=
  fpRounded s.cfg.hasD (.fcvtSD rd rs1 rm) rm s fun mode s => finishS rd (fConvert fmtS mode (s.valD rs1)) s

/-- FCVT.D.S (R458). -/
def execFcvtDS (rd rs1 : Reg) (rm : BitVec 3) (s : State) : Out :=
  fpRounded s.cfg.hasD (.fcvtDS rd rs1 rm) rm s fun mode s => finishD rd (fConvert fmtD mode (s.valS rs1)) s

/-- FEQ.D (R459). -/
def execFeqD (rd rs1 rs2 : Reg) (s : State) : Out :=
  fpLegal s.cfg.hasD (.feqD rd rs1 rs2) s (compareD false cmpEq rd rs1 rs2)

/-- FLT.D (R460). -/
def execFltD (rd rs1 rs2 : Reg) (s : State) : Out :=
  fpLegal s.cfg.hasD (.fltD rd rs1 rs2) s (compareD true cmpLt rd rs1 rs2)

/-- FLE.D (R461). -/
def execFleD (rd rs1 rs2 : Reg) (s : State) : Out :=
  fpLegal s.cfg.hasD (.fleD rd rs1 rs2) s (compareD true cmpLe rd rs1 rs2)

/-- FCLASS.D (R462). -/
def execFclassD (rd rs1 : Reg) (s : State) : Out :=
  fpLegal s.cfg.hasD (.fclassD rd rs1) s fun s => finishX rd (fClass fmtD (s.getF rs1).toNat) 0 s

/-- FCVT.W.D (R463). -/
def execFcvtWD (rd rs1 : Reg) (rm : BitVec 3) (s : State) : Out :=
  fpRounded s.cfg.hasD (.fcvtWD rd rs1 rm) rm s fun mode s =>
    let r := toSigned mode (s.valD rs1)
    finishX rd r.1 r.2 s

/-- FCVT.WU.D (R464). -/
def execFcvtWuD (rd rs1 : Reg) (rm : BitVec 3) (s : State) : Out :=
  fpRounded s.cfg.hasD (.fcvtWuD rd rs1 rm) rm s fun mode s =>
    let r := toUnsigned mode (s.valD rs1)
    finishX rd r.1 r.2 s

/-- FCVT.D.W (R465). -/
def execFcvtDW (rd rs1 : Reg) (rm : BitVec 3) (s : State) : Out :=
  fpRounded s.cfg.hasD (.fcvtDW rd rs1 rm) rm s fun mode s => finishD rd (ofInt fmtD mode (s.getX rs1).toInt) s

/-- FCVT.D.WU (R466). -/
def execFcvtDWu (rd rs1 : Reg) (rm : BitVec 3) (s : State) : Out :=
  fpRounded s.cfg.hasD (.fcvtDWu rd rs1 rm) rm s fun mode s => finishD rd (ofInt fmtD mode (s.getX rs1).toNat) s

end Sys2Proof.Machine
end

