-- ==== Sys2Proof/Machine/Rv32f.lean ====
section
/-! DEFINITION. RV32F (44_rv32f.md). The instructions exist only with HAS_F (R400). -/

namespace Sys2Proof.Machine

/-- FLW (R405). -/
def execFlw (rd rs1 : Reg) (imm : BitVec 12) (s : State) : Out :=
  fpLegal s.cfg.hasF (.flw rd rs1 imm) s (loadS 4 rd (eaI s rs1 imm))

/-- FSW (R406). -/
def execFsw (rs2 rs1 : Reg) (imm : BitVec 12) (s : State) : Out :=
  fpLegal s.cfg.hasF (.fsw rs2 rs1 imm) s (storeF 4 rs2 (eaI s rs1 imm) 4)

/-- FMADD.S (R407). -/
def execFmaddS (rd rs1 rs2 rs3 : Reg) (rm : BitVec 3) (s : State) : Out :=
  fpRounded s.cfg.hasF (.fmaddS rd rs1 rs2 rs3 rm) rm s fun mode s =>
    finishS rd (fFma fmtS mode (s.valS rs1) (s.valS rs2) (s.valS rs3)) s

/-- FMSUB.S (R408). -/
def execFmsubS (rd rs1 rs2 rs3 : Reg) (rm : BitVec 3) (s : State) : Out :=
  fpRounded s.cfg.hasF (.fmsubS rd rs1 rs2 rs3 rm) rm s fun mode s =>
    finishS rd (fFma fmtS mode (s.valS rs1) (s.valS rs2) (s.valS rs3).negate) s

/-- FNMSUB.S (R409). -/
def execFnmsubS (rd rs1 rs2 rs3 : Reg) (rm : BitVec 3) (s : State) : Out :=
  fpRounded s.cfg.hasF (.fnmsubS rd rs1 rs2 rs3 rm) rm s fun mode s =>
    finishS rd (fFma fmtS mode (s.valS rs1).negate (s.valS rs2) (s.valS rs3)) s

/-- FNMADD.S (R410). -/
def execFnmaddS (rd rs1 rs2 rs3 : Reg) (rm : BitVec 3) (s : State) : Out :=
  fpRounded s.cfg.hasF (.fnmaddS rd rs1 rs2 rs3 rm) rm s fun mode s =>
    finishS rd (fFma fmtS mode (s.valS rs1).negate (s.valS rs2) (s.valS rs3).negate) s

/-- FADD.S (R411). -/
def execFaddS (rd rs1 rs2 : Reg) (rm : BitVec 3) (s : State) : Out :=
  fpRounded s.cfg.hasF (.faddS rd rs1 rs2 rm) rm s fun mode s =>
    finishS rd (fAdd fmtS mode (s.valS rs1) (s.valS rs2)) s

/-- FSUB.S (R412). -/
def execFsubS (rd rs1 rs2 : Reg) (rm : BitVec 3) (s : State) : Out :=
  fpRounded s.cfg.hasF (.fsubS rd rs1 rs2 rm) rm s fun mode s =>
    finishS rd (fSub fmtS mode (s.valS rs1) (s.valS rs2)) s

/-- FMUL.S (R413). -/
def execFmulS (rd rs1 rs2 : Reg) (rm : BitVec 3) (s : State) : Out :=
  fpRounded s.cfg.hasF (.fmulS rd rs1 rs2 rm) rm s fun mode s =>
    finishS rd (fMul fmtS mode (s.valS rs1) (s.valS rs2)) s

/-- FDIV.S (R414). -/
def execFdivS (rd rs1 rs2 : Reg) (rm : BitVec 3) (s : State) : Out :=
  fpRounded s.cfg.hasF (.fdivS rd rs1 rs2 rm) rm s fun mode s =>
    finishS rd (fDiv fmtS mode (s.valS rs1) (s.valS rs2)) s

/-- FSQRT.S (R415). -/
def execFsqrtS (rd rs1 : Reg) (rm : BitVec 3) (s : State) : Out :=
  fpRounded s.cfg.hasF (.fsqrtS rd rs1 rm) rm s fun mode s => finishS rd (fSqrt fmtS mode (s.valS rs1)) s

/-- FSGNJ.S (R416). -/
def execFsgnjS (rd rs1 rs2 : Reg) (s : State) : Out :=
  fpLegal s.cfg.hasF (.fsgnjS rd rs1 rs2) s fun s =>
    retire 4 ((s.setS rd (withSignS ((s.getS rs2).getLsbD 31) (s.getS rs1))).fpDone 0)

/-- FSGNJN.S (R417). -/
def execFsgnjnS (rd rs1 rs2 : Reg) (s : State) : Out :=
  fpLegal s.cfg.hasF (.fsgnjnS rd rs1 rs2) s fun s =>
    retire 4 ((s.setS rd (withSignS (!(s.getS rs2).getLsbD 31) (s.getS rs1))).fpDone 0)

/-- FSGNJX.S (R418). -/
def execFsgnjxS (rd rs1 rs2 : Reg) (s : State) : Out :=
  fpLegal s.cfg.hasF (.fsgnjxS rd rs1 rs2) s fun s =>
    retire 4 ((s.setS rd (withSignS ((s.getS rs1).getLsbD 31 != (s.getS rs2).getLsbD 31) (s.getS rs1))).fpDone 0)

/-- FMIN.S (R419). -/
def execFminS (rd rs1 rs2 : Reg) (s : State) : Out :=
  fpLegal s.cfg.hasF (.fminS rd rs1 rs2) s fun s =>
    finishS rd (fMinMax fmtS s.cfg.fminmaxVariant fmtS.smaller (s.getS rs1).toNat (s.getS rs2).toNat) s

/-- FMAX.S (R420). -/
def execFmaxS (rd rs1 rs2 : Reg) (s : State) : Out :=
  fpLegal s.cfg.hasF (.fmaxS rd rs1 rs2) s fun s =>
    finishS rd (fMinMax fmtS s.cfg.fminmaxVariant fmtS.larger (s.getS rs1).toNat (s.getS rs2).toNat) s

/-- FCVT.W.S (R421). -/
def execFcvtWS (rd rs1 : Reg) (rm : BitVec 3) (s : State) : Out :=
  fpRounded s.cfg.hasF (.fcvtWS rd rs1 rm) rm s fun mode s =>
    let r := toSigned mode (s.valS rs1)
    finishX rd r.1 r.2 s

/-- FCVT.WU.S (R422). -/
def execFcvtWuS (rd rs1 : Reg) (rm : BitVec 3) (s : State) : Out :=
  fpRounded s.cfg.hasF (.fcvtWuS rd rs1 rm) rm s fun mode s =>
    let r := toUnsigned mode (s.valS rs1)
    finishX rd r.1 r.2 s

/-- FMV.X.W (R423): the raw low 32 bits. -/
def execFmvXW (rd rs1 : Reg) (s : State) : Out :=
  fpLegal s.cfg.hasF (.fmvXW rd rs1) s fun s => finishX rd ((s.getF rs1).setWidth 32) 0 s

/-- FEQ.S (R424). -/
def execFeqS (rd rs1 rs2 : Reg) (s : State) : Out :=
  fpLegal s.cfg.hasF (.feqS rd rs1 rs2) s (compareS false cmpEq rd rs1 rs2)

/-- FLT.S (R425). -/
def execFltS (rd rs1 rs2 : Reg) (s : State) : Out :=
  fpLegal s.cfg.hasF (.fltS rd rs1 rs2) s (compareS true cmpLt rd rs1 rs2)

/-- FLE.S (R426). -/
def execFleS (rd rs1 rs2 : Reg) (s : State) : Out :=
  fpLegal s.cfg.hasF (.fleS rd rs1 rs2) s (compareS true cmpLe rd rs1 rs2)

/-- FCLASS.S (R427). -/
def execFclassS (rd rs1 : Reg) (s : State) : Out :=
  fpLegal s.cfg.hasF (.fclassS rd rs1) s fun s => finishX rd (fClass fmtS (s.getS rs1).toNat) 0 s

/-- FCVT.S.W (R428). -/
def execFcvtSW (rd rs1 : Reg) (rm : BitVec 3) (s : State) : Out :=
  fpRounded s.cfg.hasF (.fcvtSW rd rs1 rm) rm s fun mode s => finishS rd (ofInt fmtS mode (s.getX rs1).toInt) s

/-- FCVT.S.WU (R429). -/
def execFcvtSWu (rd rs1 : Reg) (rm : BitVec 3) (s : State) : Out :=
  fpRounded s.cfg.hasF (.fcvtSWu rd rs1 rm) rm s fun mode s => finishS rd (ofInt fmtS mode (s.getX rs1).toNat) s

/-- FMV.W.X (R430): the raw bits, boxed. -/
def execFmvWX (rd rs1 : Reg) (s : State) : Out :=
  fpLegal s.cfg.hasF (.fmvWX rd rs1) s fun s => retire 4 ((s.setS rd (s.getX rs1)).fpDone 0)

end Sys2Proof.Machine
end

