-- ==== Sys2Proof/Machine/Rv32m.lean ====
section
/-! DEFINITION. RV32M (41_rv32m.md): multiplication and division. The instructions exist only with HAS_M (R320). -/

namespace Sys2Proof.Machine

/-- The signed quotient, rounded towards zero; by 0 it is -1, and the overflow case gives the dividend (R325). -/
def divSigned (a b : Word) : Word := if b = 0#32 then -1#32 else a.sdiv b

/-- The unsigned quotient; by 0 it is all ones (R326). -/
def divUnsigned (a b : Word) : Word := if b = 0#32 then -1#32 else a / b

/-- The signed remainder, with the dividend's sign; by 0 it is the dividend (R327). -/
def remSigned (a b : Word) : Word := if b = 0#32 then a else a.srem b

/-- The unsigned remainder; by 0 it is the dividend (R328). -/
def remUnsigned (a b : Word) : Word := if b = 0#32 then a else a % b

/-- The upper half of a 64-bit product (R322 to R324). -/
def highHalf (p : DWord) : Word := p.extractLsb' 32 32

/-- MUL (R321). -/
def execMul (rd rs1 rs2 : Reg) (s : State) : Out :=
  whenLegal s.cfg.hasM (.mul rd rs1 rs2) s (writeRd 4 rd (s.getX rs1 * s.getX rs2))

/-- MULH (R322). -/
def execMulh (rd rs1 rs2 : Reg) (s : State) : Out :=
  whenLegal s.cfg.hasM (.mulh rd rs1 rs2) s (writeRd 4 rd (highHalf ((s.getX rs1).signExtend 64 * (s.getX rs2).signExtend 64)))

/-- MULHSU (R323). -/
def execMulhsu (rd rs1 rs2 : Reg) (s : State) : Out :=
  whenLegal s.cfg.hasM (.mulhsu rd rs1 rs2) s (writeRd 4 rd (highHalf ((s.getX rs1).signExtend 64 * (s.getX rs2).zeroExtend 64)))

/-- MULHU (R324). -/
def execMulhu (rd rs1 rs2 : Reg) (s : State) : Out :=
  whenLegal s.cfg.hasM (.mulhu rd rs1 rs2) s (writeRd 4 rd (highHalf ((s.getX rs1).zeroExtend 64 * (s.getX rs2).zeroExtend 64)))

/-- DIV (R325). -/
def execDiv (rd rs1 rs2 : Reg) (s : State) : Out :=
  whenLegal s.cfg.hasM (.div rd rs1 rs2) s (writeRd 4 rd (divSigned (s.getX rs1) (s.getX rs2)))

/-- DIVU (R326). -/
def execDivu (rd rs1 rs2 : Reg) (s : State) : Out :=
  whenLegal s.cfg.hasM (.divu rd rs1 rs2) s (writeRd 4 rd (divUnsigned (s.getX rs1) (s.getX rs2)))

/-- REM (R327). -/
def execRem (rd rs1 rs2 : Reg) (s : State) : Out :=
  whenLegal s.cfg.hasM (.rem rd rs1 rs2) s (writeRd 4 rd (remSigned (s.getX rs1) (s.getX rs2)))

/-- REMU (R328). -/
def execRemu (rd rs1 rs2 : Reg) (s : State) : Out :=
  whenLegal s.cfg.hasM (.remu rd rs1 rs2) s (writeRd 4 rd (remUnsigned (s.getX rs1) (s.getX rs2)))

end Sys2Proof.Machine
end

