-- ==== Sys2Proof/Machine/Csr.lean ====
section
/-! DEFINITION. The control and status registers: which exist, who may access them (10_state.md R31 to R34), what a read
returns (46_system.md R481), what a write does (R482), and the CSR instructions with their access points (R483 to R499). -/

namespace Sys2Proof.Machine

/-- The CSRs by name (R31). -/
inductive Csr
  | fflags | frm | fcsr
  | mstatus | misa | mie | mtvec | mcounteren | mtvt | mcountinhibit
  | mscratch | mepc | mcause | mtval | mip | mnxti | mintstatus | mscratchcsw | mscratchcswl
  | pmpcfg (k : Nat) | pmpaddr (n : Nat)
  | milmCtl | mdlmCtl | meccCode | mnvec | msubm | mdcause | mcacheCtl | mmiscCtl
  | msavestatus | msaveepc1 | msavecause1 | msaveepc2 | msavecause2 | msavedcause1 | msavedcause2 | meccLock
  | pushmsubm | mtvt2 | jalmnxti | pushmcause | pushmepc
  | mppicfgInfo | mfiocfgInfo
  | ucode | wfe | sleepvalue | txevt
  | mcycle | minstret | mcycleh | minstreth
  | cycle | time | instret | cycleh | timeh | instreth
  | mvendorid | marchid | mimpid | mhartid | micfgInfo | mdcfgInfo | mcfgInfo
deriving DecidableEq, Repr

/-- The addresses of R31, but for those of the PMP registers. -/
def csrTable : List (Nat × Csr) :=
  [(0x001, .fflags), (0x002, .frm), (0x003, .fcsr),
   (0x300, .mstatus), (0x301, .misa), (0x304, .mie), (0x305, .mtvec), (0x306, .mcounteren), (0x307, .mtvt),
   (0x320, .mcountinhibit), (0x340, .mscratch), (0x341, .mepc), (0x342, .mcause), (0x343, .mtval), (0x344, .mip),
   (0x345, .mnxti), (0x346, .mintstatus), (0x348, .mscratchcsw), (0x349, .mscratchcswl)] ++
  [(0x7C0, .milmCtl), (0x7C1, .mdlmCtl), (0x7C2, .meccCode), (0x7C3, .mnvec), (0x7C4, .msubm), (0x7C9, .mdcause),
   (0x7CA, .mcacheCtl), (0x7D0, .mmiscCtl), (0x7D6, .msavestatus), (0x7D7, .msaveepc1), (0x7D8, .msavecause1),
   (0x7D9, .msaveepc2), (0x7DA, .msavecause2), (0x7DB, .msavedcause1), (0x7DC, .msavedcause2), (0x7DE, .meccLock),
   (0x7EB, .pushmsubm), (0x7EC, .mtvt2), (0x7ED, .jalmnxti), (0x7EE, .pushmcause), (0x7EF, .pushmepc),
   (0x7F0, .mppicfgInfo), (0x7F1, .mfiocfgInfo)] ++
  [(0x801, .ucode), (0x810, .wfe), (0x811, .sleepvalue), (0x812, .txevt),
   (0xB00, .mcycle), (0xB02, .minstret), (0xB80, .mcycleh), (0xB82, .minstreth),
   (0xC00, .cycle), (0xC01, .time), (0xC02, .instret), (0xC80, .cycleh), (0xC81, .timeh), (0xC82, .instreth),
   (0xF11, .mvendorid), (0xF12, .marchid), (0xF13, .mimpid), (0xF14, .mhartid),
   (0xFC0, .micfgInfo), (0xFC1, .mdcfgInfo), (0xFC2, .mcfgInfo)]

/-- The CSR a 12-bit address names (R31): pmpcfg<k> is at 0x3A0 + k, pmpaddr<n> at 0x3B0 + n. -/
def Csr.ofAddr (a : CsrAddr) : Option Csr :=
  let n := a.toNat
  if 0x3A0 ≤ n ∧ n < 0x3B0 then some (.pmpcfg (n - 0x3A0))
  else if 0x3B0 ≤ n ∧ n < 0x3F0 then some (.pmpaddr (n - 0x3B0))
  else (csrTable.find? (fun p => p.1 == n)).map (·.2)

/-- Whether the CSR exists in the configuration (R31, R32). -/
def Csr.existsIn (cfg : Config) : Csr → Bool
  | .fflags | .frm | .fcsr => cfg.hasF || cfg.hasD
  | .mcounteren => cfg.hasUmode
  | .pmpcfg k => cfg.hasPmp && decide (k < (cfg.pmpEntries + 3) / 4)
  | .pmpaddr n => cfg.hasPmp && decide (n < cfg.pmpEntries)
  | .milmCtl => cfg.hasIlm
  | .mdlmCtl => cfg.hasDlm
  | .meccCode | .meccLock => cfg.hasEcc
  | .mcacheCtl => cfg.hasIcache
  | .msavestatus | .msaveepc1 | .msavecause1 | .msaveepc2 | .msavecause2 | .msavedcause1 | .msavedcause2 =>
    cfg.hasNestedStack
  | .ucode => cfg.hasP
  | _ => true

/-- The access class the table of R31 prints. -/
inductive CsrClass
  | mrw
  | mro
  | urw
  | uro
deriving DecidableEq, Repr

/-- The class of a CSR (R31, R33). -/
def Csr.cls : Csr → CsrClass
  | .fflags | .frm | .fcsr | .ucode | .wfe | .sleepvalue | .txevt => .urw
  | .cycle | .time | .instret | .cycleh | .timeh | .instreth => .uro
  | .mppicfgInfo | .mfiocfgInfo | .mvendorid | .marchid | .mimpid | .mhartid | .micfgInfo | .mdcfgInfo | .mcfgInfo =>
    .mro
  | _ => .mrw

/-- Items 2, 3 and 4 of R34: mode, class, and whether the instruction writes. -/
def CsrClass.permits (cls : CsrClass) (p : Priv) (wr : Bool) : Bool :=
  match cls, p with
  | .urw, _ => true
  | .uro, _ => !wr
  | .mrw, .machine => true
  | .mro, .machine => !wr
  | .mrw, .user => false
  | .mro, .user => false

/-- Items 5 and 6 of R34: the counters User Mode may read, and the floating-point CSRs while FS = 0. -/
def Csr.enabled (s : State) : Csr → Bool
  | .cycle | .cycleh => s.priv == .machine || s.csr.mcounteren.cy
  | .time | .timeh => s.priv == .machine || s.csr.mcounteren.tm
  | .instret | .instreth => s.priv == .machine || s.csr.mcounteren.ir
  | .fflags | .frm | .fcsr => s.csr.mstatus.fs != 0
  | _ => true

/-- The access check of R34 on an existing address. -/
def Csr.permitted (s : State) (c : Csr) (wr : Bool) : Bool :=
  c.existsIn s.cfg && c.cls.permits s.priv wr && c.enabled s

/-! ### Layouts -/

/-- mstatus as software reads it, SD computed (R40, R49). -/
def Mstatus.word (m : Mstatus) : Word :=
  BitVec.ofBool (m.fs == 3 || m.xs == 3) ++ 0#12 ++ BitVec.ofBool m.sum ++ BitVec.ofBool m.mprv ++ m.xs ++ m.fs
    ++ m.mpp.bits ++ 0#3 ++ BitVec.ofBool m.mpie ++ 0#3 ++ BitVec.ofBool m.mie ++ 0#3

/-- The layout of mcause (R56). -/
def causeWord (interrupt minhv : Bool) (mpp : BitVec 2) (mpie : Bool) (mpil : BitVec 8) (code : BitVec 12) : Word :=
  BitVec.ofBool interrupt ++ BitVec.ofBool minhv ++ mpp ++ BitVec.ofBool mpie ++ 0#3 ++ mpil ++ 0#4 ++ code

/-- mcause with its mirrored MPP and MPIE (R43, R56). -/
def Csrs.causeRead (c : Csrs) : Word :=
  causeWord c.mcause.interrupt c.mcause.minhv c.mstatus.mpp.bits c.mstatus.mpie c.mcause.mpil c.mcause.exccode

/-- msavecause1 and msavecause2 (11_state_nuclei_csr.md R110). -/
def SavedCause.word (c : SavedCause) : Word := causeWord c.interrupt c.minhv c.mpp c.mpie c.mpil c.exccode

/-- What a write stores in a saved cause (R482). -/
def SavedCause.ofWord (v : Word) : SavedCause where
  interrupt := v.getLsbD 31
  minhv := v.getLsbD 30
  mpp := v.extractLsb' 28 2
  mpie := v.getLsbD 27
  mpil := v.extractLsb' 16 8
  exccode := v.extractLsb' 0 12

/-- msubm (11_state_nuclei_csr.md R104). -/
def Msubm.word (m : Msubm) : Word := 0#22 ++ m.ptyp ++ m.typ ++ 0#6

/-- msavestatus (11_state_nuclei_csr.md R108). -/
def saveStatusWord (l1 l2 : SaveLevel) : Word :=
  0#16 ++ l2.ptyp ++ 0#3 ++ l2.mpp ++ BitVec.ofBool l2.mpie ++ l1.ptyp ++ 0#3 ++ l1.mpp ++ BitVec.ofBool l1.mpie

/-- milm_ctl and mdlm_ctl (11_state_nuclei_csr.md R101, R102). -/
def LocalMemCtl.word (bpa : BitVec 22) (m : LocalMemCtl) : Word :=
  bpa ++ 0#6 ++ BitVec.ofBool m.rwecc ++ BitVec.ofBool m.excpEn ++ BitVec.ofBool m.eccEn ++ 1#1

/-- mcache_ctl (11_state_nuclei_csr.md R106). -/
def cacheWord (d i : CacheCtl) (scpd : Bool) : Word :=
  0#11 ++ BitVec.ofBool d.rwdecc ++ BitVec.ofBool d.rwtecc ++ BitVec.ofBool d.excpEn ++ BitVec.ofBool d.eccEn
    ++ BitVec.ofBool d.en ++ 0#10 ++ BitVec.ofBool i.rwdecc ++ BitVec.ofBool i.rwtecc ++ BitVec.ofBool i.excpEn
    ++ BitVec.ofBool i.eccEn ++ BitVec.ofBool scpd ++ BitVec.ofBool i.en

/-- mmisc_ctl (11_state_nuclei_csr.md R107). -/
def MmiscCtl.word (m : MmiscCtl) : Word :=
  0#22 ++ BitVec.ofBool m.nmiCauseFff ++ 0#2 ++ BitVec.ofBool m.misalign ++ 0#2 ++ BitVec.ofBool m.bpu ++ 0#3

/-- mecc_code (11_state_nuclei_csr.md R130). -/
def MeccCode.word (m : MeccCode) : Word := 0#3 ++ m.sramid ++ 0#3 ++ m.ramid ++ 0#7 ++ m.code

/-- The bits of mecc_code.Code that exist: ECC_CODE_WIDTH of them (11_state_nuclei_csr.md R130). -/
def eccCodeMask (width : Nat) : BitVec 9 := 0x1FF#9 >>> (9 - width)

/-- The A field of a PMP configuration byte (R72). -/
def PmpMode.bits : PmpMode → BitVec 2
  | .off => 0
  | .na4 => 2
  | .napot => 3

/-- What a write stores in A: the value 1 stores 0 (R72). -/
def PmpMode.ofBits (b : BitVec 2) : PmpMode :=
  if b = 2#2 then .na4 else if b = 3#2 then .napot else .off

/-- A PMP configuration byte (R72). -/
def PmpEntry.cfgByte (e : PmpEntry) : Byte :=
  BitVec.ofBool e.lock ++ 0#2 ++ e.mode.bits ++ BitVec.ofBool e.x ++ BitVec.ofBool e.w ++ BitVec.ofBool e.r

/-- A write of a PMP configuration byte; a locked entry keeps its own (R72, R74). -/
def PmpEntry.writeCfg (e : PmpEntry) (b : Byte) : PmpEntry :=
  if e.lock then e
  else { e with lock := b.getLsbD 7, mode := .ofBits (b.extractLsb' 3 2), x := b.getLsbD 2, w := b.getLsbD 1,
                r := b.getLsbD 0 }

/-- A write of pmpaddr; a locked entry keeps its own (R73, R74). -/
def PmpEntry.writeAddr (e : PmpEntry) (v : Word) : PmpEntry := if e.lock then e else { e with addr := v.setWidth 30 }

/-- The configuration byte of entry `n`; a slot of pmpcfg with no entry reads 0 (93_implementation_defined.md A1). -/
def pmpByte (l : List PmpEntry) (n : Nat) : Byte :=
  match l[n]? with
  | some e => e.cfgByte
  | none => 0

/-- pmpcfg<k> (R72). -/
def pmpcfgWord (l : List PmpEntry) (k : Nat) : Word :=
  pmpByte l (4 * k + 3) ++ pmpByte l (4 * k + 2) ++ pmpByte l (4 * k + 1) ++ pmpByte l (4 * k)

/-- A write of pmpcfg<k>, byte by byte (R482). -/
def writePmpcfg (l : List PmpEntry) (k : Nat) (v : Word) : List PmpEntry :=
  (((l.modify (4 * k) (·.writeCfg (v.extractLsb' 0 8))).modify (4 * k + 1) (·.writeCfg (v.extractLsb' 8 8))).modify
    (4 * k + 2) (·.writeCfg (v.extractLsb' 16 8))).modify (4 * k + 3) (·.writeCfg (v.extractLsb' 24 8))

/-- How many low bits of mtvt are constant 0 (R53, 92_eei_decisions.md D34). -/
def mtvtZeros (sources : Nat) : Nat :=
  if sources ≤ 16 then 6
  else if sources ≤ 32 then 7
  else if sources ≤ 64 then 8
  else if sources ≤ 128 then 9
  else if sources ≤ 256 then 10
  else if sources ≤ 512 then 11
  else if sources ≤ 1024 then 12
  else if sources ≤ 2048 then 13
  else 14

/-- Clear the low `n` bits. -/
def clearLow (n : Nat) (v : Word) : Word := v >>> n <<< n

/-- misa (R41); the letters N, P and X are parameters (log 44). -/
def misaWord (cfg : Config) : Word :=
  1#2 ++ 0#6 ++ BitVec.ofBool cfg.misaX ++ 0#2 ++ BitVec.ofBool cfg.hasUmode ++ 0#4 ++ BitVec.ofBool cfg.misaP ++ 0#1
    ++ BitVec.ofBool cfg.misaN ++ BitVec.ofBool cfg.hasM ++ 0#3 ++ 1#1 ++ 0#2 ++ BitVec.ofBool cfg.hasF ++ 0#1
    ++ BitVec.ofBool cfg.hasD ++ BitVec.ofBool cfg.hasC ++ 0#1 ++ BitVec.ofBool cfg.hasA

/-- mcfg_info (11_state_nuclei_csr.md R120). -/
def mcfgWord (cfg : Config) : Word :=
  0#21 ++ BitVec.ofBool cfg.hasDcache ++ BitVec.ofBool cfg.hasIcache ++ BitVec.ofBool cfg.hasDlm
    ++ BitVec.ofBool cfg.hasIlm ++ BitVec.ofBool cfg.hasNice ++ BitVec.ofBool cfg.hasPpi ++ BitVec.ofBool cfg.hasFio
    ++ BitVec.ofBool cfg.hasPlic ++ BitVec.ofBool cfg.hasClic ++ BitVec.ofBool cfg.hasEcc ++ BitVec.ofBool cfg.hasTee

/-- micfg_info (11_state_nuclei_csr.md R121). -/
def micfgWord (cfg : Config) : Word :=
  0#9 ++ BitVec.ofBool cfg.ilmEcc ++ BitVec.ofBool cfg.ilmXonly ++ cfg.ilmSize ++ 0#5 ++ BitVec.ofBool cfg.icEcc
    ++ cfg.icLsize ++ cfg.icWay ++ cfg.icSet

/-- mdcfg_info (11_state_nuclei_csr.md R122). -/
def mdcfgWord (cfg : Config) : Word :=
  0#10 ++ BitVec.ofBool cfg.dlmEcc ++ cfg.dlmSize ++ 0#5 ++ BitVec.ofBool cfg.dcEcc ++ cfg.dcLsize ++ cfg.dcWay
    ++ cfg.dcSet

/-- mppicfg_info and mfiocfg_info (11_state_nuclei_csr.md R123, R124). -/
def portWord (bpa : BitVec 22) (size : BitVec 5) : Word := bpa ++ 0#4 ++ size ++ 1#1

/-- mnvec: the NMI's entry address as software reads it (11_state_nuclei_csr.md R103). -/
def nmiVector (s : State) : Word := if s.csr.mmisc.nmiCauseFff then s.csr.mtvec else s.cfg.resetVector

/-! ### Reading (46_system.md R481) -/

/-- `CsrRead`, after the access check. The access points have no value of their own; their forms never read them. -/
def csrRead (s : State) : Csr → Word
  | .fflags => s.csr.fcsr.fflags.setWidth 32
  | .frm => s.csr.fcsr.frm.setWidth 32
  | .fcsr => 0#24 ++ s.csr.fcsr.frm ++ s.csr.fcsr.fflags
  | .mstatus => s.csr.mstatus.word
  | .misa => misaWord s.cfg
  | .mie | .mip | .txevt => 0
  | .mtvec => s.csr.mtvec
  | .mcounteren =>
    0#29 ++ BitVec.ofBool s.csr.mcounteren.ir ++ BitVec.ofBool s.csr.mcounteren.tm ++ BitVec.ofBool s.csr.mcounteren.cy
  | .mtvt => s.csr.mtvt
  | .mcountinhibit => 0#29 ++ BitVec.ofBool s.csr.mcountinhibit.ir ++ 0#1 ++ BitVec.ofBool s.csr.mcountinhibit.cy
  | .mscratch => s.csr.mscratch
  | .mepc => s.csr.mepc
  | .mcause => s.csr.causeRead
  | .mtval => s.csr.mtval
  | .mintstatus => s.csr.mintstatus.mil ++ 0#16 ++ s.csr.mintstatus.uil
  | .pmpcfg k => pmpcfgWord s.csr.pmp k
  | .pmpaddr n => (s.csr.pmp[n]?.getD .zero).addr.setWidth 32
  | .milmCtl => s.csr.milm.word s.cfg.ilmBpa
  | .mdlmCtl => s.csr.mdlm.word s.cfg.dlmBpa
  | .meccCode => s.csr.mecc.word
  | .mnvec => nmiVector s
  | .msubm => s.csr.msubm.word
  | .mdcause => s.csr.mdcause.setWidth 32
  | .mcacheCtl => cacheWord s.csr.dcache s.csr.icache s.csr.icScpdMod
  | .mmiscCtl => s.csr.mmisc.word
  | .msavestatus => saveStatusWord s.csr.save1 s.csr.save2
  | .msaveepc1 => s.csr.save1.epc
  | .msavecause1 => s.csr.save1.cause.word
  | .msaveepc2 => s.csr.save2.epc
  | .msavecause2 => s.csr.save2.cause.word
  | .msavedcause1 => s.csr.save1.dcause.setWidth 32
  | .msavedcause2 => s.csr.save2.dcause.setWidth 32
  | .meccLock => (BitVec.ofBool s.csr.meccLock).setWidth 32
  | .mtvt2 => s.csr.mtvt2.entry ++ 0#1 ++ BitVec.ofBool s.csr.mtvt2.en
  | .mppicfgInfo => portWord s.cfg.ppiBpa s.cfg.ppiSize
  | .mfiocfgInfo => portWord s.cfg.fioBpa s.cfg.fioSize
  | .ucode => (BitVec.ofBool s.csr.ucodeOv).setWidth 32
  | .wfe => (BitVec.ofBool s.csr.wfe).setWidth 32
  | .sleepvalue => (BitVec.ofBool s.csr.sleepvalue).setWidth 32
  | .mcycle | .cycle => s.mcycle.setWidth 32
  | .mcycleh | .cycleh => s.mcycle.extractLsb' 32 32
  | .minstret | .instret => s.csr.minstret.setWidth 32
  | .minstreth | .instreth => s.csr.minstret.extractLsb' 32 32
  | .time => s.timer.mtime.setWidth 32
  | .timeh => s.timer.mtime.extractLsb' 32 32
  | .mvendorid => s.cfg.mvendorid
  | .marchid => s.cfg.marchid
  | .mimpid => s.cfg.mimpid
  | .mhartid => s.cfg.mhartid
  | .micfgInfo => micfgWord s.cfg
  | .mdcfgInfo => mdcfgWord s.cfg
  | .mcfgInfo => mcfgWord s.cfg
  | .mnxti | .mscratchcsw | .mscratchcswl | .pushmsubm | .jalmnxti | .pushmcause | .pushmepc => 0

/-! ### Writing (46_system.md R482) -/

/-- The fields of mstatus a write stores (R482): FS only where the core has floating-point registers (R40). XS is read/write
storage (R46). DEDUCED (log 49): part A1 of 93_implementation_defined.md calls it a computed read-only summary, and is not
followed. -/
def Mstatus.write (cfg : Config) (free : Nat) (m : Mstatus) (v : Word) : Mstatus where
  mie := v.getLsbD 3
  mpie := v.getLsbD 7
  mpp := storeMpp cfg free (v.extractLsb' 11 2)
  fs := if cfg.hasF || cfg.hasD then v.extractLsb' 13 2 else m.fs
  xs := v.extractLsb' 15 2
  mprv := v.getLsbD 17
  sum := v.getLsbD 18

/-- A write of mcause: its MPP and MPIE are mstatus's (R43, R482). -/
def Csrs.writeCause (c : Csrs) (cfg : Config) (free : Nat) (v : Word) : Csrs :=
  { c with
    mcause := { interrupt := v.getLsbD 31, minhv := v.getLsbD 30, mpil := v.extractLsb' 16 8,
                exccode := v.extractLsb' 0 12 }
    mstatus := { c.mstatus with mpp := storeMpp cfg free (v.extractLsb' 28 2), mpie := v.getLsbD 27 } }

/-- A write of milm_ctl or mdlm_ctl, frozen by mecc_lock (R482). -/
def LocalMemCtl.write (lock : Bool) (m : LocalMemCtl) (v : Word) : LocalMemCtl :=
  if lock then m else { rwecc := v.getLsbD 3, excpEn := v.getLsbD 2, eccEn := v.getLsbD 1 }

/-- A write of one half of mcache_ctl: the ECC bits `hi` down to `hi - 3` are frozen by mecc_lock (R482). -/
def CacheCtl.write (lock : Bool) (m : CacheCtl) (rwd rwt excp ecc en : Bool) : CacheCtl :=
  if lock then { m with en := en } else { rwdecc := rwd, rwtecc := rwt, excpEn := excp, eccEn := ecc, en := en }

/-- Whether the Scratchpad is the ILM's SRAM: mcache_ctl[1:0] = 2'b10 (11_state_nuclei_csr.md R106). -/
def Csrs.scpdIsIlm (c : Csrs) : Bool := c.icScpdMod && !c.icache.en

/-- The CSRs after a write of mcache_ctl (R482). -/
def Csrs.writeCache (c : Csrs) (v : Word) : Csrs :=
  { c with
    dcache := c.dcache.write c.meccLock (v.getLsbD 20) (v.getLsbD 19) (v.getLsbD 18) (v.getLsbD 17) (v.getLsbD 16)
    icache := c.icache.write c.meccLock (v.getLsbD 5) (v.getLsbD 4) (v.getLsbD 3) (v.getLsbD 2) (v.getLsbD 0)
    icScpdMod := v.getLsbD 1 }

/-- A write of mcache_ctl: the ILM's contents are unspecified after mcache_ctl[1:0] leaves or re-enters 2'b10
(20_memory.md R206, log 11). -/
def State.writeCache (s : State) (v : Word) : State :=
  let c := s.csr.writeCache v
  let s' := s.withCsr c
  if s.cfg.hasIlm && (c.scpdIsIlm != s.csr.scpdIsIlm) then
    s'.withMem (s.mem.redraw { index := 2 * s.free, base := baseOf s.cfg.ilmBpa, size := localMemSize s.cfg.ilmSize })
  else s'

/-- A write of mmisc_ctl: MISALIGN and BPU only where they are configured (R482). -/
def MmiscCtl.write (cfg : Config) (m : MmiscCtl) (v : Word) : MmiscCtl where
  nmiCauseFff := v.getLsbD 9
  misalign := if cfg.hasMisaligned then v.getLsbD 6 else m.misalign
  bpu := if cfg.hasBpu then v.getLsbD 3 else m.bpu

/-- A write of mecc_code: Code only while mecc_lock is open, RAMID and SRAMID always (R482). -/
def MeccCode.write (cfg : Config) (lock : Bool) (m : MeccCode) (v : Word) : MeccCode where
  sramid := v.extractLsb' 24 5
  ramid := v.extractLsb' 16 5
  code := if lock then m.code else v.extractLsb' 0 9 &&& eccCodeMask cfg.eccCodeWidth

/-- Whether a write turns ECC error injection on, which the model refuses (20_memory.md R211). -/
def csrWriteRefused (s : State) (c : Csr) (v : Word) : Bool :=
  !s.csr.meccLock &&
    match c with
    | .milmCtl | .mdlmCtl => v.getLsbD 3
    | .mcacheCtl => v.getLsbD 20 || v.getLsbD 19 || v.getLsbD 5 || v.getLsbD 4
    | _ => false

/-- The CSRs after a write, for the CSRs whose storage is in them (R482). -/
def Csrs.write (c : Csrs) (cfg : Config) (free : Nat) (r : Csr) (v : Word) : Csrs :=
  match r with
  | .fflags => { c with fcsr := { c.fcsr with fflags := v.extractLsb' 0 5 } }.dirtyFs
  | .frm => { c with fcsr := { c.fcsr with frm := v.extractLsb' 0 3 } }.dirtyFs
  | .fcsr => { c with fcsr := { frm := v.extractLsb' 5 3, fflags := v.extractLsb' 0 5 } }.dirtyFs
  | .mstatus => { c with mstatus := c.mstatus.write cfg free v }
  | .mtvec => { c with mtvec := v }
  | .mcounteren => { c with mcounteren := { cy := v.getLsbD 0, tm := v.getLsbD 1, ir := v.getLsbD 2 } }
  | .mtvt => { c with mtvt := clearLow (mtvtZeros cfg.numInterrupt) v }
  | .mcountinhibit => { c with mcountinhibit := { cy := v.getLsbD 0, ir := v.getLsbD 2 } }
  | .mscratch => { c with mscratch := v }
  | .mepc => { c with mepc := evenAddr v }
  | .mcause => c.writeCause cfg free v
  | .mtval => { c with mtval := v }
  | .pmpcfg k => { c with pmp := writePmpcfg c.pmp k v }
  | .pmpaddr n => { c with pmp := c.pmp.modify n (·.writeAddr v) }
  | .milmCtl => { c with milm := c.milm.write c.meccLock v }
  | .mdlmCtl => { c with mdlm := c.mdlm.write c.meccLock v }
  | .meccCode => { c with mecc := c.mecc.write cfg c.meccLock v }
  | .msubm => { c with msubm := { ptyp := v.extractLsb' 8 2, typ := v.extractLsb' 6 2 } }
  | .mdcause => { c with mdcause := v.extractLsb' 0 2 }
  | .mmiscCtl => { c with mmisc := c.mmisc.write cfg v }
  | .msavestatus =>
    { c with
      save1 := { c.save1 with ptyp := v.extractLsb' 6 2, mpp := v.extractLsb' 1 2, mpie := v.getLsbD 0 }
      save2 := { c.save2 with ptyp := v.extractLsb' 14 2, mpp := v.extractLsb' 9 2, mpie := v.getLsbD 8 } }
  | .msaveepc1 => { c with save1 := { c.save1 with epc := evenAddr v } }
  | .msavecause1 => { c with save1 := { c.save1 with cause := .ofWord v } }
  | .msaveepc2 => { c with save2 := { c.save2 with epc := evenAddr v } }
  | .msavecause2 => { c with save2 := { c.save2 with cause := .ofWord v } }
  | .msavedcause1 => { c with save1 := { c.save1 with dcause := v.extractLsb' 0 2 } }
  | .msavedcause2 => { c with save2 := { c.save2 with dcause := v.extractLsb' 0 2 } }
  | .meccLock => { c with meccLock := c.meccLock || v.getLsbD 0 }
  | .mtvt2 => { c with mtvt2 := { entry := v.extractLsb' 2 30, en := v.getLsbD 0 } }
  | .ucode => { c with ucodeOv := v.getLsbD 0 }
  | .wfe => { c with wfe := v.getLsbD 0 }
  | .sleepvalue => { c with sleepvalue := v.getLsbD 0 }
  | .minstret => { c with minstret := c.minstret.extractLsb' 32 32 ++ v }
  | .minstreth => { c with minstret := v ++ c.minstret.setWidth 32 }
  | _ => c

/-- `CsrWrite`, after the access check (R482). A write to misa, mnvec, mintstatus, mie, mip is ignored (R33). -/
def csrWrite (s : State) (r : Csr) (v : Word) : State :=
  match r with
  | .mcycle => s.withMcycle (s.mcycle.extractLsb' 32 32 ++ v)
  | .mcycleh => s.withMcycle (v ++ s.mcycle.setWidth 32)
  | .mcacheCtl => s.writeCache v
  | .txevt => if v.getLsbD 0 then s.withTxEvt true else s
  | _ => s.withCsr (s.csr.write s.cfg s.free r v)

/-! ### The interrupt-speedup access points (46_system.md R493 to R499) -/

/-- `NextIrq` (R496): the request the ECLIC presents, when its level is above mcause.MPIL. -/
def nextIrq (s : State) : Option Request :=
  match presented s.cfg s.eclic with
  | none => none
  | some r => if s.csr.mcause.mpil.ult r.level then some r else none

/-- The next interrupt mnxti and jalmnxti act on: one that is not vectored (R493, R495). -/
def nextNonVectored (s : State) : Option Request :=
  match nextIrq s with
  | none => none
  | some r => if r.shv then none else some r

/-- The claim of an interrupt: EXCCODE, MIL, and the hardware clear of an edge-triggered source's IP (R493). -/
def State.claimIrq (s : State) (r : Request) : State :=
  (s.withCsr { s.csr with
      mcause := { s.csr.mcause with exccode := BitVec.ofNat 12 r.id }
      mintstatus := { s.csr.mintstatus with mil := r.level } }).withEclic (s.eclic.claim r.id)

/-- The read-modify-write mnxti makes on mstatus (R493). -/
def State.mnxtiStatus (s : State) (set : Bool) (uimm : BitVec 5) : State :=
  if uimm = 0#5 then s
  else
    let old := s.csr.mstatus.word
    csrWrite s .mstatus (if set then old ||| uimm.setWidth 32 else old &&& ~~~uimm.setWidth 32)

/-- `HandlerAddr(id)` (R493): the word of the vector table or, with `MNXTI_RETURNS` = entry, the address of that word, for
which nothing is read (00_scope.md R8, 92_eei_decisions.md D15). -/
def handlerAddr (s : State) (id : Nat) : Res Word :=
  match s.cfg.mnxtiReturns with
  | .handler => vectorTableRead s id
  | .entry => .ok (s.csr.mtvt + 4 * BitVec.ofNat 32 id) s

/-- CSRRSI or CSRRCI on mnxti (R493). A vector-table read that fails raises InstrAccessFault with none of the effects
(log 19). -/
def mnxtiOp (set : Bool) (rd : Reg) (uimm : BitVec 5) (s : State) : Out :=
  match nextNonVectored s with
  | none => retire 4 ((s.mnxtiStatus set uimm).setX rd 0)
  | some r =>
    match handlerAddr s r.id with
    | .ok t s' =>
      let s2 := s'.mnxtiStatus set uimm
      retire 4 ((if uimm = 0#5 then s2 else s2.claimIrq r).setX rd t)
    | .exc e s' => raise e s'
    | .refuse q => .refused q

/-- CSRRW on jalmnxti (R495). DEDUCED (log 48): R495 writes the handler address as the word of the vector table, and it is
`HandlerAddr(id)`, since 00_scope.md R8 and 92_eei_decisions.md D15 have `MNXTI_RETURNS` settle what jalmnxti takes too. -/
def jalmnxtiOp (rd : Reg) (s : State) : Out :=
  match nextNonVectored s with
  | none => retire 4 s
  | some r =>
    match handlerAddr s r.id with
    | .ok t s' =>
      let s1 := s'.claimIrq r
      let s2 := s1.withCsr { s1.csr with mstatus := { s1.csr.mstatus with mie := true } }
      retireAt (evenAddr t) (s2.setX rd s.pc)
    | .exc e s' => raise e s'
    | .refuse q => .refused q

/-- Exchange `x[rs1]` with mscratch where the condition holds, else copy `x[rs1]` to `x[rd]` (R497, R498). -/
def scratchSwap (swap : Bool) (rd : Reg) (t : Word) (s : State) : Out :=
  if swap then retire 4 ((s.withCsr { s.csr with mscratch := t }).setX rd s.csr.mscratch)
  else retire 4 (s.setX rd t)

/-- CSRRW on mscratchcsw: swap when the trap came from another mode (R497). -/
def mscratchcswOp (rd : Reg) (t : Word) (s : State) : Out := scratchSwap (s.csr.mstatus.mpp != .machine) rd t s

/-- CSRRW on mscratchcswl: swap between an application task and an interrupt handler (R498). -/
def mscratchcswlOp (rd : Reg) (t : Word) (s : State) : Out :=
  scratchSwap ((s.csr.mcause.mpil == 0) != (s.csr.mintstatus.mil == 0)) rd t s

/-- The address the push operations store to: `x[2] + 4*uimm` (R499). -/
def pushAddr (s : State) (uimm : BitVec 5) : Word := s.getX 2 + 4 * uimm.setWidth 32

/-- CSRRWI x0 on pushmsubm, pushmcause or pushmepc: a 4-byte store (R499). -/
def pushOp (v : Word) (uimm : BitVec 5) (s : State) : Out := storeX 4 (pushAddr s uimm) 4 (v.setWidth 64) s

/-! ### The CSR instructions (46_system.md R480 to R488) -/

/-- The six forms (R480). -/
inductive CsrForm
  | rw
  | rs
  | rc
  | rwi
  | rsi
  | rci
deriving DecidableEq, Repr

/-- Whether the form writes: always for CSRRW and CSRRWI, else only if the rs1 or uimm field is not 0 (R480). -/
def CsrForm.writes (form : CsrForm) (field : BitVec 5) : Bool :=
  match form with
  | .rw | .rwi => true
  | .rs | .rc | .rsi | .rci => field != 0

/-- The operand: `x[rs1]`, or the immediate extended with zeros (R480). -/
def CsrForm.operand (form : CsrForm) (field : BitVec 5) (s : State) : Word :=
  match form with
  | .rw | .rs | .rc => s.getX field
  | .rwi | .rsi | .rci => field.setWidth 32

/-- The value written (R480). -/
def CsrForm.value (form : CsrForm) (old t : Word) : Word :=
  match form with
  | .rw | .rwi => t
  | .rs | .rsi => old ||| t
  | .rc | .rci => old &&& ~~~t

/-- The write of minstret by the instruction stands without its own increment (10_state.md R63). -/
def retireCsr (c : Csr) (wrote : Bool) (s : State) : Out :=
  if wrote = true ∧ (c = .minstret ∨ c = .minstreth) then retireUncounted 4 s else retire 4 s

/-- A CSR instruction on a CSR that is storage (R483 to R488). -/
def csrPlain (form : CsrForm) (rd : Reg) (c : Csr) (field : BitVec 5) (s : State) : Out :=
  let old := csrRead s c
  let v := form.value old (form.operand field s)
  if form.writes field then
    if csrWriteRefused s c v then .refused .eccInjection
    else retireCsr c true ((csrWrite s c v).setX rd old)
  else retireCsr c false (s.setX rd old)

/-- The dispatch on the CSR after the access check (R501); a form the spec does not define for an access point is
refused (R493 to R499, log 37). -/
def csrDispatch (form : CsrForm) (rd : Reg) (c : Csr) (field : BitVec 5) (s : State) : Out :=
  match c with
  | .mnxti =>
    match form with
    | .rsi => mnxtiOp true rd field s
    | .rci => mnxtiOp false rd field s
    | _ => .refused .csrForm
  | .jalmnxti => if form = .rw then jalmnxtiOp rd s else .refused .csrForm
  | .mscratchcsw => if form = .rw then mscratchcswOp rd (s.getX field) s else .refused .csrForm
  | .mscratchcswl => if form = .rw then mscratchcswlOp rd (s.getX field) s else .refused .csrForm
  | .pushmsubm => if form = .rwi ∧ rd = 0#5 then pushOp s.csr.msubm.word field s else .refused .csrForm
  | .pushmcause => if form = .rwi ∧ rd = 0#5 then pushOp s.csr.causeRead field s else .refused .csrForm
  | .pushmepc => if form = .rwi ∧ rd = 0#5 then pushOp s.csr.mepc field s else .refused .csrForm
  | _ => csrPlain form rd c field s

/-- A CSR instruction: the access check of 10_state.md R34, then the operation (R501). -/
def csrInstr (i : Instr) (form : CsrForm) (rd : Reg) (a : CsrAddr) (field : BitVec 5) (s : State) : Out :=
  match Csr.ofAddr a with
  | none => illegal i s
  | some c => if c.permitted s (form.writes field) then csrDispatch form rd c field s else illegal i s

end Sys2Proof.Machine
end

