-- ==== Sys2Proof/Machine/System.lean ====
section
/-! DEFINITION. The system instructions (46_system.md). -/

namespace Sys2Proof.Machine

/-! ### The CSR instructions (R480 to R488; the access points R493 to R499) -/

/-- CSRRW (R483). -/
def execCsrrw (rd : Reg) (csr : CsrAddr) (rs1 : Reg) (s : State) : Out :=
  csrInstr (.csrrw rd csr rs1) .rw rd csr rs1 s

/-- CSRRS (R484). -/
def execCsrrs (rd : Reg) (csr : CsrAddr) (rs1 : Reg) (s : State) : Out :=
  csrInstr (.csrrs rd csr rs1) .rs rd csr rs1 s

/-- CSRRC (R485). -/
def execCsrrc (rd : Reg) (csr : CsrAddr) (rs1 : Reg) (s : State) : Out :=
  csrInstr (.csrrc rd csr rs1) .rc rd csr rs1 s

/-- CSRRWI (R486). -/
def execCsrrwi (rd : Reg) (csr : CsrAddr) (uimm : BitVec 5) (s : State) : Out :=
  csrInstr (.csrrwi rd csr uimm) .rwi rd csr uimm s

/-- CSRRSI (R487). -/
def execCsrrsi (rd : Reg) (csr : CsrAddr) (uimm : BitVec 5) (s : State) : Out :=
  csrInstr (.csrrsi rd csr uimm) .rsi rd csr uimm s

/-- CSRRCI (R488). -/
def execCsrrci (rd : Reg) (csr : CsrAddr) (uimm : BitVec 5) (s : State) : Out :=
  csrInstr (.csrrci rd csr uimm) .rci rd csr uimm s

/-! ### ECALL, EBREAK, MRET, WFI -/

/-- EBREAK (R489). -/
def execEbreak (s : State) : Out := raise ⟨.breakpoint, none, .unstated⟩ s

/-- ECALL: the code says the mode it came from (R492). -/
def execEcall (s : State) : Out :=
  raise ⟨match s.priv with | .user => .ecallU | .machine => .ecallM, none, .unstated⟩ s

/-- MRET: Machine Mode only (R490, R491). -/
def execMret (s : State) : Out := whenLegal (s.priv == .machine) .mret s returnFromTrap

/-- WFI: sleep, the pc already after it; an imprecise access fault that waits is reported instead
(R494, 60_exceptions.md R597). -/
def execWfi (s : State) : Out :=
  match s.pendingFault with
  | some p => .next (takeException p s.pc (s.withPendingFault none))
  | none => retire 4 (s.withAsleep true)

end Sys2Proof.Machine
end

