-- ==== Sys2Proof/Machine/Interrupt.lean ====
section
/-! DEFINITION. The NMI (60_exceptions.md R540 to R551), interrupt entry (R555 to R566), what wakes a sleeping hart
(R600), and which trap is taken at a step boundary (R528). -/

namespace Sys2Proof.Machine

/-! ### The NMI -/

/-- The NMI is taken when its edge is latched and the hart is not in NMI state (R545). -/
def nmiTaken (s : State) : Bool := s.nmiPending && s.csr.msubm.typ != 3

/-- mcause.EXCCODE of the NMI (R548). -/
def nmiCode (c : Csrs) : BitVec 12 := if c.mmisc.nmiCauseFff then 0xFFF else 0x001

/-- The CSRs after NMI entry at `pc` from mode `p` (R545). -/
def Csrs.enterNmi (c : Csrs) (pc : Word) (p : Priv) (hasStack : Bool) : Csrs :=
  { c.pushIf hasStack with
    mepc := evenAddr pc
    mcause := { c.mcause with interrupt := false, exccode := nmiCode c }
    mstatus := c.mstatus.enter p
    msubm := c.msubm.enter 3 }

/-- Where the NMI enters (R545): mnvec, with the low bits dropped when it is mtvec. -/
def nmiEntry (s : State) : Word := if s.csr.mmisc.nmiCauseFff then alignedAddr s.csr.mtvec else s.cfg.resetVector

/-- TAKING THE NMI (R545). -/
def takeNmi (s : State) : State :=
  ((((s.withCsr (s.csr.enterNmi s.pc s.priv s.cfg.hasNestedStack)).withPriv .machine).withResv none).withNmiPending
    false).withPc (nmiEntry s)

/-! ### Interrupts -/

/-- The request that conditions 1 and 2 of R559 allow. -/
def irqAllowed (s : State) : Option Request :=
  match presented s.cfg s.eclic with
  | none => none
  | some r =>
    if s.csr.mintstatus.mil.ult r.level && (s.csr.mstatus.mie || s.priv == .user) then some r else none

/-- Condition 3 of R559: mtvec.MODE selects the ECLIC interrupt mode (10_state.md R52). -/
def eclicMode (s : State) : Bool := s.csr.mtvec.extractLsb' 0 6 == 3

/-- The CSRs after interrupt entry, with the value MINHV takes (R560). -/
def Csrs.enterIrq (c : Csrs) (r : Request) (pc : Word) (p : Priv) (minhv : Bool) : Csrs :=
  { c with
    mepc := evenAddr pc
    mcause := { interrupt := true, minhv := minhv, mpil := c.mintstatus.mil, exccode := BitVec.ofNat 12 r.id }
    mintstatus := { c.mintstatus with mil := r.level }
    mstatus := c.mstatus.enter p
    msubm := c.msubm.enter 1 }

/-- The state after interrupt entry, before the pc changes (R560). -/
def State.enterIrq (s : State) (r : Request) (minhv : Bool) : State :=
  ((s.withCsr (s.csr.enterIrq r s.pc s.priv minhv)).withPriv .machine).withResv none

/-- mcause.MINHV is cleared when the vector-table read and the jump have succeeded (R564). -/
def State.clearMinhv (s : State) : State :=
  s.withCsr { s.csr with mcause := { s.csr.mcause with minhv := false } }

/-- The shared entry of non-vectored interrupts (R565). -/
def nonVectoredEntry (c : Csrs) : Word := if c.mtvt2.en then c.mtvt2.entry ++ 0#2 else alignedAddr c.mtvec

/-- TAKING AN INTERRUPT (R560, R564). A failed vector-table read leaves the entry with MINHV = 1 and raises
InstrAccessFault from there, with an unspecified mepc (log 10). -/
def takeIrq (r : Request) (s : State) : Out :=
  if r.shv then
    match vectorTableRead (s.enterIrq r true) r.id with
    | .ok t e => .next (((e.clearMinhv).withEclic (e.eclic.claim r.id)).withPc (evenAddr t))
    | .exc x e => .next (takeException x (Config.freeMepc s.free) e)
    | .refuse q => .refused q
  else .next ((s.enterIrq r s.csr.mcause.minhv).withPc (nonVectoredEntry s.csr))

/-! ### The step boundary -/

/-- Whether an imprecise access fault that waits is reported here: before any other trap, or by free choice
(R526, log 13). -/
def faultDue (s : State) : Bool := nmiTaken s || (irqAllowed s).isSome || Config.freeFaultNow s.free

/-- The trap taken at a step boundary, if any: a waiting imprecise fault, then the NMI, then an interrupt (R528). -/
def boundaryTrap (s : State) : Option Out :=
  match s.pendingFault with
  | some p => if faultDue s then some (.next (takeException p s.pc (s.withPendingFault none))) else none
  | none =>
    if nmiTaken s then some (.next (takeNmi s))
    else
      match irqAllowed s with
      | none => none
      | some r => if eclicMode s then some (takeIrq r s) else some (.refused .defaultInterruptMode)

/-- The conditions that wake a sleeping hart (R600). -/
def wakes (s : State) : Bool :=
  nmiTaken s || (if s.csr.wfe then s.rxEvt else (presented s.cfg s.eclic).isSome)

/-- The step of a sleeping hart: it only tests the wake-up conditions (R599, 00_scope.md R14). -/
def sleepStep (s : State) : State := if wakes s then s.withAsleep false else s

/-! ### The environment (00_scope.md R16) -/

/-- The lines of a source survive a reset, its registers do not (70_reset_and_hazards.md R621, log 24). DESIGN CHOICE (log
24): the source is level-triggered then, so its IP is its line, as 60_exceptions.md R577 has it, also a high one. -/
def EclicSrc.afterReset (src : EclicSrc) : EclicSrc := { EclicSrc.zero with line := src.line }

/-- What memory holds after a reset that keeps it. mcache_ctl[1:0] is 2'b10 again, and when it was not before, the ILM's
contents are unspecified (20_memory.md R206, log 11, log 24). -/
def State.memKept (s : State) : Memory :=
  if s.cfg.hasIlm && !s.csr.scpdIsIlm then
    s.mem.redraw { index := 2 * s.free + 1, base := baseOf s.cfg.ilmBpa, size := localMemSize s.cfg.ilmSize }
  else s.mem

/-- The reset event (70_reset_and_hazards.md R620 to R623). Memory is kept only if the environment says so. -/
def State.resetEvent (s : State) (keepMemory : Bool) : State :=
  let e := Eclic.reset s.cfg
  { State.resetWith s.cfg with
    mem := if keepMemory then s.memKept else .empty
    eclic := ({ e with srcs := s.eclic.srcs.map EclicSrc.afterReset }.setLine 3 false).setLine 7 false
    rxEvt := s.rxEvt
    inputs := s.inputs
    free := s.free }

/-- Another bus master writes a byte: a reservation of that word is lost (43_rv32a.md R381). The TIMER and ECLIC are
private to the hart and out of its reach (log 6). -/
def State.busWrite (s : State) (a : Word) (b : Byte) : State :=
  match region s.cfg a with
  | .timer | .eclic => s
  | _ =>
    let s' := s.storeMem a [b]
    if s.resv = some (alignedAddr a) then s'.withResv none else s'

/-- The D-cache of a hart that is awake copies a line back and meets a 2-bit error: RAMID records it, and an imprecise
exception waits, of a code and mtval the spec leaves open (60_exceptions.md R607, log 31). -/
def State.eccEvict (s : State) : State :=
  if s.csr.dcache.en && eccOn s.csr .dcache && !s.asleep then
    let s' := s.noteEcc .dcache true
    if eccExcpOn s.csr .dcache then
      s'.noteFault
        ⟨if Config.freeEvictIsStore s.free then .storeAmoAccessFault else .loadAccessFault, none, .keep⟩
    else s'
  else s

/-- What one event of the environment does. -/
def State.input (s : State) (i : Input) : State :=
  match i with
  | .tick => s.tick
  | .irq id level => if 19 ≤ id ∧ id < s.cfg.numInterrupt then s.withEclic (s.eclic.setLine id level) else s
  | .nmiEdge => if s.csr.msubm.typ = 3#2 then s else s.withNmiPending true
  | .rxEvt level => s.withRxEvt level
  | .reset keepMemory => s.resetEvent keepMemory
  | .busWrite a b => s.busWrite a b
  | .eccHit h => s.withEccHits (s.eccHits ++ [h])
  | .eccOther origin u double => s.eccElsewhere origin u double
  | .eccEvict => s.eccEvict

/-- The events of a group, in order. -/
def State.inputsInOrder (s : State) : List Input → State
  | [] => s
  | i :: rest => (s.input i).inputsInOrder rest

/-- The pulses of the outputs are over (log 34). -/
def State.endPulses (s : State) : State := { s with txEvt := false, eccOut := .none }

/-- The start of a step: the outputs' pulses are over, and the next group of events happens (log 6, log 34). -/
def arrive (s : State) : State :=
  match s.inputs with
  | [] => s.endPulses
  | g :: rest => (s.endPulses.withInputs rest).inputsInOrder g

/-- mcycle grows by a free amount unless inhibited (10_state.md R61, log 7). -/
def State.countCycles (s : State) : State :=
  if s.csr.mcountinhibit.cy then s else s.withMcycle (s.mcycle + BitVec.ofNat 64 (Config.freeCycles s.free))

/-- The end of a step: mcycle grows, the ECC errors of this step are over, the next step draws anew. -/
def settle (s : State) : State := (s.countCycles.withEccHits []).withFree (s.free + 1)

/-- Apply a function to the next state, if there is one. -/
def thenSettle (o : Out) : Out :=
  match o with
  | .next s => .next (settle s)
  | .fault f => .fault f
  | .refused r => .refused r

/-! ### Placing an instruction -/

/-- The bytes of a 32-bit word stored at the pc, with no older word left for the fetch to see (log 5). -/
def State.placeAtPc (s : State) (w : Word) : State :=
  (s.withMem (s.mem.writeBytes s.pc (splitBytes 4 (w.setWidth 64)))).withStale []

end Sys2Proof.Machine
end

