-- ==== Sys2Proof/Machine/Cycle.lean ====
section
/-! DEFINITION. One cycle of the machine in its parts: fetch, decode and execute, or a trap, or sleep
(00_scope.md R14, 30_encoding.md R221, R230). -/

namespace Sys2Proof.Machine

/-- Execute what was fetched; an encoding of no instruction is illegal (30_encoding.md R230, R231). -/
def runCode (c : Code) (s : State) : Out :=
  match decode c with
  | none => illegalBits c.bits s
  | some i => exec i s

/-- Fetch at the pc, decode, execute (00_scope.md R14). -/
def runInstr (s : State) : Out :=
  match fetch s with
  | .ok c s' => runCode c s'
  | .exc e s' => raise e s'
  | .refuse r => .refused r

/-- What a step does once the events before it have happened (00_scope.md R14). -/
def actStep (s : State) : Out :=
  if s.asleep then .next (sleepStep s)
  else
    match boundaryTrap s with
    | some o => o
    | none => runInstr s

end Sys2Proof.Machine
end

