-- ==== Sys2Proof/Machine/Step.lean ====
section
/-! DEFINITION. The step function, and how the host places one instruction where the next step fetches it. -/

namespace Sys2Proof.Machine

/-- One step: the environment's events, then one trap, one instruction, or one moment of sleep (00_scope.md R14, R16). -/
def step (s : State) : Out := thenSettle (actStep (arrive s))

/-- `s` with the instruction whose bits are the low `nbits` of `w` stored at the pc (log 5). -/
def State.withFetchWord (s : State) (nbits w : Nat) : State := s.placeAtPc (BitVec.ofNat 32 (w % 2 ^ nbits))

end Sys2Proof.Machine
end

