-- ==== Sys2Proof/Machine/Outputs.lean ====
section
/-! DEFINITION. The output signals the environment can observe (00_scope.md R17). `State.txEvt` and `State.eccOut` are the two
that are state of their own. -/

namespace Sys2Proof.Machine

/-- `core_wfi_mode`: the hart sleeps (60_exceptions.md R598). -/
def State.coreWfiMode (s : State) : Bool := s.asleep

/-- `core_sleep_value`: SLEEPVALUE while the hart sleeps, 0 while it is awake (60_exceptions.md R598). -/
def State.coreSleepValue (s : State) : Bool := s.asleep && s.csr.sleepvalue

/-- `tx_evt` (11_state_nuclei_csr.md R116). -/
def State.txEvtOut (s : State) : Bool := s.txEvt

/-- The software-reset request to the SoC: msftrst bit 31 (60_exceptions.md R596). -/
def State.softResetRequest (s : State) : Bool := s.timer.msftrst

/-- The 1-bit ECC error output of a memory (60_exceptions.md R609). -/
def State.eccSingleOut (s : State) : BitVec 5 := s.eccOut.single

/-- The 2-bit ECC error outputs (60_exceptions.md R609). -/
def State.eccDoubleOut (s : State) : BitVec 5 := s.eccOut.double

/-- The slave port's bus-error signal, of a 2-bit ECC error that an access through it met (60_exceptions.md R609). -/
def State.slavePortError (s : State) : Bool := s.eccOut.slaveError

/-- The bus error that is reported to the debug SBA (60_exceptions.md R609). -/
def State.sbaError (s : State) : Bool := s.eccOut.sbaError

end Sys2Proof.Machine
end

