-- ==== Sys2Proof/Safety.lean ====
section
/-! DEFINITION. The terms the statements use: what an instruction that completes wrote and what it left alone, what
taking a trap saved, which accesses are to plain memory, and the invariant every step keeps. -/

namespace Sys2Proof.Machine

/-! ### What stays as it was -/

/-- The parts of the state no computational instruction, load, store, jump or branch touches. -/
structure SameRest (s t : State) : Prop where
  priv : t.priv = s.priv
  mcycle : t.mcycle = s.mcycle
  eclic : t.eclic = s.eclic
  timer : t.timer = s.timer
  asleep : t.asleep = s.asleep
  nmiPending : t.nmiPending = s.nmiPending
  pendingFault : t.pendingFault = s.pendingFault
  rxEvt : t.rxEvt = s.rxEvt
  txEvt : t.txEvt = s.txEvt
  eccHits : t.eccHits = s.eccHits
  inputs : t.inputs = s.inputs
  free : t.free = s.free
  cfg : t.cfg = s.cfg
  eccOut : t.eccOut = s.eccOut

/-- Every integer register is as it was. -/
def SameX (s t : State) : Prop := ∀ r, t.getX r = s.getX r

/-- Every floating-point register is as it was. -/
def SameF (s t : State) : Prop := ∀ r, t.getF r = s.getF r

/-- Every byte of memory, and every word a fetch may still see, is as it was. -/
def SameMem (s t : State) : Prop := (∀ a, t.mem.read a = s.mem.read a) ∧ t.stale = s.stale

/-! ### What an instruction writes -/

/-- `x[rd]` holds `v`, every other integer register is as it was, and `x[0]` reads 0 whatever `rd` is. -/
def WroteX (s t : State) (rd : Reg) (v : Word) : Prop :=
  ∀ r, t.getX r = if r = 0#5 then 0#32 else if r = rd then v else s.getX r

/-- `f[rd]` holds `v` and every other floating-point register is as it was. -/
def WroteF (s t : State) (rd : Reg) (v : DWord) : Prop := ∀ r, t.getF r = if r = rd then v else s.getF r

/-- The byte at distance `k` from the first one of a value, the least significant first. -/
def byteAt (v : DWord) (k : Nat) : Byte := v.extractLsb' (8 * k) 8

/-- The `n` bytes from `a` upward hold the low bytes of `v`; every other byte of memory is as it was. -/
def WroteMem (s t : State) (a : Word) (n : Nat) (v : DWord) : Prop :=
  ∀ b, t.mem.read b = if (b - a).toNat < n then byteAt v (b - a).toNat else s.mem.read b

/-- The CSRs after one more instruction has been counted: minstret, and nothing else. -/
def Csrs.counted (c : Csrs) : Csrs :=
  { c with minstret := if c.mcountinhibit.ir then c.minstret else c.minstret + 1 }

/-- The CSRs after a floating-point instruction that raised the flags `fl`: they are added to fflags, FS is Dirty,
minstret has counted it, and nothing else has changed. -/
def Csrs.afterFp (c : Csrs) (fl : BitVec 5) : Csrs :=
  { c with
    fcsr := { frm := c.fcsr.frm, fflags := c.fcsr.fflags ||| fl }
    mstatus := { c.mstatus with fs := 3 }
    minstret := if c.mcountinhibit.ir then c.minstret else c.minstret + 1 }

/-- `t` is `s` after an integer instruction that wrote `v` to `x[rd]`, the next instruction being at `pc`. With
`rd` = 0 it wrote no register. -/
structure DoneX (s t : State) (rd : Reg) (v pc : Word) : Prop where
  x : WroteX s t rd v
  f : SameF s t
  mem : SameMem s t
  pc : t.pc = pc
  csr : t.csr = s.csr.counted
  resv : t.resv = s.resv
  rest : SameRest s t

/-- `t` is `s` after a store of the low `n` bytes of `v` at `a`. -/
structure DoneStore (s t : State) (a : Word) (n : Nat) (v : DWord) (pc : Word) : Prop where
  x : SameX s t
  f : SameF s t
  mem : WroteMem s t a n v
  pc : t.pc = pc
  csr : t.csr = s.csr.counted
  resv : t.resv = s.resv
  rest : SameRest s t

/-- `t` is `s` after a floating-point instruction that wrote `v` to `f[rd]` and raised the flags `fl`. -/
structure DoneF (s t : State) (rd : Reg) (v : DWord) (fl : BitVec 5) (pc : Word) : Prop where
  x : SameX s t
  f : WroteF s t rd v
  mem : SameMem s t
  pc : t.pc = pc
  csr : t.csr = s.csr.afterFp fl
  resv : t.resv = s.resv
  rest : SameRest s t

/-- `t` is `s` after a floating-point instruction that wrote `v` to `x[rd]` and raised the flags `fl`. -/
structure DoneFx (s t : State) (rd : Reg) (v : Word) (fl : BitVec 5) (pc : Word) : Prop where
  x : WroteX s t rd v
  f : SameF s t
  mem : SameMem s t
  pc : t.pc = pc
  csr : t.csr = s.csr.afterFp fl
  resv : t.resv = s.resv
  rest : SameRest s t

/-- `t` is `s` after a floating-point store of the low `n` bytes of `v` at `a`. -/
structure DoneFStore (s t : State) (a : Word) (n : Nat) (v : DWord) (pc : Word) : Prop where
  x : SameX s t
  f : SameF s t
  mem : WroteMem s t a n v
  pc : t.pc = pc
  csr : t.csr = s.csr.afterFp 0
  resv : t.resv = s.resv
  rest : SameRest s t

/-! ### Accesses to plain memory -/

/-- An address whose byte is plain memory for data: ILM that is not execute-only, DLM, or the system bus
(20_memory.md R162). -/
def plainForData (cfg : Config) (a : Word) : Bool :=
  match region cfg a with
  | .system => true
  | .dlm => true
  | .ilm => !cfg.ilmXonly
  | _ => false

/-- A data access of `n` bytes at `a` that meets no exception and no ECC error and goes to plain memory
(40_rv32i.md R261): aligned or carried out in hardware, every part of it allowed by the PMP, answered by the bus, and
in plain memory. `path` is the access an ECC error would have to name. -/
def plainAccess (s : State) (t : AccessKind) (path : AccessPath) (a : Word) (n : Nat) : Bool :=
  !misaligned s a n
    && (parts a n).all (fun p => pmpCheck s s.priv t p.addr && !busError s.cfg t p.addr p.size
          && plainForData s.cfg p.addr)
    && (eccMet s path (parts a n)).isEmpty

/-- A load of `n` bytes at `a` from plain memory. -/
def plainLoad (s : State) (a : Word) (n : Nat) : Bool := plainAccess s .load .load a n

/-- A store of `n` bytes at `a` to plain memory. -/
def plainStore (s : State) (a : Word) (n : Nat) : Bool := plainAccess s .store .store a n

/-- An atomic at `a` in plain memory: always aligned (43_rv32a.md R380), and of an AMO neither the read nor the store meets
an ECC error. -/
def plainAtomic (s : State) (t : AccessKind) (path : AccessPath) (a : Word) : Bool :=
  a.extractLsb' 0 2 == 0#2 && plainAccess s t path a 4 && (t != .amo || (eccMet s .store [⟨a, 4⟩]).isEmpty)

/-- The little-endian half-word at `a` (20_memory.md R165). -/
def memHalf (m : Memory) (a : Word) : BitVec 16 := m.read (a + 1) ++ m.read a

/-- The little-endian word at `a` (20_memory.md R165). -/
def memWord (m : Memory) (a : Word) : Word := m.read (a + 3) ++ m.read (a + 2) ++ m.read (a + 1) ++ m.read a

/-- The little-endian double-word at `a` (20_memory.md R165). -/
def memDouble (m : Memory) (a : Word) : DWord := memWord m (a + 4) ++ memWord m a

/-- A signed field as a 32-bit value (00_scope.md R10). -/
def sext {w : Nat} (v : BitVec w) : Word := BitVec.ofInt 32 v.toInt

/-- A fetch of the aligned word at `a` in mode `p` that meets no exception and no ECC error (30_encoding.md R221). -/
def plainFetch (s : State) (p : Priv) (a : Word) : Bool :=
  pmpCheck s p .fetch a && !busError s.cfg .fetch a 4 && (eccMet s .fetch [⟨a, 4⟩]).isEmpty

/-- What an AMO that stores `v` at `ea` does (43_rv32a.md R384 to R393): `x[rd]` gets the word that was in memory,
memory gets `v`, also with `rd` = 0, and the reservation stays. -/
def AtomicDone (i : Instr) (s : State) (rd : Reg) (ea v : Word) : Prop :=
  ∃ t, exec i s = .next t ∧ WroteX s t rd (memWord s.mem ea) ∧ SameF s t ∧ WroteMem s t ea 4 (v.zeroExtend 64) ∧
    t.pc = s.pc + 4 ∧ t.csr = s.csr.counted ∧ t.resv = s.resv ∧ SameRest s t

/-! ### What a fetch finds -/

/-- The word a load sees at an offset of the TIMER (60_exceptions.md R588, R589, R592, R595, R596). -/
def timerWord (t : Timer) (off : Nat) : Nat :=
  if off = 0 then t.mtime.toNat % 2 ^ 32
  else if off = 4 then t.mtime.toNat / 2 ^ 32
  else if off = 8 then t.mtimecmp.toNat % 2 ^ 32
  else if off = 12 then t.mtimecmp.toNat / 2 ^ 32
  else if off = 0xFF0 then (if t.msftrst then 2 ^ 31 else 0)
  else if off = 0xFF8 then
    (if t.clksrc then 4 else 0) + (if t.cmpclren then 2 else 0) + (if t.timestop then 1 else 0)
  else if off = 0xFFC then (if t.msip then 1 else 0)
  else 0

/-- Byte `k` of the registers of a source: clicintip, clicintie, clicintattr, clicintctl (60_exceptions.md R574 to R578). -/
def srcByte (cfg : Config) (src : EclicSrc) (k : Nat) : Byte :=
  if k = 0 then (BitVec.ofBool src.pending).zeroExtend 8
  else if k = 1 then (BitVec.ofBool src.ie).zeroExtend 8
  else if k = 2 then 3#2 ++ 0#3 ++ src.trig ++ BitVec.ofBool src.shv
  else src.ctl ||| (0xFF#8 >>> cfg.clicIntCtlBits)

/-- clicinfo as a number (60_exceptions.md R572). -/
def clicinfoNat (cfg : Config) : Nat :=
  cfg.numInterrupt % 2 ^ 13 + cfg.eclicVersion.toNat * 2 ^ 13 + cfg.clicIntCtlBits % 2 ^ 4 * 2 ^ 21

/-- The byte a load sees at an offset of the ECLIC (60_exceptions.md R570 to R578, R583). -/
def eclicByte (cfg : Config) (e : Eclic) (off : Nat) : Byte :=
  if off = 0 then BitVec.ofNat 8 (e.nlbits.toNat * 2 + 1)
  else if 4 ≤ off ∧ off < 8 then BitVec.ofNat 8 (clicinfoNat cfg / 2 ^ (8 * (off - 4)))
  else if off = 0xB then e.mth
  else if 0x1000 ≤ off ∧ off < 0x5000 then
    match e.srcs[(off - 0x1000) / 4]? with
    | none => 0
    | some src => srcByte cfg src (off % 4)
  else 0

/-- Byte `k` of the word a fetch or a vector-table read finds at `a`, by the region of `a`: of memory, of the registers of
the TIMER or ECLIC, or, in the PPI and FIO, what `port` gives, the platform's answer (30_encoding.md R221,
60_exceptions.md R564, log 26). -/
def foundByte (s : State) (port : Nat → Nat → Byte) (a : Word) (k : Nat) : Byte :=
  match region s.cfg a with
  | .timer => BitVec.ofNat 8 (timerWord s.timer (a.toNat - s.cfg.timerBase.toNat) / 2 ^ (8 * k))
  | .eclic => eclicByte s.cfg s.eclic (a.toNat - s.cfg.eclicBase.toNat + k)
  | .ppi | .fio => port s.free (a.toNat + k)
  | .ilm | .dlm | .system => s.mem.read (a + BitVec.ofNat 32 k)

/-- The little-endian word a fetch or a vector-table read finds at `a`. -/
def foundWord (s : State) (port : Nat → Nat → Byte) (a : Word) : Word :=
  foundByte s port a 3 ++ foundByte s port a 2 ++ foundByte s port a 1 ++ foundByte s port a 0

/-- The byte a fetch finds at `b`, in the aligned word it is in. -/
def codeByte (s : State) (b : Word) : Byte := foundByte s Config.freeFetchPort (b &&& 0xFFFFFFFC#32) (b.toNat % 4)

/-- The little-endian half-word a fetch finds at the pc. -/
def codeHalf (s : State) (pc : Word) : BitVec 16 := codeByte s (pc + 1) ++ codeByte s pc

/-- The little-endian word a fetch finds at the pc, also across two aligned words. -/
def codeWord (s : State) (pc : Word) : Word := codeHalf s (pc + 2) ++ codeHalf s pc

/-! ### Floating-point values (44_rv32f.md R401 to R403) -/

/-- The number a finite value stands for. -/
def FVal.num : FVal → ℚ
  | .fin neg m e => (if neg then -1 else 1) * (m : ℚ) * (2 : ℚ) ^ e
  | _ => 0

/-- A value that is no NaN among all values, the infinities at the two ends. -/
def FVal.place : FVal → WithBot (WithTop ℚ)
  | .inf neg => if neg then ⊥ else ((⊤ : WithTop ℚ) : WithBot (WithTop ℚ))
  | v => ((v.num : WithTop ℚ) : WithBot (WithTop ℚ))

/-- A finite value. -/
def FVal.isFin : FVal → Bool
  | .fin _ _ _ => true
  | _ => false

/-- The operands of a product that is infinite (44_rv32f.md R403). -/
inductive InfProduct : FVal → FVal → Prop
  | both (a b : Bool) : InfProduct (.inf a) (.inf b)
  | left (a b : Bool) (m : Nat) (e : Int) (h : m ≠ 0) : InfProduct (.inf a) (.fin b m e)
  | right (a b : Bool) (m : Nat) (e : Int) (h : m ≠ 0) : InfProduct (.fin a m e) (.inf b)

/-- `k` is the integer the real number `v` rounds to: to the nearest with ties to the even one, towards zero, down,
up, or to the nearest with ties away from zero (44_rv32f.md R402). -/
def RoundsToInt (rm : RMode) (v : ℝ) (k : ℤ) : Prop :=
  match rm with
  | .rne => |v - k| ≤ 1 / 2 ∧ (|v - k| = 1 / 2 → k % 2 = 0)
  | .rtz => (0 ≤ v → (k : ℝ) ≤ v ∧ v < k + 1) ∧ (v < 0 → v ≤ k ∧ (k : ℝ) - 1 < v)
  | .rdn => (k : ℝ) ≤ v ∧ v < k + 1
  | .rup => v ≤ k ∧ (k : ℝ) - 1 < v
  | .rmm => |v - k| ≤ 1 / 2 ∧ (|v - k| = 1 / 2 → |v| < |(k : ℝ)|)

/-- The exponent after the largest one: every finite number of the format is below 2 to this power. -/
def FFmt.eLimit (f : FFmt) : ℤ := f.qMin + f.fracBits + (2 ^ f.expBits - 2 : ℤ)

/-- `r` is the result of rounding the real number `v`, not 0, to the format (44_rv32f.md R402, R403). The place of
`v` is `l`: 2^l ≤ |v| < 2^(l+1). Its last bit is worth 2^q, of a subnormal 2^qMin; `k` is `v` counted in that unit and
rounded. Below the limit of the format the result is `k * 2^q` with the sign of `v`, NX says that this is not `v`, and
UF that moreover `v` rounded with no bound on the exponent is below the smallest normal number. From the limit on OF and
NX are set and the result is infinity or the largest finite number. -/
def IsRounded (f : FFmt) (rm : RMode) (v : ℝ) (r : FOut) : Prop :=
  ∀ l q k ku : ℤ, (2 : ℝ) ^ l ≤ |v| → |v| < (2 : ℝ) ^ (l + 1) → q = max f.qMin (l - f.fracBits) →
    RoundsToInt rm (v / (2 : ℝ) ^ q) k → RoundsToInt rm (v / (2 : ℝ) ^ (l - f.fracBits)) ku →
    (|(k : ℝ) * 2 ^ q| < (2 : ℝ) ^ f.eLimit →
      ∃ neg m e, f.unpack r.bits = .fin neg m e ∧ (neg = true ↔ v < 0) ∧ (m : ℝ) * 2 ^ e = |(k : ℝ) * 2 ^ q| ∧
        r.flags = (if (k : ℝ) * 2 ^ q = v then 0
          else if |(ku : ℝ) * 2 ^ (l - f.fracBits)| < (2 : ℝ) ^ (f.qMin + f.fracBits) then flagUF ||| flagNX
          else flagNX)) ∧
    ((2 : ℝ) ^ f.eLimit ≤ |(k : ℝ) * 2 ^ q| →
      r.flags = flagOF ||| flagNX ∧
      (if rm = .rtz ∨ (rm = .rdn ∧ 0 < v) ∨ (rm = .rup ∧ v < 0) then
        ∃ neg, (neg = true ↔ v < 0) ∧
          f.unpack r.bits = .fin neg (2 ^ (f.fracBits + 1) - 1) (f.eLimit - f.fracBits - 1)
       else ∃ neg, (neg = true ↔ v < 0) ∧ f.unpack r.bits = .inf neg))

/-- The subset an instruction belongs to is there and FS is not Off (44_rv32f.md R400). -/
def FpReady (s : State) (has : Bool) : Prop := has = true ∧ s.csr.mstatus.fs ≠ 0#2

/-- An instruction that writes the single-precision result `r` to `f[rd]`, boxed where the core has D. -/
def SingleDone (i : Instr) (s : State) (rd : Reg) (r : FOut) : Prop :=
  ∃ t, exec i s = .next t ∧ DoneF s t rd (boxS s.cfg.hasD (BitVec.ofNat 32 r.bits)) r.flags (s.pc + 4)

/-- An instruction that writes the double-precision result `r` to `f[rd]`. -/
def DoubleDone (i : Instr) (s : State) (rd : Reg) (r : FOut) : Prop :=
  ∃ t, exec i s = .next t ∧ DoneF s t rd (BitVec.ofNat 64 r.bits) r.flags (s.pc + 4)

/-- The NaN rules of FMIN and FMAX on the encodings `a` and `b`, the result for two numbers being left open
(44_rv32f.md R419). -/
def MinMaxNan (f : FFmt) (variant : FminmaxVariant) (a b : Nat) (r : FOut) : Prop :=
  ((f.unpack a).isNan = true → (f.unpack b).isNan = true → r.bits = f.nanBits) ∧
  ((f.unpack a).isSignaling = true ∨ (f.unpack b).isSignaling = true →
    r.flags = flagNV ∧ (variant = .v20 → r.bits = f.nanBits)) ∧
  ((f.unpack a).isSignaling = false → (f.unpack b).isSignaling = false → r.flags = 0) ∧
  ((f.unpack a).isNan = true → (f.unpack b).isNan = false →
    (f.unpack a).isSignaling = false ∨ variant = .v22 → r.bits = b) ∧
  ((f.unpack b).isNan = true → (f.unpack a).isNan = false →
    (f.unpack b).isSignaling = false ∨ variant = .v22 → r.bits = a)

/-- `r` is the minimum of the encodings `a` and `b` (44_rv32f.md R419). -/
def IsMin (f : FFmt) (variant : FminmaxVariant) (a b : Nat) (r : FOut) : Prop :=
  MinMaxNan f variant a b r ∧
  ((f.unpack a).isNan = false → (f.unpack b).isNan = false →
    ((f.unpack a).place < (f.unpack b).place → r.bits = a) ∧
    ((f.unpack b).place < (f.unpack a).place → r.bits = b) ∧
    ((f.unpack a).place = (f.unpack b).place → r.bits = if (f.unpack a).isNeg then a else b))

/-- `r` is the maximum of the encodings `a` and `b` (44_rv32f.md R420). -/
def IsMax (f : FFmt) (variant : FminmaxVariant) (a b : Nat) (r : FOut) : Prop :=
  MinMaxNan f variant a b r ∧
  ((f.unpack a).isNan = false → (f.unpack b).isNan = false →
    ((f.unpack a).place < (f.unpack b).place → r.bits = b) ∧
    ((f.unpack b).place < (f.unpack a).place → r.bits = a) ∧
    ((f.unpack a).place = (f.unpack b).place → r.bits = if (f.unpack a).isNeg then b else a))

/-- A comparison of the values `x` and `y`: 1 or 0 as `holds` says when neither is a NaN, else 0; NV if `invalid`. -/
def CompareDone (i : Instr) (s : State) (rd : Reg) (x y : FVal) (holds : Prop) (invalid : Bool) : Prop :=
  ∃ t v, exec i s = .next t ∧ DoneFx s t rd v (if invalid then flagNV else 0) (s.pc + 4) ∧
    (x.isNan = true ∨ y.isNan = true → v = 0) ∧
    (x.isNan = false → y.isNan = false → (v = 1 ∧ holds) ∨ (v = 0 ∧ ¬ holds))

/-- `k` is the number of the class of the encoding with these fields (44_rv32f.md R427). -/
def IsClass {we wf : Nat} (sign : BitVec 1) (ex : BitVec we) (frac : BitVec wf) (k : Nat) : Prop :=
  k = if ex = BitVec.allOnes we then
        if frac = 0#wf then (if sign = 1#1 then 0 else 7) else if frac.msb then 9 else 8
      else if ex = 0#we then
        if frac = 0#wf then (if sign = 1#1 then 3 else 4) else if sign = 1#1 then 2 else 5
      else if sign = 1#1 then 1 else 6

/-- A conversion of the value `x` to an integer between `lo` and `hi` (44_rv32f.md R421, R422). -/
def ToIntDone (i : Instr) (s : State) (rd : Reg) (mode : RMode) (x : FVal) (lo hi : Int) : Prop :=
  ∃ t v fl, exec i s = .next t ∧ DoneFx s t rd (BitVec.ofInt 32 v) fl (s.pc + 4) ∧
    (x.isNan = true → v = hi ∧ fl = flagNV) ∧
    (x = .inf false → v = hi ∧ fl = flagNV) ∧
    (x = .inf true → v = lo ∧ fl = flagNV) ∧
    (x.isFin = true → ∀ k : ℤ, RoundsToInt mode ((x.num : ℚ) : ℝ) k →
      (k < lo → v = lo ∧ fl = flagNV) ∧
      (hi < k → v = hi ∧ fl = flagNV) ∧
      (lo ≤ k → k ≤ hi → v = k ∧ fl = if (k : ℚ) = x.num then 0 else flagNX))

/-- The instruction has the rounding-mode field `rm` and belongs to the subset that is there if `has` (44_rv32f.md R402). -/
inductive RoundingField (cfg : Config) : Instr → BitVec 3 → Bool → Prop
  | faddS (rd rs1 rs2 : Reg) (rm : BitVec 3) : RoundingField cfg (.faddS rd rs1 rs2 rm) rm cfg.hasF
  | fsubS (rd rs1 rs2 : Reg) (rm : BitVec 3) : RoundingField cfg (.fsubS rd rs1 rs2 rm) rm cfg.hasF
  | fmulS (rd rs1 rs2 : Reg) (rm : BitVec 3) : RoundingField cfg (.fmulS rd rs1 rs2 rm) rm cfg.hasF
  | fdivS (rd rs1 rs2 : Reg) (rm : BitVec 3) : RoundingField cfg (.fdivS rd rs1 rs2 rm) rm cfg.hasF
  | fmaddS (rd rs1 rs2 rs3 : Reg) (rm : BitVec 3) : RoundingField cfg (.fmaddS rd rs1 rs2 rs3 rm) rm cfg.hasF
  | fmsubS (rd rs1 rs2 rs3 : Reg) (rm : BitVec 3) : RoundingField cfg (.fmsubS rd rs1 rs2 rs3 rm) rm cfg.hasF
  | fnmsubS (rd rs1 rs2 rs3 : Reg) (rm : BitVec 3) : RoundingField cfg (.fnmsubS rd rs1 rs2 rs3 rm) rm cfg.hasF
  | fnmaddS (rd rs1 rs2 rs3 : Reg) (rm : BitVec 3) : RoundingField cfg (.fnmaddS rd rs1 rs2 rs3 rm) rm cfg.hasF
  | fsqrtS (rd rs1 : Reg) (rm : BitVec 3) : RoundingField cfg (.fsqrtS rd rs1 rm) rm cfg.hasF
  | fcvtWS (rd rs1 : Reg) (rm : BitVec 3) : RoundingField cfg (.fcvtWS rd rs1 rm) rm cfg.hasF
  | fcvtWuS (rd rs1 : Reg) (rm : BitVec 3) : RoundingField cfg (.fcvtWuS rd rs1 rm) rm cfg.hasF
  | fcvtSW (rd rs1 : Reg) (rm : BitVec 3) : RoundingField cfg (.fcvtSW rd rs1 rm) rm cfg.hasF
  | fcvtSWu (rd rs1 : Reg) (rm : BitVec 3) : RoundingField cfg (.fcvtSWu rd rs1 rm) rm cfg.hasF
  | faddD (rd rs1 rs2 : Reg) (rm : BitVec 3) : RoundingField cfg (.faddD rd rs1 rs2 rm) rm cfg.hasD
  | fsubD (rd rs1 rs2 : Reg) (rm : BitVec 3) : RoundingField cfg (.fsubD rd rs1 rs2 rm) rm cfg.hasD
  | fmulD (rd rs1 rs2 : Reg) (rm : BitVec 3) : RoundingField cfg (.fmulD rd rs1 rs2 rm) rm cfg.hasD
  | fdivD (rd rs1 rs2 : Reg) (rm : BitVec 3) : RoundingField cfg (.fdivD rd rs1 rs2 rm) rm cfg.hasD
  | fmaddD (rd rs1 rs2 rs3 : Reg) (rm : BitVec 3) : RoundingField cfg (.fmaddD rd rs1 rs2 rs3 rm) rm cfg.hasD
  | fmsubD (rd rs1 rs2 rs3 : Reg) (rm : BitVec 3) : RoundingField cfg (.fmsubD rd rs1 rs2 rs3 rm) rm cfg.hasD
  | fnmsubD (rd rs1 rs2 rs3 : Reg) (rm : BitVec 3) : RoundingField cfg (.fnmsubD rd rs1 rs2 rs3 rm) rm cfg.hasD
  | fnmaddD (rd rs1 rs2 rs3 : Reg) (rm : BitVec 3) : RoundingField cfg (.fnmaddD rd rs1 rs2 rs3 rm) rm cfg.hasD
  | fsqrtD (rd rs1 : Reg) (rm : BitVec 3) : RoundingField cfg (.fsqrtD rd rs1 rm) rm cfg.hasD
  | fcvtSD (rd rs1 : Reg) (rm : BitVec 3) : RoundingField cfg (.fcvtSD rd rs1 rm) rm cfg.hasD
  | fcvtDS (rd rs1 : Reg) (rm : BitVec 3) : RoundingField cfg (.fcvtDS rd rs1 rm) rm cfg.hasD
  | fcvtWD (rd rs1 : Reg) (rm : BitVec 3) : RoundingField cfg (.fcvtWD rd rs1 rm) rm cfg.hasD
  | fcvtWuD (rd rs1 : Reg) (rm : BitVec 3) : RoundingField cfg (.fcvtWuD rd rs1 rm) rm cfg.hasD
  | fcvtDW (rd rs1 : Reg) (rm : BitVec 3) : RoundingField cfg (.fcvtDW rd rs1 rm) rm cfg.hasD
  | fcvtDWu (rd rs1 : Reg) (rm : BitVec 3) : RoundingField cfg (.fcvtDWu rd rs1 rm) rm cfg.hasD

/-! ### Traps -/

/-- The two-level state stack after a push: level 1 went to level 2, the live registers to level 1
(60_exceptions.md R551). -/
structure StackPushed (c d : Csrs) : Prop where
  level2 : d.save2 = c.save1
  epc : d.save1.epc = c.mepc
  cause : d.save1.cause.word = c.causeRead
  dcause : d.save1.dcause = c.mdcause
  ptyp : d.save1.ptyp = c.msubm.ptyp
  mpp : d.save1.mpp = c.mstatus.mpp.bits
  mpie : d.save1.mpie = c.mstatus.mpie

/-- The state stack is pushed where the core has it and untouched where it has not. -/
def StackAtEntry (hasStack : Bool) (c d : Csrs) : Prop :=
  if hasStack then StackPushed c d else d.save1 = c.save1 ∧ d.save2 = c.save2

/-- What no trap entry changes: integer and floating-point registers, memory, the ECLIC, the TIMER, the
counter mcycle and the model's own fields. -/
structure EntryFrame (s t : State) : Prop where
  x : SameX s t
  f : SameF s t
  mem : SameMem s t
  mcycle : t.mcycle = s.mcycle
  timer : t.timer = s.timer
  asleep : t.asleep = s.asleep
  rxEvt : t.rxEvt = s.rxEvt
  txEvt : t.txEvt = s.txEvt
  eccHits : t.eccHits = s.eccHits
  inputs : t.inputs = s.inputs
  free : t.free = s.free
  cfg : t.cfg = s.cfg
  eccOut : t.eccOut = s.eccOut

/-- `t` is `s` after exception entry with the code `code` and mepc from `epc` (60_exceptions.md R530). Nothing is said
of mtval and mdcause, which the statements give where the spec does. -/
structure ExceptionEntered (s t : State) (code : BitVec 12) (epc : Word) : Prop where
  csr : t.csr =
    { s.csr with
      mepc := epc &&& 0xFFFFFFFE#32
      mcause := { s.csr.mcause with interrupt := false, exccode := code }
      mdcause := t.csr.mdcause
      mtval := t.csr.mtval
      mstatus := { s.csr.mstatus with mpie := s.csr.mstatus.mie, mpp := s.priv, mie := false }
      msubm := { ptyp := s.csr.msubm.typ, typ := 2 }
      save1 := t.csr.save1
      save2 := t.csr.save2 }
  stack : StackAtEntry s.cfg.hasNestedStack s.csr t.csr
  priv : t.priv = .machine
  resv : t.resv = none
  pc : t.pc = s.csr.mtvec &&& 0xFFFFFFFC#32
  eclic : t.eclic = s.eclic
  nmiPending : t.nmiPending = s.nmiPending
  frame : EntryFrame s t

/-- `t` is `s` after the illegal-instruction exception of the instruction at the pc whose encoding is `bits`
(60_exceptions.md R521, R524), no imprecise fault having been waiting. -/
def IllegalTaken (s t : State) (bits : Word) : Prop :=
  ExceptionEntered s t 2 s.pc ∧ t.csr.mtval = bits ∧ t.pendingFault = s.pendingFault

/-- The state a step starts from when no event comes: the pulses of the outputs are over (log 34). -/
def State.afterPulses (s : State) : State := { s with txEvt := false, eccOut := .none }

/-- The step from `s` enters the exception `code` at the pc with mtval `v`, and with mdcause `d` if the spec gives one. -/
def StepTraps (s : State) (code : BitVec 12) (v : Word) (d : Option (BitVec 2)) : Prop :=
  ∃ t, step s = thenSettle (.next t) ∧ ExceptionEntered s.afterPulses t code s.pc ∧ t.csr.mtval = v ∧
    (∀ k, d = some k → t.csr.mdcause = k) ∧ t.pendingFault = none

/-- The fetch of the aligned word at `a` in mode `p` is refused by the PMP (mdcause 1), or else by the bus (2)
(30_encoding.md R221, 60_exceptions.md R523). -/
def FetchRefused (s : State) (p : Priv) (a : Word) (d : BitVec 2) : Prop :=
  (d = 1#2 ∧ pmpCheck s p .fetch a = false) ∨
    (d = 2#2 ∧ pmpCheck s p .fetch a = true ∧ busError s.cfg .fetch a 4 = true)

/-! ### Encodings that are illegal in every core -/

/-- The 16-bit encodings of 30_encoding.md R250 but for its item 3, which depends on the core. -/
def Illegal16 (c : BitVec 16) : Prop :=
  let op := c.extractLsb' 0 2
  let f3 := c.extractLsb' 13 3
  let rd := c.extractLsb' 7 5
  (op = 0#2 ∧ f3 = 0#3 ∧ c.extractLsb' 5 8 = 0#8) ∨
  (op = 0#2 ∧ f3 = 4#3) ∨
  (op = 1#2 ∧ f3 = 3#3 ∧ c.getLsbD 12 = false ∧ c.extractLsb' 2 5 = 0#5) ∨
  (op = 1#2 ∧ f3 = 4#3 ∧ c.getLsbD 11 = false ∧ c.getLsbD 12 = true) ∨
  (op = 2#2 ∧ f3 = 0#3 ∧ c.getLsbD 12 = true) ∨
  (op = 1#2 ∧ f3 = 4#3 ∧ c.extractLsb' 10 2 = 3#2 ∧ c.getLsbD 12 = true) ∨
  (op = 2#2 ∧ f3 = 2#3 ∧ rd = 0#5) ∨
  c = 0x8002#16

/-- The values of `inst[6:0]` that instructions have (30_encoding.md R227). -/
def majorOpcodes : List (BitVec 7) :=
  [0b0000011, 0b0000111, 0b0001111, 0b0010011, 0b0010111, 0b0100011, 0b0100111, 0b0101111, 0b0110011, 0b0110111,
   0b1000011, 0b1000111, 0b1001011, 0b1001111, 0b1010011, 0b1100011, 0b1100111, 0b1101111, 0b1110011]

/-- 32-bit encodings 30_encoding.md R232 and R233 name as illegal: a shift by an immediate with bit 25 set, LR.W with an rs2, and
of SYSTEM with funct3 0 all but ECALL, EBREAK, MRET and WFI. -/
def Illegal32 (w : Word) : Prop :=
  (w.extractLsb' 0 7 = 0b0010011#7 ∧ (w.extractLsb' 12 3 = 1#3 ∨ w.extractLsb' 12 3 = 5#3) ∧ w.getLsbD 25 = true) ∨
  (w.extractLsb' 0 7 = 0b0101111#7 ∧ w.extractLsb' 27 5 = 2#5 ∧ w.extractLsb' 20 5 ≠ 0#5) ∨
  (w.extractLsb' 0 7 = 0b1110011#7 ∧ w.extractLsb' 12 3 = 0#3 ∧ w ≠ 0x00000073#32 ∧ w ≠ 0x00100073#32 ∧
    w ≠ 0x30200073#32 ∧ w ≠ 0x10500073#32)

/-! ### Control transfers -/

/-- What a conditional branch does, the condition given: it goes to the target or to the next instruction, and writes
no register. `len` is its length and `off` its offset. -/
def BranchDone (i : Instr) (s : State) (len : Word) (taken : Prop) (off : Word) : Prop :=
  (taken → (s.cfg.hasC = false → (s.pc + off).getLsbD 1 = false) →
    ∃ t, exec i s = .next t ∧ DoneX s t 0 0 (s.pc + off)) ∧
  (¬ taken → ∃ t, exec i s = .next t ∧ DoneX s t 0 0 (s.pc + len))

/-- A jump or a taken branch to a target whose bit 1 is set enters the exception of code 0 at its own address, with
mtval the target (40_rv32i.md R262). -/
def TargetTraps (i : Instr) (s : State) (taken : Prop) (target : Word) : Prop :=
  taken → target.getLsbD 1 = true →
    ∃ t, exec i s = .next t ∧ ExceptionEntered s t 0 s.pc ∧ t.csr.mtval = target ∧ t.pendingFault = s.pendingFault

/-! ### Illegal instructions -/

/-- The subsets instructions belong to (00_scope.md R4); the 16-bit floating-point loads and stores need two. -/
inductive Subset
  | base   -- RV32I and the system instructions
  | m
  | a
  | f
  | d
  | c
  | cf
  | cd
deriving DecidableEq, Repr

/-- The subset of each instruction. -/
def subsetOf : Instr → Subset
  | .lui .. => .base
  | .auipc .. => .base
  | .jal .. => .base
  | .jalr .. => .base
  | .beq .. => .base
  | .bne .. => .base
  | .blt .. => .base
  | .bge .. => .base
  | .bltu .. => .base
  | .bgeu .. => .base
  | .lb .. => .base
  | .lh .. => .base
  | .lw .. => .base
  | .lbu .. => .base
  | .lhu .. => .base
  | .sb .. => .base
  | .sh .. => .base
  | .sw .. => .base
  | .addi .. => .base
  | .slti .. => .base
  | .sltiu .. => .base
  | .xori .. => .base
  | .ori .. => .base
  | .andi .. => .base
  | .slli .. => .base
  | .srli .. => .base
  | .srai .. => .base
  | .add .. => .base
  | .sub .. => .base
  | .sll .. => .base
  | .slt .. => .base
  | .sltu .. => .base
  | .xor .. => .base
  | .srl .. => .base
  | .sra .. => .base
  | .or .. => .base
  | .and .. => .base
  | .fence .. => .base
  | .fenceI .. => .base
  | .mul .. => .m
  | .mulh .. => .m
  | .mulhsu .. => .m
  | .mulhu .. => .m
  | .div .. => .m
  | .divu .. => .m
  | .rem .. => .m
  | .remu .. => .m
  | .cAddi4spn .. => .c
  | .cFld .. => .cd
  | .cLw .. => .c
  | .cFlw .. => .cf
  | .cFsd .. => .cd
  | .cSw .. => .c
  | .cFsw .. => .cf
  | .cNop .. => .c
  | .cAddi .. => .c
  | .cJal .. => .c
  | .cLi .. => .c
  | .cAddi16sp .. => .c
  | .cLui .. => .c
  | .cSrli .. => .c
  | .cSrai .. => .c
  | .cAndi .. => .c
  | .cSub .. => .c
  | .cXor .. => .c
  | .cOr .. => .c
  | .cAnd .. => .c
  | .cJ .. => .c
  | .cBeqz .. => .c
  | .cBnez .. => .c
  | .cSlli .. => .c
  | .cFldsp .. => .cd
  | .cLwsp .. => .c
  | .cFlwsp .. => .cf
  | .cJr .. => .c
  | .cMv .. => .c
  | .cEbreak => .c
  | .cJalr .. => .c
  | .cAdd .. => .c
  | .cFsdsp .. => .cd
  | .cSwsp .. => .c
  | .cFswsp .. => .cf
  | .lrW .. => .a
  | .scW .. => .a
  | .amoswapW .. => .a
  | .amoaddW .. => .a
  | .amoxorW .. => .a
  | .amoandW .. => .a
  | .amoorW .. => .a
  | .amominW .. => .a
  | .amomaxW .. => .a
  | .amominuW .. => .a
  | .amomaxuW .. => .a
  | .flw .. => .f
  | .fsw .. => .f
  | .fmaddS .. => .f
  | .fmsubS .. => .f
  | .fnmsubS .. => .f
  | .fnmaddS .. => .f
  | .faddS .. => .f
  | .fsubS .. => .f
  | .fmulS .. => .f
  | .fdivS .. => .f
  | .fsqrtS .. => .f
  | .fsgnjS .. => .f
  | .fsgnjnS .. => .f
  | .fsgnjxS .. => .f
  | .fminS .. => .f
  | .fmaxS .. => .f
  | .fcvtWS .. => .f
  | .fcvtWuS .. => .f
  | .fmvXW .. => .f
  | .feqS .. => .f
  | .fltS .. => .f
  | .fleS .. => .f
  | .fclassS .. => .f
  | .fcvtSW .. => .f
  | .fcvtSWu .. => .f
  | .fmvWX .. => .f
  | .fld .. => .d
  | .fsd .. => .d
  | .fmaddD .. => .d
  | .fmsubD .. => .d
  | .fnmsubD .. => .d
  | .fnmaddD .. => .d
  | .faddD .. => .d
  | .fsubD .. => .d
  | .fmulD .. => .d
  | .fdivD .. => .d
  | .fsqrtD .. => .d
  | .fsgnjD .. => .d
  | .fsgnjnD .. => .d
  | .fsgnjxD .. => .d
  | .fminD .. => .d
  | .fmaxD .. => .d
  | .fcvtSD .. => .d
  | .fcvtDS .. => .d
  | .feqD .. => .d
  | .fltD .. => .d
  | .fleD .. => .d
  | .fclassD .. => .d
  | .fcvtWD .. => .d
  | .fcvtWuD .. => .d
  | .fcvtDW .. => .d
  | .fcvtDWu .. => .d
  | .csrrw .. => .base
  | .csrrs .. => .base
  | .csrrc .. => .base
  | .csrrwi .. => .base
  | .csrrsi .. => .base
  | .csrrci .. => .base
  | .ebreak => .base
  | .ecall => .base
  | .mret => .base
  | .wfi => .base

/-- The subset is configured (30_encoding.md R230). -/
def Subset.present (cfg : Config) : Subset → Bool
  | .base => true
  | .m => cfg.hasM
  | .a => cfg.hasA
  | .f => cfg.hasF
  | .d => cfg.hasD
  | .c => cfg.hasC
  | .cf => cfg.hasC && cfg.hasF
  | .cd => cfg.hasC && cfg.hasD

/-- The subsets whose instructions need FS not to be Off (44_rv32f.md R400, 45_rv32d.md R440). -/
def Subset.needsFs : Subset → Bool
  | .f | .d | .cf | .cd => true
  | .base | .m | .a | .c => false

/-- The instruction takes the illegal-instruction exception. -/
def TrapsIllegal (i : Instr) (s : State) : Prop := ∃ t, exec i s = .next t ∧ IllegalTaken s t (encode i).bits

/-- The CSR `c` is at the address `a` in this configuration: the table of 10_state.md R31, row by row under the condition of
R31 and R32 that it has. The two PMP tables end where the addresses of R31 meet: 16 pmpcfg, 64 pmpaddr. -/
inductive CsrAt (cfg : Config) (a : CsrAddr) (c : Csr) : Prop
  | machine (h : (a.toNat, c) ∈ [(0x300, .mstatus), (0x301, .misa), (0x304, .mie), (0x305, .mtvec), (0x307, .mtvt),
      (0x320, .mcountinhibit), (0x340, .mscratch), (0x341, .mepc), (0x342, .mcause), (0x343, .mtval), (0x344, .mip),
      (0x345, .mnxti), (0x346, .mintstatus), (0x348, .mscratchcsw), (0x349, .mscratchcswl), (0x7C3, .mnvec),
      (0x7C4, .msubm), (0x7C9, .mdcause), (0x7D0, .mmiscCtl), (0x7EB, .pushmsubm), (0x7EC, .mtvt2), (0x7ED, .jalmnxti),
      (0x7EE, .pushmcause), (0x7EF, .pushmepc), (0xB00, .mcycle), (0xB02, .minstret), (0xB80, .mcycleh),
      (0xB82, Csr.minstreth)])
  | user (h : (a.toNat, c) ∈ [(0x810, .wfe), (0x811, .sleepvalue), (0x812, .txevt), (0xC00, .cycle), (0xC01, .time),
      (0xC02, .instret), (0xC80, .cycleh), (0xC81, .timeh), (0xC82, Csr.instreth)])
  | info (h : (a.toNat, c) ∈ [(0x7F0, .mppicfgInfo), (0x7F1, .mfiocfgInfo), (0xF11, .mvendorid), (0xF12, .marchid),
      (0xF13, .mimpid), (0xF14, .mhartid), (0xFC0, .micfgInfo), (0xFC1, .mdcfgInfo), (0xFC2, Csr.mcfgInfo)])
  | fp (h : (a.toNat, c) ∈ [(0x001, .fflags), (0x002, .frm), (0x003, Csr.fcsr)]) (hc : cfg.hasF = true ∨ cfg.hasD = true)
  | counteren (h : (a.toNat, c) = (0x306, .mcounteren)) (hc : cfg.hasUmode = true)
  | pmpcfg (k : Nat) (h : (a.toNat, c) = (0x3A0 + k, .pmpcfg k)) (hc : cfg.hasPmp = true) (hk : k < 16)
    (hn : 4 * k < cfg.pmpEntries)
  | pmpaddr (n : Nat) (h : (a.toNat, c) = (0x3B0 + n, .pmpaddr n)) (hc : cfg.hasPmp = true) (hk : n < 64)
    (hn : n < cfg.pmpEntries)
  | ilm (h : (a.toNat, c) = (0x7C0, .milmCtl)) (hc : cfg.hasIlm = true)
  | dlm (h : (a.toNat, c) = (0x7C1, .mdlmCtl)) (hc : cfg.hasDlm = true)
  | ecc (h : (a.toNat, c) ∈ [(0x7C2, .meccCode), (0x7DE, Csr.meccLock)]) (hc : cfg.hasEcc = true)
  | cache (h : (a.toNat, c) = (0x7CA, .mcacheCtl)) (hc : cfg.hasIcache = true)
  | stack (h : (a.toNat, c) ∈ [(0x7D6, .msavestatus), (0x7D7, .msaveepc1), (0x7D8, .msavecause1), (0x7D9, .msaveepc2),
      (0x7DA, .msavecause2), (0x7DB, .msavedcause1), (0x7DC, Csr.msavedcause2)]) (hc : cfg.hasNestedStack = true)
  | packed (h : (a.toNat, c) = (0x801, .ucode)) (hc : cfg.hasP = true)

/-- Why the CSR address `a` may not be accessed, `wr` saying whether the access writes (10_state.md R34). The classes
are told by the address bits, but for the read-only registers R33 names. -/
inductive CsrForbidden (s : State) (a : CsrAddr) (wr : Bool) : Prop
  | absent (h : ∀ c, ¬ CsrAt s.cfg a c)
  | readOnly (hw : wr = true) (h : a.extractLsb' 10 2 = 3#2 ∨ a = 0x7F0#12 ∨ a = 0x7F1#12)
  | machineOnly (hp : s.priv = .user) (h : a.extractLsb' 8 2 = 3#2)
  | cycle (hp : s.priv = .user) (h : a = 0xC00#12 ∨ a = 0xC80#12) (hc : s.csr.mcounteren.cy = false)
  | time (hp : s.priv = .user) (h : a = 0xC01#12 ∨ a = 0xC81#12) (hc : s.csr.mcounteren.tm = false)
  | instret (hp : s.priv = .user) (h : a = 0xC02#12 ∨ a = 0xC82#12) (hc : s.csr.mcounteren.ir = false)
  | fpOff (h : a = 0x001#12 ∨ a = 0x002#12 ∨ a = 0x003#12) (hf : s.csr.mstatus.fs = 0#2)

/-! ### The CSR instructions -/

/-- The bytes left unspecified by a mode switch of the Scratchpad are those of the ILM (20_memory.md R206). -/
def State.DrawIsIlm (s : State) : Prop :=
  ∀ d, s.mem.draw = some d → d.base = baseOf s.cfg.ilmBpa ∧ d.size = localMemSize s.cfg.ilmSize


/-- A saved mcause as a number, in the layout of mcause (10_state.md R56, 11_state_nuclei_csr.md R110). -/
def causeNumber (c : SavedCause) : Word :=
  BitVec.ofNat 32 (c.interrupt.toNat * 2 ^ 31 + c.minhv.toNat * 2 ^ 30 + c.mpp.toNat * 2 ^ 28 + c.mpie.toNat * 2 ^ 27 +
    c.mpil.toNat * 2 ^ 16 + c.exccode.toNat)

/-- The seven CSRs that are operations, not storage (46_system.md R493 to R499). -/
def Csr.isPoint : Csr → Bool
  | .mnxti | .jalmnxti | .mscratchcsw | .mscratchcswl | .pushmsubm | .pushmcause | .pushmepc => true
  | _ => false

/-- The two bits `z` of MPP after the bits `w` are written: a legal mode is stored, of the others nothing is said but
that a legal one results (10_state.md R43). -/
def MppStored (cfg : Config) (w z : BitVec 2) : Prop :=
  (w = 3#2 → z = 3#2) ∧ (w = 0#2 → cfg.hasUmode = true → z = 0#2) ∧ (z = 3#2 ∨ (cfg.hasUmode = true ∧ z = 0#2))

/-- The configuration byte `z` of a PMP entry after `w` is written, `old` before: a locked entry keeps its own, A = 1
stores 0, bits 6:5 stay 0 (10_state.md R72, R74). -/
def PmpByteStored (old w z : Byte) : Prop :=
  z = if old.getLsbD 7 then old
    else if w.extractLsb' 3 2 = 1#2 then w &&& 0x87#8 else w &&& 0x9F#8

/-- What the CSR `c` reads once `v` has been written to it, `old` being what it read before: the table of
46_system.md R482. `r` is the value read. -/
def CsrKeeps (s : State) (c : Csr) (v old r : Word) : Prop :=
  match c with
  | .fflags => r = v &&& 0x1F#32
  | .frm => r = v &&& 0x7#32
  | .fcsr => r = v &&& 0xFF#32
  | .mstatus =>
    r &&& 0x00078088#32 = v &&& 0x00078088#32 ∧ r &&& 0x7FF80777#32 = 0 ∧
    r.extractLsb' 13 2 = (if s.cfg.hasF || s.cfg.hasD then v else old).extractLsb' 13 2 ∧
    (r.getLsbD 31 = true ↔ r.extractLsb' 13 2 = 3#2 ∨ r.extractLsb' 15 2 = 3#2) ∧
    MppStored s.cfg (v.extractLsb' 11 2) (r.extractLsb' 11 2)
  | .misa | .mnvec | .mintstatus | .mie | .mip | .txevt => r = old
  | .mtvec | .mscratch | .mtval | .mcycle | .mcycleh | .minstret | .minstreth => r = v
  | .mcounteren => r = v &&& 0x7#32
  | .mcountinhibit => r = v &&& 0x5#32
  | .mtvt =>
    s.cfg.numInterrupt ≤ 4096 → ∃ k, r.toNat = v.toNat / 2 ^ k * 2 ^ k ∧ 6 ≤ k ∧ 4 * s.cfg.numInterrupt ≤ 2 ^ k ∧
      (k = 6 ∨ 2 ^ (k - 1) < 4 * s.cfg.numInterrupt)
  | .mepc | .msaveepc1 | .msaveepc2 => r = v &&& 0xFFFFFFFE#32
  | .mcause =>
    r &&& 0xCFFFFFFF#32 = v &&& 0xC8FF0FFF#32 ∧ MppStored s.cfg (v.extractLsb' 28 2) (r.extractLsb' 28 2)
  | .pmpcfg k => ∀ j < 4, 4 * k + j < s.csr.pmp.length →
      PmpByteStored (old.extractLsb' (8 * j) 8) (v.extractLsb' (8 * j) 8) (r.extractLsb' (8 * j) 8)
  | .pmpaddr n => ∀ e, s.csr.pmp[n]? = some e → r = if e.lock then old else v &&& 0x3FFFFFFF#32
  | .milmCtl | .mdlmCtl => r = if s.csr.meccLock then old else (old &&& 0xFFFFFFF1#32) ||| (v &&& 0xE#32)
  | .meccCode =>
    r &&& 0xFFFFFE00#32 = v &&& 0x1F1F0000#32 ∧
    r.extractLsb' 0 9 = if s.csr.meccLock then old.extractLsb' 0 9
      else v.extractLsb' 0 9 &&& BitVec.ofNat 9 (2 ^ min 9 s.cfg.eccCodeWidth - 1)
  | .msubm => r = v &&& 0x3C0#32
  | .mdcause | .msavedcause1 | .msavedcause2 => r = v &&& 0x3#32
  | .mcacheCtl =>
    r = if s.csr.meccLock then (old &&& 0x001E003C#32) ||| (v &&& 0x00010003#32) else v &&& 0x001F003F#32
  | .mmiscCtl =>
    r = (v &&& 0x200#32) ||| ((if s.cfg.hasMisaligned then v else old) &&& 0x40#32) |||
      ((if s.cfg.hasBpu then v else old) &&& 0x8#32)
  | .msavestatus => r = v &&& 0xC7C7#32
  | .msavecause1 | .msavecause2 => r = v &&& 0xF8FF0FFF#32
  | .meccLock => r = (old ||| v) &&& 0x1#32
  | .mtvt2 => r = v &&& 0xFFFFFFFD#32
  | .ucode | .wfe | .sleepvalue => r = v &&& 0x1#32
  | .pushmsubm | .jalmnxti | .pushmcause | .pushmepc | .mnxti | .mscratchcsw | .mscratchcswl => True
  | .mppicfgInfo | .mfiocfgInfo | .cycle | .time | .instret | .cycleh | .timeh | .instreth | .mvendorid | .marchid
  | .mimpid | .mhartid | .micfgInfo | .mdcfgInfo | .mcfgInfo => True

/-- `d` is `c` but for the storage of the CSR `r`: the fields of the other CSRs are as they were. A write of a
floating-point CSR also makes FS Dirty (10_state.md R45), and MPP and MPIE belong to mstatus and mcause (R43). -/
def CsrOnly (r : Csr) (c d : Csrs) : Prop :=
  match r with
  | .fflags => d = { c with fcsr := { frm := c.fcsr.frm, fflags := d.fcsr.fflags },
                            mstatus := { c.mstatus with fs := 3 } }
  | .frm => d = { c with fcsr := { frm := d.fcsr.frm, fflags := c.fcsr.fflags },
                         mstatus := { c.mstatus with fs := 3 } }
  | .fcsr => d = { c with fcsr := d.fcsr, mstatus := { c.mstatus with fs := 3 } }
  | .mstatus => d = { c with mstatus := d.mstatus }
  | .mtvec => d = { c with mtvec := d.mtvec }
  | .mcounteren => d = { c with mcounteren := d.mcounteren }
  | .mtvt => d = { c with mtvt := d.mtvt }
  | .mcountinhibit => d = { c with mcountinhibit := d.mcountinhibit }
  | .mscratch => d = { c with mscratch := d.mscratch }
  | .mepc => d = { c with mepc := d.mepc }
  | .mcause =>
    d = { c with mcause := d.mcause, mstatus := { c.mstatus with mpp := d.mstatus.mpp, mpie := d.mstatus.mpie } }
  | .mtval => d = { c with mtval := d.mtval }
  | .pmpcfg k => d = { c with pmp := d.pmp } ∧ d.pmp.length = c.pmp.length ∧
      (∀ n, n / 4 ≠ k → d.pmp[n]? = c.pmp[n]?) ∧
      ∀ (n : Nat) (e e' : PmpEntry), c.pmp[n]? = some e → d.pmp[n]? = some e' → e'.addr = e.addr
  | .pmpaddr k => d = { c with pmp := d.pmp } ∧ d.pmp.length = c.pmp.length ∧
      (∀ n, n ≠ k → d.pmp[n]? = c.pmp[n]?) ∧
      ∀ (n : Nat) (e e' : PmpEntry), c.pmp[n]? = some e → d.pmp[n]? = some e' → e' = { e with addr := e'.addr }
  | .milmCtl => d = { c with milm := d.milm }
  | .mdlmCtl => d = { c with mdlm := d.mdlm }
  | .meccCode => d = { c with mecc := d.mecc }
  | .msubm => d = { c with msubm := d.msubm }
  | .mdcause => d = { c with mdcause := d.mdcause }
  | .mcacheCtl => d = { c with dcache := d.dcache, icache := d.icache, icScpdMod := d.icScpdMod }
  | .mmiscCtl => d = { c with mmisc := d.mmisc }
  | .msavestatus =>
    d = { c with
      save1 := { c.save1 with ptyp := d.save1.ptyp, mpp := d.save1.mpp, mpie := d.save1.mpie }
      save2 := { c.save2 with ptyp := d.save2.ptyp, mpp := d.save2.mpp, mpie := d.save2.mpie } }
  | .msaveepc1 => d = { c with save1 := { c.save1 with epc := d.save1.epc } }
  | .msavecause1 => d = { c with save1 := { c.save1 with cause := d.save1.cause } }
  | .msaveepc2 => d = { c with save2 := { c.save2 with epc := d.save2.epc } }
  | .msavecause2 => d = { c with save2 := { c.save2 with cause := d.save2.cause } }
  | .msavedcause1 => d = { c with save1 := { c.save1 with dcause := d.save1.dcause } }
  | .msavedcause2 => d = { c with save2 := { c.save2 with dcause := d.save2.dcause } }
  | .meccLock => d = { c with meccLock := d.meccLock }
  | .mtvt2 => d = { c with mtvt2 := d.mtvt2 }
  | .ucode => d = { c with ucodeOv := d.ucodeOv }
  | .wfe => d = { c with wfe := d.wfe }
  | .sleepvalue => d = { c with sleepvalue := d.sleepvalue }
  | .minstret => d = { c with minstret := d.minstret } ∧ d.minstret.extractLsb' 32 32 = c.minstret.extractLsb' 32 32
  | .minstreth => d = { c with minstret := d.minstret } ∧ d.minstret.setWidth 32 = c.minstret.setWidth 32
  | _ => d = c

/-- The rest of the state after a CSR instruction that wrote the storage of `c`, `v` being the value: mcycle, the
output pulse of txevt and, where a write of mcache_ctl leaves the contents of the ILM unspecified (20_memory.md R206),
the bytes of the ILM. -/
structure CsrFrame (s t : State) (c : Csr) (v : Word) : Prop where
  f : SameF s t
  priv : t.priv = s.priv
  mcycle : c ≠ .mcycle → c ≠ .mcycleh → t.mcycle = s.mcycle
  low : c = .mcycleh → t.mcycle.setWidth 32 = s.mcycle.setWidth 32
  high : c = .mcycle → t.mcycle.extractLsb' 32 32 = s.mcycle.extractLsb' 32 32
  mem : (c = .mcacheCtl → s.cfg.hasIlm = true → t.csr.scpdIsIlm = s.csr.scpdIsIlm) → t.mem = s.mem
  outside : s.mem.wf = true → s.DrawIsIlm → ∀ a : Word,
    within (baseOf s.cfg.ilmBpa) (localMemSize s.cfg.ilmSize) a.toNat = false → t.mem.read a = s.mem.read a
  stale : t.stale = s.stale
  eclic : t.eclic = s.eclic
  timer : t.timer = s.timer
  resv : t.resv = s.resv
  asleep : t.asleep = s.asleep
  nmiPending : t.nmiPending = s.nmiPending
  pendingFault : t.pendingFault = s.pendingFault
  rxEvt : t.rxEvt = s.rxEvt
  txEvt : t.txEvt = if c = .txevt ∧ v.getLsbD 0 = true then true else s.txEvt
  eccHits : t.eccHits = s.eccHits
  inputs : t.inputs = s.inputs
  free : t.free = s.free
  cfg : t.cfg = s.cfg
  eccOut : t.eccOut = s.eccOut

/-- The CSR instruction `i` completes: `x[rd]` gets what the CSR `c` read before, `c` takes `v` as `CsrKeeps` says, its
own count goes to minstret unless it wrote minstret, and nothing else changes. -/
def CsrWriteDone (i : Instr) (s : State) (rd : Reg) (c : Csr) (v : Word) : Prop :=
  ∃ t, exec i s = .next t ∧ WroteX s t rd (csrRead s c) ∧ t.pc = s.pc + 4 ∧
    CsrOnly c (if c = .minstret ∨ c = .minstreth then s.csr
      else { s.csr with minstret := t.csr.minstret }) t.csr ∧
    (c ≠ .minstret → c ≠ .minstreth → c ≠ .mcountinhibit → t.csr.minstret = s.csr.counted.minstret) ∧
    (c = .mcountinhibit → t.csr.minstret = s.csr.minstret ∨ t.csr.minstret = s.csr.minstret + 1) ∧
    CsrKeeps s c v (csrRead s c) (csrRead t c) ∧ CsrFrame s t c v

/-! ### The access points (46_system.md R493 to R499) -/

/-- The edge-triggered source `id` is no longer pending; a level-triggered one and every other source are as they were
(60_exceptions.md R577). -/
def IpCleared (e e' : Eclic) (id : Nat) : Prop :=
  e'.nlbits = e.nlbits ∧ e'.mth = e.mth ∧ e'.srcs.length = e.srcs.length ∧
  ∀ j src, e.srcs[j]? = some src →
    e'.srcs[j]? = some (if j = id ∧ src.trig.getLsbD 0 = true then { src with ip := false } else src)

/-- What an access-point instruction leaves alone: everything but integer registers, the pc, CSRs and the ECLIC. -/
structure PointFrame (s t : State) : Prop where
  f : SameF s t
  mem : SameMem s t
  priv : t.priv = s.priv
  mcycle : t.mcycle = s.mcycle
  timer : t.timer = s.timer
  resv : t.resv = s.resv
  asleep : t.asleep = s.asleep
  nmiPending : t.nmiPending = s.nmiPending
  pendingFault : t.pendingFault = s.pendingFault
  rxEvt : t.rxEvt = s.rxEvt
  txEvt : t.txEvt = s.txEvt
  eccHits : t.eccHits = s.eccHits
  inputs : t.inputs = s.inputs
  free : t.free = s.free
  cfg : t.cfg = s.cfg
  eccOut : t.eccOut = s.eccOut

/-- The CSRs after mnxti: MIE as the immediate sets or clears it, and, if an interrupt is claimed, its id and level;
the instruction is counted (46_system.md R493). -/
def mnxtiCsrs (c : Csrs) (set : Bool) (uimm : BitVec 5) (claimed : Option Request) : Csrs :=
  let m := { c.counted with
    mstatus := { c.mstatus with
      mie := if set then c.mstatus.mie || uimm.getLsbD 3 else c.mstatus.mie && !uimm.getLsbD 3 } }
  match claimed with
  | none => m
  | some r => { m with mcause := { c.mcause with exccode := BitVec.ofNat 12 r.id },
                       mintstatus := { c.mintstatus with mil := r.level } }

/-- CSRRSI (`set`) or CSRRCI on mnxti completes: `x[rd]` gets `v`, MIE changes, and the request in `claimed` is claimed. -/
def MnxtiDone (i : Instr) (s : State) (rd : Reg) (set : Bool) (uimm : BitVec 5) (claimed : Option Request) (v : Word) :
    Prop :=
  ∃ t, exec i s = .next t ∧ WroteX s t rd v ∧ t.pc = s.pc + 4 ∧ t.csr = mnxtiCsrs s.csr set uimm claimed ∧
    (claimed = none → t.eclic = s.eclic) ∧ (∀ r, claimed = some r → IpCleared s.eclic t.eclic r.id) ∧ PointFrame s t

/-- The next interrupt mnxti and jalmnxti act on: the ECLIC presents it, its level is above mcause.MPIL, and it is not
vectored (46_system.md R493, R496). -/
def NextInterrupt (s : State) (r : Request) : Prop :=
  presented s.cfg s.eclic = some r ∧ s.csr.mcause.mpil.toNat < r.level.toNat ∧ r.shv = false

/-- The address of word `id` of the vector table (60_exceptions.md R564). -/
def tableWord (s : State) (id : Nat) : Word := s.csr.mtvt + BitVec.ofNat 32 (4 * id)

/-- The scratch exchange of mscratchcsw and mscratchcswl: with `swap` `x[rd]` gets mscratch and mscratch `x[rs1]`, else
`x[rd]` gets `x[rs1]` (46_system.md R497, R498). -/
def ScratchDone (i : Instr) (s : State) (rd rs1 : Reg) (swap : Prop) : Prop :=
  ∃ t, exec i s = .next t ∧ t.pc = s.pc + 4 ∧ t.eclic = s.eclic ∧ PointFrame s t ∧
    (swap → WroteX s t rd s.csr.mscratch ∧ t.csr = { s.csr.counted with mscratch := s.getX rs1 }) ∧
    (¬ swap → WroteX s t rd (s.getX rs1) ∧ t.csr = s.csr.counted)

/-! ### Data accesses that fail -/

/-- The instruction `i`, `len` bytes long, may run in `s` and makes a data access of this kind to `n` bytes at `ea`: every
load, store and push. -/
inductive DataAccess (s : State) : Instr → Word → AccessKind → Word → Nat → Prop
  | lb (rd rs1 : Reg) (imm : BitVec 12) : DataAccess s (.lb rd rs1 imm) 4 .load (s.getX rs1 + sext imm) 1
  | lh (rd rs1 : Reg) (imm : BitVec 12) : DataAccess s (.lh rd rs1 imm) 4 .load (s.getX rs1 + sext imm) 2
  | lw (rd rs1 : Reg) (imm : BitVec 12) : DataAccess s (.lw rd rs1 imm) 4 .load (s.getX rs1 + sext imm) 4
  | lbu (rd rs1 : Reg) (imm : BitVec 12) : DataAccess s (.lbu rd rs1 imm) 4 .load (s.getX rs1 + sext imm) 1
  | lhu (rd rs1 : Reg) (imm : BitVec 12) : DataAccess s (.lhu rd rs1 imm) 4 .load (s.getX rs1 + sext imm) 2
  | sb (rs2 rs1 : Reg) (imm : BitVec 12) : DataAccess s (.sb rs2 rs1 imm) 4 .store (s.getX rs1 + sext imm) 1
  | sh (rs2 rs1 : Reg) (imm : BitVec 12) : DataAccess s (.sh rs2 rs1 imm) 4 .store (s.getX rs1 + sext imm) 2
  | sw (rs2 rs1 : Reg) (imm : BitVec 12) : DataAccess s (.sw rs2 rs1 imm) 4 .store (s.getX rs1 + sext imm) 4
  | cLw (rd rs1 : CReg) (imm : BitVec 5) (h : s.cfg.hasC = true) :
    DataAccess s (.cLw rd rs1 imm) 2 .load (s.getX (1#2 ++ rs1) + BitVec.ofNat 32 (4 * imm.toNat)) 4
  | cLwsp (rd : Reg) (imm : BitVec 6) (h : s.cfg.hasC = true) :
    DataAccess s (.cLwsp rd imm) 2 .load (s.getX 2 + BitVec.ofNat 32 (4 * imm.toNat)) 4
  | cSw (rs2 rs1 : CReg) (imm : BitVec 5) (h : s.cfg.hasC = true) :
    DataAccess s (.cSw rs2 rs1 imm) 2 .store (s.getX (1#2 ++ rs1) + BitVec.ofNat 32 (4 * imm.toNat)) 4
  | cSwsp (rs2 : Reg) (imm : BitVec 6) (h : s.cfg.hasC = true) :
    DataAccess s (.cSwsp rs2 imm) 2 .store (s.getX 2 + BitVec.ofNat 32 (4 * imm.toNat)) 4
  | flw (rd rs1 : Reg) (imm : BitVec 12) (h : FpReady s s.cfg.hasF) :
    DataAccess s (.flw rd rs1 imm) 4 .load (s.getX rs1 + sext imm) 4
  | fsw (rs2 rs1 : Reg) (imm : BitVec 12) (h : FpReady s s.cfg.hasF) :
    DataAccess s (.fsw rs2 rs1 imm) 4 .store (s.getX rs1 + sext imm) 4
  | fld (rd rs1 : Reg) (imm : BitVec 12) (h : FpReady s s.cfg.hasD) :
    DataAccess s (.fld rd rs1 imm) 4 .load (s.getX rs1 + sext imm) 8
  | fsd (rs2 rs1 : Reg) (imm : BitVec 12) (h : FpReady s s.cfg.hasD) :
    DataAccess s (.fsd rs2 rs1 imm) 4 .store (s.getX rs1 + sext imm) 8
  | cFlw (rd rs1 : CReg) (imm : BitVec 5) (hC : s.cfg.hasC = true) (h : FpReady s s.cfg.hasF) :
    DataAccess s (.cFlw rd rs1 imm) 2 .load (s.getX (1#2 ++ rs1) + BitVec.ofNat 32 (4 * imm.toNat)) 4
  | cFlwsp (rd : Reg) (imm : BitVec 6) (hC : s.cfg.hasC = true) (h : FpReady s s.cfg.hasF) :
    DataAccess s (.cFlwsp rd imm) 2 .load (s.getX 2 + BitVec.ofNat 32 (4 * imm.toNat)) 4
  | cFsw (rs2 rs1 : CReg) (imm : BitVec 5) (hC : s.cfg.hasC = true) (h : FpReady s s.cfg.hasF) :
    DataAccess s (.cFsw rs2 rs1 imm) 2 .store (s.getX (1#2 ++ rs1) + BitVec.ofNat 32 (4 * imm.toNat)) 4
  | cFswsp (rs2 : Reg) (imm : BitVec 6) (hC : s.cfg.hasC = true) (h : FpReady s s.cfg.hasF) :
    DataAccess s (.cFswsp rs2 imm) 2 .store (s.getX 2 + BitVec.ofNat 32 (4 * imm.toNat)) 4
  | cFld (rd rs1 : CReg) (imm : BitVec 5) (hC : s.cfg.hasC = true) (h : FpReady s s.cfg.hasD) :
    DataAccess s (.cFld rd rs1 imm) 2 .load (s.getX (1#2 ++ rs1) + BitVec.ofNat 32 (8 * imm.toNat)) 8
  | cFldsp (rd : Reg) (imm : BitVec 6) (hC : s.cfg.hasC = true) (h : FpReady s s.cfg.hasD) :
    DataAccess s (.cFldsp rd imm) 2 .load (s.getX 2 + BitVec.ofNat 32 (8 * imm.toNat)) 8
  | cFsd (rs2 rs1 : CReg) (imm : BitVec 5) (hC : s.cfg.hasC = true) (h : FpReady s s.cfg.hasD) :
    DataAccess s (.cFsd rs2 rs1 imm) 2 .store (s.getX (1#2 ++ rs1) + BitVec.ofNat 32 (8 * imm.toNat)) 8
  | cFsdsp (rs2 : Reg) (imm : BitVec 6) (hC : s.cfg.hasC = true) (h : FpReady s s.cfg.hasD) :
    DataAccess s (.cFsdsp rs2 imm) 2 .store (s.getX 2 + BitVec.ofNat 32 (8 * imm.toNat)) 8
  | pushmsubm (uimm : BitVec 5) (h : s.priv = .machine) :
    DataAccess s (.csrrwi 0 0x7EB uimm) 4 .store (s.getX 2 + BitVec.ofNat 32 (4 * uimm.toNat)) 4
  | pushmcause (uimm : BitVec 5) (h : s.priv = .machine) :
    DataAccess s (.csrrwi 0 0x7EE uimm) 4 .store (s.getX 2 + BitVec.ofNat 32 (4 * uimm.toNat)) 4
  | pushmepc (uimm : BitVec 5) (h : s.priv = .machine) :
    DataAccess s (.csrrwi 0 0x7EF uimm) 4 .store (s.getX 2 + BitVec.ofNat 32 (4 * uimm.toNat)) 4

/-- The atomic `i` may run in `s` and makes an access of this kind to the word at `ea`. -/
inductive AtomicAccess (s : State) : Instr → AccessKind → Word → Prop
  | lrW (rd rs1 : Reg) (aq rl : Bool) : AtomicAccess s (.lrW rd rs1 aq rl) .load (s.getX rs1)
  | scW (rd rs1 rs2 : Reg) (aq rl : Bool) : AtomicAccess s (.scW rd rs1 rs2 aq rl) .store (s.getX rs1)
  | swap (rd rs1 rs2 : Reg) (aq rl : Bool) : AtomicAccess s (.amoswapW rd rs1 rs2 aq rl) .amo (s.getX rs1)
  | add (rd rs1 rs2 : Reg) (aq rl : Bool) : AtomicAccess s (.amoaddW rd rs1 rs2 aq rl) .amo (s.getX rs1)
  | xor (rd rs1 rs2 : Reg) (aq rl : Bool) : AtomicAccess s (.amoxorW rd rs1 rs2 aq rl) .amo (s.getX rs1)
  | and (rd rs1 rs2 : Reg) (aq rl : Bool) : AtomicAccess s (.amoandW rd rs1 rs2 aq rl) .amo (s.getX rs1)
  | or (rd rs1 rs2 : Reg) (aq rl : Bool) : AtomicAccess s (.amoorW rd rs1 rs2 aq rl) .amo (s.getX rs1)
  | min (rd rs1 rs2 : Reg) (aq rl : Bool) : AtomicAccess s (.amominW rd rs1 rs2 aq rl) .amo (s.getX rs1)
  | max (rd rs1 rs2 : Reg) (aq rl : Bool) : AtomicAccess s (.amomaxW rd rs1 rs2 aq rl) .amo (s.getX rs1)
  | minu (rd rs1 rs2 : Reg) (aq rl : Bool) : AtomicAccess s (.amominuW rd rs1 rs2 aq rl) .amo (s.getX rs1)
  | maxu (rd rs1 rs2 : Reg) (aq rl : Bool) : AtomicAccess s (.amomaxuW rd rs1 rs2 aq rl) .amo (s.getX rs1)

/-- The instruction loads into the integer register, or, an SC.W, writes its result there. -/
inductive LoadsX : Instr → Reg → Prop
  | lb (rd rs1 : Reg) (imm : BitVec 12) : LoadsX (.lb rd rs1 imm) rd
  | lh (rd rs1 : Reg) (imm : BitVec 12) : LoadsX (.lh rd rs1 imm) rd
  | lw (rd rs1 : Reg) (imm : BitVec 12) : LoadsX (.lw rd rs1 imm) rd
  | lbu (rd rs1 : Reg) (imm : BitVec 12) : LoadsX (.lbu rd rs1 imm) rd
  | lhu (rd rs1 : Reg) (imm : BitVec 12) : LoadsX (.lhu rd rs1 imm) rd
  | cLw (rd rs1 : CReg) (imm : BitVec 5) : LoadsX (.cLw rd rs1 imm) (1#2 ++ rd)
  | cLwsp (rd : Reg) (imm : BitVec 6) : LoadsX (.cLwsp rd imm) rd
  | lrW (rd rs1 : Reg) (aq rl : Bool) : LoadsX (.lrW rd rs1 aq rl) rd
  | scW (rd rs1 rs2 : Reg) (aq rl : Bool) : LoadsX (.scW rd rs1 rs2 aq rl) rd
  | swap (rd rs1 rs2 : Reg) (aq rl : Bool) : LoadsX (.amoswapW rd rs1 rs2 aq rl) rd
  | add (rd rs1 rs2 : Reg) (aq rl : Bool) : LoadsX (.amoaddW rd rs1 rs2 aq rl) rd
  | xor (rd rs1 rs2 : Reg) (aq rl : Bool) : LoadsX (.amoxorW rd rs1 rs2 aq rl) rd
  | and (rd rs1 rs2 : Reg) (aq rl : Bool) : LoadsX (.amoandW rd rs1 rs2 aq rl) rd
  | or (rd rs1 rs2 : Reg) (aq rl : Bool) : LoadsX (.amoorW rd rs1 rs2 aq rl) rd
  | min (rd rs1 rs2 : Reg) (aq rl : Bool) : LoadsX (.amominW rd rs1 rs2 aq rl) rd
  | max (rd rs1 rs2 : Reg) (aq rl : Bool) : LoadsX (.amomaxW rd rs1 rs2 aq rl) rd
  | minu (rd rs1 rs2 : Reg) (aq rl : Bool) : LoadsX (.amominuW rd rs1 rs2 aq rl) rd
  | maxu (rd rs1 rs2 : Reg) (aq rl : Bool) : LoadsX (.amomaxuW rd rs1 rs2 aq rl) rd

/-- The instruction loads into the floating-point register. -/
inductive LoadsF : Instr → Reg → Prop
  | flw (rd rs1 : Reg) (imm : BitVec 12) : LoadsF (.flw rd rs1 imm) rd
  | fld (rd rs1 : Reg) (imm : BitVec 12) : LoadsF (.fld rd rs1 imm) rd
  | cFlw (rd rs1 : CReg) (imm : BitVec 5) : LoadsF (.cFlw rd rs1 imm) (1#2 ++ rd)
  | cFlwsp (rd : Reg) (imm : BitVec 6) : LoadsF (.cFlwsp rd imm) rd
  | cFld (rd rs1 : CReg) (imm : BitVec 5) : LoadsF (.cFld rd rs1 imm) (1#2 ++ rd)
  | cFldsp (rd : Reg) (imm : BitVec 6) : LoadsF (.cFldsp rd imm) rd

/-- The instruction stores a floating-point register. -/
inductive StoresF : Instr → Prop
  | fsw (rs2 rs1 : Reg) (imm : BitVec 12) : StoresF (.fsw rs2 rs1 imm)
  | fsd (rs2 rs1 : Reg) (imm : BitVec 12) : StoresF (.fsd rs2 rs1 imm)
  | cFsw (rs2 rs1 : CReg) (imm : BitVec 5) : StoresF (.cFsw rs2 rs1 imm)
  | cFswsp (rs2 : Reg) (imm : BitVec 6) : StoresF (.cFswsp rs2 imm)
  | cFsd (rs2 rs1 : CReg) (imm : BitVec 5) : StoresF (.cFsd rs2 rs1 imm)
  | cFsdsp (rs2 : Reg) (imm : BitVec 6) : StoresF (.cFsdsp rs2 imm)

/-- The instruction loads or stores a floating-point register. -/
def AccessesF (i : Instr) : Prop := (∃ r, LoadsF i r) ∨ StoresF i

/-- The instruction is SC.W. -/
inductive IsScW : Instr → Prop
  | scW (rd rs1 rs2 : Reg) (aq rl : Bool) : IsScW (.scW rd rs1 rs2 aq rl)

/-- A data access of the instruction `i`, of `len` bytes, fails, and its fault is imprecise: from `u` the instruction
retires in `t` and the fault waits, of this code, address and mdcause, unless one that already waits is kept. What it loads or writes to `x[rd]` is open; it stores
nothing, and every other register is as it was. A floating-point one makes FS Dirty, an SC.W gives the reservation up, and
an LR.W makes none (60_exceptions.md R526, 43_rv32a.md R381, log 13). -/
structure RetiresWithFault (i : Instr) (u t : State) (len : Word) (code : BitVec 12) (a : Word) (detail : Detail) :
    Prop where
  fault : (∃ e, t.pendingFault = some e ∧ e.code.num = code ∧ e.tval = some a ∧ e.detail = detail) ∨
    u.pendingFault ≠ none ∧ t.pendingFault = u.pendingFault
  pc : t.pc = u.pc + len
  mem : SameMem u t
  x : ∀ r, r = 0#5 ∨ ¬ LoadsX i r → t.getX r = u.getX r
  f : ∀ r, ¬ LoadsF i r → t.getF r = u.getF r
  csrInt : ¬ AccessesF i → t.csr = u.csr.counted
  csrFp : AccessesF i → t.csr = u.csr.afterFp 0
  resv : ¬ IsScW i → t.resv = u.resv
  resvSc : IsScW i → t.resv = none
  rest : SameRest { u with pendingFault := t.pendingFault } t

/-- A write of the value `v` to this CSR turns ECC error injection on: ILM_RWECC, DLM_RWECC, or one of DC_RWDECC, DC_RWTECC,
IC_RWDECC and IC_RWTECC (20_memory.md R211, 11_state_nuclei_csr.md R101, R102, R106). -/
def Injects (c : Csr) (v : Word) : Prop :=
  ((c = .milmCtl ∨ c = .mdlmCtl) ∧ v.getLsbD 3 = true) ∨ (c = .mcacheCtl ∧ v &&& 0x00180030#32 ≠ 0)

/-- An access of `n` bytes at `a` is not aligned, and the core does not split it (20_memory.md R167, R168). -/
def Unaligned (s : State) (a : Word) (n : Nat) : Prop :=
  ¬ (if n = 8 then (match s.cfg.fldAlign with | .four => 4 | .eight => 8) else n) ∣ a.toNat ∧
    (s.cfg.hasMisaligned = false ∨ s.csr.mmisc.misalign = false)

/-- The bus accesses an access of `n` bytes at `a` is made of, in order, by address and size: one if it is aligned, else
one for each byte; 8 bytes are two words (20_memory.md R167, R168). -/
def busAccesses (a : Word) (n : Nat) : List (Word × Nat) :=
  let one (a : Word) (n : Nat) : List (Word × Nat) :=
    if a.toNat % n = 0 then [(a, n)] else (List.range n).map fun k => (a + BitVec.ofNat 32 k, 1)
  if n = 8 then one a 4 ++ one (a + 4) 4 else one a n

/-- The PMP and the bus allow every one of the accesses, and each is in one of these regions. -/
def AllowedIn (s : State) (k : AccessKind) (l : List (Word × Nat)) (regions : List Region) : Prop :=
  ∀ p ∈ l, pmpCheck s s.priv k p.1 = true ∧ busError s.cfg k p.1 p.2 = false ∧ region s.cfg p.1 ∈ regions

/-- The same with plain memory for the regions. -/
def PlainParts (s : State) (k : AccessKind) (l : List (Word × Nat)) : Prop :=
  ∀ p ∈ l, pmpCheck s s.priv k p.1 = true ∧ busError s.cfg k p.1 p.2 = false ∧ plainForData s.cfg p.1 = true

/-- The four free bytes a load from the PPI or FIO gets (log 26). -/
def portData (s : State) (a : Word) : Word :=
  Config.freePort s.free (a + 3).toNat ++ Config.freePort s.free (a + 2).toNat ++
    Config.freePort s.free (a + 1).toNat ++ Config.freePort s.free a.toNat

/-! ### ECC errors (20_memory.md R210, 60_exceptions.md R605 to R609) -/

/-- The number of a memory in SRAMID, RAMID and the outputs (11_state_nuclei_csr.md R130). -/
def EccUnit.number : EccUnit → Nat
  | .icache => 0
  | .dcache => 1
  | .ilm => 3
  | .dlm => 4

/-- A bus access on this path meets the error `h`: it goes through that memory to the same unit of data, of which a store
writes only a part, or to the line of a cache whose tags the error is in (20_memory.md R210, 60_exceptions.md R605, R609,
log 31; the lines of reserved size codes are those of log 46). -/
def EccMeets (s : State) (path : AccessPath) (p : Word × Nat) (h : EccHit) : Prop :=
  h.path = path ∧ h.unit.serves s path p.1 = true ∧
    (h.ram = .data → h.addr.toNat / h.unit.bytes = p.1.toNat / h.unit.bytes ∧ (path = .store → p.2 < h.unit.bytes)) ∧
    (h.ram = .tag →
      (h.unit = .icache ∧ h.addr.toNat / 2 ^ (2 + s.cfg.icLsize.toNat) = p.1.toNat / 2 ^ (2 + s.cfg.icLsize.toNat)) ∨
      (h.unit = .dcache ∧ h.addr.toNat / 2 ^ (2 + s.cfg.dcLsize.toNat) = p.1.toNat / 2 ^ (2 + s.cfg.dcLsize.toNat)))

/-- One of the bus accesses meets the error `h` of this step. -/
def EccMet (s : State) (path : AccessPath) (l : List (Word × Nat)) (h : EccHit) : Prop :=
  h ∈ s.eccHits ∧ ∃ p ∈ l, EccMeets s path p h

/-- The bus access meets a 2-bit error of a memory whose ECC and exception are on (60_exceptions.md R605). -/
def EccTraps (s : State) (path : AccessPath) (p : Word × Nat) : Prop :=
  ∃ h ∈ s.eccHits, EccMeets s path p h ∧ h.double = true ∧ eccOn s.csr h.unit = true ∧ eccExcpOn s.csr h.unit = true

/-- One of the bus accesses of an AMO, a load and then a store, meets the error `h` of this step (log 31). -/
def AmoMet (s : State) (ea : Word) (h : EccHit) : Prop := EccMet s .load [(ea, 4)] h ∨ EccMet s .store [(ea, 4)] h

/-- Five flags after the errors `met`, of 1 or 2 bits: set where they were, and for each error that ECC notices. -/
def FlagsNoted (s : State) (met : EccHit → Prop) (double : Bool) (old new : BitVec 5) : Prop :=
  ∀ k, new.getLsbD k = true ↔ old.getLsbD k = true ∨
    ∃ h, met h ∧ eccOn s.csr h.unit = true ∧ h.double = double ∧ h.unit.number = k

/-- `u` is `s` after the errors `met` are recorded and put out; nothing is reported at the slave port or to the SBA
(60_exceptions.md R606, R609). -/
structure EccNoted (s u : State) (met : EccHit → Prop) : Prop where
  rest : u = { s with csr := { s.csr with mecc := { s.csr.mecc with sramid := u.csr.mecc.sramid,
                                                                    ramid := u.csr.mecc.ramid } },
                      eccOut := u.eccOut }
  sramid : FlagsNoted s met false s.csr.mecc.sramid u.csr.mecc.sramid
  ramid : FlagsNoted s met true s.csr.mecc.ramid u.csr.mecc.ramid
  single : FlagsNoted s met false s.eccOut.single u.eccOut.single
  double : FlagsNoted s met true s.eccOut.double u.eccOut.double
  ports : u.eccOut.slaveError = s.eccOut.slaveError ∧ u.eccOut.sbaError = s.eccOut.sbaError

/-- The instruction `i` of `len` bytes meets the errors `met`, which are recorded in `u`, and from there raises the access
fault `code` at the address `a` for one of them, with mdcause left as it is; where access faults are imprecise it retires
from `u` instead and the fault waits (60_exceptions.md R526, R605). -/
def EccFault (i : Instr) (s : State) (len : Word) (met : EccHit → Prop) (code : BitVec 12) (a : Word) : Prop :=
  ∃ u t, EccNoted s u met ∧ exec i s = .next t ∧
    (s.cfg.preciseAccessFaults = true → s.pendingFault = none →
      ExceptionEntered u t code s.pc ∧ t.csr.mtval = a ∧ t.csr.mdcause = s.csr.mdcause ∧ t.pendingFault = none) ∧
    (s.cfg.preciseAccessFaults = false → RetiresWithFault i u t len code a .keep)

/-- The instruction `i` meets the errors `met`, which are recorded, and otherwise does what it does without them
(60_exceptions.md R608). -/
def EccCorrected (i : Instr) (s : State) (met : EccHit → Prop) : Prop :=
  ∃ u t v, EccNoted s u met ∧ exec i s = .next t ∧ exec i { s with eccHits := [] } = .next v ∧
    t = { v with csr := { v.csr with mecc := u.csr.mecc }, eccOut := u.eccOut, eccHits := s.eccHits }

/-- The bits of the byte at `a` that the error turns over, those of its unit of data (20_memory.md R210). -/
def EccHit.flips (h : EccHit) (a : Word) : Byte :=
  if h.addr.toNat / h.unit.bytes = a.toNat / h.unit.bytes then h.flip.extractLsb' (8 * (a.toNat % h.unit.bytes)) 8 else 0

/-- Of the errors `met` those whose wrong bits are used: with ECC on the ones of 2 bits; with ECC off all of them, but at a
store, which reads no data then, only those in a tag (20_memory.md R210, 60_exceptions.md R605, log 31). -/
def EccUsed (s : State) (met : EccHit → Prop) (h : EccHit) : Prop :=
  met h ∧ if eccOn s.csr h.unit = true then h.double = true else h.path = .store → h.ram = .tag

/-- The wrong bits that the errors of a list give the byte at `a`, of those errors that are used. -/
inductive WrongBits (used : EccHit → Prop) (a : Word) : List EccHit → Byte → Prop
  | nil : WrongBits used a [] 0
  | skip (h : EccHit) (rest : List EccHit) (w : Byte) (hr : WrongBits used a rest w) (hn : ¬ used h) :
    WrongBits used a (h :: rest) w
  | flip (h : EccHit) (rest : List EccHit) (w : Byte) (hr : WrongBits used a rest w) (hu : used h) :
    WrongBits used a (h :: rest) (h.flips a ^^^ w)

/-- The byte of `m` at `a` is that of `s` as it arrives at an access that meets the errors `met`. -/
def ByteArrives (s : State) (met : EccHit → Prop) (m : Memory) (a : Word) : Prop :=
  ∃ w, WrongBits (EccUsed s met) a s.eccHits w ∧ m.read a = s.mem.read a ^^^ w

/-- The instruction `i` meets the errors `met`, which are recorded, and raises nothing. It does what it does without errors
where memory is `m`, which holds the bytes as they arrive, but a load leaves memory alone; a store leaves in memory what it
leaves in `m`, so the wrong bits of a unit it has read are written back (20_memory.md R210, 60_exceptions.md R605). Of a
store, the older words a fetch may still see are not stated. -/
def EccDelivered (i : Instr) (s : State) (k : AccessKind) (met : EccHit → Prop) (m : Memory) : Prop :=
  ∃ u t v, EccNoted s u met ∧ exec i s = .next t ∧ exec i { s with eccHits := [], mem := m } = .next v ∧
    t = { v with mem := t.mem, stale := t.stale, csr := { v.csr with mecc := u.csr.mecc }, eccOut := u.eccOut,
                 eccHits := s.eccHits } ∧
    if k = .load then SameMem s t else ∀ a, t.mem.read a = v.mem.read a

/-- A fetch of the aligned word at `a` in mode `p` that the PMP and the bus allow (30_encoding.md R221). -/
def FetchAllowed (s : State) (p : Priv) (a : Word) : Prop :=
  pmpCheck s p .fetch a = true ∧ busError s.cfg .fetch a 4 = false

/-- The four bytes of `m` from `a` upward are those a fetch or a vector-table read of the word at `a` finds, as they arrive. -/
def WordArrives (s : State) (port : Nat → Nat → Byte) (m : Memory) (a : Word) : Prop :=
  ∀ k < 4, ∀ b, b = a + BitVec.ofNat 32 k →
    ∃ w, WrongBits (EccUsed s (EccMet s .fetch [(a, 4)])) b s.eccHits w ∧ m.read b = foundByte s port a k ^^^ w

/-- The step from `s` enters InstrAccessFault from `u`, with mtval `a` and mdcause `d`. -/
def FetchTraps (s u : State) (a : Word) (d : BitVec 2) : Prop :=
  ∃ t, step s = thenSettle (.next t) ∧ ExceptionEntered u t 1 s.pc ∧ t.csr.mtval = a ∧ t.csr.mdcause = d ∧
    t.pendingFault = none

/-- The step from `s` executes in `u` the instruction `c` encodes; if it encodes none, or none of this core (`has`), the
step raises code 2 with mtval its bits. -/
def StepRuns (s u : State) (c : Code) (has : Bool) : Prop :=
  (∀ i, has = true → decode c = some i → step s = thenSettle (exec i u)) ∧
  (has = false ∨ decode c = none →
    ∃ t, step s = thenSettle (.next t) ∧ ExceptionEntered u t 2 s.pc ∧ t.csr.mtval = c.bits ∧ t.pendingFault = none)

/-- The instruction reads the vector table if there is a next interrupt (46_system.md R493, R495). -/
inductive ReadsTable (s : State) : Instr → Prop
  | jump (rd rs1 : Reg) (h : s.cfg.mnxtiReturns = .handler) : ReadsTable s (.csrrw rd 0x7ED rs1)
  | set (rd : Reg) (u : BitVec 5) (h : s.cfg.mnxtiReturns = .handler) : ReadsTable s (.csrrsi rd 0x345 u)
  | clear (rd : Reg) (u : BitVec 5) (h : s.cfg.mnxtiReturns = .handler) : ReadsTable s (.csrrci rd 0x345 u)

/-- Every one of the errors is of 1 bit in a memory whose ECC is on, so it is corrected (60_exceptions.md R608). -/
def Correctable (s : State) (met : EccHit → Prop) : Prop := ∀ h, met h → eccOn s.csr h.unit = true ∧ h.double = false

/-- The errors of 2 bits of the D-cache. -/
def DcacheDouble (h : EccHit) : Prop := h.unit = .dcache ∧ h.double = true

/-- Of the bus accesses at `a`, the first that fails is the one at `b`, at which the PMP (`pmp`) or the bus refuses it
(20_memory.md R174, R185). -/
def FirstFailure (s : State) (k : AccessKind) (l : List (Word × Nat)) (b : Word) (pmp : Bool) : Prop :=
  ∃ before p after, l = before ++ p :: after ∧ p.1 = b ∧
    (∀ q ∈ before, pmpCheck s s.priv k q.1 = true ∧ busError s.cfg k q.1 q.2 = false) ∧
    (if pmp then pmpCheck s s.priv k b = false
      else pmpCheck s s.priv k b = true ∧ busError s.cfg k b p.2 = true)

/-- The access-fault code of an access kind: 5 for a load, 7 for a store or an AMO (20_memory.md R186). -/
def dataFaultCode (k : AccessKind) : BitVec 12 := if k = .load then 5 else 7

/-- The misaligned code of an access kind: 4 for a load, 6 for a store or an AMO (60_exceptions.md R521). -/
def misalignedCode (k : AccessKind) : BitVec 12 := if k = .load then 4 else 6

/-! ### NMI and interrupts -/

/-- Nothing comes from outside in this step. -/
def Quiet (s : State) : Prop := s.inputs = []

/-- The NMI can be taken (60_exceptions.md R545). -/
def NmiReady (s : State) : Prop := s.nmiPending = true ∧ s.csr.msubm.typ ≠ 3#2

/-- Conditions 1 and 2 for taking the request `r` (60_exceptions.md R559). -/
def IrqReady (s : State) (r : Request) : Prop :=
  presented s.cfg s.eclic = some r ∧ s.csr.mintstatus.mil.toNat < r.level.toNat ∧
    (s.csr.mstatus.mie = true ∨ s.priv = .user)

/-- No trap is due at this step boundary (60_exceptions.md R528). -/
def NoTrapDue (s : State) : Prop := s.pendingFault = none ∧ ¬ NmiReady s ∧ ∀ r, ¬ IrqReady s r

/-- What a step that takes a trap at its boundary leaves alone. -/
structure BoundaryFrame (s t : State) : Prop where
  x : SameX s t
  f : SameF s t
  mem : SameMem s t
  timer : t.timer = s.timer
  asleep : t.asleep = s.asleep
  rxEvt : t.rxEvt = s.rxEvt
  txEvt : t.txEvt = false
  eccHits : t.eccHits = []
  inputs : t.inputs = s.inputs
  pendingFault : t.pendingFault = s.pendingFault
  cfg : t.cfg = s.cfg
  eccOut : t.eccOut = .none

/-- The CSRs after interrupt entry, MINHV given (60_exceptions.md R560). -/
def irqCsrs (s : State) (r : Request) (minhv : Bool) : Csrs :=
  { s.csr with
    mepc := s.pc &&& 0xFFFFFFFE#32
    mcause := { interrupt := true, minhv := minhv, mpil := s.csr.mintstatus.mil, exccode := BitVec.ofNat 12 r.id }
    mintstatus := { s.csr.mintstatus with mil := r.level }
    mstatus := { s.csr.mstatus with mpie := s.csr.mstatus.mie, mpp := s.priv, mie := false }
    msubm := { ptyp := s.csr.msubm.typ, typ := 1 } }

/-- The CSRs after the exception that follows a failed vector-table read at `a`, entered from the entry above with
MINHV = 1 (60_exceptions.md R564); `d` supplies mepc, which the spec leaves open, and the state stack. -/
def failedReadCsrs (s : State) (r : Request) (a : Word) (detail : BitVec 2) (d : Csrs) : Csrs :=
  { irqCsrs s r true with
    mepc := d.mepc
    mcause := { interrupt := false, minhv := true, mpil := s.csr.mintstatus.mil, exccode := 1 }
    mtval := a
    mdcause := detail
    mstatus := { s.csr.mstatus with mpie := false, mpp := .machine, mie := false }
    msubm := { ptyp := 1, typ := 2 }
    save1 := d.save1
    save2 := d.save2 }

/-! ### The ECLIC and the TIMER -/

/-- The source `i` takes part in the arbitration (60_exceptions.md R582). -/
def EclicCandidate (e : Eclic) (i : Nat) (src : EclicSrc) : Prop :=
  e.srcs[i]? = some src ∧ src.ie = true ∧ src.pending = true

/-- `Level` of a source, from what clicintctl reads (60_exceptions.md R579). -/
def srcLevel (cfg : Config) (e : Eclic) (src : EclicSrc) : Nat :=
  (src.ctlRead cfg.clicIntCtlBits ||| (0xFF#8 >>> min e.nlbits.toNat 8)).toNat

/-- `Priority` of a source (60_exceptions.md R580). -/
def srcPriority (cfg : Config) (e : Eclic) (src : EclicSrc) : Nat :=
  ((src.ctlRead cfg.clicIntCtlBits <<< min e.nlbits.toNat cfg.clicIntCtlBits) |||
    (0xFF#8 >>> (cfg.clicIntCtlBits - min e.nlbits.toNat cfg.clicIntCtlBits))).toNat

/-- The source `i` has the largest level, priority and number, in this order, of all that take part
(60_exceptions.md R582). -/
def EclicWinner (cfg : Config) (e : Eclic) (i : Nat) (src : EclicSrc) : Prop :=
  EclicCandidate e i src ∧ ∀ j other, EclicCandidate e j other →
    toLex (srcLevel cfg e other, toLex (srcPriority cfg e other, j)) ≤
      toLex (srcLevel cfg e src, toLex (srcPriority cfg e src, i))

/-- The TIMER's registers after the word `v` is written at the offset `off` (60_exceptions.md R592 to R596): only the
register there changes. -/
def TimerStored (t u : Timer) (off : Nat) (v : Word) : Prop :=
  if off = 0 then u = { t with mtime := u.mtime } ∧ u.mtime.toNat = t.mtime.toNat / 2 ^ 32 * 2 ^ 32 + v.toNat
  else if off = 4 then u = { t with mtime := u.mtime } ∧ u.mtime.toNat = v.toNat * 2 ^ 32 + t.mtime.toNat % 2 ^ 32
  else if off = 8 then
    u = { t with mtimecmp := u.mtimecmp } ∧ u.mtimecmp.toNat = t.mtimecmp.toNat / 2 ^ 32 * 2 ^ 32 + v.toNat
  else if off = 12 then
    u = { t with mtimecmp := u.mtimecmp } ∧ u.mtimecmp.toNat = v.toNat * 2 ^ 32 + t.mtimecmp.toNat % 2 ^ 32
  else if off = 0xFF0 then u = { t with msftrst := t.msftrst || decide (v = 0x80000A5F#32) }
  else if off = 0xFF8 then
    u = { t with clksrc := v.getLsbD 2, cmpclren := v.getLsbD 1, timestop := v.getLsbD 0 }
  else if off = 0xFFC then u = { t with msip := v.getLsbD 0 }
  else u = t

/-- With CMPCLREN = 1 mtime is cleared when the comparison becomes true (60_exceptions.md R592, log 21). -/
def timerCleared (t u : Timer) : Timer :=
  if u.cmpclren = true ∧ u.mtimecmp.toNat ≤ u.mtime.toNat ∧ t.mtime.toNat < t.mtimecmp.toNat then
    { u with mtime := 0 }
  else u

/-- The TIMER drives lines 3 and 7 of the ECLIC: line 3 is msip, line 7 the comparison (60_exceptions.md R591). -/
def State.TimerLines (s : State) : Prop :=
  (∀ src, s.eclic.srcs[3]? = some src → src.line = s.timer.msip) ∧
  (∀ src, s.eclic.srcs[7]? = some src → (src.line = true ↔ s.timer.mtimecmp.toNat ≤ s.timer.mtime.toNat))

/-- A source after the byte `b` is written to its register `k`: clicintip, clicintie, clicintattr, clicintctl
(60_exceptions.md R574 to R578). A change of trig leaves IP open while the source is active. R577 alone calls IP just after
such a change unspecified; that an inactive source stays not pending is the model's reading, of part A3 of
93_implementation_defined.md, which speaks of a line that is active or an IP that is set (log 15). So is that a software
write of a level-triggered source's clicintip, which it otherwise ignores, ends the open value. -/
def SrcStored (cfg : Config) (src src' : EclicSrc) (k : Nat) (b : Byte) : Prop :=
  src'.line = src.line ∧
  (k = 0 → src' = { src with ip := src'.ip, held := src'.held } ∧
    (src.trig.getLsbD 0 = true → src'.pending = b.getLsbD 0) ∧
    (src.trig.getLsbD 0 = false → src'.pending = src.line ∧ (src.held = none → src' = src))) ∧
  (k = 1 → src' = { src with ie := b.getLsbD 0 }) ∧
  (k = 2 → src' = { src with shv := b.getLsbD 0, trig := b.extractLsb' 1 2, ip := src'.ip, held := src'.held } ∧
    (b.extractLsb' 1 2 = src.trig → src'.pending = src.pending) ∧
    (src.line = false → src.pending = false → src'.pending = false)) ∧
  (k = 3 → src' = { src with ctl := src'.ctl } ∧
    src'.ctlRead cfg.clicIntCtlBits = b ||| (0xFF#8 >>> cfg.clicIntCtlBits))

/-- The ECLIC's registers after the byte `b` is written at the offset `off` (60_exceptions.md R571 to R578, R583). -/
def EclicStored (cfg : Config) (e e' : Eclic) (off : Nat) (b : Byte) : Prop :=
  (off = 0 → e' = { e with nlbits := b.extractLsb' 1 4 }) ∧
  (off = 0xB → e' = { e with mth := b }) ∧
  (off ≠ 0 → off ≠ 0xB → off < 0x1000 ∨ 0x5000 ≤ off → e' = e) ∧
  (∀ i k, off = 0x1000 + 4 * i + k → i < 4096 → k < 4 →
    e'.nlbits = e.nlbits ∧ e'.mth = e.mth ∧ e'.srcs.length = e.srcs.length ∧
    (∀ j, j ≠ i → e'.srcs[j]? = e.srcs[j]?) ∧
    ∀ src src', e.srcs[i]? = some src → e'.srcs[i]? = some src' → SrcStored cfg src src' k b)

/-- The same for bytes written one after the other from `off` upward (log 20). -/
def EclicBytesStored (cfg : Config) (e e' : Eclic) (off : Nat) : List Byte → Prop
  | [] => e' = e
  | b :: rest => ∃ e1, EclicStored cfg e e1 off b ∧ EclicBytesStored cfg e1 e' (off + 1) rest

/-- A store to a device's register at `ea` leaves every byte of memory as it was, and until FENCE.I a fetch of that aligned
word may still see the registers as they were (20_memory.md R204, log 12). -/
def DeviceShadowed (s t : State) (ea : Word) : Prop :=
  (∀ a, t.mem.read a = s.mem.read a) ∧
    t.stale = ((ea &&& 0xFFFFFFFC#32).toNat, foundWord s Config.freeFetchPort (ea &&& 0xFFFFFFFC#32)) :: s.stale

/-- The store `i` at `ea` completes, writes these bytes to the ECLIC's registers from `off` upward, and nothing else. -/
def EclicStoreDone (i : Instr) (s : State) (ea : Word) (off : Nat) (bytes : List Byte) : Prop :=
  ∃ t, exec i s = .next t ∧ SameX s t ∧ SameF s t ∧ DeviceShadowed s t ea ∧ t.pc = s.pc + 4 ∧ t.csr = s.csr.counted ∧
    t.resv = s.resv ∧ SameRest { s with eclic := t.eclic } t ∧ EclicBytesStored s.cfg s.eclic t.eclic off bytes

/-- A source after the environment drives its input line (60_exceptions.md R577). -/
def LineDriven (src src' : EclicSrc) (level : Bool) : Prop :=
  src' = { src with line := level, ip := src'.ip, held := src'.held } ∧
  (src.trig.getLsbD 0 = false → src.held = none ∨ src.line ≠ level → src'.pending = level) ∧
  (src.trig = 1#2 → src'.pending = (src.pending || (!src.line && level))) ∧
  (src.trig = 3#2 → src'.pending = (src.pending || (src.line && !level)))

/-- The ECLIC `e'` after the TIMER's registers went from `t` to `u`: line 3 takes msip and line 7 the comparison
(60_exceptions.md R591), and nothing else changes. With CMPCLREN = 1 the comparison that becomes true is a pulse on line 7,
which rises and then falls, unless mtimecmp is 0 (R592, log 21). -/
def TimerDriven (t u : Timer) (e e' : Eclic) : Prop :=
  e' = { e with srcs := e'.srcs } ∧ e'.srcs.length = e.srcs.length ∧
  (∀ i, i ≠ 3 → i ≠ 7 → e'.srcs[i]? = e.srcs[i]?) ∧
  (∀ src src', e.srcs[3]? = some src → e'.srcs[3]? = some src' → LineDriven src src' u.msip) ∧
  (∀ src src', e.srcs[7]? = some src → e'.srcs[7]? = some src' →
    if u.cmpclren = true ∧ u.mtimecmp.toNat ≤ u.mtime.toNat ∧ t.mtime.toNat < t.mtimecmp.toNat ∧ u.mtimecmp ≠ 0 then
      ∃ high, LineDriven src high true ∧ LineDriven high src' false
    else LineDriven src src' (decide (u.mtimecmp.toNat ≤ u.mtime.toNat)))

/-- Where the pc is right after a trap was taken from `s` (60_exceptions.md R530, R545, R564, R565). -/
inductive TrapEntryPc (s : State) (p : Word) : Prop
  | mtvec (h : p = s.csr.mtvec &&& 0xFFFFFFFC#32)
  | nmi (hn : NmiReady s) (hf : s.csr.mmisc.nmiCauseFff = false) (h : p = s.cfg.resetVector)
  | mtvt2 (r : Request) (hr : IrqReady s r) (hs : r.shv = false) (he : s.csr.mtvt2.en = true)
    (h : p = s.csr.mtvt2.entry ++ 0#2)
  | vector (r : Request) (w : Word) (u : State) (hr : IrqReady s r) (hs : r.shv = true)
    (hv : vectorTableRead (s.enterIrq r true) r.id = .ok w u) (hw : s.eccHits = [] → w = foundWord s Config.freeTablePort (tableWord s r.id))
    (h : p = w &&& 0xFFFFFFFE#32)

/-! ### What mecc_lock freezes -/

/-- mecc_lock and the ECC registers it freezes are as they were: the bits 3:1 of milm_ctl and mdlm_ctl, the ECC bits of
mcache_ctl and mecc_code.Code (11_state_nuclei_csr.md R131). -/
structure EccFrozen (c d : Csrs) : Prop where
  lock : d.meccLock = true
  milm : d.milm = c.milm
  mdlm : d.mdlm = c.mdlm
  dcache : d.dcache = { c.dcache with en := d.dcache.en }
  icache : d.icache = { c.icache with en := d.icache.en }
  code : d.mecc.code = c.mecc.code

/-! ### The invariant -/

/-- The memory is in its canonical form. -/
def State.memOk (s : State) : Prop := s.mem.wf = true

/-- The pc and every register that becomes a pc by a return are even (10_state.md R23, R55; 11_state_nuclei_csr.md
R109), and so is the reset vector. -/
structure State.EvenPcs (s : State) : Prop where
  pc : s.pc.getLsbD 0 = false
  mepc : s.csr.mepc.getLsbD 0 = false
  epc1 : s.csr.save1.epc.getLsbD 0 = false
  epc2 : s.csr.save2.epc.getLsbD 0 = false
  resetVector : s.cfg.resetVector.getLsbD 0 = false

/-- A core without User Mode is in Machine Mode and will return to it (10_state.md R24, R43). -/
structure State.LegalModes (s : State) : Prop where
  priv : s.cfg.hasUmode = false → s.priv = .machine
  mpp : s.cfg.hasUmode = false → s.csr.mstatus.mpp = .machine

/-- The tables have the sizes of the configuration: one PMP entry and one ECLIC source per number. -/
structure State.Sized (s : State) : Prop where
  pmp : s.csr.pmp.length = s.cfg.pmpEntries
  srcs : s.eclic.srcs.length = s.cfg.numInterrupt

/-- Without floating-point registers FS reads 0 (10_state.md R40). -/
def State.FsOff (s : State) : Prop := s.cfg.hasF = false → s.cfg.hasD = false → s.csr.mstatus.fs = 0#2

/-- A reservation is of a word at an aligned address (43_rv32a.md R381). -/
def State.ResvAligned (s : State) : Prop := ∀ a, s.resv = some a → a.extractLsb' 0 2 = 0#2

/-- With precise access faults none ever waits (60_exceptions.md R526), but for that of a D-cache copy-back, which is
imprecise in every core and leaves mdcause (60_exceptions.md R605, R607). -/
def State.NoFaultWaits (s : State) : Prop :=
  s.cfg.preciseAccessFaults = true → ∀ e, s.pendingFault = some e → e.detail = .keep

/-- What software cannot undo in the CSRs: reserved values that no write stores (10_state.md R53, R72, R73). -/
structure State.WarlOk (s : State) : Prop where
  mtvt : s.csr.mtvt = clearLow (mtvtZeros s.cfg.numInterrupt) s.csr.mtvt

/-- The invariant of the machine. -/
structure State.Inv (s : State) : Prop where
  mem : s.memOk
  even : s.EvenPcs
  modes : s.LegalModes
  sized : s.Sized
  fsOff : s.FsOff
  resv : s.ResvAligned
  faults : s.NoFaultWaits
  warl : s.WarlOk
  draw : s.DrawIsIlm
  lines : s.TimerLines

end Sys2Proof.Machine
end

