-- ==== Sys2Proof/Certificates/Slice0/Obligations.lean ====
section
/-! DEFINITION. The statements about the machine. In all of them `s` is any state at all, not only one a run reaches,
unless a premise says otherwise. -/

section Statements

open Sys2Proof Sys2Proof.Machine

/-! ### RV32I (40_rv32i.md) -/

/-- LUI writes the immediate followed by 12 zeros, AUIPC the address of the AUIPC plus that (R263, R264). The nine
register-immediate instructions (R281 to R289, R306): the immediate is sign-extended, a comparison gives 1 or 0, SLTIU
compares the extended immediate as an unsigned number. A shift gives a product with a power of two modulo 2^32, the
quotient of the unsigned number, or the quotient of the signed number rounded down. Nothing else changes but minstret and
the pc. -/
def Obligations.ImmediateResults : Prop :=
  ∀ (s : State) (rd rs1 : Reg) (upper : BitVec 20) (imm : BitVec 12) (shamt : BitVec 5),
    (∃ t, exec (.lui rd upper) s = .next t ∧ DoneX s t rd (upper ++ 0#12) (s.pc + 4)) ∧
    (∃ t, exec (.auipc rd upper) s = .next t ∧ DoneX s t rd (s.pc + (upper ++ 0#12)) (s.pc + 4)) ∧
    (∃ t, exec (.addi rd rs1 imm) s = .next t ∧ DoneX s t rd (s.getX rs1 + sext imm) (s.pc + 4)) ∧
    (∃ t, exec (.slti rd rs1 imm) s = .next t ∧
      DoneX s t rd (if (s.getX rs1).toInt < imm.toInt then 1 else 0) (s.pc + 4)) ∧
    (∃ t, exec (.sltiu rd rs1 imm) s = .next t ∧
      DoneX s t rd (if (s.getX rs1).toNat < (sext imm).toNat then 1 else 0) (s.pc + 4)) ∧
    (∃ t, exec (.xori rd rs1 imm) s = .next t ∧ DoneX s t rd (s.getX rs1 ^^^ sext imm) (s.pc + 4)) ∧
    (∃ t, exec (.ori rd rs1 imm) s = .next t ∧ DoneX s t rd (s.getX rs1 ||| sext imm) (s.pc + 4)) ∧
    (∃ t, exec (.andi rd rs1 imm) s = .next t ∧ DoneX s t rd (s.getX rs1 &&& sext imm) (s.pc + 4)) ∧
    (∃ t, exec (.slli rd rs1 shamt) s = .next t ∧
      DoneX s t rd (BitVec.ofNat 32 ((s.getX rs1).toNat * 2 ^ shamt.toNat)) (s.pc + 4)) ∧
    (∃ t, exec (.srli rd rs1 shamt) s = .next t ∧
      DoneX s t rd (BitVec.ofNat 32 ((s.getX rs1).toNat / 2 ^ shamt.toNat)) (s.pc + 4)) ∧
    (∃ t, exec (.srai rd rs1 shamt) s = .next t ∧
      DoneX s t rd (BitVec.ofInt 32 ((s.getX rs1).toInt / 2 ^ shamt.toNat)) (s.pc + 4))

/-- The ten register-register instructions (R290 to R299), the results as arithmetic on numbers; of the count of a shift
only the low five bits of `x[rs2]` matter. -/
def Obligations.RegisterResults : Prop :=
  ∀ (s : State) (rd rs1 rs2 : Reg),
    (∃ t, exec (.add rd rs1 rs2) s = .next t ∧
      DoneX s t rd (BitVec.ofNat 32 ((s.getX rs1).toNat + (s.getX rs2).toNat)) (s.pc + 4)) ∧
    (∃ t, exec (.sub rd rs1 rs2) s = .next t ∧
      DoneX s t rd (BitVec.ofInt 32 ((s.getX rs1).toInt - (s.getX rs2).toInt)) (s.pc + 4)) ∧
    (∃ t, exec (.slt rd rs1 rs2) s = .next t ∧
      DoneX s t rd (if (s.getX rs1).toInt < (s.getX rs2).toInt then 1 else 0) (s.pc + 4)) ∧
    (∃ t, exec (.sltu rd rs1 rs2) s = .next t ∧
      DoneX s t rd (if (s.getX rs1).toNat < (s.getX rs2).toNat then 1 else 0) (s.pc + 4)) ∧
    (∃ t, exec (.xor rd rs1 rs2) s = .next t ∧ DoneX s t rd (s.getX rs1 ^^^ s.getX rs2) (s.pc + 4)) ∧
    (∃ t, exec (.or rd rs1 rs2) s = .next t ∧ DoneX s t rd (s.getX rs1 ||| s.getX rs2) (s.pc + 4)) ∧
    (∃ t, exec (.and rd rs1 rs2) s = .next t ∧ DoneX s t rd (s.getX rs1 &&& s.getX rs2) (s.pc + 4)) ∧
    (∃ t, exec (.sll rd rs1 rs2) s = .next t ∧
      DoneX s t rd (BitVec.ofNat 32 ((s.getX rs1).toNat * 2 ^ ((s.getX rs2).toNat % 32))) (s.pc + 4)) ∧
    (∃ t, exec (.srl rd rs1 rs2) s = .next t ∧
      DoneX s t rd (BitVec.ofNat 32 ((s.getX rs1).toNat / 2 ^ ((s.getX rs2).toNat % 32))) (s.pc + 4)) ∧
    (∃ t, exec (.sra rd rs1 rs2) s = .next t ∧
      DoneX s t rd (BitVec.ofInt 32 ((s.getX rs1).toInt / 2 ^ ((s.getX rs2).toNat % 32))) (s.pc + 4))

/-- JAL and JALR to a target the core allows (R262, R265, R266): the link is the address of the next instruction, the
target of JALR has bit 0 cleared and is formed from `x[rs1]` as it was before the link was written. -/
def Obligations.JumpResults : Prop :=
  ∀ (s : State) (rd rs1 : Reg),
    (∀ off : BitVec 20, (s.cfg.hasC = false → (s.pc + BitVec.ofInt 32 (2 * off.toInt)).getLsbD 1 = false) →
      ∃ t, exec (.jal rd off) s = .next t ∧ DoneX s t rd (s.pc + 4) (s.pc + BitVec.ofInt 32 (2 * off.toInt))) ∧
    (∀ imm : BitVec 12, (s.cfg.hasC = false → (s.getX rs1 + sext imm).getLsbD 1 = false) →
      ∃ t, exec (.jalr rd rs1 imm) s = .next t ∧
        DoneX s t rd (s.pc + 4) ((s.getX rs1 + sext imm) &&& 0xFFFFFFFE#32))

/-- The six conditional branches (R267 to R272, R302). -/
def Obligations.BranchResults : Prop :=
  ∀ (s : State) (rs1 rs2 : Reg) (off : BitVec 12),
    BranchDone (.beq rs1 rs2 off) s 4 (s.getX rs1 = s.getX rs2) (BitVec.ofInt 32 (2 * off.toInt)) ∧
    BranchDone (.bne rs1 rs2 off) s 4 (s.getX rs1 ≠ s.getX rs2) (BitVec.ofInt 32 (2 * off.toInt)) ∧
    BranchDone (.blt rs1 rs2 off) s 4 ((s.getX rs1).toInt < (s.getX rs2).toInt) (BitVec.ofInt 32 (2 * off.toInt)) ∧
    BranchDone (.bge rs1 rs2 off) s 4 ((s.getX rs2).toInt ≤ (s.getX rs1).toInt) (BitVec.ofInt 32 (2 * off.toInt)) ∧
    BranchDone (.bltu rs1 rs2 off) s 4 ((s.getX rs1).toNat < (s.getX rs2).toNat) (BitVec.ofInt 32 (2 * off.toInt)) ∧
    BranchDone (.bgeu rs1 rs2 off) s 4 ((s.getX rs2).toNat ≤ (s.getX rs1).toNat) (BitVec.ofInt 32 (2 * off.toInt))

/-- Without the C subset a JAL, a JALR or a taken branch to a target with bit 1 set enters the exception of code 0
with mtval the target and mepc the address of the jump, and writes no register (R262). -/
def Obligations.MisalignedTargets : Prop :=
  ∀ (s : State) (rd rs1 rs2 : Reg), s.cfg.hasC = false → s.pendingFault = none →
    (∀ off : BitVec 20, TargetTraps (.jal rd off) s True (s.pc + BitVec.ofInt 32 (2 * off.toInt))) ∧
    (∀ imm : BitVec 12, TargetTraps (.jalr rd rs1 imm) s True ((s.getX rs1 + sext imm) &&& 0xFFFFFFFE#32)) ∧
    (∀ (off : BitVec 12) (p : Word), p = s.pc + BitVec.ofInt 32 (2 * off.toInt) →
      TargetTraps (.beq rs1 rs2 off) s (s.getX rs1 = s.getX rs2) p ∧
      TargetTraps (.bne rs1 rs2 off) s (s.getX rs1 ≠ s.getX rs2) p ∧
      TargetTraps (.blt rs1 rs2 off) s ((s.getX rs1).toInt < (s.getX rs2).toInt) p ∧
      TargetTraps (.bge rs1 rs2 off) s ((s.getX rs2).toInt ≤ (s.getX rs1).toInt) p ∧
      TargetTraps (.bltu rs1 rs2 off) s ((s.getX rs1).toNat < (s.getX rs2).toNat) p ∧
      TargetTraps (.bgeu rs1 rs2 off) s ((s.getX rs2).toNat ≤ (s.getX rs1).toNat) p)

/-- The five integer loads from plain memory (R261, R273 to R277, R303), misaligned ones that the hardware splits
included: the bytes from the effective address upward, little-endian, extended with the sign or with zeros. A load to
`x[0]` completes and writes nothing. -/
def Obligations.LoadResults : Prop :=
  ∀ (s : State) (rd rs1 : Reg) (imm : BitVec 12) (ea : Word), ea = s.getX rs1 + sext imm →
    (plainLoad s ea 1 = true →
      (∃ t, exec (.lb rd rs1 imm) s = .next t ∧ DoneX s t rd (sext (s.mem.read ea)) (s.pc + 4)) ∧
      (∃ t, exec (.lbu rd rs1 imm) s = .next t ∧ DoneX s t rd ((s.mem.read ea).zeroExtend 32) (s.pc + 4))) ∧
    (plainLoad s ea 2 = true →
      (∃ t, exec (.lh rd rs1 imm) s = .next t ∧ DoneX s t rd (sext (memHalf s.mem ea)) (s.pc + 4)) ∧
      (∃ t, exec (.lhu rd rs1 imm) s = .next t ∧ DoneX s t rd ((memHalf s.mem ea).zeroExtend 32) (s.pc + 4))) ∧
    (plainLoad s ea 4 = true →
      ∃ t, exec (.lw rd rs1 imm) s = .next t ∧ DoneX s t rd (memWord s.mem ea) (s.pc + 4))

/-- The three integer stores to plain memory in its canonical form (R261, R278 to R280, R304): the low bytes of `x[rs2]`
go to the effective address and upward, the least significant first, and no other byte changes. -/
def Obligations.StoreResults : Prop :=
  ∀ (s : State) (rs2 rs1 : Reg) (imm : BitVec 12) (ea : Word), ea = s.getX rs1 + sext imm → s.mem.wf = true →
    (plainStore s ea 1 = true →
      ∃ t, exec (.sb rs2 rs1 imm) s = .next t ∧ DoneStore s t ea 1 ((s.getX rs2).zeroExtend 64) (s.pc + 4)) ∧
    (plainStore s ea 2 = true →
      ∃ t, exec (.sh rs2 rs1 imm) s = .next t ∧ DoneStore s t ea 2 ((s.getX rs2).zeroExtend 64) (s.pc + 4)) ∧
    (plainStore s ea 4 = true →
      ∃ t, exec (.sw rs2 rs1 imm) s = .next t ∧ DoneStore s t ea 4 ((s.getX rs2).zeroExtend 64) (s.pc + 4))

/-- FENCE changes nothing one hart can see; after FENCE.I a fetch sees each word as it is, every earlier store included
(R300, R301, 20_memory.md R204). Both ignore their other fields. `foundWord` is the word of memory; that beside the ILM and
the system bus a fetch reaches the DLM, the registers of the TIMER and ECLIC and the devices of the PPI and FIO, whose
bytes are free, is the model's choice (log 26). -/
def Obligations.FenceResults : Prop :=
  ∀ (s : State) (fm pred succ : BitVec 4) (imm : BitVec 12) (rs1 rd : Reg),
    (∃ t, exec (.fence fm pred succ rs1 rd) s = .next t ∧ DoneX s t 0 0 (s.pc + 4)) ∧
    (∃ t, exec (.fenceI imm rs1 rd) s = .next t ∧ SameX s t ∧ SameF s t ∧ t.pc = s.pc + 4 ∧
      t.csr = s.csr.counted ∧ t.resv = s.resv ∧ SameRest s t ∧ (∀ a, t.mem.read a = s.mem.read a) ∧
      ∀ a, fetchView t a = foundWord s Config.freeFetchPort a)

/-! ### M (41_rv32m.md) -/

/-- The four multiplications as exact products of integers (R321 to R324): the low half, and the high half of the
signed, the mixed and the unsigned product. The four divisions (R325 to R328): rounded towards zero, the remainder with the
dividend's sign. Division by zero gives all ones and the dividend, and the one signed overflow gives the dividend and
zero. -/
def Obligations.MultiplyDivideResults : Prop :=
  ∀ (s : State) (rd rs1 rs2 : Reg) (a b : Word), a = s.getX rs1 → b = s.getX rs2 → s.cfg.hasM = true →
    (∃ t, exec (.mul rd rs1 rs2) s = .next t ∧
      DoneX s t rd (BitVec.ofInt 32 (a.toInt * b.toInt)) (s.pc + 4)) ∧
    (∃ t, exec (.mulh rd rs1 rs2) s = .next t ∧
      DoneX s t rd (BitVec.ofInt 32 (a.toInt * b.toInt / 2 ^ 32)) (s.pc + 4)) ∧
    (∃ t, exec (.mulhsu rd rs1 rs2) s = .next t ∧
      DoneX s t rd (BitVec.ofInt 32 (a.toInt * b.toNat / 2 ^ 32)) (s.pc + 4)) ∧
    (∃ t, exec (.mulhu rd rs1 rs2) s = .next t ∧
      DoneX s t rd (BitVec.ofNat 32 (a.toNat * b.toNat / 2 ^ 32)) (s.pc + 4)) ∧
    (∃ t, exec (.div rd rs1 rs2) s = .next t ∧
      DoneX s t rd (if b = 0#32 then 0xFFFFFFFF#32 else BitVec.ofInt 32 (a.toInt.tdiv b.toInt)) (s.pc + 4)) ∧
    (∃ t, exec (.divu rd rs1 rs2) s = .next t ∧
      DoneX s t rd (if b = 0#32 then 0xFFFFFFFF#32 else BitVec.ofNat 32 (a.toNat / b.toNat)) (s.pc + 4)) ∧
    (∃ t, exec (.rem rd rs1 rs2) s = .next t ∧
      DoneX s t rd (if b = 0#32 then a else BitVec.ofInt 32 (a.toInt.tmod b.toInt)) (s.pc + 4)) ∧
    (∃ t, exec (.remu rd rs1 rs2) s = .next t ∧
      DoneX s t rd (if b = 0#32 then a else BitVec.ofNat 32 (a.toNat % b.toNat)) (s.pc + 4))

/-! ### C (42_rv32c.md) -/

/-- The sixteen 16-bit instructions that compute in integer registers (R330, R331, R338, R339, R341 to R350, R354,
R359, R362): the value of the 32-bit expansion, the pc moved by 2. The 3-bit fields name `x[8]` to `x[15]`, and
C.ADDI4SPN and C.ADDI16SP read `x[2]`. -/
def Obligations.CompressedAluResults : Prop :=
  ∀ (s : State) (rd rs2 : Reg) (rd' rs2' : CReg) (imm : BitVec 6) (uimm : BitVec 8) (shamt : BitVec 5),
    s.cfg.hasC = true →
    (∃ t, exec (.cAddi4spn rd' uimm) s = .next t ∧
      DoneX s t (1#2 ++ rd') (s.getX 2 + BitVec.ofNat 32 (4 * uimm.toNat)) (s.pc + 2)) ∧
    (∃ t, exec (.cNop imm) s = .next t ∧ DoneX s t 0 0 (s.pc + 2)) ∧
    (∃ t, exec (.cAddi rd imm) s = .next t ∧ DoneX s t rd (s.getX rd + sext imm) (s.pc + 2)) ∧
    (∃ t, exec (.cLi rd imm) s = .next t ∧ DoneX s t rd (sext imm) (s.pc + 2)) ∧
    (∃ t, exec (.cAddi16sp imm) s = .next t ∧
      DoneX s t 2 (s.getX 2 + BitVec.ofInt 32 (16 * imm.toInt)) (s.pc + 2)) ∧
    (∃ t, exec (.cLui rd imm) s = .next t ∧ DoneX s t rd (BitVec.ofInt 32 (4096 * imm.toInt)) (s.pc + 2)) ∧
    (∃ t, exec (.cSrli rd' shamt) s = .next t ∧
      DoneX s t (1#2 ++ rd') (BitVec.ofNat 32 ((s.getX (1#2 ++ rd')).toNat / 2 ^ shamt.toNat)) (s.pc + 2)) ∧
    (∃ t, exec (.cSrai rd' shamt) s = .next t ∧
      DoneX s t (1#2 ++ rd') (BitVec.ofInt 32 ((s.getX (1#2 ++ rd')).toInt / 2 ^ shamt.toNat)) (s.pc + 2)) ∧
    (∃ t, exec (.cAndi rd' imm) s = .next t ∧
      DoneX s t (1#2 ++ rd') (s.getX (1#2 ++ rd') &&& sext imm) (s.pc + 2)) ∧
    (∃ t, exec (.cSub rd' rs2') s = .next t ∧
      DoneX s t (1#2 ++ rd') (s.getX (1#2 ++ rd') - s.getX (1#2 ++ rs2')) (s.pc + 2)) ∧
    (∃ t, exec (.cXor rd' rs2') s = .next t ∧
      DoneX s t (1#2 ++ rd') (s.getX (1#2 ++ rd') ^^^ s.getX (1#2 ++ rs2')) (s.pc + 2)) ∧
    (∃ t, exec (.cOr rd' rs2') s = .next t ∧
      DoneX s t (1#2 ++ rd') (s.getX (1#2 ++ rd') ||| s.getX (1#2 ++ rs2')) (s.pc + 2)) ∧
    (∃ t, exec (.cAnd rd' rs2') s = .next t ∧
      DoneX s t (1#2 ++ rd') (s.getX (1#2 ++ rd') &&& s.getX (1#2 ++ rs2')) (s.pc + 2)) ∧
    (∃ t, exec (.cSlli rd shamt) s = .next t ∧
      DoneX s t rd (BitVec.ofNat 32 ((s.getX rd).toNat * 2 ^ shamt.toNat)) (s.pc + 2)) ∧
    (∃ t, exec (.cMv rd rs2) s = .next t ∧ DoneX s t rd (s.getX rs2) (s.pc + 2)) ∧
    (∃ t, exec (.cAdd rd rs2) s = .next t ∧ DoneX s t rd (s.getX rd + s.getX rs2) (s.pc + 2))

/-- C.J, C.JAL, C.JR, C.JALR, C.BEQZ and C.BNEZ (R340, R351 to R353, R358, R361): the link is the address two bytes on
and goes to `x[1]`, the target of a register has bit 0 cleared, and C.JALR reads its register before it writes the
link. -/
def Obligations.CompressedControlResults : Prop :=
  ∀ (s : State) (rs1 : Reg) (rs1' : CReg) (off : BitVec 11) (boff : BitVec 8), s.cfg.hasC = true →
    (∃ t, exec (.cJ off) s = .next t ∧ DoneX s t 0 0 (s.pc + BitVec.ofInt 32 (2 * off.toInt))) ∧
    (∃ t, exec (.cJal off) s = .next t ∧ DoneX s t 1 (s.pc + 2) (s.pc + BitVec.ofInt 32 (2 * off.toInt))) ∧
    (∃ t, exec (.cJr rs1) s = .next t ∧ DoneX s t 0 0 (s.getX rs1 &&& 0xFFFFFFFE#32)) ∧
    (∃ t, exec (.cJalr rs1) s = .next t ∧ DoneX s t 1 (s.pc + 2) (s.getX rs1 &&& 0xFFFFFFFE#32)) ∧
    BranchDone (.cBeqz rs1' boff) s 2 (s.getX (1#2 ++ rs1') = 0) (BitVec.ofInt 32 (2 * boff.toInt)) ∧
    BranchDone (.cBnez rs1' boff) s 2 (s.getX (1#2 ++ rs1') ≠ 0) (BitVec.ofInt 32 (2 * boff.toInt))

/-- C.LW, C.LWSP, C.SW and C.SWSP on plain memory (R333, R336, R356, R364): the offset is a multiple of 4 and not
signed. -/
def Obligations.CompressedLoadStoreResults : Prop :=
  ∀ (s : State) (rd rs2 : Reg) (rd' rs1' rs2' : CReg) (off : BitVec 5) (spOff : BitVec 6) (ea sp : Word),
    s.cfg.hasC = true →
    ea = s.getX (1#2 ++ rs1') + BitVec.ofNat 32 (4 * off.toNat) → sp = s.getX 2 + BitVec.ofNat 32 (4 * spOff.toNat) →
    (plainLoad s ea 4 = true →
      ∃ t, exec (.cLw rd' rs1' off) s = .next t ∧ DoneX s t (1#2 ++ rd') (memWord s.mem ea) (s.pc + 2)) ∧
    (plainLoad s sp 4 = true →
      ∃ t, exec (.cLwsp rd spOff) s = .next t ∧ DoneX s t rd (memWord s.mem sp) (s.pc + 2)) ∧
    (s.mem.wf = true → plainStore s ea 4 = true →
      ∃ t, exec (.cSw rs2' rs1' off) s = .next t ∧
        DoneStore s t ea 4 ((s.getX (1#2 ++ rs2')).zeroExtend 64) (s.pc + 2)) ∧
    (s.mem.wf = true → plainStore s sp 4 = true →
      ∃ t, exec (.cSwsp rs2 spOff) s = .next t ∧ DoneStore s t sp 4 ((s.getX rs2).zeroExtend 64) (s.pc + 2))

/-! ### A (43_rv32a.md) -/

/-- LR.W of plain memory loads the word and reserves its address (R380 to R382). SC.W of plain memory (R383) stores
and gives 0, or stores nothing and gives 1; it does the second when the reservation is not of that address, and the
first when it is and the core fails none for another reason (`scSpuriousFail`). Either way the reservation is gone. aq
and rl change nothing. -/
def Obligations.ReservationResults : Prop :=
  ∀ (s : State) (rd rs1 rs2 : Reg) (aq rl : Bool) (ea : Word), s.cfg.hasA = true → ea = s.getX rs1 →
    (plainAtomic s .load .load ea = true →
      ∃ t, exec (.lrW rd rs1 aq rl) s = .next t ∧ WroteX s t rd (memWord s.mem ea) ∧ SameF s t ∧ SameMem s t ∧
        t.pc = s.pc + 4 ∧ t.csr = s.csr.counted ∧ t.resv = some ea ∧ SameRest s t) ∧
    (plainAtomic s .store .store ea = true → s.mem.wf = true →
      ∃ t, exec (.scW rd rs1 rs2 aq rl) s = .next t ∧ SameF s t ∧ t.pc = s.pc + 4 ∧ t.csr = s.csr.counted ∧
        t.resv = none ∧ SameRest s t ∧
        ((s.resv = some ea ∧ WroteX s t rd 0 ∧ WroteMem s t ea 4 ((s.getX rs2).zeroExtend 64)) ∨
          (WroteX s t rd 1 ∧ SameMem s t)) ∧
        (s.resv = some ea → s.cfg.scSpuriousFail = false →
          WroteX s t rd 0 ∧ WroteMem s t ea 4 ((s.getX rs2).zeroExtend 64)) ∧
        (s.resv ≠ some ea → WroteX s t rd 1 ∧ SameMem s t))

/-- The nine AMOs on plain memory (R380, R384 to R393): the word in memory and `x[rs2]` are combined, `x[rd]` gets the
word that was in memory, also when `rd` is `rs1` or `rs2`, and the reservation stays (R381). -/
def Obligations.AtomicResults : Prop :=
  ∀ (s : State) (rd rs1 rs2 : Reg) (aq rl : Bool) (ea a b : Word), s.cfg.hasA = true → s.mem.wf = true →
    ea = s.getX rs1 → a = memWord s.mem ea → b = s.getX rs2 → plainAtomic s .amo .load ea = true →
    AtomicDone (.amoswapW rd rs1 rs2 aq rl) s rd ea b ∧
    AtomicDone (.amoaddW rd rs1 rs2 aq rl) s rd ea (a + b) ∧
    AtomicDone (.amoxorW rd rs1 rs2 aq rl) s rd ea (a ^^^ b) ∧
    AtomicDone (.amoandW rd rs1 rs2 aq rl) s rd ea (a &&& b) ∧
    AtomicDone (.amoorW rd rs1 rs2 aq rl) s rd ea (a ||| b) ∧
    AtomicDone (.amominW rd rs1 rs2 aq rl) s rd ea (BitVec.ofInt 32 (min a.toInt b.toInt)) ∧
    AtomicDone (.amomaxW rd rs1 rs2 aq rl) s rd ea (BitVec.ofInt 32 (max a.toInt b.toInt)) ∧
    AtomicDone (.amominuW rd rs1 rs2 aq rl) s rd ea (BitVec.ofNat 32 (min a.toNat b.toNat)) ∧
    AtomicDone (.amomaxuW rd rs1 rs2 aq rl) s rd ea (BitVec.ofNat 32 (max a.toNat b.toNat))

/-! ### F and D (44_rv32f.md, 45_rv32d.md) -/

/-- The six floating-point loads from plain memory (R332, R334, R355, R357, R405, R441): the bits arrive unchanged, a
single one boxed where the core has D (10_state.md R27), FS becomes Dirty and no flag is raised. -/
def Obligations.FpLoadResults : Prop :=
  ∀ (s : State) (rd rs1 : Reg) (rd' rs1' : CReg) (imm : BitVec 12) (off : BitVec 5) (spOff : BitVec 6),
    (FpReady s s.cfg.hasF → plainLoad s (s.getX rs1 + sext imm) 4 = true →
      ∃ t, exec (.flw rd rs1 imm) s = .next t ∧
        DoneF s t rd (boxS s.cfg.hasD (memWord s.mem (s.getX rs1 + sext imm))) 0 (s.pc + 4)) ∧
    (FpReady s s.cfg.hasD → plainLoad s (s.getX rs1 + sext imm) 8 = true →
      ∃ t, exec (.fld rd rs1 imm) s = .next t ∧
        DoneF s t rd (memDouble s.mem (s.getX rs1 + sext imm)) 0 (s.pc + 4)) ∧
    (s.cfg.hasC = true → FpReady s s.cfg.hasF →
      (plainLoad s (s.getX (1#2 ++ rs1') + BitVec.ofNat 32 (4 * off.toNat)) 4 = true →
        ∃ t, exec (.cFlw rd' rs1' off) s = .next t ∧
          DoneF s t (1#2 ++ rd')
            (boxS s.cfg.hasD (memWord s.mem (s.getX (1#2 ++ rs1') + BitVec.ofNat 32 (4 * off.toNat)))) 0 (s.pc + 2)) ∧
      (plainLoad s (s.getX 2 + BitVec.ofNat 32 (4 * spOff.toNat)) 4 = true →
        ∃ t, exec (.cFlwsp rd spOff) s = .next t ∧
          DoneF s t rd (boxS s.cfg.hasD (memWord s.mem (s.getX 2 + BitVec.ofNat 32 (4 * spOff.toNat)))) 0 (s.pc + 2))) ∧
    (s.cfg.hasC = true → FpReady s s.cfg.hasD →
      (plainLoad s (s.getX (1#2 ++ rs1') + BitVec.ofNat 32 (8 * off.toNat)) 8 = true →
        ∃ t, exec (.cFld rd' rs1' off) s = .next t ∧
          DoneF s t (1#2 ++ rd') (memDouble s.mem (s.getX (1#2 ++ rs1') + BitVec.ofNat 32 (8 * off.toNat))) 0
            (s.pc + 2)) ∧
      (plainLoad s (s.getX 2 + BitVec.ofNat 32 (8 * spOff.toNat)) 8 = true →
        ∃ t, exec (.cFldsp rd spOff) s = .next t ∧
          DoneF s t rd (memDouble s.mem (s.getX 2 + BitVec.ofNat 32 (8 * spOff.toNat))) 0 (s.pc + 2)))

/-- The six floating-point stores to plain memory (R335, R337, R363, R365, R406, R442): the low 4 bytes of the register
without a check of its box, or all 8; FS becomes Dirty and no flag is raised. -/
def Obligations.FpStoreResults : Prop :=
  ∀ (s : State) (rs2 rs1 : Reg) (rs2' rs1' : CReg) (imm : BitVec 12) (off : BitVec 5) (spOff : BitVec 6),
    s.mem.wf = true →
    (FpReady s s.cfg.hasF → plainStore s (s.getX rs1 + sext imm) 4 = true →
      ∃ t, exec (.fsw rs2 rs1 imm) s = .next t ∧
        DoneFStore s t (s.getX rs1 + sext imm) 4 (s.getF rs2) (s.pc + 4)) ∧
    (FpReady s s.cfg.hasD → plainStore s (s.getX rs1 + sext imm) 8 = true →
      ∃ t, exec (.fsd rs2 rs1 imm) s = .next t ∧
        DoneFStore s t (s.getX rs1 + sext imm) 8 (s.getF rs2) (s.pc + 4)) ∧
    (s.cfg.hasC = true → FpReady s s.cfg.hasF →
      (plainStore s (s.getX (1#2 ++ rs1') + BitVec.ofNat 32 (4 * off.toNat)) 4 = true →
        ∃ t, exec (.cFsw rs2' rs1' off) s = .next t ∧
          DoneFStore s t (s.getX (1#2 ++ rs1') + BitVec.ofNat 32 (4 * off.toNat)) 4 (s.getF (1#2 ++ rs2'))
            (s.pc + 2)) ∧
      (plainStore s (s.getX 2 + BitVec.ofNat 32 (4 * spOff.toNat)) 4 = true →
        ∃ t, exec (.cFswsp rs2 spOff) s = .next t ∧
          DoneFStore s t (s.getX 2 + BitVec.ofNat 32 (4 * spOff.toNat)) 4 (s.getF rs2) (s.pc + 2))) ∧
    (s.cfg.hasC = true → FpReady s s.cfg.hasD →
      (plainStore s (s.getX (1#2 ++ rs1') + BitVec.ofNat 32 (8 * off.toNat)) 8 = true →
        ∃ t, exec (.cFsd rs2' rs1' off) s = .next t ∧
          DoneFStore s t (s.getX (1#2 ++ rs1') + BitVec.ofNat 32 (8 * off.toNat)) 8 (s.getF (1#2 ++ rs2'))
            (s.pc + 2)) ∧
      (plainStore s (s.getX 2 + BitVec.ofNat 32 (8 * spOff.toNat)) 8 = true →
        ∃ t, exec (.cFsdsp rs2 spOff) s = .next t ∧
          DoneFStore s t (s.getX 2 + BitVec.ofNat 32 (8 * spOff.toNat)) 8 (s.getF rs2) (s.pc + 2)))

/-- The eighteen instructions that round, nine of each precision (R400 to R402, R407 to R415, 45_rv32d.md R440, R443 to R451):
with a legal rounding mode they write the result of the operation on the operands, single ones unboxed and the result
boxed, and add its flags. The operations are those of Machine/Float.lean, whose rounding `RoundingIsCorrect` and
`ArithmeticIsRounded` state. -/
def Obligations.FpArithmeticResults : Prop :=
  ∀ (s : State) (rd rs1 rs2 rs3 : Reg) (rm : BitVec 3) (mode : RMode), resolveRm rm s.csr.fcsr.frm = some mode →
    (FpReady s s.cfg.hasF →
      SingleDone (.faddS rd rs1 rs2 rm) s rd (fAdd fmtS mode (s.valS rs1) (s.valS rs2)) ∧
      SingleDone (.fsubS rd rs1 rs2 rm) s rd (fAdd fmtS mode (s.valS rs1) (s.valS rs2).negate) ∧
      SingleDone (.fmulS rd rs1 rs2 rm) s rd (fMul fmtS mode (s.valS rs1) (s.valS rs2)) ∧
      SingleDone (.fdivS rd rs1 rs2 rm) s rd (fDiv fmtS mode (s.valS rs1) (s.valS rs2)) ∧
      SingleDone (.fsqrtS rd rs1 rm) s rd (fSqrt fmtS mode (s.valS rs1)) ∧
      SingleDone (.fmaddS rd rs1 rs2 rs3 rm) s rd (fFma fmtS mode (s.valS rs1) (s.valS rs2) (s.valS rs3)) ∧
      SingleDone (.fmsubS rd rs1 rs2 rs3 rm) s rd (fFma fmtS mode (s.valS rs1) (s.valS rs2) (s.valS rs3).negate) ∧
      SingleDone (.fnmsubS rd rs1 rs2 rs3 rm) s rd (fFma fmtS mode (s.valS rs1).negate (s.valS rs2) (s.valS rs3)) ∧
      SingleDone (.fnmaddS rd rs1 rs2 rs3 rm) s rd
        (fFma fmtS mode (s.valS rs1).negate (s.valS rs2) (s.valS rs3).negate)) ∧
    (FpReady s s.cfg.hasD →
      DoubleDone (.faddD rd rs1 rs2 rm) s rd (fAdd fmtD mode (s.valD rs1) (s.valD rs2)) ∧
      DoubleDone (.fsubD rd rs1 rs2 rm) s rd (fAdd fmtD mode (s.valD rs1) (s.valD rs2).negate) ∧
      DoubleDone (.fmulD rd rs1 rs2 rm) s rd (fMul fmtD mode (s.valD rs1) (s.valD rs2)) ∧
      DoubleDone (.fdivD rd rs1 rs2 rm) s rd (fDiv fmtD mode (s.valD rs1) (s.valD rs2)) ∧
      DoubleDone (.fsqrtD rd rs1 rm) s rd (fSqrt fmtD mode (s.valD rs1)) ∧
      DoubleDone (.fmaddD rd rs1 rs2 rs3 rm) s rd (fFma fmtD mode (s.valD rs1) (s.valD rs2) (s.valD rs3)) ∧
      DoubleDone (.fmsubD rd rs1 rs2 rs3 rm) s rd (fFma fmtD mode (s.valD rs1) (s.valD rs2) (s.valD rs3).negate) ∧
      DoubleDone (.fnmsubD rd rs1 rs2 rs3 rm) s rd (fFma fmtD mode (s.valD rs1).negate (s.valD rs2) (s.valD rs3)) ∧
      DoubleDone (.fnmaddD rd rs1 rs2 rs3 rm) s rd
        (fFma fmtD mode (s.valD rs1).negate (s.valD rs2) (s.valD rs3).negate))

/-- Rounding is correct (R402, R403): for both formats, every rounding mode and every number
`± m * 2^e` that is not 0, the result bits and the flags are those of IEEE 754 rounding, subnormals, underflow
(tininess after rounding) and overflow included. -/
def Obligations.RoundingIsCorrect : Prop :=
  ∀ (f : FFmt) (rm : RMode) (neg : Bool) (m : Nat) (e : Int), f = fmtS ∨ f = fmtD → m ≠ 0 →
    IsRounded f rm ((FVal.num (.fin neg m e) : ℚ) : ℝ) (roundTo f rm neg m e)

/-- The arithmetic is exact, then rounded once (R403, R407 to R415, R428, R429, R457, R458): for finite
operands, sums, products, quotients and multiply-adds whose exact value is not 0 give that value rounded, the square
root of a positive number gives the root rounded, and so do conversions between the formats and from integers. -/
def Obligations.ArithmeticIsRounded : Prop :=
  ∀ (f : FFmt) (rm : RMode) (x y z : FVal), f = fmtS ∨ f = fmtD → x.isFin = true → y.isFin = true → z.isFin = true →
    (x.num + y.num ≠ 0 → IsRounded f rm ((x.num + y.num : ℚ) : ℝ) (fAdd f rm x y)) ∧
    (x.num - y.num ≠ 0 → IsRounded f rm ((x.num - y.num : ℚ) : ℝ) (fSub f rm x y)) ∧
    (x.num * y.num ≠ 0 → IsRounded f rm ((x.num * y.num : ℚ) : ℝ) (fMul f rm x y)) ∧
    (x.num ≠ 0 → y.num ≠ 0 → IsRounded f rm ((x.num / y.num : ℚ) : ℝ) (fDiv f rm x y)) ∧
    (x.num * y.num + z.num ≠ 0 → IsRounded f rm ((x.num * y.num + z.num : ℚ) : ℝ) (fFma f rm x y z)) ∧
    (0 < x.num → IsRounded f rm (Real.sqrt ((x.num : ℚ) : ℝ)) (fSqrt f rm x)) ∧
    (x.num ≠ 0 → IsRounded f rm ((x.num : ℚ) : ℝ) (fConvert f rm x)) ∧
    (∀ v : Int, v ≠ 0 → IsRounded f rm (v : ℝ) (ofInt f rm v))

/-- Operands that are not ordinary numbers, and results that are exactly zero (R401, R403, R407, R411 to R415). A NaN
operand gives the canonical NaN, with NV if one is signaling; inf - inf, 0 * inf, 0 / 0, inf / inf and the root of a
negative number give it with NV, 0 * inf also in a multiply-add whose addend is a quiet NaN; a number other than 0 divided
by 0 gives an infinity with DZ. Otherwise infinities follow the signs, in either order of the operands and as product or
addend of a multiply-add; a product or quotient that is zero has the sign of its operands; a sum that is exactly zero, of
a multiply-add too, keeps the sign both terms have and is else -0 when rounding down and +0 in every other mode; the root
of -0 is -0. `FOut.nan f b` is the canonical NaN, with NV if `b`. -/
def Obligations.SpecialOperands : Prop :=
  fmtS.nanBits = 0x7FC00000 ∧ fmtD.nanBits = 0x7FF8000000000000 ∧
  ∀ (f : FFmt) (rm : RMode) (x y z : FVal) (a b : Bool) (m : Nat) (e e' : Int),
    (x.isNan = true ∨ y.isNan = true →
      fAdd f rm x y = .nan f (x.isSignaling || y.isSignaling) ∧
      fSub f rm x y = .nan f (x.isSignaling || y.isSignaling) ∧
      fMul f rm x y = .nan f (x.isSignaling || y.isSignaling) ∧
      fDiv f rm x y = .nan f (x.isSignaling || y.isSignaling) ∧
      fFma f rm x y z = .nan f (x.isSignaling || y.isSignaling || z.isSignaling)) ∧
    (x.isFin = true → y.isFin = true → z.isNan = true → fFma f rm x y z = .nan f z.isSignaling) ∧
    (x.isNan = true → fSqrt f rm x = .nan f x.isSignaling) ∧
    -- sums
    fAdd f rm (.inf a) (.inf (!a)) = .nan f true ∧
    fAdd f rm (.inf a) (.inf a) = ⟨f.signBits a + f.infBits, 0⟩ ∧
    fAdd f rm (.inf a) (.fin b m e) = ⟨f.signBits a + f.infBits, 0⟩ ∧
    fAdd f rm (.fin a m e) (.inf b) = ⟨f.signBits b + f.infBits, 0⟩ ∧
    (x.isNan = false → y.isNan = false → fSub f rm x y = fAdd f rm x y.negate) ∧
    (x.isFin = true → y.isFin = true → x.num + y.num = 0 →
      fAdd f rm x y = ⟨f.signBits (if x.isNeg = y.isNeg then x.isNeg else rm == .rdn), 0⟩) ∧
    -- products
    fMul f rm (.fin a 0 e) (.inf b) = .nan f true ∧
    fMul f rm (.inf a) (.fin b 0 e) = .nan f true ∧
    (m ≠ 0 → fMul f rm (.inf a) (.fin b m e) = ⟨f.signBits (a != b) + f.infBits, 0⟩ ∧
      fMul f rm (.fin a m e) (.inf b) = ⟨f.signBits (a != b) + f.infBits, 0⟩) ∧
    fMul f rm (.inf a) (.inf b) = ⟨f.signBits (a != b) + f.infBits, 0⟩ ∧
    fMul f rm (.fin a 0 e) (.fin b m e') = ⟨f.signBits (a != b), 0⟩ ∧
    fMul f rm (.fin a m e) (.fin b 0 e') = ⟨f.signBits (a != b), 0⟩ ∧
    -- multiply-adds
    fFma f rm (.fin a 0 e) (.inf b) z = .nan f true ∧
    fFma f rm (.inf a) (.fin b 0 e) z = .nan f true ∧
    (InfProduct x y →
      (z.isFin = true ∨ z = .inf (x.isNeg != y.isNeg) →
        fFma f rm x y z = ⟨f.signBits (x.isNeg != y.isNeg) + f.infBits, 0⟩) ∧
      (z = .inf (!(x.isNeg != y.isNeg)) → fFma f rm x y z = .nan f true) ∧
      (z.isNan = true → fFma f rm x y z = .nan f z.isSignaling)) ∧
    (x.isFin = true → y.isFin = true → fFma f rm x y (.inf a) = ⟨f.signBits a + f.infBits, 0⟩) ∧
    (x.isFin = true → y.isFin = true → z.isFin = true → x.num * y.num + z.num = 0 →
      fFma f rm x y z =
        ⟨f.signBits (if (x.isNeg != y.isNeg) = z.isNeg then z.isNeg else rm == .rdn), 0⟩) ∧
    -- quotients
    fDiv f rm (.fin a 0 e) (.fin b 0 e') = .nan f true ∧
    fDiv f rm (.inf a) (.inf b) = .nan f true ∧
    (m ≠ 0 → fDiv f rm (.fin a m e) (.fin b 0 e') = ⟨f.signBits (a != b) + f.infBits, flagDZ⟩) ∧
    fDiv f rm (.inf a) (.fin b m e) = ⟨f.signBits (a != b) + f.infBits, 0⟩ ∧
    fDiv f rm (.fin a m e) (.inf b) = ⟨f.signBits (a != b), 0⟩ ∧
    (m ≠ 0 → fDiv f rm (.fin a 0 e) (.fin b m e') = ⟨f.signBits (a != b), 0⟩) ∧
    -- roots
    fSqrt f rm (.inf true) = .nan f true ∧
    (m ≠ 0 → fSqrt f rm (.fin true m e) = .nan f true) ∧
    fSqrt f rm (.inf false) = ⟨f.infBits, 0⟩ ∧
    fSqrt f rm (.fin a 0 e) = ⟨f.signBits a, 0⟩

/-- Sign injection (R416 to R418, R434, R452 to R454) and the moves of raw bits (R423, R430): a result is one operand's
bits with a sign taken from, against or compared with the other's. No flag is raised and only single operands of sign
injection are read through their box. -/
def Obligations.SignAndMoveResults : Prop :=
  ∀ (s : State) (rd rs1 rs2 : Reg),
    (FpReady s s.cfg.hasF →
      SingleDone (.fsgnjS rd rs1 rs2) s rd
        ⟨((s.getS rs2).extractLsb' 31 1 ++ (s.getS rs1).extractLsb' 0 31 : Word).toNat, 0⟩ ∧
      SingleDone (.fsgnjnS rd rs1 rs2) s rd
        ⟨(~~~(s.getS rs2).extractLsb' 31 1 ++ (s.getS rs1).extractLsb' 0 31 : Word).toNat, 0⟩ ∧
      SingleDone (.fsgnjxS rd rs1 rs2) s rd
        ⟨(((s.getS rs1).extractLsb' 31 1 ^^^ (s.getS rs2).extractLsb' 31 1) ++ (s.getS rs1).extractLsb' 0 31 : Word).toNat,
          0⟩ ∧
      (∃ t, exec (.fmvXW rd rs1) s = .next t ∧ DoneFx s t rd ((s.getF rs1).extractLsb' 0 32) 0 (s.pc + 4)) ∧
      (∃ t, exec (.fmvWX rd rs1) s = .next t ∧ DoneF s t rd (boxS s.cfg.hasD (s.getX rs1)) 0 (s.pc + 4))) ∧
    (FpReady s s.cfg.hasD →
      DoubleDone (.fsgnjD rd rs1 rs2) s rd
        ⟨((s.getF rs2).extractLsb' 63 1 ++ (s.getF rs1).extractLsb' 0 63 : DWord).toNat, 0⟩ ∧
      DoubleDone (.fsgnjnD rd rs1 rs2) s rd
        ⟨(~~~(s.getF rs2).extractLsb' 63 1 ++ (s.getF rs1).extractLsb' 0 63 : DWord).toNat, 0⟩ ∧
      DoubleDone (.fsgnjxD rd rs1 rs2) s rd
        ⟨(((s.getF rs1).extractLsb' 63 1 ^^^ (s.getF rs2).extractLsb' 63 1) ++ (s.getF rs1).extractLsb' 0 63 : DWord).toNat,
          0⟩)

/-- FMIN and FMAX of both precisions (R419, R420, R455, R456) in both variants of NaN handling: the smaller or larger
operand bit for bit, -0 below +0; with one quiet NaN the other operand; two NaNs give the canonical NaN; a signaling NaN
raises NV and, in the older variant, gives the canonical NaN. -/
def Obligations.MinMaxResults : Prop :=
  ∀ (s : State) (rd rs1 rs2 : Reg),
    (FpReady s s.cfg.hasF → ∃ lo hi,
      SingleDone (.fminS rd rs1 rs2) s rd lo ∧ SingleDone (.fmaxS rd rs1 rs2) s rd hi ∧
      IsMin fmtS s.cfg.fminmaxVariant (s.getS rs1).toNat (s.getS rs2).toNat lo ∧
      IsMax fmtS s.cfg.fminmaxVariant (s.getS rs1).toNat (s.getS rs2).toNat hi) ∧
    (FpReady s s.cfg.hasD → ∃ lo hi,
      DoubleDone (.fminD rd rs1 rs2) s rd lo ∧ DoubleDone (.fmaxD rd rs1 rs2) s rd hi ∧
      IsMin fmtD s.cfg.fminmaxVariant (s.getF rs1).toNat (s.getF rs2).toNat lo ∧
      IsMax fmtD s.cfg.fminmaxVariant (s.getF rs1).toNat (s.getF rs2).toNat hi)

/-- The six comparisons (R424 to R426, R435, R459 to R461): of values that are no NaN the order of the numbers, so -0
equals +0 and the infinities are the ends; with a NaN 0 and NV, but for FEQ NV only with a signaling one. -/
def Obligations.CompareResults : Prop :=
  ∀ (s : State) (rd rs1 rs2 : Reg),
    (FpReady s s.cfg.hasF → ∀ x y, x = s.valS rs1 → y = s.valS rs2 →
      CompareDone (.feqS rd rs1 rs2) s rd x y (x.place = y.place) (x.isSignaling || y.isSignaling) ∧
      CompareDone (.fltS rd rs1 rs2) s rd x y (x.place < y.place) (x.isNan || y.isNan) ∧
      CompareDone (.fleS rd rs1 rs2) s rd x y (x.place ≤ y.place) (x.isNan || y.isNan)) ∧
    (FpReady s s.cfg.hasD → ∀ x y, x = s.valD rs1 → y = s.valD rs2 →
      CompareDone (.feqD rd rs1 rs2) s rd x y (x.place = y.place) (x.isSignaling || y.isSignaling) ∧
      CompareDone (.fltD rd rs1 rs2) s rd x y (x.place < y.place) (x.isNan || y.isNan) ∧
      CompareDone (.fleD rd rs1 rs2) s rd x y (x.place ≤ y.place) (x.isNan || y.isNan))

/-- FCLASS of both precisions (R427, R462): the ten classes, read from the sign, exponent and fraction fields. -/
def Obligations.ClassResults : Prop :=
  ∀ (s : State) (rd rs1 : Reg),
    (FpReady s s.cfg.hasF → ∃ t k, exec (.fclassS rd rs1) s = .next t ∧
      DoneFx s t rd (BitVec.ofNat 32 (2 ^ k)) 0 (s.pc + 4) ∧
      IsClass ((s.getS rs1).extractLsb' 31 1) ((s.getS rs1).extractLsb' 23 8) ((s.getS rs1).extractLsb' 0 23) k) ∧
    (FpReady s s.cfg.hasD → ∃ t k, exec (.fclassD rd rs1) s = .next t ∧
      DoneFx s t rd (BitVec.ofNat 32 (2 ^ k)) 0 (s.pc + 4) ∧
      IsClass ((s.getF rs1).extractLsb' 63 1) ((s.getF rs1).extractLsb' 52 11) ((s.getF rs1).extractLsb' 0 52) k)

/-- The conversions to integers (R421, R422, R463, R464): a finite value rounded to an integer `k` in range gives `k`,
with NX if it was none; out of range, infinities and NaNs give the nearest end of the range, a NaN the upper one, with
NV. The conversions from integers and between the precisions (R428, R429, R457, R458, R465, R466), in terms of the
operations `ArithmeticIsRounded` is about; an integer 0 gives +0, and between the precisions a zero or an infinity keeps its
sign and a NaN gives the canonical NaN, with NV if it is signaling. -/
def Obligations.ConversionResults : Prop :=
  ∀ (s : State) (rd rs1 : Reg) (rm : BitVec 3) (mode : RMode), resolveRm rm s.csr.fcsr.frm = some mode →
    (FpReady s s.cfg.hasF →
      ToIntDone (.fcvtWS rd rs1 rm) s rd mode (s.valS rs1) (-2147483648) 2147483647 ∧
      ToIntDone (.fcvtWuS rd rs1 rm) s rd mode (s.valS rs1) 0 4294967295 ∧
      SingleDone (.fcvtSW rd rs1 rm) s rd (ofInt fmtS mode (s.getX rs1).toInt) ∧
      SingleDone (.fcvtSWu rd rs1 rm) s rd (ofInt fmtS mode (s.getX rs1).toNat)) ∧
    (FpReady s s.cfg.hasD →
      ToIntDone (.fcvtWD rd rs1 rm) s rd mode (s.valD rs1) (-2147483648) 2147483647 ∧
      ToIntDone (.fcvtWuD rd rs1 rm) s rd mode (s.valD rs1) 0 4294967295 ∧
      SingleDone (.fcvtSD rd rs1 rm) s rd (fConvert fmtS mode (s.valD rs1)) ∧
      DoubleDone (.fcvtDS rd rs1 rm) s rd (fConvert fmtD mode (s.valS rs1)) ∧
      DoubleDone (.fcvtDW rd rs1 rm) s rd (ofInt fmtD mode (s.getX rs1).toInt) ∧
      DoubleDone (.fcvtDWu rd rs1 rm) s rd (ofInt fmtD mode (s.getX rs1).toNat)) ∧
    (∀ f, ofInt f mode 0 = ⟨0, 0⟩ ∧
      (∀ b, fConvert f mode (.nan b) = ⟨f.nanBits, if b then flagNV else 0⟩ ∧
        fConvert f mode (.inf b) = ⟨f.signBits b + f.infBits, 0⟩ ∧
        ∀ e, fConvert f mode (.fin b 0 e) = ⟨f.signBits b, 0⟩))

/-- An instruction with a rounding-mode field is illegal, and traps with its own bits in mtval, when the field is 5 or 6
or when it is 7 and frm is 5, 6 or 7, whether its result would be exact or not (R402). -/
def Obligations.IllegalRoundingModes : Prop :=
  ∀ (s : State) (i : Instr) (rm : BitVec 3) (has : Bool), RoundingField s.cfg i rm has → FpReady s has →
    s.pendingFault = none →
    rm = 5#3 ∨ rm = 6#3 ∨ (rm = 7#3 ∧ (s.csr.fcsr.frm = 5#3 ∨ s.csr.fcsr.frm = 6#3 ∨ s.csr.fcsr.frm = 7#3)) →
    ∃ t, exec i s = .next t ∧ IllegalTaken s t (encode i).bits

/-! ### System instructions and traps (46_system.md, 60_exceptions.md) -/

/-- An instruction of a subset the core has not, and every floating-point instruction while FS is Off, takes the
illegal-instruction exception: code 2, mtval its own bits, mepc its address, nothing else done (30_encoding.md R230 to
R232, 10_state.md R45, 60_exceptions.md R521, R524, R530). -/
def Obligations.IllegalInstructions : Prop :=
  ∀ (s : State) (i : Instr), s.pendingFault = none →
    (subsetOf i).present s.cfg = false ∨ ((subsetOf i).needsFs = true ∧ s.csr.mstatus.fs = 0#2) → TrapsIllegal i s

/-- ECALL, EBREAK and C.EBREAK complete by entering their exception (R360, R489, R492, 60_exceptions.md R530, R551): code 8
or 11 by the mode, code 3 in either; mepc is their own address, the handler is at mtvec, the old mode and MIE are saved,
the state stack is pushed where there is one, and no register or memory changes. mtval and mdcause are open. -/
def Obligations.EnvironmentCalls : Prop :=
  ∀ s : State, s.pendingFault = none →
    (∃ t, exec .ecall s = .next t ∧ ExceptionEntered s t (if s.priv = .user then 8 else 11) s.pc ∧
      t.pendingFault = none) ∧
    (∃ t, exec .ebreak s = .next t ∧ ExceptionEntered s t 3 s.pc ∧ t.pendingFault = none) ∧
    (s.cfg.hasC = true →
      ∃ t, exec .cEbreak s = .next t ∧ ExceptionEntered s t 3 s.pc ∧ t.pendingFault = none)

/-- MRET in Machine Mode (R490, R491): the pc comes from mepc, the mode from MPP, MIE from MPIE, TYP from PTYP. Without
the state stack, or after an interrupt, MPIE becomes 1, MPP the least mode, and after an interrupt MIL comes back from
MPIL. With the stack and after an exception or NMI level 1 is popped into the live registers and level 2 into level 1;
of an illegal saved MPP only a legal mode comes. In User Mode MRET is illegal. -/
def Obligations.ReturnFromTrap : Prop :=
  ∀ s : State, s.pendingFault = none →
    (s.priv = .user → TrapsIllegal .mret s) ∧
    (s.priv = .machine → s.csr.mstatus.mpp = .machine ∨ s.cfg.hasUmode = true →
      ∃ t, exec .mret s = .next t ∧ t.pc = s.csr.mepc ∧ t.priv = s.csr.mstatus.mpp ∧ t.resv = none ∧
        EntryFrame s t ∧ t.eclic = s.eclic ∧ t.nmiPending = s.nmiPending ∧ t.pendingFault = none ∧
        (s.cfg.hasNestedStack = false ∨ s.csr.mcause.interrupt = true →
          t.csr = { s.csr.counted with
            mstatus := { s.csr.mstatus with
              mie := s.csr.mstatus.mpie
              mpie := true
              mpp := if s.cfg.hasUmode then .user else .machine }
            msubm := { s.csr.msubm with typ := s.csr.msubm.ptyp }
            mintstatus := { s.csr.mintstatus with
              mil := if s.csr.mcause.interrupt then s.csr.mcause.mpil else s.csr.mintstatus.mil } }) ∧
        (s.cfg.hasNestedStack = true → s.csr.mcause.interrupt = false →
          t.csr = { s.csr.counted with
            mstatus := { s.csr.mstatus with
              mie := s.csr.mstatus.mpie
              mpie := s.csr.save1.mpie
              mpp := t.csr.mstatus.mpp }
            msubm := { ptyp := s.csr.save1.ptyp, typ := s.csr.msubm.ptyp }
            mepc := s.csr.save1.epc
            mcause := { interrupt := s.csr.save1.cause.interrupt, minhv := s.csr.save1.cause.minhv,
                        mpil := s.csr.save1.cause.mpil, exccode := s.csr.save1.cause.exccode }
            mdcause := s.csr.save1.dcause
            save1 := s.csr.save2 } ∧
          MppStored s.cfg s.csr.save1.mpp t.csr.mstatus.mpp.bits))

/-- WFI and sleep (R494, 60_exceptions.md R597 to R600). WFI completes in both modes: the hart sleeps, the pc is after the
WFI, the instruction is counted, and nothing else changes. A step of a sleeping hart lets the events before it happen,
whatever they are: `arrive s` is the state after them. Unless one is a reset, which ends sleep (R620), the hart sleeps on,
and the events change no integer or floating-point register, not the pc or the mode, no CSR but the flags of ECC errors,
and end the reservation only by a write of another bus master. The step then executes nothing and changes nothing but
mcycle and `asleep`: it wakes the hart exactly when an NMI edge is latched outside NMI state, or, with WFE = 0, the ECLIC
presents a request, or, with WFE = 1, rx_evt is high, whatever MIE and MIL are. That no fault begins to wait while the
hart sleeps (`u.pendingFault = s.pendingFault`) is the model's choice: R607 gives a copy-back of the D-cache an imprecise
exception and does not say that a sleeping hart's D-cache copies nothing back (logs 31 and 40). The outputs while asleep
and awake are those of R598. -/
def Obligations.SleepResults : Prop :=
  ∀ s : State,
    (s.pendingFault = none →
      ∃ t, exec .wfi s = .next t ∧ t.asleep = true ∧ t.pc = s.pc + 4 ∧ t.csr = s.csr.counted ∧ SameX s t ∧ SameF s t ∧
        SameMem s t ∧ t.resv = s.resv ∧ t.priv = s.priv ∧ t.mcycle = s.mcycle ∧ t.eclic = s.eclic ∧
        t.timer = s.timer ∧ t.nmiPending = s.nmiPending ∧ t.pendingFault = none ∧ t.rxEvt = s.rxEvt ∧
        t.txEvt = s.txEvt ∧ t.eccOut = s.eccOut ∧ t.eccHits = s.eccHits ∧ t.inputs = s.inputs ∧ t.free = s.free ∧
        t.cfg = s.cfg ∧ t.coreWfiMode = true ∧ t.coreSleepValue = s.csr.sleepvalue) ∧
    (∀ u, u = arrive s → s.asleep = true → (∀ g rest, s.inputs = g :: rest → ∀ k, Input.reset k ∉ g) →
      u.asleep = true ∧ SameX s u ∧ SameF s u ∧ u.pc = s.pc ∧ u.priv = s.priv ∧ u.mcycle = s.mcycle ∧
        u.csr = { s.csr with mecc := { s.csr.mecc with sramid := u.csr.mecc.sramid, ramid := u.csr.mecc.ramid } } ∧
        u.pendingFault = s.pendingFault ∧ u.cfg = s.cfg ∧
        (u.resv = s.resv ∨ u.resv = none ∧ ∃ g rest a b, s.inputs = g :: rest ∧ Input.busWrite a b ∈ g)) ∧
    (∀ u, u = arrive s → u.asleep = true →
      ∃ t, step s = .next t ∧ SameX u t ∧ SameF u t ∧ SameMem u t ∧ t.pc = u.pc ∧ t.priv = u.priv ∧ t.csr = u.csr ∧
        t.eclic = u.eclic ∧ t.timer = u.timer ∧ t.resv = u.resv ∧ t.nmiPending = u.nmiPending ∧
        t.pendingFault = u.pendingFault ∧ t.rxEvt = u.rxEvt ∧ t.txEvt = u.txEvt ∧ t.eccOut = u.eccOut ∧
        t.inputs = u.inputs ∧ t.cfg = u.cfg ∧ (u.csr.mcountinhibit.cy = true → t.mcycle = u.mcycle) ∧
        (t.asleep = false ↔ NmiReady u ∨ (u.csr.wfe = false ∧ ∃ r, presented u.cfg u.eclic = some r) ∨
          (u.csr.wfe = true ∧ u.rxEvt = true))) ∧
    s.coreWfiMode = s.asleep ∧ (s.asleep = false → s.coreSleepValue = false)

/-- Which CSRs there are and who may access them (10_state.md R31 to R34, R64, R66, R71). Each CSR is at its address of
R31 where the configuration has it (`CsrAt`), and at no other. An access is permitted exactly when none of the six reasons
of R34 holds, and otherwise each of the six CSR instructions takes the illegal-instruction exception. CSRRW and CSRRWI
always write, the others when their rs1 or uimm field is not 0 (R480). The conditions of milm_ctl, mdlm_ctl, mecc_code and
mecc_lock and the absence of PMP registers beyond the entries are not the manual's: R32 marks them as its own decision
(D45) and inference, and the model follows them, and R31 for mcache_ctl and the information CSRs, against other notes (log
16). -/
def Obligations.CsrAccessRights : Prop :=
  ∀ (s : State) (a : CsrAddr) (rd field : BitVec 5),
    (∀ c, (Csr.ofAddr a = some c ∧ c.existsIn s.cfg = true) ↔ CsrAt s.cfg a c) ∧
    (∀ wr, (∃ c, Csr.ofAddr a = some c ∧ c.permitted s wr = true) ↔ ¬ CsrForbidden s a wr) ∧
    (s.pendingFault = none →
      (CsrForbidden s a true → TrapsIllegal (.csrrw rd a field) s ∧ TrapsIllegal (.csrrwi rd a field) s) ∧
      (CsrForbidden s a (field != 0) →
        TrapsIllegal (.csrrs rd a field) s ∧ TrapsIllegal (.csrrc rd a field) s ∧
        TrapsIllegal (.csrrsi rd a field) s ∧ TrapsIllegal (.csrrci rd a field) s))

/-- CSRRS and CSRRC with rs1 = x0, CSRRSI and CSRRCI with uimm = 0 (R480, R484, R485, R487, R488): they read a CSR that may
be read, read-only ones included, and change nothing but `x[rd]`, minstret and the pc. -/
def Obligations.CsrReadResults : Prop :=
  ∀ (s : State) (a : CsrAddr) (c : Csr) (rd : Reg), Csr.ofAddr a = some c → c.isPoint = false →
    c.permitted s false = true →
    (∃ t, exec (.csrrs rd a 0) s = .next t ∧ DoneX s t rd (csrRead s c) (s.pc + 4)) ∧
    (∃ t, exec (.csrrc rd a 0) s = .next t ∧ DoneX s t rd (csrRead s c) (s.pc + 4)) ∧
    (∃ t, exec (.csrrsi rd a 0) s = .next t ∧ DoneX s t rd (csrRead s c) (s.pc + 4)) ∧
    (∃ t, exec (.csrrci rd a 0) s = .next t ∧ DoneX s t rd (csrRead s c) (s.pc + 4))

/-- The six CSR instructions where they write a CSR that is storage (R480, R482 to R488, 10_state.md R43, R63): `x[rd]` gets
the old value, the CSR the operand, or the old value with the operand's bits set or cleared, as far as the CSR stores
them, and no other CSR changes. `csrWriteRefused` is the write that turns ECC error injection on. That a write stores
mstatus.XS is 10_state.md R46 and R482 read against part A1 of 93_implementation_defined.md, which calls XS a read-only
summary: the model's choice (log 49). -/
def Obligations.CsrWriteResults : Prop :=
  ∀ (s : State) (a : CsrAddr) (c : Csr) (rd field : BitVec 5) (old x u : Word), Csr.ofAddr a = some c →
    c.isPoint = false → c.permitted s true = true → old = csrRead s c → x = s.getX field → u = field.zeroExtend 32 →
    (csrWriteRefused s c x = false → CsrWriteDone (.csrrw rd a field) s rd c x) ∧
    (csrWriteRefused s c u = false → CsrWriteDone (.csrrwi rd a field) s rd c u) ∧
    (field ≠ 0#5 →
      (csrWriteRefused s c (old ||| x) = false → CsrWriteDone (.csrrs rd a field) s rd c (old ||| x)) ∧
      (csrWriteRefused s c (old &&& ~~~x) = false → CsrWriteDone (.csrrc rd a field) s rd c (old &&& ~~~x)) ∧
      (csrWriteRefused s c (old ||| u) = false → CsrWriteDone (.csrrsi rd a field) s rd c (old ||| u)) ∧
      (csrWriteRefused s c (old &&& ~~~u) = false → CsrWriteDone (.csrrci rd a field) s rd c (old &&& ~~~u)))

/-- The layouts of the CSRs, by what a read returns: each field in its place, the constant bits as the tables give them
(10_state.md R36 to R73; 11_state_nuclei_csr.md R100 to R124, R130, R131). A sum of products with powers of two says every
bit of a register. The CSRs that hold one value read it whole; mie, mip and txevt read 0. The letters N, P and X of misa are
parameters, which is the model's choice (log 44). -/
def Obligations.CsrLayouts : Prop :=
  ∀ s : State,
    (let m := csrRead s .mstatus
     m.getLsbD 3 = s.csr.mstatus.mie ∧ m.getLsbD 7 = s.csr.mstatus.mpie ∧
     m.extractLsb' 11 2 = (if s.csr.mstatus.mpp = .machine then 3#2 else 0#2) ∧
     m.extractLsb' 13 2 = s.csr.mstatus.fs ∧ m.extractLsb' 15 2 = s.csr.mstatus.xs ∧
     m.getLsbD 17 = s.csr.mstatus.mprv ∧ m.getLsbD 18 = s.csr.mstatus.sum ∧
     m.getLsbD 31 = (s.csr.mstatus.fs == 3#2 || s.csr.mstatus.xs == 3#2) ∧ m &&& 0x7FF80777#32 = 0) ∧
    (let c := csrRead s .mcause
     c.getLsbD 31 = s.csr.mcause.interrupt ∧ c.getLsbD 30 = s.csr.mcause.minhv ∧
     c.extractLsb' 28 2 = (if s.csr.mstatus.mpp = .machine then 3#2 else 0#2) ∧
     c.getLsbD 27 = s.csr.mstatus.mpie ∧ c.extractLsb' 16 8 = s.csr.mcause.mpil ∧
     c.extractLsb' 0 12 = s.csr.mcause.exccode ∧ c &&& 0x0700F000#32 = 0) ∧
    csrRead s .mintstatus = BitVec.ofNat 32 (s.csr.mintstatus.mil.toNat * 2 ^ 24 + s.csr.mintstatus.uil.toNat) ∧
    csrRead s .fcsr = BitVec.ofNat 32 (s.csr.fcsr.frm.toNat * 2 ^ 5 + s.csr.fcsr.fflags.toNat) ∧
    csrRead s .msubm = BitVec.ofNat 32 (s.csr.msubm.ptyp.toNat * 2 ^ 8 + s.csr.msubm.typ.toNat * 2 ^ 6) ∧
    csrRead s .mnvec = (if s.csr.mmisc.nmiCauseFff then s.csr.mtvec else s.cfg.resetVector) ∧
    csrRead s .cycle = csrRead s .mcycle ∧ csrRead s .instreth = csrRead s .minstreth ∧
    csrRead s .mcycle = BitVec.ofNat 32 s.mcycle.toNat ∧ csrRead s .mcycleh = BitVec.ofNat 32 (s.mcycle.toNat / 2 ^ 32) ∧
    csrRead s .time = BitVec.ofNat 32 s.timer.mtime.toNat ∧
    csrRead s .timeh = BitVec.ofNat 32 (s.timer.mtime.toNat / 2 ^ 32) ∧
    (∀ k j e, j < 4 → s.csr.pmp[4 * k + j]? = some e →
      (csrRead s (.pmpcfg k)).extractLsb' (8 * j) 8 =
        BitVec.ofBool e.lock ++ 0#2 ++ (match e.mode with | .off => 0#2 | .na4 => 2#2 | .napot => 3#2) ++
          BitVec.ofBool e.x ++ BitVec.ofBool e.w ++ BitVec.ofBool e.r) ∧
    (∀ n e, s.csr.pmp[n]? = some e → csrRead s (.pmpaddr n) = BitVec.ofNat 32 e.addr.toNat) ∧
    csrRead s .fflags = BitVec.ofNat 32 s.csr.fcsr.fflags.toNat ∧ csrRead s .frm = BitVec.ofNat 32 s.csr.fcsr.frm.toNat ∧
    csrRead s .mcounteren = BitVec.ofNat 32
      (s.csr.mcounteren.ir.toNat * 2 ^ 2 + s.csr.mcounteren.tm.toNat * 2 ^ 1 + s.csr.mcounteren.cy.toNat) ∧
    csrRead s .mcountinhibit = BitVec.ofNat 32
      (s.csr.mcountinhibit.ir.toNat * 2 ^ 2 + s.csr.mcountinhibit.cy.toNat) ∧
    csrRead s .misa = BitVec.ofNat 32
      (2 ^ 30 + s.cfg.misaX.toNat * 2 ^ 23 + s.cfg.hasUmode.toNat * 2 ^ 20 + s.cfg.misaP.toNat * 2 ^ 15 +
        s.cfg.misaN.toNat * 2 ^ 13 + s.cfg.hasM.toNat * 2 ^ 12 + 2 ^ 8 + s.cfg.hasF.toNat * 2 ^ 5 +
        s.cfg.hasD.toNat * 2 ^ 3 + s.cfg.hasC.toNat * 2 ^ 2 + s.cfg.hasA.toNat) ∧
    csrRead s .milmCtl = BitVec.ofNat 32
      (s.cfg.ilmBpa.toNat * 2 ^ 10 + s.csr.milm.rwecc.toNat * 2 ^ 3 + s.csr.milm.excpEn.toNat * 2 ^ 2 +
        s.csr.milm.eccEn.toNat * 2 ^ 1 + 1) ∧
    csrRead s .mdlmCtl = BitVec.ofNat 32
      (s.cfg.dlmBpa.toNat * 2 ^ 10 + s.csr.mdlm.rwecc.toNat * 2 ^ 3 + s.csr.mdlm.excpEn.toNat * 2 ^ 2 +
        s.csr.mdlm.eccEn.toNat * 2 ^ 1 + 1) ∧
    csrRead s .mcacheCtl = BitVec.ofNat 32
      (s.csr.dcache.rwdecc.toNat * 2 ^ 20 + s.csr.dcache.rwtecc.toNat * 2 ^ 19 + s.csr.dcache.excpEn.toNat * 2 ^ 18 +
        s.csr.dcache.eccEn.toNat * 2 ^ 17 + s.csr.dcache.en.toNat * 2 ^ 16 + s.csr.icache.rwdecc.toNat * 2 ^ 5 +
        s.csr.icache.rwtecc.toNat * 2 ^ 4 + s.csr.icache.excpEn.toNat * 2 ^ 3 + s.csr.icache.eccEn.toNat * 2 ^ 2 +
        s.csr.icScpdMod.toNat * 2 ^ 1 + s.csr.icache.en.toNat) ∧
    csrRead s .mmiscCtl = BitVec.ofNat 32
      (s.csr.mmisc.nmiCauseFff.toNat * 2 ^ 9 + s.csr.mmisc.misalign.toNat * 2 ^ 6 + s.csr.mmisc.bpu.toNat * 2 ^ 3) ∧
    csrRead s .msavestatus = BitVec.ofNat 32
      (s.csr.save2.ptyp.toNat * 2 ^ 14 + s.csr.save2.mpp.toNat * 2 ^ 9 + s.csr.save2.mpie.toNat * 2 ^ 8 +
        s.csr.save1.ptyp.toNat * 2 ^ 6 + s.csr.save1.mpp.toNat * 2 ^ 1 + s.csr.save1.mpie.toNat) ∧
    csrRead s .msavecause1 = causeNumber s.csr.save1.cause ∧ csrRead s .msavecause2 = causeNumber s.csr.save2.cause ∧
    csrRead s .mdcause = BitVec.ofNat 32 s.csr.mdcause.toNat ∧
    csrRead s .msavedcause1 = BitVec.ofNat 32 s.csr.save1.dcause.toNat ∧
    csrRead s .msavedcause2 = BitVec.ofNat 32 s.csr.save2.dcause.toNat ∧
    csrRead s .mtvt2 = BitVec.ofNat 32 (s.csr.mtvt2.entry.toNat * 2 ^ 2 + s.csr.mtvt2.en.toNat) ∧
    csrRead s .meccCode = BitVec.ofNat 32
      (s.csr.mecc.sramid.toNat * 2 ^ 24 + s.csr.mecc.ramid.toNat * 2 ^ 16 + s.csr.mecc.code.toNat) ∧
    csrRead s .meccLock = BitVec.ofNat 32 s.csr.meccLock.toNat ∧ csrRead s .ucode = BitVec.ofNat 32 s.csr.ucodeOv.toNat ∧
    csrRead s .wfe = BitVec.ofNat 32 s.csr.wfe.toNat ∧ csrRead s .sleepvalue = BitVec.ofNat 32 s.csr.sleepvalue.toNat ∧
    csrRead s .mcfgInfo = BitVec.ofNat 32
      (s.cfg.hasDcache.toNat * 2 ^ 10 + s.cfg.hasIcache.toNat * 2 ^ 9 + s.cfg.hasDlm.toNat * 2 ^ 8 +
        s.cfg.hasIlm.toNat * 2 ^ 7 + s.cfg.hasNice.toNat * 2 ^ 6 + s.cfg.hasPpi.toNat * 2 ^ 5 +
        s.cfg.hasFio.toNat * 2 ^ 4 + s.cfg.hasPlic.toNat * 2 ^ 3 + s.cfg.hasClic.toNat * 2 ^ 2 +
        s.cfg.hasEcc.toNat * 2 ^ 1 + s.cfg.hasTee.toNat) ∧
    csrRead s .micfgInfo = BitVec.ofNat 32
      (s.cfg.ilmEcc.toNat * 2 ^ 22 + s.cfg.ilmXonly.toNat * 2 ^ 21 + s.cfg.ilmSize.toNat * 2 ^ 16 +
        s.cfg.icEcc.toNat * 2 ^ 10 + s.cfg.icLsize.toNat * 2 ^ 7 + s.cfg.icWay.toNat * 2 ^ 4 + s.cfg.icSet.toNat) ∧
    csrRead s .mdcfgInfo = BitVec.ofNat 32
      (s.cfg.dlmEcc.toNat * 2 ^ 21 + s.cfg.dlmSize.toNat * 2 ^ 16 + s.cfg.dcEcc.toNat * 2 ^ 10 +
        s.cfg.dcLsize.toNat * 2 ^ 7 + s.cfg.dcWay.toNat * 2 ^ 4 + s.cfg.dcSet.toNat) ∧
    csrRead s .mppicfgInfo = BitVec.ofNat 32 (s.cfg.ppiBpa.toNat * 2 ^ 10 + s.cfg.ppiSize.toNat * 2 ^ 1 + 1) ∧
    csrRead s .mfiocfgInfo = BitVec.ofNat 32 (s.cfg.fioBpa.toNat * 2 ^ 10 + s.cfg.fioSize.toNat * 2 ^ 1 + 1) ∧
    csrRead s .mtvec = s.csr.mtvec ∧ csrRead s .mtvt = s.csr.mtvt ∧ csrRead s .mscratch = s.csr.mscratch ∧
    csrRead s .mepc = s.csr.mepc ∧ csrRead s .mtval = s.csr.mtval ∧ csrRead s .msaveepc1 = s.csr.save1.epc ∧
    csrRead s .msaveepc2 = s.csr.save2.epc ∧ csrRead s .mvendorid = s.cfg.mvendorid ∧
    csrRead s .marchid = s.cfg.marchid ∧ csrRead s .mimpid = s.cfg.mimpid ∧ csrRead s .mhartid = s.cfg.mhartid ∧
    csrRead s .mie = 0 ∧ csrRead s .mip = 0 ∧ csrRead s .txevt = 0 ∧
    csrRead s .cycleh = csrRead s .mcycleh ∧ csrRead s .instret = csrRead s .minstret ∧
    csrRead s .minstret = BitVec.ofNat 32 s.csr.minstret.toNat ∧
    csrRead s .minstreth = BitVec.ofNat 32 (s.csr.minstret.toNat / 2 ^ 32)

/-- mnxti and jalmnxti in Machine Mode (R493, R495, R496, 00_scope.md R8, 60_exceptions.md R564, R577). CSRRSI and CSRRCI on
mnxti set or clear MIE; with no next interrupt they give 0, with one its handler address, and with uimm not 0 they claim
it. CSRRW on jalmnxti does nothing without one; with one it claims it, sets MIE, puts its own address in `x[rd]` and jumps
to the handler address. That address is, by `mnxtiReturns`, the address of the table word, for which nothing is read, or
the table word itself. When the PMP or the bus refuses the read of that word, jalmnxti enters InstrAccessFault at itself,
mtval the address of the word, mdcause 1 or 2, with none of the effects, and so does mnxti, by the model's choice (log 19).
That `mnxtiReturns` holds for jalmnxti too, as R8 says, and not for mnxti alone, as R495 reads, is the model's choice (log
48), and so is that a table outside the ILM and the system bus can be read (log 26). So is what an ECC error does that the
table read of either instruction meets (log 50; for mnxti also log 19): it is recorded, a 2-bit one with its exception on
enters the same exception with mdcause kept, and otherwise the instruction uses the bits that arrive. When ECC is on and how large a line is are the choices of
logs 47 and 46, as in `EccErrors`. -/
def Obligations.InterruptClaimResults : Prop :=
  ∀ (s : State) (rd rs1 : Reg) (u : BitVec 5), s.priv = .machine →
    (s.cfg.hasUmode = false → s.csr.mstatus.mpp = .machine) →
    ((∀ r, ¬ NextInterrupt s r) →
      MnxtiDone (.csrrsi rd 0x345 u) s rd true u none 0 ∧ MnxtiDone (.csrrci rd 0x345 u) s rd false u none 0 ∧
      ∃ t, exec (.csrrw rd 0x7ED rs1) s = .next t ∧ DoneX s t 0 0 (s.pc + 4)) ∧
    (∀ r claimed a handler, NextInterrupt s r → claimed = (if u = 0#5 then none else some r) → a = tableWord s r.id →
      (s.cfg.mnxtiReturns = .entry → handler = a) →
      (s.cfg.mnxtiReturns = .handler → plainFetch s .machine a = true ∧ handler = foundWord s Config.freeTablePort a) →
      MnxtiDone (.csrrsi rd 0x345 u) s rd true u claimed handler ∧
      MnxtiDone (.csrrci rd 0x345 u) s rd false u claimed handler ∧
      ∃ t, exec (.csrrw rd 0x7ED rs1) s = .next t ∧ WroteX s t rd s.pc ∧ t.pc = handler &&& 0xFFFFFFFE#32 ∧
        t.csr = { s.csr.counted with
          mstatus := { s.csr.mstatus with mie := true }
          mcause := { s.csr.mcause with exccode := BitVec.ofNat 12 r.id }
          mintstatus := { s.csr.mintstatus with mil := r.level } } ∧
        IpCleared s.eclic t.eclic r.id ∧ PointFrame s t) ∧
    (∀ i r a d, ReadsTable s i → NextInterrupt s r → a = tableWord s r.id → s.pendingFault = none →
      FetchRefused s .machine a d →
      ∃ t, exec i s = .next t ∧ ExceptionEntered s t 1 s.pc ∧ t.csr.mtval = a ∧ t.csr.mdcause = d ∧
        t.pendingFault = none) ∧
    (∀ i r a met, ReadsTable s i → NextInterrupt s r → a = tableWord s r.id → FetchAllowed s .machine a →
      met = EccMet s .fetch [(a, 4)] →
      (EccTraps s .fetch (a, 4) → s.pendingFault = none →
        ∃ v t, EccNoted s v met ∧ exec i s = .next t ∧ ExceptionEntered v t 1 s.pc ∧ t.csr.mtval = a ∧
          t.csr.mdcause = s.csr.mdcause ∧ t.pendingFault = none) ∧
      (¬ EccTraps s .fetch (a, 4) → ∀ m, (∀ b, ByteArrives s met m b) → EccDelivered i s .load met m))

/-- The other access points in Machine Mode (R497 to R499). mscratchcsw and mscratchcswl by CSRRW swap with mscratch when
the trap came from User Mode, or when exactly one of mcause.MPIL and mintstatus.MIL is 0; else `x[rs1]` is copied to
`x[rd]`. CSRRWI x0 on pushmsubm, pushmcause and pushmepc stores the register at `x[2] + 4 * uimm` in plain memory, the
stack pointer unchanged. -/
def Obligations.ScratchAndPushResults : Prop :=
  ∀ (s : State) (rd rs1 : Reg) (u : BitVec 5) (ea : Word), s.priv = .machine →
    ScratchDone (.csrrw rd 0x348 rs1) s rd rs1 (s.csr.mstatus.mpp ≠ .machine) ∧
    ScratchDone (.csrrw rd 0x349 rs1) s rd rs1 (¬ (s.csr.mcause.mpil = 0#8 ↔ s.csr.mintstatus.mil = 0#8)) ∧
    (s.mem.wf = true → ea = s.getX 2 + BitVec.ofNat 32 (4 * u.toNat) → plainStore s ea 4 = true →
      (∃ t, exec (.csrrwi 0 0x7EB u) s = .next t ∧
        DoneStore s t ea 4 ((csrRead s .msubm).zeroExtend 64) (s.pc + 4)) ∧
      (∃ t, exec (.csrrwi 0 0x7EE u) s = .next t ∧
        DoneStore s t ea 4 ((csrRead s .mcause).zeroExtend 64) (s.pc + 4)) ∧
      (∃ t, exec (.csrrwi 0 0x7EF u) s = .next t ∧
        DoneStore s t ea 4 ((csrRead s .mepc).zeroExtend 64) (s.pc + 4)))

/-- The CSR instructions the spec asks a model to stop on (93_implementation_defined.md A4, R493 to R499, 20_memory.md
R211): in Machine Mode every form an access point does not define, and a write by any of the six forms that turns ECC error
injection on (`Injects`). -/
def Obligations.RefusedCsrForms : Prop :=
  ∀ (s : State) (a : CsrAddr) (c : Csr) (rd f : BitVec 5), s.priv = .machine → Csr.ofAddr a = some c →
    (c.isPoint = true →
      exec (.csrrs rd a f) s = .refused .csrForm ∧ exec (.csrrc rd a f) s = .refused .csrForm ∧
      (a ≠ 0x7ED#12 → a ≠ 0x348#12 → a ≠ 0x349#12 → exec (.csrrw rd a f) s = .refused .csrForm) ∧
      (a ≠ 0x345#12 → exec (.csrrsi rd a f) s = .refused .csrForm ∧ exec (.csrrci rd a f) s = .refused .csrForm) ∧
      (¬ (rd = 0#5 ∧ (a = 0x7EB#12 ∨ a = 0x7EE#12 ∨ a = 0x7EF#12)) →
        exec (.csrrwi rd a f) s = .refused .csrForm)) ∧
    (s.csr.meccLock = false → c.existsIn s.cfg = true → ∀ old x u, old = csrRead s c → x = s.getX f →
      u = f.zeroExtend 32 →
      (Injects c x → exec (.csrrw rd a f) s = .refused .eccInjection) ∧
      (Injects c u → exec (.csrrwi rd a f) s = .refused .eccInjection) ∧
      (f ≠ 0#5 →
        (Injects c (old ||| x) → exec (.csrrs rd a f) s = .refused .eccInjection) ∧
        (Injects c (old &&& ~~~x) → exec (.csrrc rd a f) s = .refused .eccInjection) ∧
        (Injects c (old ||| u) → exec (.csrrsi rd a f) s = .refused .eccInjection) ∧
        (Injects c (old &&& ~~~u) → exec (.csrrci rd a f) s = .refused .eccInjection)))

/-- The accesses a model is to stop on (93_implementation_defined.md A4, 20_memory.md R163, R173, 43_rv32a.md R394,
60_exceptions.md R559, R583, R589), where nothing raises first: loads, stores and atomics in an execute-only ILM; in the
TIMER all but aligned words, in the ECLIC misaligned and 8-byte ones, atomics in both; and an interrupt that is due while
mtvec.MODE is not 3. -/
def Obligations.RefusedAccesses : Prop :=
  ∀ s : State,
    (∀ i len k ea n, DataAccess s i len k ea n → ¬ Unaligned s ea n →
      (∀ p ∈ busAccesses ea n, pmpCheck s s.priv k p.1 = true ∧ busError s.cfg k p.1 p.2 = false) →
      ((∀ p ∈ busAccesses ea n, region s.cfg p.1 = .ilm) → s.cfg.ilmXonly = true →
        exec i s = .refused .ilmExecuteOnly) ∧
      ((∀ p ∈ busAccesses ea n, region s.cfg p.1 = .timer) → ¬ (n = 4 ∧ 4 ∣ ea.toNat) →
        exec i s = .refused .deviceAccess) ∧
      ((∀ p ∈ busAccesses ea n, region s.cfg p.1 = .eclic) → ¬ (n ≤ 4 ∧ n ∣ ea.toNat) →
        exec i s = .refused .deviceAccess)) ∧
    (∀ i k ea, s.cfg.hasA = true → AtomicAccess s i k ea → 4 ∣ ea.toNat → pmpCheck s s.priv k ea = true →
      busError s.cfg k ea 4 = false →
      (region s.cfg ea = .timer ∨ region s.cfg ea = .eclic → exec i s = .refused .deviceAtomic) ∧
      (region s.cfg ea = .ilm → s.cfg.ilmXonly = true → exec i s = .refused .ilmExecuteOnly)) ∧
    (∀ r, Quiet s → s.asleep = false → s.pendingFault = none → ¬ NmiReady s → IrqReady s r →
      s.csr.mtvec.extractLsb' 0 6 ≠ 3#6 → step s = .refused .defaultInterruptMode)

/-- Accesses to the devices of the platform in the PPI and FIO complete (20_memory.md R162, R173). Which bytes a load gets is
the platform's: the model's choice is free bytes, and a store that leaves no trace in the state (log 26). Memory is not
touched, SC.W and the AMOs included, and a store writes no register. -/
def Obligations.PortAccesses : Prop :=
  ∀ s : State,
    (∀ i len k ea n, DataAccess s i len k ea n → ¬ Unaligned s ea n → AllowedIn s k (busAccesses ea n) [.ppi, .fio] →
      ∃ t, exec i s = .next t ∧ t.pc = s.pc + len ∧ SameMem s t ∧ t.resv = s.resv ∧ SameRest s t ∧
        (k = .store → SameX s t ∧ SameF s t)) ∧
    (∀ rd rs1 imm ea, ea = s.getX rs1 + sext imm → ¬ Unaligned s ea 4 →
      AllowedIn s .load (busAccesses ea 4) [.ppi, .fio] →
      ∃ t, exec (.lw rd rs1 imm) s = .next t ∧ DoneX s t rd (portData s ea) (s.pc + 4)) ∧
    (∀ i k ea, s.cfg.hasA = true → AtomicAccess s i k ea → 4 ∣ ea.toNat → AllowedIn s k [(ea, 4)] [.ppi, .fio] →
      ∃ t, exec i s = .next t ∧ t.pc = s.pc + 4 ∧ SameMem s t ∧ SameF s t ∧ t.csr = s.csr.counted ∧ SameRest s t ∧
        t.resv = if k = .load then some ea else if k = .store then none else s.resv)

/-- Fetches that raise (30_encoding.md R221, R230, R231, R236, R250; 60_exceptions.md R521, R523, R524). An aligned word of the
instruction that the PMP or the bus refuses raises code 1 with mtval that word's address and mdcause 1 or 2, the word at
the pc before the next one. Bits that decode to nothing, a 16-bit code without C and the formats of 48 bits and more raise
code 2 with mtval the bits, 16 of them extended with zeros. No word before the last FENCE.I is left to be seen. The words at
the pc may be in any region, which is the model's choice for those beside the ILM and the system bus (log 26), as is that
the bus may refuse a fetch from the TIMER or ECLIC (log 28). As in `StepRunsInstruction` three clauses of the step are the model's choice: the pulses of tx_evt and of the ECC outputs end
first (log 34), the ECC errors of the step are over at its end (log 31), and the counter of the free values advances
(log 43). -/
def Obligations.FetchFaults : Prop :=
  ∀ (s : State) (a : Word), Quiet s → s.asleep = false → NoTrapDue s → s.pc.getLsbD 0 = false →
    (s.cfg.hasC = false → s.pc.getLsbD 1 = false) → a = s.pc &&& 0xFFFFFFFC#32 →
    (∀ d, FetchRefused s s.priv a d → StepTraps s 1 a (some d)) ∧
    (s.stale = [] → plainFetch s s.priv a = true →
      (∀ d, s.pc.getLsbD 1 = true → (codeByte s s.pc).extractLsb' 0 2 = 3#2 → FetchRefused s s.priv (a + 4) d →
        StepTraps s 1 (a + 4) (some d)) ∧
      (∀ h, codeHalf s s.pc = h → h.extractLsb' 0 2 ≠ 3#2 → s.cfg.hasC = false ∨ decode (.half h) = none →
        StepTraps s 2 (h.zeroExtend 32) none) ∧
      (∀ w, codeWord s s.pc = w → w.extractLsb' 0 2 = 3#2 →
        (s.pc.getLsbD 1 = true → plainFetch s s.priv (a + 4) = true) →
        w.extractLsb' 2 3 = 7#3 ∨ decode (.word w) = none → StepTraps s 2 w none))

/-- Data accesses that raise (R261, R280, R380, 20_memory.md R167 to R169, R174, R185, R186; 60_exceptions.md R521 to R524):
a misaligned one that the core does not split raises code 4 or 6 with mtval its address, before any other check; with
precise access faults the first bus access that the PMP or the bus refuses raises code 5 or 7, mtval its address, mdcause
1 or 2. Nothing else happens: no register, no memory. Atomics must always be aligned. -/
def Obligations.DataAccessFaults : Prop :=
  ∀ (s : State) (i : Instr) (len : Word) (k : AccessKind) (ea : Word) (n : Nat), s.pendingFault = none →
    (DataAccess s i len k ea n →
      (Unaligned s ea n →
        ∃ t, exec i s = .next t ∧ ExceptionEntered s t (misalignedCode k) s.pc ∧ t.csr.mtval = ea ∧
          t.pendingFault = none) ∧
      (¬ Unaligned s ea n → s.cfg.preciseAccessFaults = true → ∀ b pmp, FirstFailure s k (busAccesses ea n) b pmp →
        ∃ t, exec i s = .next t ∧ ExceptionEntered s t (dataFaultCode k) s.pc ∧ t.csr.mtval = b ∧
          t.csr.mdcause = (if pmp then 1 else 2) ∧ t.pendingFault = none)) ∧
    (s.cfg.hasA = true → AtomicAccess s i k ea →
      (¬ 4 ∣ ea.toNat →
        ∃ t, exec i s = .next t ∧ ExceptionEntered s t (misalignedCode k) s.pc ∧ t.csr.mtval = ea ∧
          t.pendingFault = none) ∧
      (4 ∣ ea.toNat → s.cfg.preciseAccessFaults = true → ∀ b pmp, FirstFailure s k [(ea, 4)] b pmp →
        ∃ t, exec i s = .next t ∧ ExceptionEntered s t (dataFaultCode k) s.pc ∧ t.csr.mtval = b ∧
          t.csr.mdcause = (if pmp then 1 else 2) ∧ t.pendingFault = none))

/-- Imprecise access faults (60_exceptions.md R526, R597): without precise access faults an instruction whose access the
PMP or the bus refuses retires. A store writes nothing, a load leaves an open value in its own register alone, and the
fault waits with its code, address and detail; if one waits already, either is kept. For atomics the model reads R526 so
too (log 13): an SC.W or an AMO leaves `x[rd]` open and stores nothing, an SC.W gives the reservation up, an LR.W makes none.
What waits is entered, with mepc the address of the instruction not yet executed, by a WFI, an MRET in Machine Mode, an
instruction that raises (ECALL, EBREAK) and, at a step boundary, before an NMI or an interrupt. -/
def Obligations.ImpreciseFaults : Prop :=
  ∀ (s : State),
    (∀ i len k ea n b pmp, s.cfg.preciseAccessFaults = false → DataAccess s i len k ea n →
      ¬ Unaligned s ea n → FirstFailure s k (busAccesses ea n) b pmp →
      ∃ t, exec i s = .next t ∧ RetiresWithFault i s t len (dataFaultCode k) b (if pmp then .pmp else .bus)) ∧
    (∀ i k ea b pmp, s.cfg.preciseAccessFaults = false → s.cfg.hasA = true → AtomicAccess s i k ea → 4 ∣ ea.toNat →
      FirstFailure s k [(ea, 4)] b pmp →
      ∃ t, exec i s = .next t ∧ RetiresWithFault i s t 4 (dataFaultCode k) b (if pmp then .pmp else .bus)) ∧
    (∀ e, s.pendingFault = some e →
      (∃ t, exec .wfi s = .next t ∧ ExceptionEntered { s with pendingFault := none } t e.code.num s.pc ∧
        t.pendingFault = none ∧ (∀ v, e.tval = some v → t.csr.mtval = v)) ∧
      (∃ t, exec .ecall s = .next t ∧ ExceptionEntered { s with pendingFault := none } t e.code.num s.pc ∧
        t.pendingFault = none) ∧
      (∃ t, exec .ebreak s = .next t ∧ ExceptionEntered { s with pendingFault := none } t e.code.num s.pc ∧
        t.pendingFault = none) ∧
      (s.priv = .machine →
        ∃ t, exec .mret s = .next t ∧ ExceptionEntered { s with pendingFault := none } t e.code.num s.pc ∧
          t.pendingFault = none) ∧
      (Quiet s → s.asleep = false → NmiReady s ∨ (∃ r, IrqReady s r) →
        ∃ t, step s = .next t ∧ t.pendingFault = none ∧ t.pc = s.csr.mtvec &&& 0xFFFFFFFC#32 ∧
          t.csr.mcause.exccode = e.code.num ∧ t.csr.mepc = s.pc &&& 0xFFFFFFFE#32 ∧ t.csr.msubm.typ = 2 ∧
          t.nmiPending = s.nmiPending ∧ t.eclic = s.eclic))

/-- ECC errors (20_memory.md R210, 60_exceptions.md R605 to R609). A data access, or the fetch of an instruction, that
meets a 2-bit error of a memory whose ECC and exception are on raises code 5 or 7, or 1, with mtval the address of the
first bus access, or of the aligned word of the instruction, that meets one, and mdcause as it was; where access faults
are imprecise a data access retires as in `ImpreciseFaults` (R526). Else the instruction is executed: 1-bit errors are
corrected, and a load or store is as without them. 2-bit errors whose exception is off, and any error where ECC is off,
arrive: a load, an atomic and a fetch use the wrong bits, and a partial store writes them back around its own bytes (with
ECC off it reads no data, and a wrong tag alone spoils it). Each error met while ECC is on, by these accesses or by one of
another origin, sets the bit of its memory in SRAMID or RAMID, raises the matching output of the core, and changes no other
record; a 2-bit one of the slave port or the SBA is reported there as well. An error is met as `EccMeets` says, in data or
in cache tags. A line that an awake hart's D-cache copies back with a 2-bit error is recorded, and with the exception on
one waits, of code 5 or 7 and open mtval. The model's reading, where the spec says no more (logs 13, 31, 34): an access of
several parts raises at its first one; LR.W is a load; an SC.W that stores is a store, one that fails meets no error; an
AMO is a load and then a store, with code 7 for both; a wrong tag leaves wrong bits in the data; the outputs are pulses,
and the errors of a step are over at its end. No word from before FENCE.I is left for a fetch that is executed. Also the
model's choice: a fetch may be from any region (log 26); the enable bit alone turns ECC on (log 47); what the reserved size
codes and the line-size code 0 stand for (log 46). The vector-table read is in `InterruptClaimResults` and
`InterruptEntry`. -/
def Obligations.EccErrors : Prop :=
  ∀ s : State,
    (∀ i len k ea n path, DataAccess s i len k ea n → path = (if k = .load then .load else .store) →
      ¬ Unaligned s ea n → PlainParts s k (busAccesses ea n) →
      (∀ before p after, busAccesses ea n = before ++ p :: after → EccTraps s path p →
        (∀ q ∈ before, ¬ EccTraps s path q) →
        EccFault i s len (EccMet s path (busAccesses ea n)) (dataFaultCode k) p.1) ∧
      (Correctable s (EccMet s path (busAccesses ea n)) → EccCorrected i s (EccMet s path (busAccesses ea n))) ∧
      ((∀ q ∈ busAccesses ea n, ¬ EccTraps s path q) → s.mem.wf = true → ∀ m, m.wf = true →
        (∀ b, ByteArrives s (EccMet s path (busAccesses ea n)) m b) →
        EccDelivered i s k (EccMet s path (busAccesses ea n)) m)) ∧
    (∀ i k ea path, s.cfg.hasA = true → AtomicAccess s i k ea → 4 ∣ ea.toNat → PlainParts s k [(ea, 4)] →
      path = (if k = .store then .store else .load) →
      (k = .store → s.resv ≠ some ea → EccCorrected i s fun _ => False) ∧
      ((k = .store → s.resv = some ea ∧ s.cfg.scSpuriousFail = false) →
        (EccTraps s path (ea, 4) → EccFault i s 4 (EccMet s path [(ea, 4)]) (dataFaultCode k) ea) ∧
        (k = .amo → ¬ EccTraps s .load (ea, 4) → EccTraps s .store (ea, 4) → EccFault i s 4 (AmoMet s ea) 7 ea) ∧
        (k ≠ .amo → Correctable s (EccMet s path [(ea, 4)]) → EccCorrected i s (EccMet s path [(ea, 4)])) ∧
        (k = .amo → Correctable s (AmoMet s ea) → EccCorrected i s (AmoMet s ea)) ∧
        (k ≠ .amo → ¬ EccTraps s path (ea, 4) → s.mem.wf = true → ∀ m, m.wf = true →
          (∀ b, ByteArrives s (EccMet s path [(ea, 4)]) m b) → EccDelivered i s k (EccMet s path [(ea, 4)]) m) ∧
        (k = .amo → ¬ EccTraps s .load (ea, 4) → ¬ EccTraps s .store (ea, 4) → s.mem.wf = true → ∀ m, m.wf = true →
          (∀ b, if (b - ea).toNat < 4 then ByteArrives s (EccMet s .load [(ea, 4)]) m b
            else ByteArrives s (EccMet s .store [(ea, 4)]) m b) →
          EccDelivered i s k (AmoMet s ea) m))) ∧
    (∀ a m one both, Quiet s → s.asleep = false → NoTrapDue s → s.pc.getLsbD 0 = false →
      (s.cfg.hasC = false → s.pc.getLsbD 1 = false) → a = s.pc &&& 0xFFFFFFFC#32 → FetchAllowed s s.priv a →
      one = EccMet s .fetch [(a, 4)] → both = EccMet s .fetch [(a, 4), (a + 4, 4)] →
      (EccTraps s .fetch (a, 4) → ∃ u, EccNoted s.afterPulses u one ∧ FetchTraps s u a s.csr.mdcause) ∧
      (¬ EccTraps s .fetch (a, 4) → s.stale = [] → WordArrives s Config.freeFetchPort m a →
        ((m.read s.pc).extractLsb' 0 2 ≠ 3#2 →
          ∃ u, EccNoted s.afterPulses u one ∧ StepRuns s u (.half (memHalf m s.pc)) s.cfg.hasC) ∧
        ((m.read s.pc).extractLsb' 0 2 = 3#2 → s.pc.getLsbD 1 = false →
          ∃ u, EccNoted s.afterPulses u one ∧ StepRuns s u (.word (memWord m s.pc)) true) ∧
        ((m.read s.pc).extractLsb' 0 2 = 3#2 → s.pc.getLsbD 1 = true →
          (∀ d, FetchRefused s s.priv (a + 4) d → ∃ u, EccNoted s.afterPulses u one ∧ FetchTraps s u (a + 4) d) ∧
          (FetchAllowed s s.priv (a + 4) →
            (EccTraps s .fetch (a + 4, 4) →
              ∃ u, EccNoted s.afterPulses u both ∧ FetchTraps s u (a + 4) s.csr.mdcause) ∧
            (¬ EccTraps s .fetch (a + 4, 4) → WordArrives s Config.freeFetchPort m (a + 4) →
              ∃ u, EccNoted s.afterPulses u both ∧ StepRuns s u (.word (memWord m s.pc)) true))))) ∧
    (∀ h : EccHit, s.input (.eccHit h) = { s with eccHits := s.eccHits ++ [h] }) ∧
    (∀ origin unit double, if eccOn s.csr unit = true then
        ∃ u, EccNoted s u (fun h => h.unit = unit ∧ h.double = double) ∧
          s.input (.eccOther origin unit double) = { u with eccOut := { u.eccOut with
            slaveError := s.eccOut.slaveError || (double && origin == .slavePort)
            sbaError := s.eccOut.sbaError || (double && origin == .sba) } }
      else s.input (.eccOther origin unit double) = s) ∧
    (∀ t, t = s.input .eccEvict →
      if s.csr.dcache.en = true ∧ s.csr.dcache.eccEn = true ∧ s.asleep = false then
        ∃ u, EccNoted s u DcacheDouble ∧
          (s.csr.dcache.excpEn = false → t = u) ∧
          (s.csr.dcache.excpEn = true →
            (t = u ∧ s.pendingFault ≠ none) ∨ ∃ e, t = { u with pendingFault := some e } ∧ e.tval = none ∧
              e.detail = .keep ∧ (e.code = .loadAccessFault ∨ e.code = .storeAmoAccessFault))
      else t = s)

/-! ### NMI, interrupts, ECLIC, TIMER, PMP -/

/-- NMI entry at a step boundary, whatever mstatus.MIE, mth and the ECLIC hold (60_exceptions.md R540, R545 to R549, R551,
11_state_nuclei_csr.md R103): EXCCODE 0xFFF and the entry mtvec with NMI_CAUSE_FFF, else 1 and the reset vector; mtval and
mdcause stay. Three clauses of `BoundaryFrame` are the model's choice: tx_evt and the ECC outputs are low after the step
(log 34), and its ECC errors are over (log 31). -/
def Obligations.NmiEntry : Prop :=
  ∀ s : State, Quiet s → s.asleep = false → s.pendingFault = none → NmiReady s →
    ∃ t, step s = .next t ∧ BoundaryFrame s t ∧ t.nmiPending = false ∧ t.priv = .machine ∧ t.resv = none ∧
      t.eclic = s.eclic ∧
      t.pc = (if s.csr.mmisc.nmiCauseFff then s.csr.mtvec &&& 0xFFFFFFFC#32 else s.cfg.resetVector) ∧
      StackAtEntry s.cfg.hasNestedStack s.csr t.csr ∧
      t.csr = { s.csr with
        mepc := s.pc &&& 0xFFFFFFFE#32
        mcause := { s.csr.mcause with interrupt := false,
                                      exccode := if s.csr.mmisc.nmiCauseFff then 0xFFF else 0x001 }
        mstatus := { s.csr.mstatus with mpie := s.csr.mstatus.mie, mpp := s.priv, mie := false }
        msubm := { ptyp := s.csr.msubm.typ, typ := 3 }
        save1 := t.csr.save1
        save2 := t.csr.save2 }

/-- Interrupt entry at a step boundary in the ECLIC mode (60_exceptions.md R559 to R566, R577). A source that is not vectored
goes to mtvt2 or mtvec and stays pending; a vectored one goes to the address in its word of the vector table and, if it
is edge-triggered, is pending no longer. When the table cannot be read the entry stands, MINHV stays 1, and
InstrAccessFault is entered on top of it with mtval the address of the word; the mepc it writes is open. Three clauses of
`BoundaryFrame` are the model's choice: tx_evt and the ECC outputs are low after the step (log 34), and its ECC errors are
over (log 31). So is that a table outside the ILM and the system bus can be read (log 26), and the last clause (log 50): an
ECC error that the table read meets is recorded and put out, a 2-bit one with its exception on makes the read fail, with
mdcause kept, and otherwise the pc comes from the word as it arrives. When ECC is on and how large a line is are the
choices of logs 47 and 46, as in `EccErrors`. -/
def Obligations.InterruptEntry : Prop :=
  ∀ (s : State) (r : Request) (a : Word), Quiet s → s.asleep = false → s.pendingFault = none → ¬ NmiReady s →
    IrqReady s r → s.csr.mtvec.extractLsb' 0 6 = 3#6 → a = tableWord s r.id →
    (r.shv = false →
      ∃ t, step s = .next t ∧ BoundaryFrame s t ∧ t.nmiPending = s.nmiPending ∧ t.priv = .machine ∧ t.resv = none ∧
        t.eclic = s.eclic ∧ t.csr = irqCsrs s r s.csr.mcause.minhv ∧
        t.pc = if s.csr.mtvt2.en then s.csr.mtvt2.entry ++ 0#2 else s.csr.mtvec &&& 0xFFFFFFFC#32) ∧
    (r.shv = true → plainFetch s .machine a = true →
      ∃ t, step s = .next t ∧ BoundaryFrame s t ∧ t.nmiPending = s.nmiPending ∧ t.priv = .machine ∧ t.resv = none ∧
        IpCleared s.eclic t.eclic r.id ∧ t.csr = irqCsrs s r false ∧ t.pc = foundWord s Config.freeTablePort a &&& 0xFFFFFFFE#32) ∧
    (∀ detail, r.shv = true →
      (detail = 1#2 ∧ pmpCheck s .machine .fetch a = false ∨
        detail = 2#2 ∧ pmpCheck s .machine .fetch a = true ∧ busError s.cfg .fetch a 4 = true) →
      ∃ t, step s = .next t ∧ BoundaryFrame s t ∧ t.nmiPending = s.nmiPending ∧ t.priv = .machine ∧ t.resv = none ∧
        t.eclic = s.eclic ∧ t.csr = failedReadCsrs s r a detail t.csr ∧
        StackAtEntry s.cfg.hasNestedStack (irqCsrs s r true) t.csr ∧ t.pc = s.csr.mtvec &&& 0xFFFFFFFC#32) ∧
    (∀ met, r.shv = true → FetchAllowed s .machine a → met = EccMet s .fetch [(a, 4)] →
      ∃ u t, EccNoted s.afterPulses u met ∧ step s = .next t ∧ BoundaryFrame s { t with eccOut := .none } ∧
        t.eccOut = u.eccOut ∧ t.nmiPending = s.nmiPending ∧ t.priv = .machine ∧ t.resv = none ∧
        (EccTraps s .fetch (a, 4) →
          t.eclic = s.eclic ∧ t.csr = { failedReadCsrs s r a s.csr.mdcause t.csr with mecc := u.csr.mecc } ∧
          StackAtEntry s.cfg.hasNestedStack (irqCsrs s r true) t.csr ∧ t.pc = s.csr.mtvec &&& 0xFFFFFFFC#32) ∧
        (¬ EccTraps s .fetch (a, 4) → ∀ m, WordArrives s Config.freeTablePort m a →
          IpCleared s.eclic t.eclic r.id ∧ t.csr = { irqCsrs s r false with mecc := u.csr.mecc } ∧
          t.pc = memWord m a &&& 0xFFFFFFFE#32))

/-- The request the ECLIC presents (60_exceptions.md R579, R580, R582): of the sources that are enabled and pending the one
with the largest level, then priority, then number, and only if its level is above mth; a lower one is not offered in
its place. -/
def Obligations.EclicArbitration : Prop :=
  ∀ (cfg : Config) (e : Eclic) (r : Request), presented cfg e = some r ↔
    ∃ src, EclicWinner cfg e r.id src ∧ e.mth.toNat < srcLevel cfg e src ∧ r.level.toNat = srcLevel cfg e src ∧
      r.shv = src.shv

/-- The ECLIC's registers through loads and stores of 1, 2 and 4 aligned bytes (60_exceptions.md R570 to R578, R583). A
load gets the bytes of the registers, `eclicByte`: cliccfg, clicinfo, mth, the four registers of a source, and 0 for a
source that does not exist and for every other offset. A store changes each byte register it covers, as `EclicStored`
says, and nothing else: the read-only and reserved ones not at all, IP of a level-triggered source not at all, but that
the write ends the open value a change of trig may have left it (log 15). mth is stored and read with all 8 bits, as R573
says, where part A1 of 93_implementation_defined.md has its low bits read 1: the model's choice (log 17). That the bytes
of a store act in rising order is its choice too (log 20), and so is that a source whose line is low and IP is 0 stays not
pending when trig changes: R577 alone calls IP unspecified just after such a change, and the model reads it with part A3
of 93_implementation_defined.md (log 15). Until FENCE.I a fetch may see the word as it was before the store
(20_memory.md R204); that it reaches these registers at all is the model's choice (log 26). -/
def Obligations.EclicRegisters : Prop :=
  ∀ (s : State) (rd rs1 rs2 : Reg) (imm : BitVec 12) (ea : Word) (off : Nat) (byte : Nat → Byte),
    ea = s.getX rs1 + sext imm → region s.cfg ea = .eclic → ea.toNat = s.cfg.eclicBase.toNat + off →
    byte = (fun k => eclicByte s.cfg s.eclic (off + k)) →
    (pmpCheck s s.priv .load ea = true →
      (∃ t, exec (.lbu rd rs1 imm) s = .next t ∧ DoneX s t rd ((byte 0).zeroExtend 32) (s.pc + 4)) ∧
      (∃ t, exec (.lb rd rs1 imm) s = .next t ∧ DoneX s t rd (sext (byte 0)) (s.pc + 4)) ∧
      (2 ∣ ea.toNat →
        (∃ t, exec (.lhu rd rs1 imm) s = .next t ∧ DoneX s t rd ((byte 1 ++ byte 0).zeroExtend 32) (s.pc + 4)) ∧
        (∃ t, exec (.lh rd rs1 imm) s = .next t ∧ DoneX s t rd (sext (byte 1 ++ byte 0)) (s.pc + 4))) ∧
      (4 ∣ ea.toNat →
        ∃ t, exec (.lw rd rs1 imm) s = .next t ∧
          DoneX s t rd (byte 3 ++ byte 2 ++ byte 1 ++ byte 0) (s.pc + 4))) ∧
    (pmpCheck s s.priv .store ea = true →
      EclicStoreDone (.sb rs2 rs1 imm) s ea off [(s.getX rs2).extractLsb' 0 8] ∧
      (2 ∣ ea.toNat →
        EclicStoreDone (.sh rs2 rs1 imm) s ea off [(s.getX rs2).extractLsb' 0 8, (s.getX rs2).extractLsb' 8 8]) ∧
      (4 ∣ ea.toNat →
        EclicStoreDone (.sw rs2 rs1 imm) s ea off
          [(s.getX rs2).extractLsb' 0 8, (s.getX rs2).extractLsb' 8 8, (s.getX rs2).extractLsb' 16 8,
           (s.getX rs2).extractLsb' 24 8]))

/-- The TIMER's registers through aligned word loads and stores (60_exceptions.md R588 to R596): a load reads the register
at its offset, or 0; a store changes that register alone, msftrst only by 0x80000A5F; a tick adds 1 to mtime unless
TIMESTOP is set, and changes nothing but the TIMER and what it drives. After both, lines 3 and 7 of the ECLIC are as msip
and the comparison say, IP of these two sources follows a line where it is level-triggered and is set by its edge where it
is edge-triggered (`LineDriven`, R577), and the other sources are as they were. With CMPCLREN the comparison that becomes
true gives a pulse on line 7 and clears mtime, for which the moment is the model's choice (log 21), as is what a
level-triggered source 7 makes of the pulse, whose IP is low again after it. Until FENCE.I a fetch may see the word as it
was before the store (20_memory.md R204); that it reaches these registers at all is the model's choice (log 26). -/
def Obligations.TimerRegisters : Prop :=
  ∀ (s : State) (rd rs1 rs2 : Reg) (imm : BitVec 12) (ea : Word) (off : Nat), ea = s.getX rs1 + sext imm →
    region s.cfg ea = .timer → ea.toNat = s.cfg.timerBase.toNat + off → 4 ∣ ea.toNat →
    (pmpCheck s s.priv .load ea = true →
      ∃ t, exec (.lw rd rs1 imm) s = .next t ∧ DoneX s t rd (BitVec.ofNat 32 (timerWord s.timer off)) (s.pc + 4)) ∧
    (pmpCheck s s.priv .store ea = true → ∃ t u, exec (.sw rs2 rs1 imm) s = .next t ∧
      TimerStored s.timer u off (s.getX rs2) ∧
      t.timer = timerCleared s.timer u ∧ t.TimerLines ∧ SameX s t ∧ SameF s t ∧ DeviceShadowed s t ea ∧ t.pc = s.pc + 4 ∧
      t.csr = s.csr.counted ∧ t.resv = s.resv ∧ SameRest { s with eclic := t.eclic, timer := t.timer } t ∧
      TimerDriven s.timer u s.eclic t.eclic) ∧
    (s.timer.timestop = true → s.input .tick = s) ∧
    (s.timer.timestop = false → ∃ t u, s.input .tick = t ∧ u = { s.timer with mtime := s.timer.mtime + 1 } ∧
      t = { s with timer := timerCleared s.timer u, eclic := t.eclic } ∧ t.TimerLines ∧
      TimerDriven s.timer u s.eclic t.eclic)

/-- Physical memory protection (20_memory.md R180 to R182, R185): which addresses an entry covers, the lowest-numbered
covering entry decides, and what it then allows in each mode, MPRV and the lock included. -/
def Obligations.PmpProtection : Prop :=
  (∀ (e : PmpEntry) (a : Word),
    (e.mode = .off → e.covers a = false) ∧
    (e.mode = .na4 → (e.covers a = true ↔ a.toNat / 4 = e.addr.toNat)) ∧
    (e.mode = .napot → ∀ k, (∀ j < k, e.addr.getLsbD j = true) → e.addr.getLsbD k = false →
      (e.covers a = true ↔ a.toNat / 2 ^ (k + 3) = 4 * e.addr.toNat / 2 ^ (k + 3)))) ∧
  ∀ (s : State) (p : Priv) (k : AccessKind) (a : Word),
    (s.cfg.hasPmp = false → pmpCheck s p k a = true) ∧
    (s.cfg.hasPmp = true → (∀ e ∈ s.csr.pmp, e.covers a = false) → (pmpCheck s p k a = true ↔ p = .machine)) ∧
    (s.cfg.hasPmp = true → ∀ before e after allowed, s.csr.pmp = before ++ e :: after →
      (∀ b ∈ before, b.covers a = false) → e.covers a = true →
      allowed = (match k with | .fetch => e.x | .load => e.r | .store => e.w | .amo => e.r && e.w) →
      (p = .user ∨ e.lock = true ∨ (s.csr.mstatus.mprv = true ∧ s.csr.mstatus.mpp = .user ∧ k ≠ .fetch) →
        pmpCheck s p k a = allowed) ∧
      (p = .machine → e.lock = false → ¬ (s.csr.mstatus.mprv = true ∧ s.csr.mstatus.mpp = .user ∧ k ≠ .fetch) →
        pmpCheck s p k a = true))

/-- The environment (00_scope.md R16, R17; 60_exceptions.md R540, R577, R581, R596, R598; 43_rv32a.md R381;
70_reset_and_hazards.md R621 to R623). A step first lets the events of the first group happen, in order, after the pulses
of tx_evt and of the ECC outputs have ended, which is the model's choice (log 34), as is the end of the step (logs 31 and
43). An interrupt line takes its level: IP of a level-triggered source follows it, of an edge-triggered one is set by its
edge; lines that are no external ones stay: of R581, which reserves the ids below 19 but for the TIMER's two, the model
concludes that an event naming one, or an id from NUM_INTERRUPT on, changes nothing (log 38). An NMI edge is latched, and
dropped in NMI state. A write of another bus master changes its byte and ends a reservation of that word. A reset leaves
the reset state; memory is kept only if the environment says so. Memory that is not kept is as after power-on, `.empty`,
where R622 gives no contents: that its bytes read 0 is the model's choice (log 4). That the TIMER and ECLIC are out of a
bus master's reach (log 6), what a reset keeps beside memory, the lines, rx_evt and the queue (log 24), and the zeros of
`State.resetWith` in the registers whose reset value R622 does not give (log 1) are the model's choices. -/
def Obligations.EnvironmentEvents : Prop :=
  ∀ s : State,
    (∀ g rest, s.inputs = g :: rest →
      step s = thenSettle (actStep (g.foldl State.input { s.afterPulses with inputs := rest }))) ∧
    (∀ id level, id < 19 ∨ s.cfg.numInterrupt ≤ id → s.input (.irq id level) = s) ∧
    (∀ id level src, 19 ≤ id → id < s.cfg.numInterrupt → s.eclic.srcs[id]? = some src →
      ∃ src', LineDriven src src' level ∧
        s.input (.irq id level) = { s with eclic := { s.eclic with srcs := s.eclic.srcs.set id src' } }) ∧
    (s.csr.msubm.typ = 3#2 → s.input .nmiEdge = s) ∧
    (s.csr.msubm.typ ≠ 3#2 → s.input .nmiEdge = { s with nmiPending := true }) ∧
    (∀ level, s.input (.rxEvt level) = { s with rxEvt := level }) ∧
    (∀ a b, s.mem.wf = true → region s.cfg a ≠ .timer → region s.cfg a ≠ .eclic →
      ∃ t, s.input (.busWrite a b) = t ∧ (∀ c, t.mem.read c = if c = a then b else s.mem.read c) ∧
        t = { s with mem := t.mem, stale := t.stale,
                     resv := if s.resv = some (a &&& 0xFFFFFFFC#32) then none else s.resv }) ∧
    (∀ a b, region s.cfg a = .timer ∨ region s.cfg a = .eclic → s.input (.busWrite a b) = s) ∧
    (∀ keep, ∃ t, s.input (.reset keep) = t ∧
      t = { State.resetWith s.cfg with mem := t.mem, eclic := t.eclic, rxEvt := s.rxEvt, inputs := s.inputs,
                                       free := s.free } ∧
      (keep = false → t.mem = .empty) ∧ (keep = true → s.cfg.hasIlm = false ∨ s.csr.scpdIsIlm = true → t.mem = s.mem) ∧
      t.eclic.nlbits = 0 ∧ t.eclic.srcs.length = s.eclic.srcs.length ∧
      ∀ (id : Nat) (src : EclicSrc), t.eclic.srcs[id]? = some src →
        src.ie = false ∧ src.trig = 0 ∧ src.shv = false ∧ (id = 3 ∨ id = 7 → src.pending = false)) ∧
    s.softResetRequest = s.timer.msftrst ∧ s.txEvtOut = s.txEvt

/-! ### The whole machine -/

/-- The reset values the spec gives (10_state.md R80, 70_reset_and_hazards.md R621, R622), in every configuration: the values
it leaves open are not stated here. The constants of the implementation, misa, the four identity CSRs and the five
`cfg_info` CSRs, read as in every state of the same configuration. -/
def Obligations.ResetValues : Prop :=
  ∀ cfg : Config, ∀ s, s = State.resetWith cfg →
    s.pc = cfg.resetVector ∧ s.priv = .machine ∧ (∀ r, r = 0#5 → s.getX r = 0) ∧
    csrRead s .mstatus = (if cfg.hasUmode then 0 else 0x00001800) ∧ s.csr.msubm.typ = 0 ∧
    csrRead s .mintstatus = 0 ∧ csrRead s .mcounteren = 0 ∧ (∀ k, csrRead s (.pmpcfg k) = 0) ∧
    s.csr.milm.eccEn = false ∧ s.csr.mdlm.eccEn = false ∧ s.csr.icScpdMod = true ∧ s.csr.icache.en = false ∧
    s.csr.icache.eccEn = false ∧ s.csr.dcache.en = false ∧ s.csr.dcache.eccEn = false ∧
    s.csr.mmisc.nmiCauseFff = false ∧ s.csr.mmisc.misalign = cfg.hasMisaligned ∧ s.csr.mmisc.bpu = cfg.hasBpu ∧
    s.csr.mtvt2.en = false ∧ csrRead s .sleepvalue = 0 ∧ csrRead s .wfe = 0 ∧ s.txEvt = false ∧
    csrRead s .meccCode = 0 ∧ csrRead s .meccLock = 0 ∧ csrRead s .mnvec = cfg.resetVector ∧
    csrRead s .mie = 0 ∧ csrRead s .mip = 0 ∧ csrRead s .txevt = 0 ∧
    (csrRead s .mcause).extractLsb' 27 3 = (if cfg.hasUmode then 0 else 6) ∧
    (csrRead s .milmCtl).extractLsb' 0 2 = 1 ∧ (csrRead s .milmCtl).extractLsb' 10 22 = cfg.ilmBpa ∧
    (csrRead s .mdlmCtl).extractLsb' 0 2 = 1 ∧ (csrRead s .mdlmCtl).extractLsb' 10 22 = cfg.dlmBpa ∧
    (∀ t : State, t.cfg = cfg → ∀ c ∈ [Csr.misa, .mvendorid, .marchid, .mimpid, .mhartid, .mcfgInfo, .micfgInfo,
      .mdcfgInfo, .mppicfgInfo, .mfiocfgInfo], csrRead s c = csrRead t c) ∧
    s.timer.mtime = 0 ∧ s.timer.mtimecmp = 0xFFFFFFFFFFFFFFFF#64 ∧
    (∀ off, off ≠ 8 → off ≠ 12 → s.timer.readWord off = 0) ∧
    s.eclic.readByte cfg 0 = 0x01 ∧
    (∀ k, k < 4 → s.eclic.readByte cfg (4 + k) = BitVec.ofNat 8 (clicinfoNat cfg / 2 ^ (8 * k))) ∧
    (∀ i, i < cfg.numInterrupt → i < 4096 →
      s.eclic.readByte cfg (0x1000 + 4 * i) = 0 ∧ s.eclic.readByte cfg (0x1001 + 4 * i) = 0 ∧
      s.eclic.readByte cfg (0x1002 + 4 * i) = 0xC0 ∧
      ∀ j, j + cfg.clicIntCtlBits < 8 → (s.eclic.readByte cfg (0x1003 + 4 * i)).getLsbD j = true) ∧
    s.asleep = false ∧ s.resv = none ∧ s.pendingFault = none ∧ s.nmiPending = false

/-- The invariant holds right after reset, in every configuration with an even reset vector. -/
def Obligations.ResetMeetsInvariant : Prop :=
  State.reset.Inv ∧ ∀ cfg : Config, cfg.resetVector.getLsbD 0 = false → (State.resetWith cfg).Inv

/-- HEADLINE. Every step keeps the invariant, from every state that meets it: memory stays canonical, the pc and the
saved pcs even (10_state.md R23, R55; 11_state_nuclei_csr.md R109), the modes legal (10_state.md R24, R43), the tables of
their sizes, FS off without floating-point registers (R40), the reservation aligned, no fault waiting with precise
faults (60_exceptions.md R526) but that of a copy-back (R607), mtvt aligned (R53), and the TIMER's two lines what R591 says. -/
def Obligations.StepKeepsInvariant : Prop := ∀ s t : State, s.Inv → step s = .next t → t.Inv

/-- HEADLINE. Decoding undoes encoding: every well-formed instruction is read back from its own words, with every operand
(30_encoding.md R225 to R250, 42_rv32c.md R366). -/
def Obligations.DecodeEncode : Prop := ∀ i : Instr, i.wellFormed = true → decode (encode i) = some i

/-- Only encodings decode (30_encoding.md R227, R230, R232, R233, R250): a code that decodes is the encoding of the
well-formed instruction it decodes to, so no two instructions share one and no bit is ignored. The encodings the spec calls
reserved or illegal decode to nothing: those of 16 bits of R250, every major opcode not in R227, the shifts with bit 25
set, LR.W with a second register, and of SYSTEM with funct3 0 all but its four words. -/
def Obligations.OnlyEncodingsDecode : Prop :=
  (∀ c i, decode c = some i → i.wellFormed = true ∧ encode i = c) ∧
  (∀ c, c.extractLsb' 0 2 = 3#2 ∨ Illegal16 c → decode (.half c) = none) ∧
  (∀ w, w.extractLsb' 0 7 ∉ majorOpcodes ∨ Illegal32 w → decode (.word w) = none)

/-- Words written from the encoding tables decode to the instructions they stand for: CSRRW, CSRRS, CSRRC, CSRRWI, the
CSRRW of jalmnxti, MRET, WFI, EBREAK and ECALL (46_system.md R483 to R486, R495, R490, R494, R489, R492), LUI, JAL, BEQ, LW,
SW and ADDI (40_rv32i.md R263, R265, R267, R275, R280, R281), C.ADDI, C.LWSP, C.MV and C.EBREAK (42_rv32c.md R339, R356, R359,
R360); the word of SRET decodes to nothing (46_system.md R500). -/
def Obligations.DecodeSamples : Prop :=
  decode (.word 0x30529073#32) = some (.csrrw 0 0x305 5) ∧ decode (.word 0x300022F3#32) = some (.csrrs 5 0x300 0) ∧
  decode (.word 0x3002B073#32) = some (.csrrc 0 0x300 5) ∧ decode (.word 0x30045073#32) = some (.csrrwi 0 0x300 8) ∧
  decode (.word 0x7ED090F3#32) = some (.csrrw 1 0x7ED 1) ∧ decode (.word 0x30200073#32) = some .mret ∧
  decode (.word 0x10500073#32) = some .wfi ∧ decode (.word 0x00100073#32) = some .ebreak ∧
  decode (.word 0x00000073#32) = some .ecall ∧ decode (.word 0x10200073#32) = none ∧
  decode (.word 0x123452B7#32) = some (.lui 5 0x12345) ∧ decode (.word 0x010000EF#32) = some (.jal 1 8) ∧
  decode (.word 0x00208463#32) = some (.beq 1 2 4) ∧ decode (.word 0x00812303#32) = some (.lw 6 2 8) ∧
  decode (.word 0x00612623#32) = some (.sw 6 2 12) ∧ decode (.word 0x00500093#32) = some (.addi 1 0 5) ∧
  decode (.half 0x0085#16) = some (.cAddi 1 1) ∧ decode (.half 0x4082#16) = some (.cLwsp 1 0) ∧
  decode (.half 0x808A#16) = some (.cMv 1 2) ∧ decode (.half 0x9002#16) = some .cEbreak

/-- A step runs the decoded instruction (00_scope.md R14, 30_encoding.md R220 to R222, R230). Nothing comes from outside, no
trap is due, the hart is awake, the words at the pc may be fetched and hold the bytes of a well-formed instruction `i`,
and no older word is left for the fetch to see. Then the step is the execution of `i`. The words may be in any region:
memory, the registers of the TIMER or ECLIC, and the PPI and FIO with their free bytes, which is the model's choice for
all but the ILM and the system bus (log 26). The end of the step, `thenSettle`, keeps the outcome, and mcycle grows by an
open amount unless it is inhibited (10_state.md R61). Three more clauses are the model's choice: the pulses of tx_evt and of the ECC outputs end first (log 34), the ECC errors of the step
are over at its end (log 31), and the counter of the free values advances (log 43). -/
def Obligations.StepRunsInstruction : Prop :=
  ∀ (s : State) (i : Instr) (a : Word), Quiet s → s.asleep = false → NoTrapDue s → s.stale = [] →
    s.pc.getLsbD 0 = false → i.wellFormed = true → a = s.pc &&& 0xFFFFFFFC#32 →
    plainFetch s s.priv a = true →
    (∀ h, encode i = .half h → s.cfg.hasC = true → codeHalf s s.pc = h →
      step s = thenSettle (exec i s.afterPulses)) ∧
    (∀ w, encode i = .word w → (s.pc.getLsbD 1 = true → s.cfg.hasC = true ∧ plainFetch s s.priv (a + 4) = true) →
      codeWord s s.pc = w → step s = thenSettle (exec i s.afterPulses)) ∧
    (∀ u, ∃ t, thenSettle (.next u) = .next t ∧
      t = { u with mcycle := t.mcycle, eccHits := [], free := u.free + 1 } ∧
      (u.csr.mcountinhibit.cy = true → t.mcycle = u.mcycle)) ∧
    (∀ f, thenSettle (.fault f) = .fault f) ∧ (∀ r, thenSettle (.refused r) = .refused r)

/-- HEADLINE. How the mode changes (60_exceptions.md R520): without a reset in this step, Machine Mode is left only by an
MRET that was fetched and executed there with MPP = User; User Mode is left only by taking a trap, which leaves MIE clear, a
sub-mode other than 0, and the pc at a trap entry: mtvec, the reset vector for an NMI, mtvt2 or the word of the vector
table for an interrupt, which may lie in any region by the model's choice (log 26). `arrive s` is the state after the environment's events. -/
def Obligations.ModeChanges : Prop :=
  ∀ s t : State, step s = .next t → (∀ g rest, s.inputs = g :: rest → ∀ k, Input.reset k ∉ g) →
    (s.priv = .machine → t.priv = .user →
      ∃ s', fetch (arrive s) = .ok (encode .mret) s' ∧ s'.csr.mstatus.mpp = .user ∧ t.pc = s'.csr.mepc) ∧
    (s.priv = .user → t.priv = .machine →
      t.csr.mstatus.mie = false ∧ t.csr.msubm.typ ≠ 0 ∧ t.resv = none ∧ t.csr.mtvec = s.csr.mtvec ∧
        TrapEntryPc (arrive s) t.pc)

/-- HEADLINE. What User Mode cannot change (10_state.md R33, R34, 60_exceptions.md R520): a step that begins and ends in User
Mode, without a reset, leaves the trap registers, mode bits, PMP entries, ECLIC tables' bases and every other control
register as they were. What may change: the floating-point CSR and FS, wfe, sleepvalue, ucode, minstret, and the flags
SRAMID and RAMID of ECC errors. mcycle lies outside the record of the CSRs: it grows by an open amount, unless it is
inhibited. -/
def Obligations.UserModeIsolation : Prop :=
  ∀ s t : State, step s = .next t → (∀ g rest, s.inputs = g :: rest → ∀ k, Input.reset k ∉ g) →
    s.priv = .user → t.priv = .user →
    t.csr = { s.csr with
      fcsr := t.csr.fcsr
      mstatus := { s.csr.mstatus with fs := t.csr.mstatus.fs }
      wfe := t.csr.wfe
      sleepvalue := t.csr.sleepvalue
      ucodeOv := t.csr.ucodeOv
      minstret := t.csr.minstret
      mecc := { t.csr.mecc with code := s.csr.mecc.code } } ∧
    (s.csr.mcountinhibit.cy = true → t.mcycle = s.mcycle)

/-- HEADLINE. What only a reset undoes (70_reset_and_hazards.md R623, 10_state.md R74, 11_state_nuclei_csr.md R131,
60_exceptions.md R596): through any step without a reset a locked PMP entry stays exactly as it is, mecc_lock stays
closed and the ECC registers stay as they are, the software-reset request stays set. The configuration never changes, reset or not. -/
def Obligations.OnlyResetUndoes : Prop :=
  ∀ s t : State, step s = .next t →
    t.cfg = s.cfg ∧
    ((∀ g rest, s.inputs = g :: rest → ∀ k, Input.reset k ∉ g) →
      (∀ (n : Nat) (e : PmpEntry), s.csr.pmp[n]? = some e → e.lock = true → t.csr.pmp[n]? = some e) ∧
      (s.csr.meccLock = true → EccFrozen s.csr t.csr) ∧
      (s.timer.msftrst = true → t.timer.msftrst = true))

end Statements
end

