-- ==== Sys2Proof/Laws/Memory.lean ====
section
/-! SUPPORT. The laws of memory (20_memory.md R160, R165): a read after a write, a write elsewhere, runs of bytes, and the
canonical form, which every memory operation keeps. -/

namespace Sys2Proof.Machine

/-! ### The list of cells -/

theorem lookupCell_insertCell (l : List Host.Cell) (a k : Nat) (b : Byte) :
    lookupCell (insertCell a b l) k = if k = a then some b else lookupCell l k := by
  induction l with
  | nil => simp [insertCell, lookupCell]
  | cons c rest ih =>
    obtain ⟨n, d⟩ := c
    unfold insertCell
    split
    · simp [lookupCell]
    · split
      · next h1 h2 => subst h2; by_cases hk : k = a <;> simp [lookupCell, hk]
      · next h1 h2 =>
        by_cases hk : k = n
        · subst hk; simp [lookupCell, Ne.symm h2]
        · simp [lookupCell, hk, ih]

theorem risingFrom_mono {l : List Host.Cell} {lo lo' : Nat} (h : risingFrom lo l = true) (hl : lo' ≤ lo) :
    risingFrom lo' l = true := by
  cases l with
  | nil => rfl
  | cons c rest =>
    simp only [risingFrom, Bool.and_eq_true, decide_eq_true_eq] at h ⊢
    exact ⟨by omega, h.2⟩

theorem lookupCell_of_lt {l : List Host.Cell} {lo a : Nat} (h : risingFrom lo l = true) (ha : a < lo) :
    lookupCell l a = none := by
  induction l generalizing lo with
  | nil => rfl
  | cons c rest ih =>
    simp only [risingFrom, Bool.and_eq_true, decide_eq_true_eq] at h
    simp only [lookupCell]
    rw [if_neg (by omega)]
    exact ih h.2 (by omega)

theorem lookupCell_removeCell {l : List Host.Cell} {lo : Nat} (h : risingFrom lo l = true) (a k : Nat) :
    lookupCell (removeCell a l) k = if k = a then none else lookupCell l k := by
  induction l generalizing lo with
  | nil => simp [removeCell, lookupCell]
  | cons c rest ih =>
    obtain ⟨n, d⟩ := c
    simp only [risingFrom, Bool.and_eq_true, decide_eq_true_eq] at h
    by_cases hn : a = n
    · subst hn
      by_cases hk : k = a
      · subst hk; simp [removeCell, lookupCell_of_lt h.2 (Nat.lt_succ_self k)]
      · simp [removeCell, lookupCell, hk]
    · by_cases hk : k = n
      · subst hk; simp [removeCell, lookupCell, hn, Ne.symm hn]
      · simp [removeCell, lookupCell, hn, hk, ih h.2]

theorem risingFrom_insertCell {l : List Host.Cell} {lo : Nat} (h : risingFrom lo l = true) (a : Nat) (b : Byte)
    (ha : lo ≤ a) : risingFrom lo (insertCell a b l) = true := by
  induction l generalizing lo with
  | nil => simp [insertCell, risingFrom, ha]
  | cons c rest ih =>
    obtain ⟨n, d⟩ := c
    simp only [risingFrom, Bool.and_eq_true, decide_eq_true_eq] at h
    unfold insertCell
    split
    · next h1 => simp [risingFrom, ha, h.2]; omega
    · split
      · next h1 h2 => subst h2; simp [risingFrom, h.1, h.2]
      · next h1 h2 => simp [risingFrom, h.1, ih h.2 (by omega)]

theorem risingFrom_removeCell {l : List Host.Cell} {lo : Nat} (h : risingFrom lo l = true) (a : Nat) :
    risingFrom lo (removeCell a l) = true := by
  induction l generalizing lo with
  | nil => rfl
  | cons c rest ih =>
    obtain ⟨n, d⟩ := c
    simp only [risingFrom, Bool.and_eq_true, decide_eq_true_eq] at h
    unfold removeCell
    split
    · exact risingFrom_mono h.2 (by omega)
    · simp [risingFrom, h.1, ih h.2]

theorem mem_insertCell {l : List Host.Cell} {a : Nat} {b : Byte} {c : Host.Cell} (h : c ∈ insertCell a b l) :
    c = (a, b) ∨ c ∈ l := by
  induction l with
  | nil => simpa [insertCell] using h
  | cons d rest ih =>
    obtain ⟨n, e⟩ := d
    unfold insertCell at h
    split at h
    · simpa using h
    · split at h
      · rcases List.mem_cons.1 h with h | h
        · exact .inl h
        · exact .inr (List.mem_cons_of_mem _ h)
      · rcases List.mem_cons.1 h with h | h
        · exact .inr (h ▸ List.mem_cons_self)
        · rcases ih h with h | h
          · exact .inl h
          · exact .inr (List.mem_cons_of_mem _ h)

theorem mem_removeCell {l : List Host.Cell} {a : Nat} {c : Host.Cell} (h : c ∈ removeCell a l) : c ∈ l := by
  induction l with
  | nil => simp [removeCell] at h
  | cons d rest ih =>
    obtain ⟨n, e⟩ := d
    unfold removeCell at h
    split at h
    · exact List.mem_cons_of_mem _ h
    · rcases List.mem_cons.1 h with h | h
      · exact h ▸ List.mem_cons_self
      · exact List.mem_cons_of_mem _ (ih h)

theorem risingFrom_filter {l : List Host.Cell} {lo : Nat} (h : risingFrom lo l = true) (p : Host.Cell → Bool) :
    risingFrom lo (l.filter p) = true := by
  induction l generalizing lo with
  | nil => rfl
  | cons c rest ih =>
    simp only [risingFrom, Bool.and_eq_true, decide_eq_true_eq] at h
    rw [List.filter_cons]
    split
    · simp [risingFrom, h.1, ih h.2]
    · exact risingFrom_mono (ih h.2) (by omega)

/-! ### The canonical form -/

theorem Memory.wf_iff (m : Memory) : m.wf = true ↔
    risingFrom 0 m.cells = true ∧ ∀ c ∈ m.cells, c.1 < 4294967296 ∧ c.2 ≠ m.unlisted c.1 := by
  simp [Memory.wf, List.all_eq_true, bne_iff_ne]

@[simp] theorem Memory.unlisted_write (m : Memory) (a : Word) (b : Byte) (k : Nat) :
    (m.write a b).unlisted k = m.unlisted k := rfl

/-- A write keeps the canonical form. -/
theorem Memory.wf_write {m : Memory} (h : m.wf = true) (a : Word) (b : Byte) : (m.write a b).wf = true := by
  rw [Memory.wf_iff] at h ⊢
  unfold Memory.write
  by_cases hb : b = m.unlisted a.toNat
  · simp only [if_pos hb]
    exact ⟨risingFrom_removeCell h.1 _, fun c hc => h.2 c (mem_removeCell hc)⟩
  · simp only [if_neg hb]
    refine ⟨risingFrom_insertCell h.1 _ _ (Nat.zero_le _), fun c hc => ?_⟩
    rcases mem_insertCell hc with rfl | hc
    · exact ⟨a.isLt, hb⟩
    · exact h.2 c hc

theorem Memory.wf_writeBytes {m : Memory} (h : m.wf = true) (a : Word) (bytes : List Byte) :
    (m.writeBytes a bytes).wf = true := by
  induction bytes generalizing m a with
  | nil => exact h
  | cons b rest ih => exact ih (Memory.wf_write h a b) (a + 1)

theorem Memory.wf_redraw {m : Memory} (h : m.wf = true) (d : IlmDraw) : (m.redraw d).wf = true := by
  rw [Memory.wf_iff] at h ⊢
  refine ⟨risingFrom_filter h.1 _, fun c hc => ?_⟩
  rw [Memory.redraw, List.mem_filter] at hc
  refine ⟨(h.2 c hc.1).1, ?_⟩
  simp only [Bool.and_eq_true, Bool.not_eq_true', Bool.and_eq_false_iff, decide_eq_false_iff_not, bne_iff_ne] at hc
  simp only [Memory.unlisted, Memory.redraw]
  rw [if_neg (by rcases hc.2.1 with h | h <;> omega)]
  exact hc.2.2

@[simp] theorem Memory.wf_empty : Memory.empty.wf = true := by decide

theorem reset_memory_wf : State.reset.mem.wf = true := by decide

/-! ### One byte -/

/-- A read of the byte just written gives it; a read of any other byte gives what it gave. The canonical form is
needed, since taking a byte off the list must take all of it. -/
theorem Memory.read_write {m : Memory} (h : m.wf = true) (a c : Word) (b : Byte) :
    (m.write a b).read c = if c = a then b else m.read c := by
  rw [Memory.wf_iff] at h
  have hac : (c.toNat = a.toNat) ↔ c = a := BitVec.toNat_inj
  unfold Memory.read
  rw [Memory.unlisted_write]
  unfold Memory.write
  by_cases hb : b = m.unlisted a.toNat
  · simp only [if_pos hb, lookupCell_removeCell h.1, hac]
    by_cases hc : c = a
    · subst hc; simp [hb]
    · simp [hc]
  · simp only [if_neg hb, lookupCell_insertCell, hac]
    by_cases hc : c = a <;> simp [hc]

/-! ### Runs of bytes -/

theorem Memory.read_writeBytes {m : Memory} (h : m.wf = true) (a c : Word) (bytes : List Byte)
    (hl : bytes.length ≤ 4294967296) :
    (m.writeBytes a bytes).read c =
      if hk : (c - a).toNat < bytes.length then bytes[(c - a).toNat] else m.read c := by
  induction bytes generalizing m a with
  | nil => simp [Memory.writeBytes]
  | cons b rest ih =>
    simp only [List.length_cons] at hl
    rw [Memory.writeBytes, ih (Memory.wf_write h a b) (a + 1) (by omega), Memory.read_write h]
    by_cases hca : c = a
    · subst hca
      have h1 : (c - (c + 1)).toNat = 4294967295 := by
        bv_omega
      rw [dif_neg (by rw [h1]; omega)]
      simp
    · have h2 : (c - a).toNat = (c - (a + 1)).toNat + 1 := by
        have : c - a ≠ 0 := fun h0 => hca (by simpa using BitVec.sub_eq_iff_eq_add.1 h0)
        have h3 : c - (a + 1) = (c - a) - 1 := by ring_nf
        rw [h3]
        have : (c - a).toNat ≠ 0 := fun h0 => this (BitVec.eq_of_toNat_eq (by simpa using h0))
        bv_omega
      by_cases hk : (c - (a + 1)).toNat < rest.length
      · rw [dif_pos hk, dif_pos (by simp only [List.length_cons]; omega)]
        simp [h2]
      · rw [dif_neg hk, dif_neg (by simp only [List.length_cons]; omega), if_neg hca]

theorem Memory.readBytes_congr {m m' : Memory} (h : ∀ a, m'.read a = m.read a) (a : Word) (n : Nat) :
    m'.readBytes a n = m.readBytes a n := by
  induction n generalizing a with
  | zero => rfl
  | succ n ih => rw [Memory.readBytes, Memory.readBytes, h, ih]

theorem Memory.read32_congr {m m' : Memory} (h : ∀ a, m'.read a = m.read a) (a : Word) : m'.read32 a = m.read32 a := by
  simp [Memory.read32, h]

@[simp] theorem Memory.length_readBytes (m : Memory) (a : Word) (n : Nat) : (m.readBytes a n).length = n := by
  induction n generalizing a with
  | zero => rfl
  | succ n ih => simp [Memory.readBytes, ih]

@[simp] theorem length_splitBytes (n : Nat) (v : DWord) : (splitBytes n v).length = n := by
  induction n generalizing v with
  | zero => rfl
  | succ n ih => simp [splitBytes, ih]

theorem getElem_splitBytes (n : Nat) (v : DWord) (k : Nat) (hk : k < (splitBytes n v).length) :
    (splitBytes n v)[k] = byteAt v k := by
  induction n generalizing v k with
  | zero => simp [splitBytes] at hk
  | succ n ih =>
    cases k with
    | zero => simp [splitBytes, byteAt]; ext i hi; simp
    | succ k =>
      simp only [splitBytes, List.getElem_cons_succ]
      rw [ih]
      unfold byteAt
      ext i hi
      simp
      congr 1
      omega

/-- What a stored value leaves in memory (20_memory.md R165). -/
theorem Memory.read_writeBytes_splitBytes {m : Memory} (h : m.wf = true) (a c : Word) (n : Nat) (v : DWord)
    (hn : n ≤ 8) :
    (m.writeBytes a (splitBytes n v)).read c =
      if (c - a).toNat < n then byteAt v (c - a).toNat else m.read c := by
  rw [Memory.read_writeBytes h _ _ _ (by rw [length_splitBytes]; omega)]
  by_cases hk : (c - a).toNat < n
  · rw [dif_pos (by rw [length_splitBytes]; exact hk), getElem_splitBytes, if_pos hk]
  · rw [dif_neg (by rw [length_splitBytes]; exact hk), if_neg hk]

theorem joinBytes_cons_toNat (b : Byte) (l : List Byte) (h : (joinBytes l).toNat < 2 ^ 56) :
    (joinBytes (b :: l)).toNat = 256 * (joinBytes l).toNat + b.toNat := by
  have hb : b.toNat < 2 ^ 8 := b.isLt
  rw [joinBytes, BitVec.toNat_or, BitVec.toNat_shiftLeft, BitVec.toNat_setWidth, Nat.mod_eq_of_lt (a := b.toNat)
    (by omega), Nat.mod_eq_of_lt (by rw [Nat.shiftLeft_eq]; omega), ← Nat.shiftLeft_add_eq_or_of_lt hb,
    Nat.shiftLeft_eq]
  omega

theorem append_toNat {n k : Nat} (x : BitVec n) (y : BitVec k) : (x ++ y).toNat = x.toNat * 2 ^ k + y.toNat := by
  rw [BitVec.toNat_append, ← Nat.shiftLeft_add_eq_or_of_lt y.isLt, Nat.shiftLeft_eq]

@[simp] theorem joinBytes_one (m : Memory) (a : Word) : joinBytes (m.readBytes a 1) = (m.read a).zeroExtend 64 := by
  simp [Memory.readBytes, joinBytes]

@[simp] theorem joinBytes_two (m : Memory) (a : Word) : joinBytes (m.readBytes a 2) = (memHalf m a).zeroExtend 64 := by
  apply BitVec.eq_of_toNat_eq
  have h1 := (m.read a).isLt
  have h2 := (m.read (a + 1)).isLt
  have e1 : (joinBytes (m.readBytes (a + 1) 1)).toNat = (m.read (a + 1)).toNat := by
    simp only [joinBytes_one, BitVec.truncate_eq_setWidth, BitVec.toNat_setWidth]; omega
  rw [Memory.readBytes, joinBytes_cons_toNat _ _ (by rw [e1]; omega), e1]
  simp only [memHalf, BitVec.truncate_eq_setWidth, BitVec.toNat_setWidth, append_toNat]
  omega

@[simp] theorem joinBytes_four (m : Memory) (a : Word) : joinBytes (m.readBytes a 4) = (memWord m a).zeroExtend 64 := by
  apply BitVec.eq_of_toNat_eq
  have h0 := (m.read a).isLt
  have h1 := (m.read (a + 1)).isLt
  have h2 := (m.read (a + 2)).isLt
  have h3 := (m.read (a + 3)).isLt
  have e1 : (joinBytes (m.readBytes (a + 2) 2)).toNat = (m.read (a + 3)).toNat * 256 + (m.read (a + 2)).toNat := by
    simp only [joinBytes_two, BitVec.truncate_eq_setWidth, BitVec.toNat_setWidth, memHalf, append_toNat]
    rw [show a + 2 + 1 = a + 3 by bv_omega]
    omega
  have e2 : (joinBytes (m.readBytes (a + 1) 3)).toNat =
      256 * ((m.read (a + 3)).toNat * 256 + (m.read (a + 2)).toNat) + (m.read (a + 1)).toNat := by
    rw [Memory.readBytes, show a + 1 + 1 = a + 2 by bv_omega, joinBytes_cons_toNat _ _ (by rw [e1]; omega), e1]
  rw [Memory.readBytes, joinBytes_cons_toNat _ _ (by rw [e2]; omega), e2]
  simp only [memWord, BitVec.truncate_eq_setWidth, BitVec.toNat_setWidth, append_toNat]
  omega

theorem joinBytes_append (l k : List Byte) (h : (joinBytes l).toNat < 2 ^ (8 * l.length))
    (hk : (joinBytes k).toNat < 2 ^ (8 * k.length)) (hl : l.length + k.length ≤ 8) :
    (joinBytes (l ++ k)).toNat = (joinBytes l).toNat + 2 ^ (8 * l.length) * (joinBytes k).toNat ∧
      (joinBytes (l ++ k)).toNat < 2 ^ (8 * (l.length + k.length)) := by
  have key : (joinBytes (l ++ k)).toNat = (joinBytes l).toNat + 2 ^ (8 * l.length) * (joinBytes k).toNat ∧
      (joinBytes l).toNat < 2 ^ (8 * l.length) := by
    clear h
    induction l with
    | nil => simp [joinBytes]
    | cons b l ih =>
      simp only [List.length_cons] at hl
      obtain ⟨h1, h2⟩ := ih (by omega)
      have hb : b.toNat < 2 ^ 8 := b.isLt
      have hp : 2 ^ (8 * l.length) * 2 ^ (8 * k.length) ≤ 2 ^ 56 := by
        rw [← pow_add]; exact Nat.pow_le_pow_right (by decide) (by omega)
      have hpos : 0 < 2 ^ (8 * k.length) := Nat.pow_pos (by decide)
      have hlt : (joinBytes (l ++ k)).toNat < 2 ^ 56 := by
        rw [h1]
        calc _ < 2 ^ (8 * l.length) + 2 ^ (8 * l.length) * (joinBytes k).toNat := by omega
          _ = 2 ^ (8 * l.length) * ((joinBytes k).toNat + 1) := by ring
          _ ≤ 2 ^ (8 * l.length) * 2 ^ (8 * k.length) := Nat.mul_le_mul_left _ (by omega)
          _ ≤ _ := hp
      have hlt' : (joinBytes l).toNat < 2 ^ 56 := by rw [h1] at hlt; omega
      have e : 2 ^ (8 * (l.length + 1)) = 256 * 2 ^ (8 * l.length) := by rw [Nat.mul_add, pow_add]; ring
      rw [List.cons_append, joinBytes_cons_toNat _ _ hlt, joinBytes_cons_toNat _ _ hlt', h1, List.length_cons, e]
      refine ⟨by ring, by omega⟩
  refine ⟨key.1, ?_⟩
  rw [key.1, Nat.mul_add, pow_add]
  calc _ < 2 ^ (8 * l.length) + 2 ^ (8 * l.length) * (joinBytes k).toNat := by omega
    _ = 2 ^ (8 * l.length) * ((joinBytes k).toNat + 1) := by ring
    _ ≤ _ := Nat.mul_le_mul_left _ (by omega)

@[simp] theorem joinBytes_eight (m : Memory) (a : Word) : joinBytes (m.readBytes a 8) = memDouble m a := by
  have e : m.readBytes a 8 = m.readBytes a 4 ++ m.readBytes (a + 4) 4 := by
    simp only [Memory.readBytes, List.cons_append, List.nil_append, BitVec.add_assoc]
    rfl
  have b4 : ∀ a, (joinBytes (m.readBytes a 4)).toNat = (memWord m a).toNat := by
    intro a
    have := (memWord m a).isLt
    simp only [joinBytes_four, BitVec.truncate_eq_setWidth, BitVec.toNat_setWidth]
    omega
  apply BitVec.eq_of_toNat_eq
  rw [e, (joinBytes_append _ _ (by rw [b4, Memory.length_readBytes]; exact (memWord m a).isLt)
    (by rw [b4, Memory.length_readBytes]; exact (memWord m (a + 4)).isLt) (by simp)).1, b4, b4,
    Memory.length_readBytes, memDouble, append_toNat]
  omega

end Sys2Proof.Machine
end

