-- ==== Sys2Proof/Laws/State.lean ====
section
/-! SUPPORT. One lemma for each field of State under each setter, and the register laws (10_state.md R20, R26). -/

namespace Sys2Proof.Machine

variable (s : State)

/-! ### withPc -/

@[simp] theorem State.withPc_pc (v : Word) : (s.withPc v).pc = v := rfl
@[simp] theorem State.withPc_x (v : Word) : (s.withPc v).x = s.x := rfl
@[simp] theorem State.withPc_f (v : Word) : (s.withPc v).f = s.f := rfl
@[simp] theorem State.withPc_priv (v : Word) : (s.withPc v).priv = s.priv := rfl
@[simp] theorem State.withPc_csr (v : Word) : (s.withPc v).csr = s.csr := rfl
@[simp] theorem State.withPc_mcycle (v : Word) : (s.withPc v).mcycle = s.mcycle := rfl
@[simp] theorem State.withPc_mem (v : Word) : (s.withPc v).mem = s.mem := rfl
@[simp] theorem State.withPc_stale (v : Word) : (s.withPc v).stale = s.stale := rfl
@[simp] theorem State.withPc_eclic (v : Word) : (s.withPc v).eclic = s.eclic := rfl
@[simp] theorem State.withPc_timer (v : Word) : (s.withPc v).timer = s.timer := rfl
@[simp] theorem State.withPc_resv (v : Word) : (s.withPc v).resv = s.resv := rfl
@[simp] theorem State.withPc_asleep (v : Word) : (s.withPc v).asleep = s.asleep := rfl
@[simp] theorem State.withPc_nmiPending (v : Word) : (s.withPc v).nmiPending = s.nmiPending := rfl
@[simp] theorem State.withPc_pendingFault (v : Word) : (s.withPc v).pendingFault = s.pendingFault := rfl
@[simp] theorem State.withPc_rxEvt (v : Word) : (s.withPc v).rxEvt = s.rxEvt := rfl
@[simp] theorem State.withPc_txEvt (v : Word) : (s.withPc v).txEvt = s.txEvt := rfl
@[simp] theorem State.withPc_eccOut (v : Word) : (s.withPc v).eccOut = s.eccOut := rfl
@[simp] theorem State.withPc_eccHits (v : Word) : (s.withPc v).eccHits = s.eccHits := rfl
@[simp] theorem State.withPc_inputs (v : Word) : (s.withPc v).inputs = s.inputs := rfl
@[simp] theorem State.withPc_free (v : Word) : (s.withPc v).free = s.free := rfl
@[simp] theorem State.withPc_cfg (v : Word) : (s.withPc v).cfg = s.cfg := rfl
@[simp] theorem State.withPc_getX (v : Word) (r : Reg) : (s.withPc v).getX r = s.getX r := rfl
@[simp] theorem State.withPc_getF (v : Word) (r : Reg) : (s.withPc v).getF r = s.getF r := rfl

/-! ### withPriv -/

@[simp] theorem State.withPriv_pc (v : Priv) : (s.withPriv v).pc = s.pc := rfl
@[simp] theorem State.withPriv_x (v : Priv) : (s.withPriv v).x = s.x := rfl
@[simp] theorem State.withPriv_f (v : Priv) : (s.withPriv v).f = s.f := rfl
@[simp] theorem State.withPriv_priv (v : Priv) : (s.withPriv v).priv = v := rfl
@[simp] theorem State.withPriv_csr (v : Priv) : (s.withPriv v).csr = s.csr := rfl
@[simp] theorem State.withPriv_mcycle (v : Priv) : (s.withPriv v).mcycle = s.mcycle := rfl
@[simp] theorem State.withPriv_mem (v : Priv) : (s.withPriv v).mem = s.mem := rfl
@[simp] theorem State.withPriv_stale (v : Priv) : (s.withPriv v).stale = s.stale := rfl
@[simp] theorem State.withPriv_eclic (v : Priv) : (s.withPriv v).eclic = s.eclic := rfl
@[simp] theorem State.withPriv_timer (v : Priv) : (s.withPriv v).timer = s.timer := rfl
@[simp] theorem State.withPriv_resv (v : Priv) : (s.withPriv v).resv = s.resv := rfl
@[simp] theorem State.withPriv_asleep (v : Priv) : (s.withPriv v).asleep = s.asleep := rfl
@[simp] theorem State.withPriv_nmiPending (v : Priv) : (s.withPriv v).nmiPending = s.nmiPending := rfl
@[simp] theorem State.withPriv_pendingFault (v : Priv) : (s.withPriv v).pendingFault = s.pendingFault := rfl
@[simp] theorem State.withPriv_rxEvt (v : Priv) : (s.withPriv v).rxEvt = s.rxEvt := rfl
@[simp] theorem State.withPriv_txEvt (v : Priv) : (s.withPriv v).txEvt = s.txEvt := rfl
@[simp] theorem State.withPriv_eccOut (v : Priv) : (s.withPriv v).eccOut = s.eccOut := rfl
@[simp] theorem State.withPriv_eccHits (v : Priv) : (s.withPriv v).eccHits = s.eccHits := rfl
@[simp] theorem State.withPriv_inputs (v : Priv) : (s.withPriv v).inputs = s.inputs := rfl
@[simp] theorem State.withPriv_free (v : Priv) : (s.withPriv v).free = s.free := rfl
@[simp] theorem State.withPriv_cfg (v : Priv) : (s.withPriv v).cfg = s.cfg := rfl
@[simp] theorem State.withPriv_getX (v : Priv) (r : Reg) : (s.withPriv v).getX r = s.getX r := rfl
@[simp] theorem State.withPriv_getF (v : Priv) (r : Reg) : (s.withPriv v).getF r = s.getF r := rfl

/-! ### withCsr -/

@[simp] theorem State.withCsr_pc (v : Csrs) : (s.withCsr v).pc = s.pc := rfl
@[simp] theorem State.withCsr_x (v : Csrs) : (s.withCsr v).x = s.x := rfl
@[simp] theorem State.withCsr_f (v : Csrs) : (s.withCsr v).f = s.f := rfl
@[simp] theorem State.withCsr_priv (v : Csrs) : (s.withCsr v).priv = s.priv := rfl
@[simp] theorem State.withCsr_csr (v : Csrs) : (s.withCsr v).csr = v := rfl
@[simp] theorem State.withCsr_mcycle (v : Csrs) : (s.withCsr v).mcycle = s.mcycle := rfl
@[simp] theorem State.withCsr_mem (v : Csrs) : (s.withCsr v).mem = s.mem := rfl
@[simp] theorem State.withCsr_stale (v : Csrs) : (s.withCsr v).stale = s.stale := rfl
@[simp] theorem State.withCsr_eclic (v : Csrs) : (s.withCsr v).eclic = s.eclic := rfl
@[simp] theorem State.withCsr_timer (v : Csrs) : (s.withCsr v).timer = s.timer := rfl
@[simp] theorem State.withCsr_resv (v : Csrs) : (s.withCsr v).resv = s.resv := rfl
@[simp] theorem State.withCsr_asleep (v : Csrs) : (s.withCsr v).asleep = s.asleep := rfl
@[simp] theorem State.withCsr_nmiPending (v : Csrs) : (s.withCsr v).nmiPending = s.nmiPending := rfl
@[simp] theorem State.withCsr_pendingFault (v : Csrs) : (s.withCsr v).pendingFault = s.pendingFault := rfl
@[simp] theorem State.withCsr_rxEvt (v : Csrs) : (s.withCsr v).rxEvt = s.rxEvt := rfl
@[simp] theorem State.withCsr_txEvt (v : Csrs) : (s.withCsr v).txEvt = s.txEvt := rfl
@[simp] theorem State.withCsr_eccOut (v : Csrs) : (s.withCsr v).eccOut = s.eccOut := rfl
@[simp] theorem State.withCsr_eccHits (v : Csrs) : (s.withCsr v).eccHits = s.eccHits := rfl
@[simp] theorem State.withCsr_inputs (v : Csrs) : (s.withCsr v).inputs = s.inputs := rfl
@[simp] theorem State.withCsr_free (v : Csrs) : (s.withCsr v).free = s.free := rfl
@[simp] theorem State.withCsr_cfg (v : Csrs) : (s.withCsr v).cfg = s.cfg := rfl
@[simp] theorem State.withCsr_getX (v : Csrs) (r : Reg) : (s.withCsr v).getX r = s.getX r := rfl
@[simp] theorem State.withCsr_getF (v : Csrs) (r : Reg) : (s.withCsr v).getF r = s.getF r := rfl

/-! ### withMcycle -/

@[simp] theorem State.withMcycle_pc (v : BitVec 64) : (s.withMcycle v).pc = s.pc := rfl
@[simp] theorem State.withMcycle_x (v : BitVec 64) : (s.withMcycle v).x = s.x := rfl
@[simp] theorem State.withMcycle_f (v : BitVec 64) : (s.withMcycle v).f = s.f := rfl
@[simp] theorem State.withMcycle_priv (v : BitVec 64) : (s.withMcycle v).priv = s.priv := rfl
@[simp] theorem State.withMcycle_csr (v : BitVec 64) : (s.withMcycle v).csr = s.csr := rfl
@[simp] theorem State.withMcycle_mcycle (v : BitVec 64) : (s.withMcycle v).mcycle = v := rfl
@[simp] theorem State.withMcycle_mem (v : BitVec 64) : (s.withMcycle v).mem = s.mem := rfl
@[simp] theorem State.withMcycle_stale (v : BitVec 64) : (s.withMcycle v).stale = s.stale := rfl
@[simp] theorem State.withMcycle_eclic (v : BitVec 64) : (s.withMcycle v).eclic = s.eclic := rfl
@[simp] theorem State.withMcycle_timer (v : BitVec 64) : (s.withMcycle v).timer = s.timer := rfl
@[simp] theorem State.withMcycle_resv (v : BitVec 64) : (s.withMcycle v).resv = s.resv := rfl
@[simp] theorem State.withMcycle_asleep (v : BitVec 64) : (s.withMcycle v).asleep = s.asleep := rfl
@[simp] theorem State.withMcycle_nmiPending (v : BitVec 64) : (s.withMcycle v).nmiPending = s.nmiPending := rfl
@[simp] theorem State.withMcycle_pendingFault (v : BitVec 64) : (s.withMcycle v).pendingFault = s.pendingFault := rfl
@[simp] theorem State.withMcycle_rxEvt (v : BitVec 64) : (s.withMcycle v).rxEvt = s.rxEvt := rfl
@[simp] theorem State.withMcycle_txEvt (v : BitVec 64) : (s.withMcycle v).txEvt = s.txEvt := rfl
@[simp] theorem State.withMcycle_eccOut (v : BitVec 64) : (s.withMcycle v).eccOut = s.eccOut := rfl
@[simp] theorem State.withMcycle_eccHits (v : BitVec 64) : (s.withMcycle v).eccHits = s.eccHits := rfl
@[simp] theorem State.withMcycle_inputs (v : BitVec 64) : (s.withMcycle v).inputs = s.inputs := rfl
@[simp] theorem State.withMcycle_free (v : BitVec 64) : (s.withMcycle v).free = s.free := rfl
@[simp] theorem State.withMcycle_cfg (v : BitVec 64) : (s.withMcycle v).cfg = s.cfg := rfl
@[simp] theorem State.withMcycle_getX (v : BitVec 64) (r : Reg) : (s.withMcycle v).getX r = s.getX r := rfl
@[simp] theorem State.withMcycle_getF (v : BitVec 64) (r : Reg) : (s.withMcycle v).getF r = s.getF r := rfl

/-! ### withMem -/

@[simp] theorem State.withMem_pc (v : Memory) : (s.withMem v).pc = s.pc := rfl
@[simp] theorem State.withMem_x (v : Memory) : (s.withMem v).x = s.x := rfl
@[simp] theorem State.withMem_f (v : Memory) : (s.withMem v).f = s.f := rfl
@[simp] theorem State.withMem_priv (v : Memory) : (s.withMem v).priv = s.priv := rfl
@[simp] theorem State.withMem_csr (v : Memory) : (s.withMem v).csr = s.csr := rfl
@[simp] theorem State.withMem_mcycle (v : Memory) : (s.withMem v).mcycle = s.mcycle := rfl
@[simp] theorem State.withMem_mem (v : Memory) : (s.withMem v).mem = v := rfl
@[simp] theorem State.withMem_stale (v : Memory) : (s.withMem v).stale = s.stale := rfl
@[simp] theorem State.withMem_eclic (v : Memory) : (s.withMem v).eclic = s.eclic := rfl
@[simp] theorem State.withMem_timer (v : Memory) : (s.withMem v).timer = s.timer := rfl
@[simp] theorem State.withMem_resv (v : Memory) : (s.withMem v).resv = s.resv := rfl
@[simp] theorem State.withMem_asleep (v : Memory) : (s.withMem v).asleep = s.asleep := rfl
@[simp] theorem State.withMem_nmiPending (v : Memory) : (s.withMem v).nmiPending = s.nmiPending := rfl
@[simp] theorem State.withMem_pendingFault (v : Memory) : (s.withMem v).pendingFault = s.pendingFault := rfl
@[simp] theorem State.withMem_rxEvt (v : Memory) : (s.withMem v).rxEvt = s.rxEvt := rfl
@[simp] theorem State.withMem_txEvt (v : Memory) : (s.withMem v).txEvt = s.txEvt := rfl
@[simp] theorem State.withMem_eccOut (v : Memory) : (s.withMem v).eccOut = s.eccOut := rfl
@[simp] theorem State.withMem_eccHits (v : Memory) : (s.withMem v).eccHits = s.eccHits := rfl
@[simp] theorem State.withMem_inputs (v : Memory) : (s.withMem v).inputs = s.inputs := rfl
@[simp] theorem State.withMem_free (v : Memory) : (s.withMem v).free = s.free := rfl
@[simp] theorem State.withMem_cfg (v : Memory) : (s.withMem v).cfg = s.cfg := rfl
@[simp] theorem State.withMem_getX (v : Memory) (r : Reg) : (s.withMem v).getX r = s.getX r := rfl
@[simp] theorem State.withMem_getF (v : Memory) (r : Reg) : (s.withMem v).getF r = s.getF r := rfl

/-! ### withStale -/

@[simp] theorem State.withStale_pc (v : List (Nat × Word)) : (s.withStale v).pc = s.pc := rfl
@[simp] theorem State.withStale_x (v : List (Nat × Word)) : (s.withStale v).x = s.x := rfl
@[simp] theorem State.withStale_f (v : List (Nat × Word)) : (s.withStale v).f = s.f := rfl
@[simp] theorem State.withStale_priv (v : List (Nat × Word)) : (s.withStale v).priv = s.priv := rfl
@[simp] theorem State.withStale_csr (v : List (Nat × Word)) : (s.withStale v).csr = s.csr := rfl
@[simp] theorem State.withStale_mcycle (v : List (Nat × Word)) : (s.withStale v).mcycle = s.mcycle := rfl
@[simp] theorem State.withStale_mem (v : List (Nat × Word)) : (s.withStale v).mem = s.mem := rfl
@[simp] theorem State.withStale_stale (v : List (Nat × Word)) : (s.withStale v).stale = v := rfl
@[simp] theorem State.withStale_eclic (v : List (Nat × Word)) : (s.withStale v).eclic = s.eclic := rfl
@[simp] theorem State.withStale_timer (v : List (Nat × Word)) : (s.withStale v).timer = s.timer := rfl
@[simp] theorem State.withStale_resv (v : List (Nat × Word)) : (s.withStale v).resv = s.resv := rfl
@[simp] theorem State.withStale_asleep (v : List (Nat × Word)) : (s.withStale v).asleep = s.asleep := rfl
@[simp] theorem State.withStale_nmiPending (v : List (Nat × Word)) : (s.withStale v).nmiPending = s.nmiPending := rfl
@[simp] theorem State.withStale_pendingFault (v : List (Nat × Word)) : (s.withStale v).pendingFault = s.pendingFault := rfl
@[simp] theorem State.withStale_rxEvt (v : List (Nat × Word)) : (s.withStale v).rxEvt = s.rxEvt := rfl
@[simp] theorem State.withStale_txEvt (v : List (Nat × Word)) : (s.withStale v).txEvt = s.txEvt := rfl
@[simp] theorem State.withStale_eccOut (v : List (Nat × Word)) : (s.withStale v).eccOut = s.eccOut := rfl
@[simp] theorem State.withStale_eccHits (v : List (Nat × Word)) : (s.withStale v).eccHits = s.eccHits := rfl
@[simp] theorem State.withStale_inputs (v : List (Nat × Word)) : (s.withStale v).inputs = s.inputs := rfl
@[simp] theorem State.withStale_free (v : List (Nat × Word)) : (s.withStale v).free = s.free := rfl
@[simp] theorem State.withStale_cfg (v : List (Nat × Word)) : (s.withStale v).cfg = s.cfg := rfl
@[simp] theorem State.withStale_getX (v : List (Nat × Word)) (r : Reg) : (s.withStale v).getX r = s.getX r := rfl
@[simp] theorem State.withStale_getF (v : List (Nat × Word)) (r : Reg) : (s.withStale v).getF r = s.getF r := rfl

/-! ### withEclic -/

@[simp] theorem State.withEclic_pc (v : Eclic) : (s.withEclic v).pc = s.pc := rfl
@[simp] theorem State.withEclic_x (v : Eclic) : (s.withEclic v).x = s.x := rfl
@[simp] theorem State.withEclic_f (v : Eclic) : (s.withEclic v).f = s.f := rfl
@[simp] theorem State.withEclic_priv (v : Eclic) : (s.withEclic v).priv = s.priv := rfl
@[simp] theorem State.withEclic_csr (v : Eclic) : (s.withEclic v).csr = s.csr := rfl
@[simp] theorem State.withEclic_mcycle (v : Eclic) : (s.withEclic v).mcycle = s.mcycle := rfl
@[simp] theorem State.withEclic_mem (v : Eclic) : (s.withEclic v).mem = s.mem := rfl
@[simp] theorem State.withEclic_stale (v : Eclic) : (s.withEclic v).stale = s.stale := rfl
@[simp] theorem State.withEclic_eclic (v : Eclic) : (s.withEclic v).eclic = v := rfl
@[simp] theorem State.withEclic_timer (v : Eclic) : (s.withEclic v).timer = s.timer := rfl
@[simp] theorem State.withEclic_resv (v : Eclic) : (s.withEclic v).resv = s.resv := rfl
@[simp] theorem State.withEclic_asleep (v : Eclic) : (s.withEclic v).asleep = s.asleep := rfl
@[simp] theorem State.withEclic_nmiPending (v : Eclic) : (s.withEclic v).nmiPending = s.nmiPending := rfl
@[simp] theorem State.withEclic_pendingFault (v : Eclic) : (s.withEclic v).pendingFault = s.pendingFault := rfl
@[simp] theorem State.withEclic_rxEvt (v : Eclic) : (s.withEclic v).rxEvt = s.rxEvt := rfl
@[simp] theorem State.withEclic_txEvt (v : Eclic) : (s.withEclic v).txEvt = s.txEvt := rfl
@[simp] theorem State.withEclic_eccOut (v : Eclic) : (s.withEclic v).eccOut = s.eccOut := rfl
@[simp] theorem State.withEclic_eccHits (v : Eclic) : (s.withEclic v).eccHits = s.eccHits := rfl
@[simp] theorem State.withEclic_inputs (v : Eclic) : (s.withEclic v).inputs = s.inputs := rfl
@[simp] theorem State.withEclic_free (v : Eclic) : (s.withEclic v).free = s.free := rfl
@[simp] theorem State.withEclic_cfg (v : Eclic) : (s.withEclic v).cfg = s.cfg := rfl
@[simp] theorem State.withEclic_getX (v : Eclic) (r : Reg) : (s.withEclic v).getX r = s.getX r := rfl
@[simp] theorem State.withEclic_getF (v : Eclic) (r : Reg) : (s.withEclic v).getF r = s.getF r := rfl

/-! ### withTimer -/

@[simp] theorem State.withTimer_pc (v : Timer) : (s.withTimer v).pc = s.pc := rfl
@[simp] theorem State.withTimer_x (v : Timer) : (s.withTimer v).x = s.x := rfl
@[simp] theorem State.withTimer_f (v : Timer) : (s.withTimer v).f = s.f := rfl
@[simp] theorem State.withTimer_priv (v : Timer) : (s.withTimer v).priv = s.priv := rfl
@[simp] theorem State.withTimer_csr (v : Timer) : (s.withTimer v).csr = s.csr := rfl
@[simp] theorem State.withTimer_mcycle (v : Timer) : (s.withTimer v).mcycle = s.mcycle := rfl
@[simp] theorem State.withTimer_mem (v : Timer) : (s.withTimer v).mem = s.mem := rfl
@[simp] theorem State.withTimer_stale (v : Timer) : (s.withTimer v).stale = s.stale := rfl
@[simp] theorem State.withTimer_eclic (v : Timer) : (s.withTimer v).eclic = s.eclic := rfl
@[simp] theorem State.withTimer_timer (v : Timer) : (s.withTimer v).timer = v := rfl
@[simp] theorem State.withTimer_resv (v : Timer) : (s.withTimer v).resv = s.resv := rfl
@[simp] theorem State.withTimer_asleep (v : Timer) : (s.withTimer v).asleep = s.asleep := rfl
@[simp] theorem State.withTimer_nmiPending (v : Timer) : (s.withTimer v).nmiPending = s.nmiPending := rfl
@[simp] theorem State.withTimer_pendingFault (v : Timer) : (s.withTimer v).pendingFault = s.pendingFault := rfl
@[simp] theorem State.withTimer_rxEvt (v : Timer) : (s.withTimer v).rxEvt = s.rxEvt := rfl
@[simp] theorem State.withTimer_txEvt (v : Timer) : (s.withTimer v).txEvt = s.txEvt := rfl
@[simp] theorem State.withTimer_eccOut (v : Timer) : (s.withTimer v).eccOut = s.eccOut := rfl
@[simp] theorem State.withTimer_eccHits (v : Timer) : (s.withTimer v).eccHits = s.eccHits := rfl
@[simp] theorem State.withTimer_inputs (v : Timer) : (s.withTimer v).inputs = s.inputs := rfl
@[simp] theorem State.withTimer_free (v : Timer) : (s.withTimer v).free = s.free := rfl
@[simp] theorem State.withTimer_cfg (v : Timer) : (s.withTimer v).cfg = s.cfg := rfl
@[simp] theorem State.withTimer_getX (v : Timer) (r : Reg) : (s.withTimer v).getX r = s.getX r := rfl
@[simp] theorem State.withTimer_getF (v : Timer) (r : Reg) : (s.withTimer v).getF r = s.getF r := rfl

/-! ### withResv -/

@[simp] theorem State.withResv_pc (v : Option Word) : (s.withResv v).pc = s.pc := rfl
@[simp] theorem State.withResv_x (v : Option Word) : (s.withResv v).x = s.x := rfl
@[simp] theorem State.withResv_f (v : Option Word) : (s.withResv v).f = s.f := rfl
@[simp] theorem State.withResv_priv (v : Option Word) : (s.withResv v).priv = s.priv := rfl
@[simp] theorem State.withResv_csr (v : Option Word) : (s.withResv v).csr = s.csr := rfl
@[simp] theorem State.withResv_mcycle (v : Option Word) : (s.withResv v).mcycle = s.mcycle := rfl
@[simp] theorem State.withResv_mem (v : Option Word) : (s.withResv v).mem = s.mem := rfl
@[simp] theorem State.withResv_stale (v : Option Word) : (s.withResv v).stale = s.stale := rfl
@[simp] theorem State.withResv_eclic (v : Option Word) : (s.withResv v).eclic = s.eclic := rfl
@[simp] theorem State.withResv_timer (v : Option Word) : (s.withResv v).timer = s.timer := rfl
@[simp] theorem State.withResv_resv (v : Option Word) : (s.withResv v).resv = v := rfl
@[simp] theorem State.withResv_asleep (v : Option Word) : (s.withResv v).asleep = s.asleep := rfl
@[simp] theorem State.withResv_nmiPending (v : Option Word) : (s.withResv v).nmiPending = s.nmiPending := rfl
@[simp] theorem State.withResv_pendingFault (v : Option Word) : (s.withResv v).pendingFault = s.pendingFault := rfl
@[simp] theorem State.withResv_rxEvt (v : Option Word) : (s.withResv v).rxEvt = s.rxEvt := rfl
@[simp] theorem State.withResv_txEvt (v : Option Word) : (s.withResv v).txEvt = s.txEvt := rfl
@[simp] theorem State.withResv_eccOut (v : Option Word) : (s.withResv v).eccOut = s.eccOut := rfl
@[simp] theorem State.withResv_eccHits (v : Option Word) : (s.withResv v).eccHits = s.eccHits := rfl
@[simp] theorem State.withResv_inputs (v : Option Word) : (s.withResv v).inputs = s.inputs := rfl
@[simp] theorem State.withResv_free (v : Option Word) : (s.withResv v).free = s.free := rfl
@[simp] theorem State.withResv_cfg (v : Option Word) : (s.withResv v).cfg = s.cfg := rfl
@[simp] theorem State.withResv_getX (v : Option Word) (r : Reg) : (s.withResv v).getX r = s.getX r := rfl
@[simp] theorem State.withResv_getF (v : Option Word) (r : Reg) : (s.withResv v).getF r = s.getF r := rfl

/-! ### withAsleep -/

@[simp] theorem State.withAsleep_pc (v : Bool) : (s.withAsleep v).pc = s.pc := rfl
@[simp] theorem State.withAsleep_x (v : Bool) : (s.withAsleep v).x = s.x := rfl
@[simp] theorem State.withAsleep_f (v : Bool) : (s.withAsleep v).f = s.f := rfl
@[simp] theorem State.withAsleep_priv (v : Bool) : (s.withAsleep v).priv = s.priv := rfl
@[simp] theorem State.withAsleep_csr (v : Bool) : (s.withAsleep v).csr = s.csr := rfl
@[simp] theorem State.withAsleep_mcycle (v : Bool) : (s.withAsleep v).mcycle = s.mcycle := rfl
@[simp] theorem State.withAsleep_mem (v : Bool) : (s.withAsleep v).mem = s.mem := rfl
@[simp] theorem State.withAsleep_stale (v : Bool) : (s.withAsleep v).stale = s.stale := rfl
@[simp] theorem State.withAsleep_eclic (v : Bool) : (s.withAsleep v).eclic = s.eclic := rfl
@[simp] theorem State.withAsleep_timer (v : Bool) : (s.withAsleep v).timer = s.timer := rfl
@[simp] theorem State.withAsleep_resv (v : Bool) : (s.withAsleep v).resv = s.resv := rfl
@[simp] theorem State.withAsleep_asleep (v : Bool) : (s.withAsleep v).asleep = v := rfl
@[simp] theorem State.withAsleep_nmiPending (v : Bool) : (s.withAsleep v).nmiPending = s.nmiPending := rfl
@[simp] theorem State.withAsleep_pendingFault (v : Bool) : (s.withAsleep v).pendingFault = s.pendingFault := rfl
@[simp] theorem State.withAsleep_rxEvt (v : Bool) : (s.withAsleep v).rxEvt = s.rxEvt := rfl
@[simp] theorem State.withAsleep_txEvt (v : Bool) : (s.withAsleep v).txEvt = s.txEvt := rfl
@[simp] theorem State.withAsleep_eccOut (v : Bool) : (s.withAsleep v).eccOut = s.eccOut := rfl
@[simp] theorem State.withAsleep_eccHits (v : Bool) : (s.withAsleep v).eccHits = s.eccHits := rfl
@[simp] theorem State.withAsleep_inputs (v : Bool) : (s.withAsleep v).inputs = s.inputs := rfl
@[simp] theorem State.withAsleep_free (v : Bool) : (s.withAsleep v).free = s.free := rfl
@[simp] theorem State.withAsleep_cfg (v : Bool) : (s.withAsleep v).cfg = s.cfg := rfl
@[simp] theorem State.withAsleep_getX (v : Bool) (r : Reg) : (s.withAsleep v).getX r = s.getX r := rfl
@[simp] theorem State.withAsleep_getF (v : Bool) (r : Reg) : (s.withAsleep v).getF r = s.getF r := rfl

/-! ### withNmiPending -/

@[simp] theorem State.withNmiPending_pc (v : Bool) : (s.withNmiPending v).pc = s.pc := rfl
@[simp] theorem State.withNmiPending_x (v : Bool) : (s.withNmiPending v).x = s.x := rfl
@[simp] theorem State.withNmiPending_f (v : Bool) : (s.withNmiPending v).f = s.f := rfl
@[simp] theorem State.withNmiPending_priv (v : Bool) : (s.withNmiPending v).priv = s.priv := rfl
@[simp] theorem State.withNmiPending_csr (v : Bool) : (s.withNmiPending v).csr = s.csr := rfl
@[simp] theorem State.withNmiPending_mcycle (v : Bool) : (s.withNmiPending v).mcycle = s.mcycle := rfl
@[simp] theorem State.withNmiPending_mem (v : Bool) : (s.withNmiPending v).mem = s.mem := rfl
@[simp] theorem State.withNmiPending_stale (v : Bool) : (s.withNmiPending v).stale = s.stale := rfl
@[simp] theorem State.withNmiPending_eclic (v : Bool) : (s.withNmiPending v).eclic = s.eclic := rfl
@[simp] theorem State.withNmiPending_timer (v : Bool) : (s.withNmiPending v).timer = s.timer := rfl
@[simp] theorem State.withNmiPending_resv (v : Bool) : (s.withNmiPending v).resv = s.resv := rfl
@[simp] theorem State.withNmiPending_asleep (v : Bool) : (s.withNmiPending v).asleep = s.asleep := rfl
@[simp] theorem State.withNmiPending_nmiPending (v : Bool) : (s.withNmiPending v).nmiPending = v := rfl
@[simp] theorem State.withNmiPending_pendingFault (v : Bool) : (s.withNmiPending v).pendingFault = s.pendingFault := rfl
@[simp] theorem State.withNmiPending_rxEvt (v : Bool) : (s.withNmiPending v).rxEvt = s.rxEvt := rfl
@[simp] theorem State.withNmiPending_txEvt (v : Bool) : (s.withNmiPending v).txEvt = s.txEvt := rfl
@[simp] theorem State.withNmiPending_eccOut (v : Bool) : (s.withNmiPending v).eccOut = s.eccOut := rfl
@[simp] theorem State.withNmiPending_eccHits (v : Bool) : (s.withNmiPending v).eccHits = s.eccHits := rfl
@[simp] theorem State.withNmiPending_inputs (v : Bool) : (s.withNmiPending v).inputs = s.inputs := rfl
@[simp] theorem State.withNmiPending_free (v : Bool) : (s.withNmiPending v).free = s.free := rfl
@[simp] theorem State.withNmiPending_cfg (v : Bool) : (s.withNmiPending v).cfg = s.cfg := rfl
@[simp] theorem State.withNmiPending_getX (v : Bool) (r : Reg) : (s.withNmiPending v).getX r = s.getX r := rfl
@[simp] theorem State.withNmiPending_getF (v : Bool) (r : Reg) : (s.withNmiPending v).getF r = s.getF r := rfl

/-! ### withPendingFault -/

@[simp] theorem State.withPendingFault_pc (v : Option Exc) : (s.withPendingFault v).pc = s.pc := rfl
@[simp] theorem State.withPendingFault_x (v : Option Exc) : (s.withPendingFault v).x = s.x := rfl
@[simp] theorem State.withPendingFault_f (v : Option Exc) : (s.withPendingFault v).f = s.f := rfl
@[simp] theorem State.withPendingFault_priv (v : Option Exc) : (s.withPendingFault v).priv = s.priv := rfl
@[simp] theorem State.withPendingFault_csr (v : Option Exc) : (s.withPendingFault v).csr = s.csr := rfl
@[simp] theorem State.withPendingFault_mcycle (v : Option Exc) : (s.withPendingFault v).mcycle = s.mcycle := rfl
@[simp] theorem State.withPendingFault_mem (v : Option Exc) : (s.withPendingFault v).mem = s.mem := rfl
@[simp] theorem State.withPendingFault_stale (v : Option Exc) : (s.withPendingFault v).stale = s.stale := rfl
@[simp] theorem State.withPendingFault_eclic (v : Option Exc) : (s.withPendingFault v).eclic = s.eclic := rfl
@[simp] theorem State.withPendingFault_timer (v : Option Exc) : (s.withPendingFault v).timer = s.timer := rfl
@[simp] theorem State.withPendingFault_resv (v : Option Exc) : (s.withPendingFault v).resv = s.resv := rfl
@[simp] theorem State.withPendingFault_asleep (v : Option Exc) : (s.withPendingFault v).asleep = s.asleep := rfl
@[simp] theorem State.withPendingFault_nmiPending (v : Option Exc) : (s.withPendingFault v).nmiPending = s.nmiPending := rfl
@[simp] theorem State.withPendingFault_pendingFault (v : Option Exc) : (s.withPendingFault v).pendingFault = v := rfl
@[simp] theorem State.withPendingFault_rxEvt (v : Option Exc) : (s.withPendingFault v).rxEvt = s.rxEvt := rfl
@[simp] theorem State.withPendingFault_txEvt (v : Option Exc) : (s.withPendingFault v).txEvt = s.txEvt := rfl
@[simp] theorem State.withPendingFault_eccOut (v : Option Exc) : (s.withPendingFault v).eccOut = s.eccOut := rfl
@[simp] theorem State.withPendingFault_eccHits (v : Option Exc) : (s.withPendingFault v).eccHits = s.eccHits := rfl
@[simp] theorem State.withPendingFault_inputs (v : Option Exc) : (s.withPendingFault v).inputs = s.inputs := rfl
@[simp] theorem State.withPendingFault_free (v : Option Exc) : (s.withPendingFault v).free = s.free := rfl
@[simp] theorem State.withPendingFault_cfg (v : Option Exc) : (s.withPendingFault v).cfg = s.cfg := rfl
@[simp] theorem State.withPendingFault_getX (v : Option Exc) (r : Reg) : (s.withPendingFault v).getX r = s.getX r := rfl
@[simp] theorem State.withPendingFault_getF (v : Option Exc) (r : Reg) : (s.withPendingFault v).getF r = s.getF r := rfl

/-! ### withRxEvt -/

@[simp] theorem State.withRxEvt_pc (v : Bool) : (s.withRxEvt v).pc = s.pc := rfl
@[simp] theorem State.withRxEvt_x (v : Bool) : (s.withRxEvt v).x = s.x := rfl
@[simp] theorem State.withRxEvt_f (v : Bool) : (s.withRxEvt v).f = s.f := rfl
@[simp] theorem State.withRxEvt_priv (v : Bool) : (s.withRxEvt v).priv = s.priv := rfl
@[simp] theorem State.withRxEvt_csr (v : Bool) : (s.withRxEvt v).csr = s.csr := rfl
@[simp] theorem State.withRxEvt_mcycle (v : Bool) : (s.withRxEvt v).mcycle = s.mcycle := rfl
@[simp] theorem State.withRxEvt_mem (v : Bool) : (s.withRxEvt v).mem = s.mem := rfl
@[simp] theorem State.withRxEvt_stale (v : Bool) : (s.withRxEvt v).stale = s.stale := rfl
@[simp] theorem State.withRxEvt_eclic (v : Bool) : (s.withRxEvt v).eclic = s.eclic := rfl
@[simp] theorem State.withRxEvt_timer (v : Bool) : (s.withRxEvt v).timer = s.timer := rfl
@[simp] theorem State.withRxEvt_resv (v : Bool) : (s.withRxEvt v).resv = s.resv := rfl
@[simp] theorem State.withRxEvt_asleep (v : Bool) : (s.withRxEvt v).asleep = s.asleep := rfl
@[simp] theorem State.withRxEvt_nmiPending (v : Bool) : (s.withRxEvt v).nmiPending = s.nmiPending := rfl
@[simp] theorem State.withRxEvt_pendingFault (v : Bool) : (s.withRxEvt v).pendingFault = s.pendingFault := rfl
@[simp] theorem State.withRxEvt_rxEvt (v : Bool) : (s.withRxEvt v).rxEvt = v := rfl
@[simp] theorem State.withRxEvt_txEvt (v : Bool) : (s.withRxEvt v).txEvt = s.txEvt := rfl
@[simp] theorem State.withRxEvt_eccOut (v : Bool) : (s.withRxEvt v).eccOut = s.eccOut := rfl
@[simp] theorem State.withRxEvt_eccHits (v : Bool) : (s.withRxEvt v).eccHits = s.eccHits := rfl
@[simp] theorem State.withRxEvt_inputs (v : Bool) : (s.withRxEvt v).inputs = s.inputs := rfl
@[simp] theorem State.withRxEvt_free (v : Bool) : (s.withRxEvt v).free = s.free := rfl
@[simp] theorem State.withRxEvt_cfg (v : Bool) : (s.withRxEvt v).cfg = s.cfg := rfl
@[simp] theorem State.withRxEvt_getX (v : Bool) (r : Reg) : (s.withRxEvt v).getX r = s.getX r := rfl
@[simp] theorem State.withRxEvt_getF (v : Bool) (r : Reg) : (s.withRxEvt v).getF r = s.getF r := rfl

/-! ### withTxEvt -/

@[simp] theorem State.withTxEvt_pc (v : Bool) : (s.withTxEvt v).pc = s.pc := rfl
@[simp] theorem State.withTxEvt_x (v : Bool) : (s.withTxEvt v).x = s.x := rfl
@[simp] theorem State.withTxEvt_f (v : Bool) : (s.withTxEvt v).f = s.f := rfl
@[simp] theorem State.withTxEvt_priv (v : Bool) : (s.withTxEvt v).priv = s.priv := rfl
@[simp] theorem State.withTxEvt_csr (v : Bool) : (s.withTxEvt v).csr = s.csr := rfl
@[simp] theorem State.withTxEvt_mcycle (v : Bool) : (s.withTxEvt v).mcycle = s.mcycle := rfl
@[simp] theorem State.withTxEvt_mem (v : Bool) : (s.withTxEvt v).mem = s.mem := rfl
@[simp] theorem State.withTxEvt_stale (v : Bool) : (s.withTxEvt v).stale = s.stale := rfl
@[simp] theorem State.withTxEvt_eclic (v : Bool) : (s.withTxEvt v).eclic = s.eclic := rfl
@[simp] theorem State.withTxEvt_timer (v : Bool) : (s.withTxEvt v).timer = s.timer := rfl
@[simp] theorem State.withTxEvt_resv (v : Bool) : (s.withTxEvt v).resv = s.resv := rfl
@[simp] theorem State.withTxEvt_asleep (v : Bool) : (s.withTxEvt v).asleep = s.asleep := rfl
@[simp] theorem State.withTxEvt_nmiPending (v : Bool) : (s.withTxEvt v).nmiPending = s.nmiPending := rfl
@[simp] theorem State.withTxEvt_pendingFault (v : Bool) : (s.withTxEvt v).pendingFault = s.pendingFault := rfl
@[simp] theorem State.withTxEvt_rxEvt (v : Bool) : (s.withTxEvt v).rxEvt = s.rxEvt := rfl
@[simp] theorem State.withTxEvt_txEvt (v : Bool) : (s.withTxEvt v).txEvt = v := rfl
@[simp] theorem State.withTxEvt_eccOut (v : Bool) : (s.withTxEvt v).eccOut = s.eccOut := rfl
@[simp] theorem State.withTxEvt_eccHits (v : Bool) : (s.withTxEvt v).eccHits = s.eccHits := rfl
@[simp] theorem State.withTxEvt_inputs (v : Bool) : (s.withTxEvt v).inputs = s.inputs := rfl
@[simp] theorem State.withTxEvt_free (v : Bool) : (s.withTxEvt v).free = s.free := rfl
@[simp] theorem State.withTxEvt_cfg (v : Bool) : (s.withTxEvt v).cfg = s.cfg := rfl
@[simp] theorem State.withTxEvt_getX (v : Bool) (r : Reg) : (s.withTxEvt v).getX r = s.getX r := rfl
@[simp] theorem State.withTxEvt_getF (v : Bool) (r : Reg) : (s.withTxEvt v).getF r = s.getF r := rfl

/-! ### withEccOut -/

@[simp] theorem State.withEccOut_pc (v : EccOutputs) : (s.withEccOut v).pc = s.pc := rfl
@[simp] theorem State.withEccOut_x (v : EccOutputs) : (s.withEccOut v).x = s.x := rfl
@[simp] theorem State.withEccOut_f (v : EccOutputs) : (s.withEccOut v).f = s.f := rfl
@[simp] theorem State.withEccOut_priv (v : EccOutputs) : (s.withEccOut v).priv = s.priv := rfl
@[simp] theorem State.withEccOut_csr (v : EccOutputs) : (s.withEccOut v).csr = s.csr := rfl
@[simp] theorem State.withEccOut_mcycle (v : EccOutputs) : (s.withEccOut v).mcycle = s.mcycle := rfl
@[simp] theorem State.withEccOut_mem (v : EccOutputs) : (s.withEccOut v).mem = s.mem := rfl
@[simp] theorem State.withEccOut_stale (v : EccOutputs) : (s.withEccOut v).stale = s.stale := rfl
@[simp] theorem State.withEccOut_eclic (v : EccOutputs) : (s.withEccOut v).eclic = s.eclic := rfl
@[simp] theorem State.withEccOut_timer (v : EccOutputs) : (s.withEccOut v).timer = s.timer := rfl
@[simp] theorem State.withEccOut_resv (v : EccOutputs) : (s.withEccOut v).resv = s.resv := rfl
@[simp] theorem State.withEccOut_asleep (v : EccOutputs) : (s.withEccOut v).asleep = s.asleep := rfl
@[simp] theorem State.withEccOut_nmiPending (v : EccOutputs) : (s.withEccOut v).nmiPending = s.nmiPending := rfl
@[simp] theorem State.withEccOut_pendingFault (v : EccOutputs) : (s.withEccOut v).pendingFault = s.pendingFault := rfl
@[simp] theorem State.withEccOut_rxEvt (v : EccOutputs) : (s.withEccOut v).rxEvt = s.rxEvt := rfl
@[simp] theorem State.withEccOut_txEvt (v : EccOutputs) : (s.withEccOut v).txEvt = s.txEvt := rfl
@[simp] theorem State.withEccOut_eccOut (v : EccOutputs) : (s.withEccOut v).eccOut = v := rfl
@[simp] theorem State.withEccOut_eccHits (v : EccOutputs) : (s.withEccOut v).eccHits = s.eccHits := rfl
@[simp] theorem State.withEccOut_inputs (v : EccOutputs) : (s.withEccOut v).inputs = s.inputs := rfl
@[simp] theorem State.withEccOut_free (v : EccOutputs) : (s.withEccOut v).free = s.free := rfl
@[simp] theorem State.withEccOut_cfg (v : EccOutputs) : (s.withEccOut v).cfg = s.cfg := rfl
@[simp] theorem State.withEccOut_getX (v : EccOutputs) (r : Reg) : (s.withEccOut v).getX r = s.getX r := rfl
@[simp] theorem State.withEccOut_getF (v : EccOutputs) (r : Reg) : (s.withEccOut v).getF r = s.getF r := rfl

/-! ### withEccHits -/

@[simp] theorem State.withEccHits_pc (v : List EccHit) : (s.withEccHits v).pc = s.pc := rfl
@[simp] theorem State.withEccHits_x (v : List EccHit) : (s.withEccHits v).x = s.x := rfl
@[simp] theorem State.withEccHits_f (v : List EccHit) : (s.withEccHits v).f = s.f := rfl
@[simp] theorem State.withEccHits_priv (v : List EccHit) : (s.withEccHits v).priv = s.priv := rfl
@[simp] theorem State.withEccHits_csr (v : List EccHit) : (s.withEccHits v).csr = s.csr := rfl
@[simp] theorem State.withEccHits_mcycle (v : List EccHit) : (s.withEccHits v).mcycle = s.mcycle := rfl
@[simp] theorem State.withEccHits_mem (v : List EccHit) : (s.withEccHits v).mem = s.mem := rfl
@[simp] theorem State.withEccHits_stale (v : List EccHit) : (s.withEccHits v).stale = s.stale := rfl
@[simp] theorem State.withEccHits_eclic (v : List EccHit) : (s.withEccHits v).eclic = s.eclic := rfl
@[simp] theorem State.withEccHits_timer (v : List EccHit) : (s.withEccHits v).timer = s.timer := rfl
@[simp] theorem State.withEccHits_resv (v : List EccHit) : (s.withEccHits v).resv = s.resv := rfl
@[simp] theorem State.withEccHits_asleep (v : List EccHit) : (s.withEccHits v).asleep = s.asleep := rfl
@[simp] theorem State.withEccHits_nmiPending (v : List EccHit) : (s.withEccHits v).nmiPending = s.nmiPending := rfl
@[simp] theorem State.withEccHits_pendingFault (v : List EccHit) : (s.withEccHits v).pendingFault = s.pendingFault := rfl
@[simp] theorem State.withEccHits_rxEvt (v : List EccHit) : (s.withEccHits v).rxEvt = s.rxEvt := rfl
@[simp] theorem State.withEccHits_txEvt (v : List EccHit) : (s.withEccHits v).txEvt = s.txEvt := rfl
@[simp] theorem State.withEccHits_eccOut (v : List EccHit) : (s.withEccHits v).eccOut = s.eccOut := rfl
@[simp] theorem State.withEccHits_eccHits (v : List EccHit) : (s.withEccHits v).eccHits = v := rfl
@[simp] theorem State.withEccHits_inputs (v : List EccHit) : (s.withEccHits v).inputs = s.inputs := rfl
@[simp] theorem State.withEccHits_free (v : List EccHit) : (s.withEccHits v).free = s.free := rfl
@[simp] theorem State.withEccHits_cfg (v : List EccHit) : (s.withEccHits v).cfg = s.cfg := rfl
@[simp] theorem State.withEccHits_getX (v : List EccHit) (r : Reg) : (s.withEccHits v).getX r = s.getX r := rfl
@[simp] theorem State.withEccHits_getF (v : List EccHit) (r : Reg) : (s.withEccHits v).getF r = s.getF r := rfl

/-! ### withInputs -/

@[simp] theorem State.withInputs_pc (v : List (List Input)) : (s.withInputs v).pc = s.pc := rfl
@[simp] theorem State.withInputs_x (v : List (List Input)) : (s.withInputs v).x = s.x := rfl
@[simp] theorem State.withInputs_f (v : List (List Input)) : (s.withInputs v).f = s.f := rfl
@[simp] theorem State.withInputs_priv (v : List (List Input)) : (s.withInputs v).priv = s.priv := rfl
@[simp] theorem State.withInputs_csr (v : List (List Input)) : (s.withInputs v).csr = s.csr := rfl
@[simp] theorem State.withInputs_mcycle (v : List (List Input)) : (s.withInputs v).mcycle = s.mcycle := rfl
@[simp] theorem State.withInputs_mem (v : List (List Input)) : (s.withInputs v).mem = s.mem := rfl
@[simp] theorem State.withInputs_stale (v : List (List Input)) : (s.withInputs v).stale = s.stale := rfl
@[simp] theorem State.withInputs_eclic (v : List (List Input)) : (s.withInputs v).eclic = s.eclic := rfl
@[simp] theorem State.withInputs_timer (v : List (List Input)) : (s.withInputs v).timer = s.timer := rfl
@[simp] theorem State.withInputs_resv (v : List (List Input)) : (s.withInputs v).resv = s.resv := rfl
@[simp] theorem State.withInputs_asleep (v : List (List Input)) : (s.withInputs v).asleep = s.asleep := rfl
@[simp] theorem State.withInputs_nmiPending (v : List (List Input)) : (s.withInputs v).nmiPending = s.nmiPending := rfl
@[simp] theorem State.withInputs_pendingFault (v : List (List Input)) : (s.withInputs v).pendingFault = s.pendingFault := rfl
@[simp] theorem State.withInputs_rxEvt (v : List (List Input)) : (s.withInputs v).rxEvt = s.rxEvt := rfl
@[simp] theorem State.withInputs_txEvt (v : List (List Input)) : (s.withInputs v).txEvt = s.txEvt := rfl
@[simp] theorem State.withInputs_eccOut (v : List (List Input)) : (s.withInputs v).eccOut = s.eccOut := rfl
@[simp] theorem State.withInputs_eccHits (v : List (List Input)) : (s.withInputs v).eccHits = s.eccHits := rfl
@[simp] theorem State.withInputs_inputs (v : List (List Input)) : (s.withInputs v).inputs = v := rfl
@[simp] theorem State.withInputs_free (v : List (List Input)) : (s.withInputs v).free = s.free := rfl
@[simp] theorem State.withInputs_cfg (v : List (List Input)) : (s.withInputs v).cfg = s.cfg := rfl
@[simp] theorem State.withInputs_getX (v : List (List Input)) (r : Reg) : (s.withInputs v).getX r = s.getX r := rfl
@[simp] theorem State.withInputs_getF (v : List (List Input)) (r : Reg) : (s.withInputs v).getF r = s.getF r := rfl

/-! ### withFree -/

@[simp] theorem State.withFree_pc (v : Nat) : (s.withFree v).pc = s.pc := rfl
@[simp] theorem State.withFree_x (v : Nat) : (s.withFree v).x = s.x := rfl
@[simp] theorem State.withFree_f (v : Nat) : (s.withFree v).f = s.f := rfl
@[simp] theorem State.withFree_priv (v : Nat) : (s.withFree v).priv = s.priv := rfl
@[simp] theorem State.withFree_csr (v : Nat) : (s.withFree v).csr = s.csr := rfl
@[simp] theorem State.withFree_mcycle (v : Nat) : (s.withFree v).mcycle = s.mcycle := rfl
@[simp] theorem State.withFree_mem (v : Nat) : (s.withFree v).mem = s.mem := rfl
@[simp] theorem State.withFree_stale (v : Nat) : (s.withFree v).stale = s.stale := rfl
@[simp] theorem State.withFree_eclic (v : Nat) : (s.withFree v).eclic = s.eclic := rfl
@[simp] theorem State.withFree_timer (v : Nat) : (s.withFree v).timer = s.timer := rfl
@[simp] theorem State.withFree_resv (v : Nat) : (s.withFree v).resv = s.resv := rfl
@[simp] theorem State.withFree_asleep (v : Nat) : (s.withFree v).asleep = s.asleep := rfl
@[simp] theorem State.withFree_nmiPending (v : Nat) : (s.withFree v).nmiPending = s.nmiPending := rfl
@[simp] theorem State.withFree_pendingFault (v : Nat) : (s.withFree v).pendingFault = s.pendingFault := rfl
@[simp] theorem State.withFree_rxEvt (v : Nat) : (s.withFree v).rxEvt = s.rxEvt := rfl
@[simp] theorem State.withFree_txEvt (v : Nat) : (s.withFree v).txEvt = s.txEvt := rfl
@[simp] theorem State.withFree_eccOut (v : Nat) : (s.withFree v).eccOut = s.eccOut := rfl
@[simp] theorem State.withFree_eccHits (v : Nat) : (s.withFree v).eccHits = s.eccHits := rfl
@[simp] theorem State.withFree_inputs (v : Nat) : (s.withFree v).inputs = s.inputs := rfl
@[simp] theorem State.withFree_free (v : Nat) : (s.withFree v).free = v := rfl
@[simp] theorem State.withFree_cfg (v : Nat) : (s.withFree v).cfg = s.cfg := rfl
@[simp] theorem State.withFree_getX (v : Nat) (r : Reg) : (s.withFree v).getX r = s.getX r := rfl
@[simp] theorem State.withFree_getF (v : Nat) (r : Reg) : (s.withFree v).getF r = s.getF r := rfl

/-! ### setX -/

@[simp] theorem State.setX_pc (r : Reg) (v : Word) : (s.setX r v).pc = s.pc := by unfold State.setX; split <;> rfl
@[simp] theorem State.setX_f (r : Reg) (v : Word) : (s.setX r v).f = s.f := by unfold State.setX; split <;> rfl
@[simp] theorem State.setX_priv (r : Reg) (v : Word) : (s.setX r v).priv = s.priv := by unfold State.setX; split <;> rfl
@[simp] theorem State.setX_csr (r : Reg) (v : Word) : (s.setX r v).csr = s.csr := by unfold State.setX; split <;> rfl
@[simp] theorem State.setX_mcycle (r : Reg) (v : Word) : (s.setX r v).mcycle = s.mcycle := by unfold State.setX; split <;> rfl
@[simp] theorem State.setX_mem (r : Reg) (v : Word) : (s.setX r v).mem = s.mem := by unfold State.setX; split <;> rfl
@[simp] theorem State.setX_stale (r : Reg) (v : Word) : (s.setX r v).stale = s.stale := by unfold State.setX; split <;> rfl
@[simp] theorem State.setX_eclic (r : Reg) (v : Word) : (s.setX r v).eclic = s.eclic := by unfold State.setX; split <;> rfl
@[simp] theorem State.setX_timer (r : Reg) (v : Word) : (s.setX r v).timer = s.timer := by unfold State.setX; split <;> rfl
@[simp] theorem State.setX_resv (r : Reg) (v : Word) : (s.setX r v).resv = s.resv := by unfold State.setX; split <;> rfl
@[simp] theorem State.setX_asleep (r : Reg) (v : Word) : (s.setX r v).asleep = s.asleep := by unfold State.setX; split <;> rfl
@[simp] theorem State.setX_nmiPending (r : Reg) (v : Word) : (s.setX r v).nmiPending = s.nmiPending := by unfold State.setX; split <;> rfl
@[simp] theorem State.setX_pendingFault (r : Reg) (v : Word) : (s.setX r v).pendingFault = s.pendingFault := by unfold State.setX; split <;> rfl
@[simp] theorem State.setX_rxEvt (r : Reg) (v : Word) : (s.setX r v).rxEvt = s.rxEvt := by unfold State.setX; split <;> rfl
@[simp] theorem State.setX_txEvt (r : Reg) (v : Word) : (s.setX r v).txEvt = s.txEvt := by unfold State.setX; split <;> rfl
@[simp] theorem State.setX_eccOut (r : Reg) (v : Word) : (s.setX r v).eccOut = s.eccOut := by unfold State.setX; split <;> rfl
@[simp] theorem State.setX_eccHits (r : Reg) (v : Word) : (s.setX r v).eccHits = s.eccHits := by unfold State.setX; split <;> rfl
@[simp] theorem State.setX_inputs (r : Reg) (v : Word) : (s.setX r v).inputs = s.inputs := by unfold State.setX; split <;> rfl
@[simp] theorem State.setX_free (r : Reg) (v : Word) : (s.setX r v).free = s.free := by unfold State.setX; split <;> rfl
@[simp] theorem State.setX_cfg (r : Reg) (v : Word) : (s.setX r v).cfg = s.cfg := by unfold State.setX; split <;> rfl
@[simp] theorem State.setX_getF (r q : Reg) (v : Word) : (s.setX r v).getF q = s.getF q := by simp [State.getF]

/-! ### setF -/

@[simp] theorem State.setF_pc (r : Reg) (v : DWord) : (s.setF r v).pc = s.pc := rfl
@[simp] theorem State.setF_x (r : Reg) (v : DWord) : (s.setF r v).x = s.x := rfl
@[simp] theorem State.setF_priv (r : Reg) (v : DWord) : (s.setF r v).priv = s.priv := rfl
@[simp] theorem State.setF_csr (r : Reg) (v : DWord) : (s.setF r v).csr = s.csr := rfl
@[simp] theorem State.setF_mcycle (r : Reg) (v : DWord) : (s.setF r v).mcycle = s.mcycle := rfl
@[simp] theorem State.setF_mem (r : Reg) (v : DWord) : (s.setF r v).mem = s.mem := rfl
@[simp] theorem State.setF_stale (r : Reg) (v : DWord) : (s.setF r v).stale = s.stale := rfl
@[simp] theorem State.setF_eclic (r : Reg) (v : DWord) : (s.setF r v).eclic = s.eclic := rfl
@[simp] theorem State.setF_timer (r : Reg) (v : DWord) : (s.setF r v).timer = s.timer := rfl
@[simp] theorem State.setF_resv (r : Reg) (v : DWord) : (s.setF r v).resv = s.resv := rfl
@[simp] theorem State.setF_asleep (r : Reg) (v : DWord) : (s.setF r v).asleep = s.asleep := rfl
@[simp] theorem State.setF_nmiPending (r : Reg) (v : DWord) : (s.setF r v).nmiPending = s.nmiPending := rfl
@[simp] theorem State.setF_pendingFault (r : Reg) (v : DWord) : (s.setF r v).pendingFault = s.pendingFault := rfl
@[simp] theorem State.setF_rxEvt (r : Reg) (v : DWord) : (s.setF r v).rxEvt = s.rxEvt := rfl
@[simp] theorem State.setF_txEvt (r : Reg) (v : DWord) : (s.setF r v).txEvt = s.txEvt := rfl
@[simp] theorem State.setF_eccOut (r : Reg) (v : DWord) : (s.setF r v).eccOut = s.eccOut := rfl
@[simp] theorem State.setF_eccHits (r : Reg) (v : DWord) : (s.setF r v).eccHits = s.eccHits := rfl
@[simp] theorem State.setF_inputs (r : Reg) (v : DWord) : (s.setF r v).inputs = s.inputs := rfl
@[simp] theorem State.setF_free (r : Reg) (v : DWord) : (s.setF r v).free = s.free := rfl
@[simp] theorem State.setF_cfg (r : Reg) (v : DWord) : (s.setF r v).cfg = s.cfg := rfl
@[simp] theorem State.setF_getX (r q : Reg) (v : DWord) : (s.setF r v).getX q = s.getX q := rfl

/-! ### Register reads after writes -/

@[simp] theorem State.getX_zero : s.getX 0 = 0 := by simp [State.getX]

@[simp] theorem State.setX_zero (v : Word) : s.setX 0 v = s := by simp [State.setX]

/-- A register read after a write: the value where the register is the written one and not x0 (R20). -/
theorem State.getX_setX (r q : Reg) (v : Word) :
    (s.setX r v).getX q = if q = r ∧ r ≠ 0#5 then v else s.getX q := by
  unfold State.getX State.setX
  by_cases hq : q = 0#5
  · subst hq
    by_cases hr : r = 0#5
    · subst hr; simp
    · simp [hr, Ne.symm hr]
  · by_cases hr : r = 0#5
    · subst hr; simp [hq]
    · simp only [hq, hr, if_false]
      by_cases h : q = r
      · subst h; simp [hr]
      · have : r.toNat ≠ q.toNat := fun e => h (BitVec.eq_of_toNat_eq e.symm)
        simp [h, hr, this]

@[simp] theorem State.getX_setX_same (r : Reg) (v : Word) (h : r ≠ 0#5) : (s.setX r v).getX r = v := by
  simp [State.getX_setX, h]

@[simp] theorem State.getX_setX_other (r q : Reg) (v : Word) (h : q ≠ r) : (s.setX r v).getX q = s.getX q := by
  simp [State.getX_setX, h]

/-- A floating-point register read after a write (R26). -/
theorem State.getF_setF (r q : Reg) (v : DWord) :
    (s.setF r v).getF q = if q = r then v else s.getF q := by
  unfold State.getF State.setF
  by_cases h : q = r
  · subst h; simp
  · have : r.toNat ≠ q.toNat := fun e => h (BitVec.eq_of_toNat_eq e.symm)
    simp [h, this]

@[simp] theorem State.getF_setF_same (r : Reg) (v : DWord) : (s.setF r v).getF r = v := by
  simp [State.getF_setF]

@[simp] theorem State.getF_setF_other (r q : Reg) (v : DWord) (h : q ≠ r) : (s.setF r v).getF q = s.getF q := by
  simp [State.getF_setF, h]

/-! ### fpDone -/

@[simp] theorem State.fpDone_pc (fl : BitVec 5) : (s.fpDone fl).pc = s.pc := rfl
@[simp] theorem State.fpDone_x (fl : BitVec 5) : (s.fpDone fl).x = s.x := rfl
@[simp] theorem State.fpDone_f (fl : BitVec 5) : (s.fpDone fl).f = s.f := rfl
@[simp] theorem State.fpDone_priv (fl : BitVec 5) : (s.fpDone fl).priv = s.priv := rfl
@[simp] theorem State.fpDone_mcycle (fl : BitVec 5) : (s.fpDone fl).mcycle = s.mcycle := rfl
@[simp] theorem State.fpDone_mem (fl : BitVec 5) : (s.fpDone fl).mem = s.mem := rfl
@[simp] theorem State.fpDone_stale (fl : BitVec 5) : (s.fpDone fl).stale = s.stale := rfl
@[simp] theorem State.fpDone_eclic (fl : BitVec 5) : (s.fpDone fl).eclic = s.eclic := rfl
@[simp] theorem State.fpDone_timer (fl : BitVec 5) : (s.fpDone fl).timer = s.timer := rfl
@[simp] theorem State.fpDone_resv (fl : BitVec 5) : (s.fpDone fl).resv = s.resv := rfl
@[simp] theorem State.fpDone_asleep (fl : BitVec 5) : (s.fpDone fl).asleep = s.asleep := rfl
@[simp] theorem State.fpDone_nmiPending (fl : BitVec 5) : (s.fpDone fl).nmiPending = s.nmiPending := rfl
@[simp] theorem State.fpDone_pendingFault (fl : BitVec 5) : (s.fpDone fl).pendingFault = s.pendingFault := rfl
@[simp] theorem State.fpDone_rxEvt (fl : BitVec 5) : (s.fpDone fl).rxEvt = s.rxEvt := rfl
@[simp] theorem State.fpDone_txEvt (fl : BitVec 5) : (s.fpDone fl).txEvt = s.txEvt := rfl
@[simp] theorem State.fpDone_eccOut (fl : BitVec 5) : (s.fpDone fl).eccOut = s.eccOut := rfl
@[simp] theorem State.fpDone_eccHits (fl : BitVec 5) : (s.fpDone fl).eccHits = s.eccHits := rfl
@[simp] theorem State.fpDone_inputs (fl : BitVec 5) : (s.fpDone fl).inputs = s.inputs := rfl
@[simp] theorem State.fpDone_free (fl : BitVec 5) : (s.fpDone fl).free = s.free := rfl
@[simp] theorem State.fpDone_cfg (fl : BitVec 5) : (s.fpDone fl).cfg = s.cfg := rfl
@[simp] theorem State.fpDone_csr (fl : BitVec 5) : (s.fpDone fl).csr = (s.csr.accrue fl).dirtyFs := rfl
@[simp] theorem State.fpDone_getX (fl : BitVec 5) (r : Reg) : (s.fpDone fl).getX r = s.getX r := rfl
@[simp] theorem State.fpDone_getF (fl : BitVec 5) (r : Reg) : (s.fpDone fl).getF r = s.getF r := rfl

end Sys2Proof.Machine
end

