-- ==== Sys2Proof/Laws/Ops.lean ====
section
/-! SUPPORT. What each shared operation of Machine/Ops.lean can do, said once: completing an instruction, jumping,
branching, raising an exception. -/

namespace Sys2Proof.Machine

theorem Csrs.countInstr_eq_counted (c : Csrs) : c.countInstr = c.counted := by
  unfold Csrs.countInstr Csrs.counted
  split <;> simp_all

theorem Csrs.countInstr_afterFp (c : Csrs) (fl : BitVec 5) : ((c.accrue fl).dirtyFs).countInstr = c.afterFp fl := by
  rw [Csrs.countInstr_eq_counted]; rfl

@[simp] theorem Csrs.counted_mstatus (c : Csrs) : c.counted.mstatus = c.mstatus := rfl
@[simp] theorem Csrs.counted_pmp (c : Csrs) : c.counted.pmp = c.pmp := rfl

@[simp] theorem retireAt_eq (t : Word) (s : State) : retireAt t s = .next ((s.withCsr s.csr.counted).withPc t) := by
  rw [retireAt, Csrs.countInstr_eq_counted]

@[simp] theorem retire_eq (len : Word) (s : State) : retire len s = .next ((s.withCsr s.csr.counted).withPc (s.pc + len)) := by
  rw [retire, retireAt_eq]

@[simp] theorem whenLegal_true (i : Instr) (s : State) (run : State → Out) : whenLegal true i s run = run s := rfl
@[simp] theorem whenLegal_false (i : Instr) (s : State) (run : State → Out) : whenLegal false i s run = illegal i s := rfl

theorem SameRest.refl (s : State) : SameRest s s := ⟨rfl, rfl, rfl, rfl, rfl, rfl, rfl, rfl, rfl, rfl, rfl, rfl, rfl, rfl⟩

theorem wroteX_setX (s : State) (rd : Reg) (v : Word) : WroteX s (s.setX rd v) rd v := by
  intro r
  rw [State.getX_setX]
  by_cases hr : r = 0#5
  · subst hr
    by_cases hd : rd = 0#5
    · subst hd; simp [State.getX]
    · simp [Ne.symm hd, State.getX]
  · by_cases h : r = rd
    · subst h; simp [hr]
    · simp [hr, h]

theorem wroteX_zero {s t : State} (h : SameX s t) (v : Word) : WroteX s t 0#5 v := by
  intro r
  rw [h r]
  by_cases hr : r = 0#5
  · subst hr; simp [State.getX]
  · simp [hr]

/-- A write of `x[rd]` that completes. -/
theorem writeRd_done (len : Word) (rd : Reg) (v : Word) (s : State) :
    ∃ t, writeRd len rd v s = .next t ∧ DoneX s t rd v (s.pc + len) :=
  ⟨_, by rw [writeRd, retire_eq],
    { x := fun r => by simpa using wroteX_setX s rd v r
      f := fun r => by simp
      mem := ⟨fun a => by simp, by simp⟩
      pc := by simp
      csr := by simp
      resv := by simp
      rest := ⟨by simp, by simp, by simp, by simp, by simp, by simp, by simp, by simp, by simp, by simp, by simp,
        by simp, by simp, by simp⟩ }⟩

/-- An instruction that writes nothing and goes on at `t`. -/
theorem retireAt_done (p : Word) (s : State) (v : Word) : ∃ t, retireAt p s = .next t ∧ DoneX s t 0#5 v p :=
  ⟨_, retireAt_eq p s,
    { x := wroteX_zero (fun _ => rfl) v
      f := fun _ => rfl
      mem := ⟨fun _ => rfl, rfl⟩
      pc := rfl
      csr := rfl
      resv := rfl
      rest := ⟨rfl, rfl, rfl, rfl, rfl, rfl, rfl, rfl, rfl, rfl, rfl, rfl, rfl, rfl⟩ }⟩

/-- A jump whose target the core allows. -/
theorem jumpLink_done (len : Word) (rd : Reg) (p : Word) (s : State) (h : badTarget s p = false) :
    ∃ t, jumpLink len rd p s = .next t ∧ DoneX s t rd (s.pc + len) p :=
  ⟨_, by rw [jumpLink, if_neg (by simp [h]), retireAt_eq],
    { x := fun r => by simpa using wroteX_setX s rd (s.pc + len) r
      f := fun r => by simp
      mem := ⟨fun a => by simp, by simp⟩
      pc := by simp
      csr := by simp
      resv := by simp
      rest := ⟨by simp, by simp, by simp, by simp, by simp, by simp, by simp, by simp, by simp, by simp, by simp,
        by simp, by simp, by simp⟩ }⟩

/-- A branch, taken to a target the core allows or not taken. -/
theorem branchIf_done (len : Word) (taken : Bool) (off : Word) (s : State)
    (h : taken = true → badTarget s (s.pc + off) = false) :
    ∃ t, branchIf len taken off s = .next t ∧ DoneX s t 0#5 0#32 (if taken then s.pc + off else s.pc + len) := by
  unfold branchIf
  cases taken with
  | false => simpa using retireAt_done (s.pc + len) s 0#32
  | true => simpa [h rfl] using retireAt_done (s.pc + off) s 0#32

/-! ### Exceptions -/

theorem evenAddr_eq (a : Word) : evenAddr a = a &&& 0xFFFFFFFE#32 := rfl
theorem alignedAddr_eq (a : Word) : alignedAddr a = a &&& 0xFFFFFFFC#32 := rfl

theorem Csrs.pushIf_false (c : Csrs) : c.pushIf false = c := rfl
theorem Csrs.pushIf_true (c : Csrs) : c.pushIf true = c.push := rfl

theorem stackPushed_push (c : Csrs) : StackPushed c c.push := ⟨rfl, rfl, rfl, rfl, rfl, rfl, rfl⟩

/-- Exception entry, as 60_exceptions.md R530 lists it. -/
theorem takeException_entered (e : Exc) (epc : Word) (s : State) :
    ExceptionEntered s (takeException e epc s) e.code.num epc := by
  have hs : StackAtEntry s.cfg.hasNestedStack s.csr (takeException e epc s).csr := by
    unfold StackAtEntry
    cases h : s.cfg.hasNestedStack with
    | false => simp [takeException, Csrs.enterException, h, Csrs.pushIf]
    | true =>
      simp only [if_true]
      have : (takeException e epc s).csr = s.csr.enterException e epc s.priv true s.free := by
        simp [takeException, h]
      rw [this]
      exact ⟨rfl, rfl, rfl, rfl, rfl, rfl, rfl⟩
  refine ⟨?_, hs, rfl, rfl, rfl, rfl, rfl, ⟨fun _ => rfl, fun _ => rfl, ⟨fun _ => rfl, rfl⟩, rfl, rfl, rfl, rfl, rfl,
    rfl, rfl, rfl, rfl, rfl⟩⟩
  cases h : s.cfg.hasNestedStack <;>
    simp [takeException, Csrs.enterException, h, Csrs.pushIf, Csrs.push, evenAddr_eq, Mstatus.enter, Msubm.enter]

@[simp] theorem takeException_tval (c : ExcCode) (v : Word) (d : Detail) (epc : Word) (s : State) :
    (takeException ⟨c, some v, d⟩ epc s).csr.mtval = v := rfl

@[simp] theorem takeException_mdcause (e : Exc) (epc : Word) (s : State) :
    (takeException e epc s).csr.mdcause = detailBits e.detail s.csr.mdcause s.free := rfl

@[simp] theorem takeException_pendingFault (e : Exc) (epc : Word) (s : State) :
    (takeException e epc s).pendingFault = s.pendingFault := rfl

/-- With no imprecise fault waiting an exception is entered at once. -/
theorem raise_eq (e : Exc) (s : State) (h : s.pendingFault = none) : raise e s = .next (takeException e s.pc s) := by
  rw [raise, h]

/-- With no imprecise fault waiting an illegal instruction enters with code 2 and its bits in mtval. -/
theorem illegal_taken (i : Instr) (s : State) (h : s.pendingFault = none) :
    ∃ t, illegal i s = .next t ∧ IllegalTaken s t (encode i).bits :=
  ⟨_, raise_eq _ s h, takeException_entered _ _ _, rfl, rfl⟩

end Sys2Proof.Machine
end

