-- ==== Sys2Proof/Laws/Access.lean ====
section
/-! SUPPORT. What a load or a store of plain memory does, said once, and how an access that fails ends
(40_rv32i.md R261, 20_memory.md R165 to R168). -/

namespace Sys2Proof.Machine

/-- An access that meets no error reads what is there. -/
theorem eccEffect_none {s : State} {path : AccessPath} {ps : List Part} (code : ExcCode)
    (h : (eccMet s path ps).isEmpty = true) : eccEffect s path ps code = .ok [] s := by
  rw [List.isEmpty_iff] at h
  have hn : ps.find? (fun p => ([] : List EccHit).any fun e => e.traps s.csr && e.meets s path p) = none := by simp
  simp only [eccEffect, h, hn]
  rfl

@[simp] theorem spoilBytes_nil (a : Word) (l : List Byte) : spoilBytes [] a l = l := by
  induction l generalizing a with
  | nil => rfl
  | cons b l ih => simp [spoilBytes, wrongByte, ih]

@[simp] theorem wrongWord_nil (a : Word) : wrongWord [] a = 0 := by
  simp [wrongWord, wrongByte]

@[simp] theorem spoilUnits_nil (s : State) : s.spoilUnits [] = s := rfl

theorem plainAccess_iff {s : State} {t : AccessKind} {path : AccessPath} {a : Word} {n : Nat} :
    plainAccess s t path a n = true ↔ misaligned s a n = false ∧
      (∀ p ∈ parts a n, pmpCheck s s.priv t p.addr = true ∧ busError s.cfg t p.addr p.size = false ∧
        plainForData s.cfg p.addr = true) ∧ (eccMet s path (parts a n)).isEmpty = true := by
  simp [plainAccess, List.all_eq_true, and_assoc]

theorem partRefusal_plain {cfg : Config} {n : Nat} {p : Part} (h : plainForData cfg p.addr = true) :
    partRefusal cfg n p = none := by
  unfold plainForData at h
  unfold partRefusal
  split <;> simp_all

theorem checkData_plain {s : State} {t : AccessKind} {path : AccessPath} {a : Word} {n : Nat}
    (h : plainAccess s t path a n = true) : checkData s t a n = .ok (parts a n) s := by
  obtain ⟨hm, hp, -⟩ := plainAccess_iff.1 h
  unfold checkData
  rw [if_neg (by simp [hm])]
  have h1 : (parts a n).findSome? (partFault s t) = none := by
    rw [List.findSome?_eq_none_iff]
    intro p hpm
    obtain ⟨h1, h2, -⟩ := hp p hpm
    simp [partFault, h1, h2]
  have h2 : (parts a n).findSome? (partRefusal s.cfg n) = none := by
    rw [List.findSome?_eq_none_iff]
    intro p hpm
    exact partRefusal_plain (hp p hpm).2.2
  rw [h1, h2]

/-! ### The parts of an access cover its bytes -/

theorem Memory.readBytes_append (m : Memory) (a : Word) (n k : Nat) :
    m.readBytes a (n + k) = m.readBytes a n ++ m.readBytes (a + BitVec.ofNat 32 n) k := by
  induction n generalizing a with
  | zero => simp [Memory.readBytes]
  | succ n ih =>
    rw [Nat.succ_add, Memory.readBytes, ih, Memory.readBytes, List.cons_append]
    congr 3
    bv_omega

theorem Memory.writeBytes_append (m : Memory) (a : Word) (l k : List Byte) :
    m.writeBytes a (l ++ k) = (m.writeBytes a l).writeBytes (a + BitVec.ofNat 32 l.length) k := by
  induction l generalizing m a with
  | nil => simp [Memory.writeBytes]
  | cons b l ih =>
    rw [List.cons_append, Memory.writeBytes, ih, Memory.writeBytes]
    congr 1
    simp only [List.length_cons]
    bv_omega

theorem partRead_plain {s : State} {p : Part} (h : plainForData s.cfg p.addr = true) :
    partRead s p = s.mem.readBytes p.addr p.size := by
  unfold plainForData at h
  unfold partRead
  split <;> simp_all

theorem flatMap_byteParts {s : State} {a : Word} {n : Nat}
    (h : ∀ p ∈ byteParts a n, plainForData s.cfg p.addr = true) :
    (byteParts a n).flatMap (partRead s) = s.mem.readBytes a n := by
  induction n generalizing a with
  | zero => rfl
  | succ n ih =>
    simp only [byteParts, List.flatMap_cons, Memory.readBytes]
    rw [partRead_plain (h _ (by simp [byteParts])), ih (fun p hp => h p (List.mem_cons_of_mem _ hp))]
    rfl

theorem flatMap_smallParts {s : State} {a : Word} {n : Nat}
    (h : ∀ p ∈ smallParts a n, plainForData s.cfg p.addr = true) :
    (smallParts a n).flatMap (partRead s) = s.mem.readBytes a n := by
  unfold smallParts at h ⊢
  split
  · next ha =>
    rw [if_pos ha] at h
    simp [partRead_plain (h ⟨a, n⟩ (by simp))]
  · next ha =>
    rw [if_neg ha] at h
    exact flatMap_byteParts h

theorem flatMap_parts {s : State} {a : Word} {n : Nat}
    (h : ∀ p ∈ parts a n, plainForData s.cfg p.addr = true) :
    (parts a n).flatMap (partRead s) = s.mem.readBytes a n := by
  unfold parts at h ⊢
  split
  · next hn =>
    rw [if_pos hn] at h
    subst hn
    rw [List.flatMap_append, flatMap_smallParts (fun p hp => h p (List.mem_append_left _ hp)),
      flatMap_smallParts (fun p hp => h p (List.mem_append_right _ hp))]
    exact (Memory.readBytes_append s.mem a 4 4).symm
  · next hn =>
    rw [if_neg hn] at h
    exact flatMap_smallParts h

/-- A load of plain memory gives its bytes and changes nothing. -/
theorem dataLoad_plain {s : State} {a : Word} {n : Nat} (h : plainLoad s a n = true) :
    dataLoad s a n = .ok (joinBytes (s.mem.readBytes a n)) s := by
  obtain ⟨-, hp, he⟩ := plainAccess_iff.1 h
  unfold dataLoad
  rw [checkData_plain h]
  simp only [eccEffect_none _ he, spoilBytes_nil]
  rw [show (fun p => partRead s p) = partRead s from rfl, flatMap_parts (fun p hpm => (hp p hpm).2.2)]

/-! ### Stores -/

/-- `t` is `s` but for its memory and the words a fetch may still see. -/
structure OnlyMem (s t : State) : Prop where
  pc : t.pc = s.pc
  x : t.x = s.x
  f : t.f = s.f
  csr : t.csr = s.csr
  resv : t.resv = s.resv
  rest : SameRest s t

theorem OnlyMem.refl (s : State) : OnlyMem s s := ⟨rfl, rfl, rfl, rfl, rfl, SameRest.refl s⟩

theorem SameRest.trans {a b c : State} (h : SameRest a b) (k : SameRest b c) : SameRest a c :=
  ⟨k.1.trans h.1, k.2.trans h.2, k.3.trans h.3, k.4.trans h.4, k.5.trans h.5, k.6.trans h.6, k.7.trans h.7,
   k.8.trans h.8, k.9.trans h.9, k.10.trans h.10, k.11.trans h.11, k.12.trans h.12, k.13.trans h.13, k.14.trans h.14⟩

theorem OnlyMem.trans {a b c : State} (h : OnlyMem a b) (k : OnlyMem b c) : OnlyMem a c :=
  ⟨k.1.trans h.1, k.2.trans h.2, k.3.trans h.3, k.4.trans h.4, k.5.trans h.5, h.6.trans k.6⟩

theorem storeMem_onlyMem (s : State) (a : Word) (bytes : List Byte) : OnlyMem s (s.storeMem a bytes) :=
  ⟨rfl, rfl, rfl, rfl, rfl, rfl, rfl, rfl, rfl, rfl, rfl, rfl, rfl, rfl, rfl, rfl, rfl, rfl, rfl⟩

@[simp] theorem storeMem_mem (s : State) (a : Word) (bytes : List Byte) :
    (s.storeMem a bytes).mem = s.mem.writeBytes a bytes := rfl

theorem partWrite_plain {s : State} {p : Part} (h : plainForData s.cfg p.addr = true) (bytes : List Byte) :
    partWrite s p bytes = s.storeMem p.addr bytes := by
  unfold plainForData at h
  unfold partWrite
  split <;> simp_all

theorem writeParts_append (s : State) (l k : List Part) (bytes : List Byte) :
    writeParts s (l ++ k) bytes =
      writeParts (writeParts s l bytes) k (bytes.drop ((l.map (·.size)).sum)) := by
  induction l generalizing s bytes with
  | nil => simp [writeParts]
  | cons p l ih => simp [writeParts, ih, List.drop_drop]

theorem writeParts_take (s : State) (l : List Part) (bytes : List Byte) (n : Nat) (hn : (l.map (·.size)).sum ≤ n) :
    writeParts s l (bytes.take n) = writeParts s l bytes := by
  induction l generalizing s bytes n with
  | nil => rfl
  | cons p l ih =>
    simp only [List.map_cons, List.sum_cons] at hn
    simp only [writeParts, List.take_take, List.drop_take]
    rw [ih _ _ _ (by omega), Nat.min_eq_left (by omega)]

theorem writeParts_bytes {s : State} {a : Word} {n : Nat} {bytes : List Byte}
    (h : ∀ p ∈ byteParts a n, plainForData s.cfg p.addr = true) (hl : bytes.length = n) :
    OnlyMem s (writeParts s (byteParts a n) bytes) ∧
      (writeParts s (byteParts a n) bytes).mem = s.mem.writeBytes a bytes := by
  induction n generalizing s a bytes with
  | zero =>
    obtain rfl := List.length_eq_zero_iff.1 hl
    exact ⟨OnlyMem.refl s, rfl⟩
  | succ n ih =>
    obtain ⟨b, rest, rfl⟩ : ∃ b rest, bytes = b :: rest := by
      cases bytes with
      | nil => simp at hl
      | cons b rest => exact ⟨b, rest, rfl⟩
    simp only [byteParts, writeParts, List.take_succ_cons, List.take_zero, List.drop_succ_cons, List.drop_zero]
    rw [partWrite_plain (h ⟨a, 1⟩ (by simp [byteParts]))]
    have hs := storeMem_onlyMem s a [b]
    obtain ⟨h1, h2⟩ := ih (s := s.storeMem a [b]) (a := a + 1) (bytes := rest)
      (fun p hp => by rw [hs.rest.cfg]; exact h p (List.mem_cons_of_mem _ hp)) (by simpa using hl)
    exact ⟨hs.trans h1, h2⟩

theorem smallParts_size (a : Word) (n : Nat) : ((smallParts a n).map (·.size)).sum = n := by
  have : ∀ (n : Nat) (a : Word), ((byteParts a n).map (·.size)).sum = n := by
    intro n
    induction n with
    | zero => intro a; rfl
    | succ n ih => intro a; simp [byteParts, ih]; omega
  unfold smallParts
  split
  · simp
  · exact this n a

theorem writeParts_small {s : State} {a : Word} {n : Nat} {bytes : List Byte}
    (h : ∀ p ∈ smallParts a n, plainForData s.cfg p.addr = true) (hl : bytes.length = n) :
    OnlyMem s (writeParts s (smallParts a n) bytes) ∧
      (writeParts s (smallParts a n) bytes).mem = s.mem.writeBytes a bytes := by
  unfold smallParts at h ⊢
  split
  · next ha =>
    rw [if_pos ha] at h
    simp only [writeParts]
    rw [partWrite_plain (h ⟨a, n⟩ (by simp)), List.take_of_length_le (by omega)]
    exact ⟨storeMem_onlyMem _ _ _, rfl⟩
  · next ha =>
    rw [if_neg ha] at h
    exact writeParts_bytes h hl

theorem writeParts_plain {s : State} {a : Word} {n : Nat} {bytes : List Byte}
    (h : ∀ p ∈ parts a n, plainForData s.cfg p.addr = true) (hl : bytes.length = n) :
    OnlyMem s (writeParts s (parts a n) bytes) ∧ (writeParts s (parts a n) bytes).mem = s.mem.writeBytes a bytes := by
  unfold parts at h ⊢
  split
  · next hn =>
    rw [if_pos hn] at h
    subst hn
    rw [writeParts_append, smallParts_size, ← writeParts_take s _ bytes 4 (by rw [smallParts_size])]
    obtain ⟨h1, h2⟩ := writeParts_small (s := s) (a := a) (n := 4) (bytes := bytes.take 4)
      (fun p hp => h p (List.mem_append_left _ hp)) (by simp [hl])
    obtain ⟨h3, h4⟩ := writeParts_small (s := writeParts s (smallParts a 4) (bytes.take 4)) (a := a + 4) (n := 4)
      (bytes := bytes.drop 4) (fun p hp => by rw [h1.rest.cfg]; exact h p (List.mem_append_right _ hp)) (by simp [hl])
    refine ⟨h1.trans h3, ?_⟩
    rw [h4, h2]
    conv_rhs => rw [← List.take_append_drop 4 bytes, Memory.writeBytes_append]
    simp [hl]
  · next hn =>
    rw [if_neg hn] at h
    exact writeParts_small h hl

/-- A store to plain memory writes its bytes and changes nothing else. -/
theorem dataStore_plain {s : State} {a : Word} {n : Nat} (v : DWord) (h : plainStore s a n = true) :
    ∃ t, dataStore s a n v = .ok () t ∧ OnlyMem s t ∧ t.mem = s.mem.writeBytes a (splitBytes n v) := by
  obtain ⟨-, hp, he⟩ := plainAccess_iff.1 h
  obtain ⟨h1, h2⟩ := writeParts_plain (s := s) (bytes := splitBytes n v) (fun p hpm => (hp p hpm).2.2)
    (length_splitBytes n v)
  refine ⟨_, ?_, h1, h2⟩
  unfold dataStore
  rw [checkData_plain h]
  simp only [eccEffect_none _ he]
  rfl

/-- A load into an integer register from plain memory. -/
theorem loadX_done {s : State} (len : Word) (rd : Reg) {ea : Word} {n : Nat} (ext : DWord → Word)
    (h : plainLoad s ea n = true) :
    ∃ t, loadX len rd ea n ext s = .next t ∧
      DoneX s t rd (ext (joinBytes (s.mem.readBytes ea n))) (s.pc + len) := by
  unfold loadX
  rw [dataLoad_plain h]
  exact writeRd_done len rd _ s

/-- A store to plain memory. -/
theorem storeX_done {s : State} (len : Word) {ea : Word} {n : Nat} (v : DWord) (hm : s.mem.wf = true) (hn : n ≤ 8)
    (h : plainStore s ea n = true) :
    ∃ t, storeX len ea n v s = .next t ∧ DoneStore s t ea n v (s.pc + len) := by
  obtain ⟨t, ht, ho, hmem⟩ := dataStore_plain v h
  unfold storeX
  rw [ht]
  refine ⟨_, retire_eq len t, ?_⟩
  exact
    { x := fun r => by simp [State.getX, ho.x]
      f := fun r => by simp [State.getF, ho.f]
      mem := fun b => by simp [hmem, Memory.read_writeBytes_splitBytes hm _ _ _ _ hn]
      pc := by simp [ho.pc]
      csr := by simp [ho.csr]
      resv := by simp [ho.resv]
      rest := ho.rest.trans ⟨rfl, rfl, rfl, rfl, rfl, rfl, rfl, rfl, rfl, rfl, rfl, rfl, rfl, rfl⟩ }

/-! ### Failing accesses -/

/-- A precise failing access enters its exception. -/
theorem failAccess_precise {s : State} (len : Word) (unstated : State → State) (e : Exc)
    (hp : s.cfg.preciseAccessFaults = true) (hf : s.pendingFault = none) :
    failAccess len unstated e s = .next (takeException e s.pc s) := by
  rw [failAccess, if_neg (by simp [isImprecise, hp]), raise_eq e s hf]

/-- The fault waits, unless one that waits already is kept. -/
theorem noteFault_eq (s : State) (e : Exc) :
    ∃ p, s.noteFault e = s.withPendingFault p ∧ (p = some e ∨ s.pendingFault ≠ none ∧ p = s.pendingFault) := by
  unfold State.noteFault
  cases h : s.pendingFault with
  | none => exact ⟨some e, rfl, .inl rfl⟩
  | some w =>
    simp only
    split
    · exact ⟨some e, rfl, .inl rfl⟩
    · exact ⟨some w, by rw [← h]; rfl, .inr ⟨by simp, rfl⟩⟩

/-- What an instruction whose access fails does to the registers and the reservation when its fault is imprecise. -/
inductive FailEffect (i : Instr) : (State → State) → Prop
  | store (hf : ¬ AccessesF i) (hs : ¬ IsScW i) : FailEffect i id
  | load {rd : Reg} (v : State → Word) (h : LoadsX i rd) (hf : ¬ AccessesF i) (hs : ¬ IsScW i) :
    FailEffect i fun t => t.setX rd (v t)
  | scW {rd : Reg} (v : State → Word) (h : LoadsX i rd) (hf : ¬ AccessesF i) (hs : IsScW i) :
    FailEffect i fun t => (t.setX rd (v t)).withResv none
  | loadF {rd : Reg} (v : State → DWord) (h : LoadsF i rd) (hs : ¬ IsScW i) : FailEffect i fun t => (t.setF rd (v t)).fpDone 0
  | storeF (h : StoresF i) (hs : ¬ IsScW i) : FailEffect i fun t => t.fpDone 0

/-- A failing access whose fault is imprecise retires, and the fault waits. -/
theorem failAccess_imprecise {i : Instr} {s : State} {len : Word} {unstated : State → State} {e : Exc}
    (hg : FailEffect i unstated) {a : Word} (hi : isImprecise s e = true) (ha : e.tval = some a) :
    ∃ t, failAccess len unstated e s = .next t ∧ RetiresWithFault i s t len e.code.num a e.detail := by
  obtain ⟨p, hp, hq⟩ := noteFault_eq s e
  have hf : (∃ e', p = some e' ∧ e'.code.num = e.code.num ∧ e'.tval = some a ∧ e'.detail = e.detail) ∨
      s.pendingFault ≠ none ∧ p = s.pendingFault := hq.imp_left fun h => ⟨e, h, rfl, ha, rfl⟩
  have hx : ∀ (t : State) (rd : Reg) (v : Word) (r : Reg), LoadsX i rd → r = 0#5 ∨ ¬ LoadsX i r →
      (t.setX rd v).getX r = t.getX r := by
    rintro t rd v r h (rfl | hr)
    · exact (State.getX_zero _).trans (State.getX_zero _).symm
    · exact State.getX_setX_other _ _ _ _ fun he => hr (he ▸ h)
  have hr : ∀ (t : State) (rd : Reg) (v : DWord) (r : Reg), LoadsF i rd → ¬ LoadsF i r →
      (t.setF rd v).getF r = t.getF r :=
    fun t rd v r h hr => State.getF_setF_other _ _ _ _ fun he => hr (he ▸ h)
  have fp : ∀ c : Csrs, ((c.accrue 0).dirtyFs).counted = c.afterFp 0 := fun c => by
    rw [← Csrs.countInstr_eq_counted, Csrs.countInstr_afterFp]
  rw [failAccess, if_pos hi, hp]
  refine ⟨_, retire_eq _ _, ?_⟩
  cases hg with
  | store h1 h2 =>
    exact ⟨hf, rfl, ⟨fun _ => rfl, rfl⟩, fun _ _ => rfl, fun _ _ => rfl, fun _ => rfl, fun h => absurd h h1, fun _ => rfl,
      fun h => absurd h h2, by constructor <;> rfl⟩
  | load v h h1 h2 =>
    exact ⟨by simpa using hf, by simp, ⟨fun _ => by simp, by simp⟩, fun r q => hx (s.withPendingFault p) _ _ r h q,
      fun _ _ => by simp [State.getF], fun _ => by simp, fun h => absurd h h1, fun _ => by simp, fun h => absurd h h2,
      by constructor <;> simp⟩
  | scW v h h1 h2 =>
    exact ⟨by simpa using hf, by simp, ⟨fun _ => by simp, by simp⟩, fun r q => hx (s.withPendingFault p) _ _ r h q,
      fun _ _ => by simp [State.getF], fun _ => by simp, fun h => absurd h h1, fun h => absurd h2 h, fun _ => by simp,
      by constructor <;> simp⟩
  | loadF v h h2 =>
    exact ⟨by simpa using hf, by simp, ⟨fun _ => by simp, by simp⟩, fun _ _ => by simp [State.getX],
      fun r q => hr (s.withPendingFault p) _ _ r h q, fun q => absurd (.inl ⟨_, h⟩) q, fun _ => fp _, fun _ => by simp,
      fun h => absurd h h2, by constructor <;> simp⟩
  | storeF h h2 =>
    exact ⟨hf, rfl, ⟨fun _ => rfl, rfl⟩, fun _ _ => rfl, fun _ _ => rfl, fun q => absurd (.inr h) q, fun _ => fp _,
      fun _ => rfl, fun h => absurd h h2, by constructor <;> rfl⟩

end Sys2Proof.Machine
end

