-- ==== Sys2Proof/Laws/Values.lean ====
section
/-! SUPPORT. What the operand and value operations compute, in terms of integers: sign extension, shifts, comparisons, the halves of a product. -/

namespace Sys2Proof.Machine

/-- A bit of `x ++ y`. -/
theorem getLsbD_append_cases {w v : Nat} (x : BitVec w) (y : BitVec v) (i : Nat) :
    (x ++ y).getLsbD i = if i < v then y.getLsbD i else x.getLsbD (i - v) := by
  have := BitVec.getLsbD_append (x := x) (y := y) (i := i)
  exact this

/-- The number left when the low bits are cleared. -/
theorem clearLow_toNat (n : Nat) (v : Word) : (clearLow n v).toNat = v.toNat / 2^n * 2^n := by
  unfold clearLow
  rw [BitVec.toNat_shiftLeft, BitVec.toNat_ushiftRight, Nat.shiftRight_eq_div_pow, Nat.shiftLeft_eq, Nat.mod_eq_of_lt]
  have := v.isLt
  have := Nat.div_mul_le_self v.toNat (2^n)
  omega

/-- The alignment of mtvt: the smallest power of two, from 64 up, that holds the table. -/
theorem mtvtZeros_spec (n : Nat) (h : n ≤ 4096) : 6 ≤ mtvtZeros n ∧ 4 * n ≤ 2 ^ mtvtZeros n ∧
    (mtvtZeros n = 6 ∨ 2 ^ (mtvtZeros n - 1) < 4 * n) := by
  unfold mtvtZeros
  split_ifs <;> refine ⟨by norm_num, by norm_num; omega, ?_⟩ <;> first | (left; rfl) | (right; norm_num; omega)

theorem sext_eq_signExtend {w} (v : BitVec w) : sext v = v.signExtend 32 := by
  unfold sext
  rw [BitVec.signExtend]

theorem flagWord_ltSigned (a b : Word) : flagWord (ltSigned a b) = if a.toInt < b.toInt then 1 else 0 := by
  unfold flagWord ltSigned; simp [BitVec.slt]

theorem flagWord_ltUnsigned (a b : Word) : flagWord (ltUnsigned a b) = if a.toNat < b.toNat then 1 else 0 := by
  unfold flagWord ltUnsigned; simp [BitVec.ult]

theorem sext_toInt (imm : BitVec 12) : (sext imm).toInt = imm.toInt := by
  rw [sext_eq_signExtend, BitVec.toInt_signExtend_of_le (by decide)]

theorem sext12_eq_sext (imm : BitVec 12) : sext12 imm = sext imm := (sext_eq_signExtend imm).symm

/-- A branch or jump offset as an integer: twice its field. -/
theorem signExtend_append_zero {w} (off : BitVec w) (hw : w + 1 ≤ 32) :
    (off ++ 0#1).signExtend 32 = BitVec.ofInt 32 (2 * off.toInt) := by
  apply BitVec.eq_of_toInt_eq
  rw [BitVec.toInt_signExtend_of_le (by omega)]
  have h1 : (off ++ 0#1).toInt = 2 * off.toInt := by
    rw [BitVec.toInt_eq_toNat_cond, BitVec.toInt_eq_toNat_cond, append_toNat]
    simp only [BitVec.toNat_ofNat, pow_succ]
    have := off.isLt
    split <;> split <;> push_cast <;> omega
  rw [h1, BitVec.toInt_ofInt, Int.bmod_eq_of_le]
  · have := BitVec.le_two_mul_toInt (x := off);
    have h2 : (2:Int)^w ≤ 2^31 := by exact_mod_cast Nat.pow_le_pow_right (by decide : 2>0) (by omega : w ≤ 31)
    norm_num at *; omega
  · have := BitVec.two_mul_toInt_lt (x := off)
    have h2 : (2:Int)^w ≤ 2^31 := by exact_mod_cast Nat.pow_le_pow_right (by decide : 2>0) (by omega : w ≤ 31)
    norm_num at *; omega

theorem shiftLeft_eq_ofNat (a : Word) (n : Nat) : a <<< n = BitVec.ofNat 32 (a.toNat * 2 ^ n) := by
  apply BitVec.eq_of_toNat_eq; simp [Nat.shiftLeft_eq]

theorem ushiftRight_eq_ofNat (a : Word) (n : Nat) : a >>> n = BitVec.ofNat 32 (a.toNat / 2 ^ n) := by
  apply BitVec.eq_of_toNat_eq
  have := a.isLt
  have h2 : a.toNat / 2^n ≤ a.toNat := Nat.div_le_self _ _
  rw [BitVec.toNat_ushiftRight, Nat.shiftRight_eq_div_pow, BitVec.toNat_ofNat, Nat.mod_eq_of_lt (by omega)]

theorem sshiftRight_eq_ofInt (a : Word) (n : Nat) : a.sshiftRight n = BitVec.ofInt 32 (a.toInt / 2 ^ n) := by
  rw [BitVec.sshiftRight, Int.shiftRight_eq_div_pow]; norm_num

theorem shiftBy_toNat (v : Word) : (shiftBy v).toNat = v.toNat % 32 := by simp [shiftBy]

theorem badTarget_false {s : State} {p : Word} (h : s.cfg.hasC = false → p.getLsbD 1 = false) :
    badTarget s p = false := by
  unfold badTarget; cases hc : s.cfg.hasC <;> simp_all

/-- The upper half of a 64-bit product of integers. -/
theorem highHalf_ofInt (p : DWord) (n : Int) (h : p = BitVec.ofInt 64 n) :
    highHalf p = BitVec.ofInt 32 (n / 2 ^ 32) := by
  subst h
  apply BitVec.eq_of_toNat_eq
  simp only [highHalf, BitVec.extractLsb'_toNat, BitVec.toNat_ofInt, Nat.shiftRight_eq_div_pow]
  omega

/-- A scaled signed field as an integer. -/
theorem signExtend_append_zeros {w} (imm : BitVec w) (k : Nat) (hw : w + k ≤ 32) (hk : 0 < w) :
    (imm ++ (0#k)).signExtend 32 = BitVec.ofInt 32 (2^k * imm.toInt) := by
  apply BitVec.eq_of_toInt_eq
  rw [BitVec.toInt_signExtend_of_le (by omega)]
  have h1 : (imm ++ 0#k).toInt = 2^k * imm.toInt := by
    rw [BitVec.toInt_eq_toNat_cond, BitVec.toInt_eq_toNat_cond, append_toNat]
    simp only [BitVec.toNat_ofNat, Nat.zero_mod, add_zero, pow_add]
    have := imm.isLt
    have hp : 0 < 2^k := Nat.pow_pos (by decide)
    have : (2 * (imm.toNat * 2^k) < 2^w * 2^k) ↔ 2 * imm.toNat < 2^w := by
      rw [← mul_assoc]; exact Nat.mul_lt_mul_right hp
    simp only [this]
    split <;> push_cast <;> ring
  rw [h1, BitVec.toInt_ofInt, ← h1, Int.bmod_eq_of_le]
  all_goals
    have h2 : 2^(w+k-1) ≤ 2^31 := Nat.pow_le_pow_right (by decide : 2>0) (by omega)
    have h3 : 2^(w+k) = 2 * 2^(w+k-1) := by rw [← pow_succ']; congr 1; omega
  · have := BitVec.le_two_mul_toInt (x := imm ++ 0#k)
    have h4 : ((2:Int)^(w+k)) = 2 * 2^(w+k-1) := by exact_mod_cast h3
    have h5 : ((2:Int)^(w+k-1)) ≤ 2^31 := by exact_mod_cast h2
    rw [h4] at this; norm_num at *; omega
  · have := BitVec.two_mul_toInt_lt (x := imm ++ 0#k)
    have h4 : ((2:Int)^(w+k)) = 2 * 2^(w+k-1) := by exact_mod_cast h3
    have h5 : ((2:Int)^(w+k-1)) ≤ 2^31 := by exact_mod_cast h2
    rw [h4] at this; norm_num at *; omega

/-- A scaled unsigned field as a number. -/
theorem zeroExtend_append_zeros {w} (imm : BitVec w) (k : Nat) :
    (imm ++ (0#k)).zeroExtend 32 = BitVec.ofNat 32 (2^k * imm.toNat) := by
  apply BitVec.eq_of_toNat_eq
  simp only [BitVec.truncate_eq_setWidth, BitVec.toNat_setWidth, append_toNat, BitVec.toNat_ofNat]
  simp [mul_comm]

theorem setWidth_append (a v : BitVec 32) : (a ++ v).setWidth 32 = v := by
  apply BitVec.eq_of_getLsbD_eq; intro i hi; simp only [BitVec.getLsbD_setWidth, getLsbD_append_cases, if_pos hi]; simp [hi]

theorem extractLsb_append (a v : BitVec 32) : (a ++ v).extractLsb' 32 32 = a := by
  apply BitVec.eq_of_getLsbD_eq; intro i hi; simp only [BitVec.getLsbD_extractLsb', getLsbD_append_cases]; rw [if_neg (by omega)]; simp [hi]

theorem double_halves (m : BitVec 64) : m.setWidth 32 = BitVec.ofNat 32 m.toNat ∧
    m.extractLsb' 32 32 = BitVec.ofNat 32 (m.toNat / 2^32) := by
  constructor
  · apply BitVec.eq_of_toNat_eq; simp
  · apply BitVec.eq_of_toNat_eq; simp [Nat.shiftRight_eq_div_pow]

end Sys2Proof.Machine
end

