-- ==== Sys2Proof/Laws/Csrs.lean ====
section
/-! SUPPORT. The CSRs: which address names which, what a write changes and leaves, the layouts. -/

namespace Sys2Proof.Machine

/-- What a CSR address can name. -/
theorem ofAddr_cases {a : CsrAddr} {c : Csr} (h : Csr.ofAddr a = some c) :
    (∃ k, k < 16 ∧ c = .pmpcfg k ∧ a.toNat = 0x3A0 + k) ∨ (∃ n, n < 64 ∧ c = .pmpaddr n ∧ a.toNat = 0x3B0 + n) ∨
      (a.toNat, c) ∈ csrTable := by
  unfold Csr.ofAddr at h
  simp only at h
  split at h
  · left; refine ⟨a.toNat - 0x3A0, by omega, (Option.some.inj h).symm, by omega⟩
  · split at h
    · right; left; refine ⟨a.toNat - 0x3B0, by omega, (Option.some.inj h).symm, by omega⟩
    · right; right
      rw [Option.map_eq_some_iff] at h
      obtain ⟨p, hp, rfl⟩ := h
      have h2 := List.find?_some hp
      have h3 := List.mem_of_find?_eq_some hp
      simp only [beq_iff_eq] at h2
      rw [← h2]; exact h3

/-- A CSR instruction that passes the access check runs. -/
theorem csrInstr_permitted {s : State} {i : Instr} {form : CsrForm} {rd : Reg} {a : CsrAddr} {c : Csr}
    {field : BitVec 5} (ha : Csr.ofAddr a = some c)
   (hp : c.permitted s (form.writes field) = true) : csrInstr i form rd a field s = csrDispatch form rd c field s := by
  simp only [csrInstr, ha, hp, if_true]

/-- A CSR that is storage is read and written as such. -/
theorem csrDispatch_plain {s : State} {form : CsrForm} {rd : Reg} {c : Csr} {field : BitVec 5}
    (hc : c.isPoint = false) : csrDispatch form rd c field s = csrPlain form rd c field s := by
  cases c <;> simp [Csr.isPoint] at hc <;> rfl

/-- What MPP holds after a field is stored in it. -/
theorem storeMpp_stored (cfg : Config) (n : Nat) (b : BitVec 2) : MppStored cfg b (storeMpp cfg n b).bits := by
  unfold MppStored storeMpp
  refine ⟨fun h => by simp [h, Priv.bits], fun h hu => by simp [h, hu, Priv.bits], ?_⟩
  split
  · simp [Priv.bits]
  · cases cfg.hasUmode
    · simp [Priv.bits]
    · simp only [if_true]
      split
      · simp [Priv.bits]
      · split <;> simp [Priv.bits]

theorem mstatus_mpp (m : Mstatus) : m.word.extractLsb' 11 2 = m.mpp.bits := by
  apply BitVec.eq_of_getLsbD_eq; intro i hi
  interval_cases i <;> simp only [Mstatus.word, getLsbD_append_cases, BitVec.getLsbD_extractLsb'] <;> simp

theorem mstatus_fs (m : Mstatus) : m.word.extractLsb' 13 2 = m.fs := by
  apply BitVec.eq_of_getLsbD_eq; intro i hi
  interval_cases i <;> simp only [Mstatus.word, getLsbD_append_cases, BitVec.getLsbD_extractLsb'] <;> simp

theorem mstatus_xs (m : Mstatus) : m.word.extractLsb' 15 2 = m.xs := by
  apply BitVec.eq_of_getLsbD_eq; intro i hi
  interval_cases i <;> simp only [Mstatus.word, getLsbD_append_cases, BitVec.getLsbD_extractLsb'] <;> simp

theorem cause_mpp (a b : Bool) (p : BitVec 2) (c : Bool) (l : BitVec 8) (k : BitVec 12) :
    (causeWord a b p c l k).extractLsb' 28 2 = p := by
  apply BitVec.eq_of_getLsbD_eq; intro i hi
  interval_cases i <;> simp only [causeWord, getLsbD_append_cases, BitVec.getLsbD_extractLsb'] <;> simp

theorem eccCodeMask_eq (w : Nat) : eccCodeMask w = BitVec.ofNat 9 (2 ^ min 9 w - 1) := by
  unfold eccCodeMask
  by_cases h : w ≥ 9
  · rw [show 9 - w = 0 by omega, show min 9 w = 9 by omega]; decide
  · interval_cases w <;> decide

/-- The four bytes of pmpcfg<k>. -/
theorem pmpcfgWord_byte (l : List PmpEntry) (k j : Nat) (hj : j < 4) :
    (pmpcfgWord l k).extractLsb' (8*j) 8 = pmpByte l (4*k+j) := by
  apply BitVec.eq_of_getLsbD_eq; intro i hi
  interval_cases j <;> interval_cases i <;> simp only [pmpcfgWord, getLsbD_append_cases, BitVec.getLsbD_extractLsb'] <;> simp

/-- A write of pmpcfg<k> reaches its four entries. -/
theorem writePmpcfg_entry (l : List PmpEntry) (k j : Nat) (v : Word) (hj : j < 4) :
    (writePmpcfg l k v)[4*k+j]? = (l[4*k+j]?).map (·.writeCfg (v.extractLsb' (8*j) 8)) := by
  unfold writePmpcfg
  simp only [List.getElem?_modify]
  interval_cases j <;> simp

/-- A write of pmpcfg<k> reaches no other entry. -/
theorem writePmpcfg_other (l : List PmpEntry) (k n : Nat) (v : Word) (hn : n / 4 ≠ k) :
    (writePmpcfg l k v)[n]? = l[n]? := by
  unfold writePmpcfg
  simp only [List.getElem?_modify]
  have h0 : ¬ 4 * k = n := by omega
  have h1 : ¬ 4 * k + 1 = n := by omega
  have h2 : ¬ 4 * k + 2 = n := by omega
  have h3 : ¬ 4 * k + 3 = n := by omega
  simp [h0, h1, h2, h3]

theorem writePmpcfg_len (l : List PmpEntry) (k : Nat) (v : Word) : (writePmpcfg l k v).length = l.length := by
  simp [writePmpcfg]

/-- The byte of an entry after a write. -/
theorem writeCfg_stored (e : PmpEntry) (w : Byte) : PmpByteStored e.cfgByte w (e.writeCfg w).cfgByte := by
  have h7 : e.cfgByte.getLsbD 7 = e.lock := by simp only [PmpEntry.cfgByte, getLsbD_append_cases]; simp
  unfold PmpByteStored
  rw [h7]
  cases hl : e.lock
  · simp only [Bool.false_eq_true, if_false, PmpEntry.writeCfg, hl]
    have : ∀ b : Byte, PmpEntry.cfgByte { e with lock := b.getLsbD 7, mode := .ofBits (b.extractLsb' 3 2), x := b.getLsbD 2, w := b.getLsbD 1, r := b.getLsbD 0 }
       = if b.extractLsb' 3 2 = 1#2 then b &&& 0x87#8 else b &&& 0x9F#8 := by
      simp only [PmpEntry.cfgByte]; decide
    exact this w
  · simp [PmpEntry.writeCfg, hl]

theorem writeCache_csr (s : State) (v : Word) : (s.writeCache v).csr = s.csr.writeCache v := by
  unfold State.writeCache; simp only; split <;> rfl

/-- A write of a CSR changes that CSR only. -/
theorem write_only (c : Csrs) (cfg : Config) (fr : Nat) (r : Csr) (v : Word) (h1 : r ≠ .mcacheCtl) :
    CsrOnly r c (c.write cfg fr r v) := by
  cases r with
  | mcacheCtl => exact absurd rfl h1
  | pmpcfg k =>
    refine ⟨rfl, writePmpcfg_len _ _ _, fun n hn => writePmpcfg_other _ _ _ _ hn, fun n e e' he he' => ?_⟩
    by_cases hn : n / 4 = k
    · have hd : n = 4 * k + n % 4 := by omega
      rw [hd] at he he'
      have : (Csrs.write c cfg fr (.pmpcfg k) v).pmp = writePmpcfg c.pmp k v := rfl
      rw [this, writePmpcfg_entry _ _ _ _ (Nat.mod_lt _ (by omega)), he] at he'
      simp only [Option.map_some, Option.some.injEq] at he'
      subst he'
      unfold PmpEntry.writeCfg; split <;> rfl
    · have : (Csrs.write c cfg fr (.pmpcfg k) v).pmp = writePmpcfg c.pmp k v := rfl
      rw [this, writePmpcfg_other _ _ _ _ hn, he] at he'
      cases he'; rfl
  | pmpaddr k =>
    refine ⟨rfl, by simp [Csrs.write], fun n hn => by simp [Csrs.write, Ne.symm hn],
      fun n e e' he he' => ?_⟩
    simp only [Csrs.write, List.getElem?_modify, he] at he'
    simp only [Option.map_eq_map, Option.map_some, Option.some.injEq] at he'
    subst he'
    split
    · unfold PmpEntry.writeAddr; split <;> rfl
    · rfl
  | minstret =>
    refine ⟨rfl, ?_⟩
    apply BitVec.eq_of_getLsbD_eq; intro i hi
    simp only [Csrs.write, BitVec.getLsbD_extractLsb', getLsbD_append_cases]
    rw [if_neg (by omega)]; simp [hi]
  | minstreth =>
    refine ⟨rfl, ?_⟩
    apply BitVec.eq_of_getLsbD_eq; intro i hi
    simp only [Csrs.write, BitVec.getLsbD_setWidth, getLsbD_append_cases]
    rw [if_pos hi]; simp [hi]
  | fflags => rfl
  | frm => rfl
  | fcsr => rfl
  | mstatus => rfl
  | misa => rfl
  | mie => rfl
  | mtvec => rfl
  | mcounteren => rfl
  | mtvt => rfl
  | mcountinhibit => rfl
  | mscratch => rfl
  | mepc => rfl
  | mcause => rfl
  | mtval => rfl
  | mip => rfl
  | mnxti => rfl
  | mintstatus => rfl
  | mscratchcsw => rfl
  | mscratchcswl => rfl
  | milmCtl => rfl
  | mdlmCtl => rfl
  | meccCode => rfl
  | mnvec => rfl
  | msubm => rfl
  | mdcause => rfl
  | mmiscCtl => rfl
  | msavestatus => rfl
  | msaveepc1 => rfl
  | msavecause1 => rfl
  | msaveepc2 => rfl
  | msavecause2 => rfl
  | msavedcause1 => rfl
  | msavedcause2 => rfl
  | meccLock => rfl
  | pushmsubm => rfl
  | mtvt2 => rfl
  | jalmnxti => rfl
  | pushmcause => rfl
  | pushmepc => rfl
  | mppicfgInfo => rfl
  | mfiocfgInfo => rfl
  | ucode => rfl
  | wfe => rfl
  | sleepvalue => rfl
  | txevt => rfl
  | mcycle => rfl
  | mcycleh => rfl
  | cycle => rfl
  | time => rfl
  | instret => rfl
  | cycleh => rfl
  | timeh => rfl
  | instreth => rfl
  | mvendorid => rfl
  | marchid => rfl
  | mimpid => rfl
  | mhartid => rfl
  | micfgInfo => rfl
  | mdcfgInfo => rfl
  | mcfgInfo => rfl

/-- Bytes outside the redrawn range read as before. -/
theorem redraw_read {m : Memory} (h : m.wf = true) (d : IlmDraw)
    (hd : ∀ d', m.draw = some d' → d'.base = d.base ∧ d'.size = d.size) (a : Word)
   (ho : within d.base d.size a.toNat = false) : (m.redraw d).read a = m.read a := by
  have hin : ¬ (d.base ≤ a.toNat ∧ a.toNat < d.base + d.size) := by simpa [within] using ho
  have hu : m.unlisted a.toNat = 0 := by
    unfold Memory.unlisted
    cases hdr : m.draw with
    | none => rfl
    | some d' => obtain ⟨e1, e2⟩ := hd d' hdr; simp only [e1, e2, if_neg hin]
  have hu' : (m.redraw d).unlisted a.toNat = 0 := by simp only [Memory.unlisted, Memory.redraw, if_neg hin]
  unfold Memory.read
  rw [hu, hu']
  congr 1
  rw [Memory.wf_iff] at h
  have h2 : ∀ c ∈ m.cells, c.1 = a.toNat → c.2 ≠ 0 := fun c hc he => by
    have := (h.2 c hc).2; rwa [he, hu] at this
  show lookupCell (m.cells.filter _) _ = _
  generalize m.cells = l at h2
  induction l with
  | nil => rfl
  | cons p l ih =>
    obtain ⟨k, b⟩ := p
    have ih' := ih fun c hc => h2 c (List.mem_cons_of_mem _ hc)
    by_cases hk : a.toNat = k
    · have hb := h2 (k, b) (by simp) hk.symm
      have : (!(decide (d.base ≤ k) && decide (k < d.base + d.size)) && b != 0) = true := by
        rw [← hk]; simp only [Bool.and_eq_true, bne_iff_ne]; refine ⟨?_, hb⟩
        simp only [Bool.not_eq_true', Bool.and_eq_false_iff, decide_eq_false_iff_not]; omega
      rw [List.filter_cons, if_pos this]
      simp [lookupCell, hk]
    · rw [List.filter_cons]
      split
      · simp only [lookupCell, hk, if_false]; exact ih'
      · simp only [lookupCell, hk, if_false]; exact ih'

theorem withTxEvt_frame (s : State) (v : Word) (b : Bool) (h : b = if v.getLsbD 0 = true then true else s.txEvt) :
    CsrFrame s (s.withTxEvt b) .txevt v := by
  refine { f := fun _ => rfl, priv := rfl, mcycle := fun _ _ => rfl, low := fun _ => rfl, high := fun _ => rfl,
           mem := fun _ => rfl, outside := fun _ _ _ _ => rfl, stale := rfl, eclic := rfl, timer := rfl,
           resv := rfl, asleep := rfl, nmiPending := rfl, pendingFault := rfl, rxEvt := rfl, txEvt := ?_,
           eccHits := rfl, inputs := rfl, free := rfl, cfg := rfl, eccOut := rfl }
  simp only [true_and]; exact h

/-- Everything a CSR write leaves as it was. -/
theorem csrWrite_frame (s : State) (c : Csr) (v : Word) : CsrFrame s (csrWrite s c v) c v := by
  have gen : ∀ d, csrWrite s c v = s.withCsr d → c ≠ .txevt → CsrFrame s (csrWrite s c v) c v := fun d h ht => by
    rw [h]
    exact { f := fun _ => rfl, priv := rfl, mcycle := fun _ _ => rfl, low := fun _ => rfl, high := fun _ => rfl,
            mem := fun _ => rfl,
            outside := fun _ _ _ _ => rfl, stale := rfl, eclic := rfl, timer := rfl, resv := rfl, asleep := rfl, nmiPending := rfl,
            pendingFault := rfl, rxEvt := rfl, txEvt := by simp [ht], eccHits := rfl, inputs := rfl, free := rfl, cfg := rfl, eccOut := rfl }
  by_cases h1 : c = .mcycle
  · subst h1
    exact { f := fun _ => rfl, priv := rfl, mcycle := fun h => absurd rfl h, low := fun h => by simp at h,
            high := fun _ => extractLsb_append _ _,
            mem := fun _ => rfl,
            outside := fun _ _ _ _ => rfl, stale := rfl, eclic := rfl, timer := rfl, resv := rfl, asleep := rfl, nmiPending := rfl,
            pendingFault := rfl, rxEvt := rfl, txEvt := by simp [csrWrite], eccHits := rfl, inputs := rfl, free := rfl, cfg := rfl, eccOut := rfl }
  by_cases h2 : c = .mcycleh
  · subst h2
    exact { f := fun _ => rfl, priv := rfl, mcycle := fun _ h => absurd rfl h, high := fun h => by simp at h,
            low := fun _ => setWidth_append _ _,
            mem := fun _ => rfl,
            outside := fun _ _ _ _ => rfl, stale := rfl, eclic := rfl, timer := rfl, resv := rfl, asleep := rfl, nmiPending := rfl,
            pendingFault := rfl, rxEvt := rfl, txEvt := by simp [csrWrite], eccHits := rfl, inputs := rfl, free := rfl, cfg := rfl, eccOut := rfl }
  by_cases h3 : c = .txevt
  · subst h3
    show CsrFrame s (if v.getLsbD 0 then s.withTxEvt true else s) _ _
    cases hv : v.getLsbD 0
    · exact withTxEvt_frame s v s.txEvt (by rw [hv]; simp)
    · exact withTxEvt_frame s v true (by rw [hv]; simp)
  by_cases h4 : c = .mcacheCtl
  · subst h4
    show CsrFrame s (s.writeCache v) _ _
    have hs : (s.writeCache v).csr.scpdIsIlm = (s.csr.writeCache v).scpdIsIlm := by rw [writeCache_csr]
    refine { f := ?g_f, priv := ?g_priv, mcycle := ?g_mcycle, low := ?g_low, high := ?g_high, mem := ?g_mem,
             outside := ?g_outside, stale := ?g_stale, eclic := ?g_eclic, timer := ?g_timer, resv := ?g_resv,
             asleep := ?g_asleep, nmiPending := ?g_nmiPending, pendingFault := ?g_pendingFault, rxEvt := ?g_rxEvt,
             txEvt := ?g_txEvt, eccHits := ?g_eccHits, inputs := ?g_inputs, free := ?g_free,
             cfg := ?g_cfg, eccOut := ?g_eccOut }
    case g_mem =>
      intro h
      rw [hs] at h
      unfold State.writeCache; simp only
      split
      · rename_i hc; simp only [Bool.and_eq_true, bne_iff_ne] at hc; exact absurd (h rfl hc.1) hc.2
      · rfl
    case g_outside =>
      intro hwf hd a ha
      unfold State.writeCache; simp only
      split
      · exact redraw_read hwf _ (fun d' h => hd d' h) a ha
      · rfl
    all_goals (unfold State.writeCache; simp only; split <;> first | rfl | (intro _; rfl) | (intro _ _; rfl))
  · refine gen (s.csr.write s.cfg s.free c v) ?_ h3
    cases c <;> first | rfl | exact absurd rfl h1 | exact absurd rfl h2 | exact absurd rfl h3 | exact absurd rfl h4

theorem csrWrite_x (s : State) (c : Csr) (v : Word) : (csrWrite s c v).x = s.x := by
  have : ∀ v, (s.writeCache v).x = s.x := fun v => by unfold State.writeCache; simp only; split <;> rfl
  cases c <;> first | rfl | exact this v | (simp only [csrWrite]; split <;> rfl)

theorem csrWrite_pc (s : State) (c : Csr) (v : Word) : (csrWrite s c v).pc = s.pc := by
  have : ∀ v, (s.writeCache v).pc = s.pc := fun v => by unfold State.writeCache; simp only; split <;> rfl
  cases c <;> first | rfl | exact this v | (simp only [csrWrite]; split <;> rfl)

theorem csrWrite_csr (s : State) (c : Csr) (v : Word) (h : c ≠ .mcacheCtl) :
    (csrWrite s c v).csr = s.csr.write s.cfg s.free c v := by
  cases c <;> first | rfl | exact absurd rfl h | (simp only [csrWrite]; split <;> rfl)

end Sys2Proof.Machine
end

