-- ==== Sys2Proof/Laws/Effect.lean ====
section
/-! SUPPORT. Everything an instruction can do, said once: `exec_ran`. Its working changes (`Work`) are a few primitive
ones, each with the guard under which it happens; then it completes, enters a trap, or is MRET. What every step keeps is
then an induction over `Work` and three cases, with no look at any single instruction. -/

namespace Sys2Proof.Machine

/-- The input lines of the sources of an ECLIC. -/
def Eclic.lines (e : Eclic) : List Bool := e.srcs.map (·.line)

/-- The state after the working changes of an instruction that has not trapped. -/
inductive Work (s : State) : State → Prop
  | refl : Work s s
  | setX {t : State} (h : Work s t) (r : Reg) (v : Word) : Work s (t.setX r v)
  | setF {t : State} (h : Work s t) (r : Reg) (v : DWord) : Work s (t.setF r v)
  | goTo {t : State} (h : Work s t) (p : Word) (hp : t.pc.getLsbD 0 = false → p.getLsbD 0 = false) :
    Work s (t.withPc p)
  | count {t : State} (h : Work s t) : Work s (t.withCsr t.csr.counted)
  | fp {t : State} (h : Work s t) (fl : BitVec 5) (hf : t.cfg.hasF = true ∨ t.cfg.hasD = true) : Work s (t.fpDone fl)
  | mem {t : State} (h : Work s t) (a : Word) (bytes : List Byte) : Work s (t.withMem (t.mem.writeBytes a bytes))
  | stale {t : State} (h : Work s t) (l : List (Nat × Word)) : Work s (t.withStale l)
  | timer {t : State} (h : Work s t) (u : Timer) (hu : t.timer.msftrst = true → u.msftrst = true) :
    Work s (t.setTimer u)
  | eclic {t : State} (h : Work s t) (e : Eclic) (he : e.lines = t.eclic.lines) : Work s (t.withEclic e)
  | resv {t : State} (h : Work s t) (r : Option Word) (hr : ∀ a, r = some a → a.extractLsb' 0 2 = 0#2) :
    Work s (t.withResv r)
  | noteEcc {t : State} (h : Work s t) (u : EccUnit) (double : Bool) : Work s (t.noteEcc u double)
  | sleep {t : State} (h : Work s t) : Work s (t.withAsleep true)
  | noteFault {t : State} (h : Work s t) (e : Exc) (hp : t.cfg.preciseAccessFaults = false) : Work s (t.noteFault e)
  | csr {t : State} (h : Work s t) (c : Csr) (v : Word) (hp : c.permitted t true = true) : Work s (csrWrite t c v)
  | claim {t : State} (h : Work s t) (r : Request) (hm : t.priv = .machine) : Work s (t.claimIrq r)
  | enable {t : State} (h : Work s t) (hm : t.priv = .machine) :
    Work s (t.withCsr { t.csr with mstatus := { t.csr.mstatus with mie := true } })

/-- The CSRs MRET leaves (46_system.md R490, R491). -/
def Csrs.afterMret (c : Csrs) (cfg : Config) (free : Nat) : Csrs :=
  if cfg.hasNestedStack = true ∧ c.mcause.interrupt = false then c.leaveTrapPop cfg free else c.leaveTrap cfg.hasUmode

/-- The state MRET leaves (46_system.md R490). -/
def State.afterMret (s : State) : State :=
  ((((s.withCsr (s.csr.afterMret s.cfg s.free)).withPriv s.csr.mstatus.mpp).withResv none).withCsr
    (s.csr.afterMret s.cfg s.free).counted).withPc s.csr.mepc

/-- How the execution of `i` in `s` may end in a next state. -/
inductive Ran (i : Instr) (s : State) : State → Prop
  | done {t : State} (h : Work s t) : Ran i s t
  | trap {t : State} (h : Work s t) (e : Exc) (epc : Word) : Ran i s (takeException e epc (t.withPendingFault none))
  | mret (hi : i = .mret) (hm : s.priv = .machine) (hu : s.csr.mstatus.mpp = .user → s.cfg.hasUmode = true) :
    Ran i s s.afterMret

/-- Every next state of the outcome is one of these. -/
def Runs (i : Instr) (s : State) (o : Out) : Prop := ∀ t, o = .next t → Ran i s t

theorem Work.trans {s t u : State} (h : Work s t) (k : Work t u) : Work s u := by
  induction k with
  | refl => exact h
  | setX _ r v ih => exact ih.setX r v
  | setF _ r v ih => exact ih.setF r v
  | goTo _ p hp ih => exact ih.goTo p hp
  | count _ ih => exact ih.count
  | fp _ fl hf ih => exact ih.fp fl hf
  | mem _ a b ih => exact ih.mem a b
  | stale _ l ih => exact ih.stale l
  | timer _ t ht ih => exact ih.timer t ht
  | eclic _ e he ih => exact ih.eclic e he
  | resv _ r hr ih => exact ih.resv r hr
  | noteEcc _ u d ih => exact ih.noteEcc u d
  | sleep _ ih => exact ih.sleep
  | noteFault _ e hp ih => exact ih.noteFault e hp
  | csr _ c v hp ih => exact ih.csr c v hp
  | claim _ r hm ih => exact ih.claim r hm
  | enable _ hm ih => exact ih.enable hm

/-! ### The configuration and the mode stay -/

theorem setTimer_shape (s : State) (t : Timer) :
    s.setTimer t = { s with timer := (s.setTimer t).timer, eclic := (s.setTimer t).eclic } := by
  unfold State.setTimer
  simp only
  split <;> rfl

theorem writeCache_shape (s : State) (v : Word) :
    s.writeCache v = { s with csr := s.csr.writeCache v, mem := (s.writeCache v).mem } := by
  unfold State.writeCache
  simp only
  split <;> rfl

theorem csrWrite_cfg (s : State) (c : Csr) (v : Word) : (csrWrite s c v).cfg = s.cfg := by
  have h : (s.writeCache v).cfg = s.cfg := by rw [writeCache_shape]
  cases c <;> first | rfl | exact h | (simp only [csrWrite]; split <;> rfl)

theorem csrWrite_priv (s : State) (c : Csr) (v : Word) : (csrWrite s c v).priv = s.priv := by
  have h : (s.writeCache v).priv = s.priv := by rw [writeCache_shape]
  cases c <;> first | rfl | exact h | (simp only [csrWrite]; split <;> rfl)

theorem noteFault_shape (s : State) (e : Exc) : ∃ p, s.noteFault e = s.withPendingFault p := by
  unfold State.noteFault
  split
  · exact ⟨_, rfl⟩
  · split
    · exact ⟨_, rfl⟩
    · rename_i q hq _
      exact ⟨some q, by rw [← hq]; rfl⟩

theorem Work.cfg {s t : State} (h : Work s t) : t.cfg = s.cfg := by
  induction h with
  | timer _ u _ ih => rw [setTimer_shape]; exact ih
  | csr _ c v _ ih => rw [csrWrite_cfg]; exact ih
  | noteFault _ e _ ih => obtain ⟨p, hp⟩ := noteFault_shape _ e; rw [hp]; exact ih
  | setX _ r v ih => simpa using ih
  | refl => rfl
  | _ => assumption

theorem Work.priv {s t : State} (h : Work s t) : t.priv = s.priv := by
  induction h with
  | timer _ u _ ih => rw [setTimer_shape]; exact ih
  | csr _ c v _ ih => rw [csrWrite_priv]; exact ih
  | noteFault _ e _ ih => obtain ⟨p, hp⟩ := noteFault_shape _ e; rw [hp]; exact ih
  | setX _ r v ih => simpa using ih
  | refl => rfl
  | _ => assumption

/-! ### Even addresses -/

theorem even_add {a b : Word} (ha : a.getLsbD 0 = false) (hb : b.getLsbD 0 = false) : (a + b).getLsbD 0 = false := by
  simp [BitVec.getLsbD_eq_getElem] at ha hb ⊢
  simp [BitVec.getElem_add, ha, hb]

theorem even_evenAddr (a : Word) : (evenAddr a).getLsbD 0 = false := by
  simp [evenAddr]

/-! ### Completing -/

theorem runs_work {i : Instr} {s t : State} (h : Work s t) : Runs i s (.next t) := fun _ e => by
  cases e
  exact .done h

theorem runs_refused {i : Instr} {s : State} (r : Refusal) : Runs i s (.refused r) := fun _ e => by cases e

theorem runs_retireAt {i : Instr} {s t : State} (h : Work s t) (p : Word)
    (hp : t.pc.getLsbD 0 = false → p.getLsbD 0 = false) : Runs i s (retireAt p t) := by
  rw [retireAt_eq]
  exact runs_work (h.count.goTo p hp)

theorem runs_retire {i : Instr} {s t : State} (h : Work s t) (len : Word) (hl : len.getLsbD 0 = false) :
    Runs i s (retire len t) := runs_retireAt h _ fun hp => even_add hp hl

theorem runs_writeRd {i : Instr} {s : State} (len : Word) (rd : Reg) (v : Word) (hl : len.getLsbD 0 = false) :
    Runs i s (writeRd len rd v s) := runs_retire (Work.refl.setX rd v) len hl

theorem runs_raise {i : Instr} {s t : State} (h : Work s t) (e : Exc) : Runs i s (raise e t) := fun u hu => by
  unfold raise at hu
  split at hu
  · rename_i hn
    cases hu
    have : t = t.withPendingFault none := by rw [← hn]; rfl
    rw [this]
    exact .trap h e _
  · cases hu
    exact .trap h _ _

theorem runs_illegal {i j : Instr} {s : State} : Runs i s (illegal j s) := runs_raise .refl _

theorem runs_whenLegal {i j : Instr} {s : State} {ok : Bool} {run : State → Out} (h : ok = true → Runs i s (run s)) :
    Runs i s (whenLegal ok j s run) := by
  cases ok
  · exact runs_illegal
  · exact h rfl

theorem runs_jumpLink {i : Instr} {s : State} (len : Word) (rd : Reg) (p : Word)
    (hp : s.pc.getLsbD 0 = false → p.getLsbD 0 = false) : Runs i s (jumpLink len rd p s) := by
  unfold jumpLink
  split
  · exact runs_raise .refl _
  · exact runs_retireAt (Work.refl.setX rd _) p (by simpa using hp)

theorem runs_branchIf {i : Instr} {s : State} (len : Word) (taken : Bool) (off : Word) (hl : len.getLsbD 0 = false)
    (ho : off.getLsbD 0 = false) : Runs i s (branchIf len taken off s) := by
  unfold branchIf
  split
  · split
    · exact runs_raise .refl _
    · exact runs_retireAt .refl _ fun hp => even_add hp ho
  · exact runs_retire .refl len hl

/-! ### Data accesses -/

/-- An access leaves a state the working changes reach, whether it succeeds or raises. -/
def Res.Works {α : Type} (s : State) : Res α → Prop
  | .ok _ t => Work s t
  | .exc _ t => Work s t
  | .refuse _ => True

theorem Work.noteHits {s : State} (l : List EccHit) : ∀ {t : State} (_ : Work s t), Work s (t.noteHits l) := by
  induction l with
  | nil => exact fun h => h
  | cons e l ih =>
    intro t h
    unfold State.noteHits
    split
    · exact ih (h.noteEcc _ _)
    · exact ih h

theorem eccEffect_works {s t : State} (h : Work s t) (path : AccessPath) (ps : List Part) (code : ExcCode) :
    (eccEffect t path ps code).Works s := by
  unfold eccEffect
  simp only
  split
  · exact Work.noteHits _ h
  · exact Work.noteHits _ h

theorem checkData_works (s : State) (t : AccessKind) (a : Word) (n : Nat) : (checkData s t a n).Works s := by
  unfold checkData
  split
  · exact .refl
  · split
    · exact .refl
    · split
      · exact trivial
      · exact .refl

theorem dataLoad_works (s : State) (a : Word) (n : Nat) : (dataLoad s a n).Works s := by
  unfold dataLoad
  have hc := checkData_works s .load a n
  split
  · rename_i h; rw [h] at hc; exact hc
  · exact trivial
  · rename_i ps _ h
    have he := eccEffect_works (.refl (s := s)) .load ps .loadAccessFault
    split
    · rename_i h; rw [h] at he; exact he
    · exact trivial
    · rename_i h; rw [h] at he; exact he

theorem Work.keepOld {s t : State} (h : Work s t) (a : Word) : Work s (t.keepOld a) := h.stale _

theorem Work.storeMem {s t : State} (h : Work s t) (a : Word) (bytes : List Byte) : Work s (t.storeMem a bytes) :=
  (h.keepOld a).mem a bytes

theorem writeWord_msftrst (t : Timer) (off : Nat) (v : Word) (h : t.msftrst = true) :
    (t.writeWord off v).msftrst = true := by
  by_cases h5 : off = 0xFF0
  · subst h5
    show (t.msftrst || _) = true
    rw [h, Bool.true_or]
  · have k : ∀ u, u = t.writeWord off v → u.msftrst = true := fun u hu => by
      unfold Timer.writeWord at hu
      split at hu <;> first | contradiction | (rw [hu]; exact h)
    exact k _ rfl

theorem srcWriteByte_line (src : EclicSrc) (n k : Nat) (d : Bool) (b : Byte) :
    (src.writeByte n k d b).line = src.line := by
  unfold EclicSrc.writeByte
  split
  · unfold EclicSrc.writeIp
    split <;> rfl
  · rfl
  · unfold EclicSrc.setTrig
    simp only
    split
    · rfl
    · split <;> rfl
  · rfl

theorem modify_lines (l : List EclicSrc) (j : Nat) (f : EclicSrc → EclicSrc) (hf : ∀ src, (f src).line = src.line) :
    (l.modify j f).map (·.line) = l.map (·.line) := by
  apply List.ext_getElem?
  intro k
  simp only [List.getElem?_map, List.getElem?_modify]
  cases l[k]? with
  | none => simp
  | some src =>
    simp only [Option.map_eq_map, Option.map_some]
    split
    · rw [hf]
    · rfl

theorem writeByte_src {off : Nat} (h0 : ¬ off = 0) (h1 : ¬ off = 0xB) (hr : 0x1000 ≤ off ∧ off < 0x5000) (cfg : Config)
    (free : Nat) (e : Eclic) (b : Byte) : ∃ j k, e.writeByte cfg free off b =
      { e with srcs := e.srcs.modify j fun src => src.writeByte cfg.clicIntCtlBits k (Config.freeIp free j) b } := by
  refine ⟨(off - 0x1000) / 4, (off - 0x1000) % 4, ?_⟩
  unfold Eclic.writeByte
  rw [if_neg h0, if_neg h1, if_pos hr]

theorem writeByte_none {off : Nat} (h0 : ¬ off = 0) (h1 : ¬ off = 0xB) (hr : ¬ (0x1000 ≤ off ∧ off < 0x5000))
    (cfg : Config) (free : Nat) (e : Eclic) (b : Byte) : e.writeByte cfg free off b = e := by
  unfold Eclic.writeByte
  rw [if_neg h0, if_neg h1, if_neg hr]

theorem writeByte_lines (cfg : Config) (free : Nat) (e : Eclic) (off : Nat) (b : Byte) :
    (e.writeByte cfg free off b).lines = e.lines := by
  by_cases h0 : off = 0
  · subst h0; rfl
  · by_cases h1 : off = 0xB
    · subst h1; rfl
    · by_cases hr : 0x1000 ≤ off ∧ off < 0x5000
      · obtain ⟨j, k, h⟩ := writeByte_src h0 h1 hr cfg free e b
        rw [h]
        exact modify_lines e.srcs j (fun src => src.writeByte cfg.clicIntCtlBits k (Config.freeIp free j) b)
          fun src => srcWriteByte_line src _ _ _ b
      · rw [writeByte_none h0 h1 hr]

theorem writeBytes_lines (cfg : Config) (free : Nat) (bytes : List Byte) (e : Eclic) (off : Nat) :
    (e.writeBytes cfg free off bytes).lines = e.lines := by
  induction bytes generalizing e off with
  | nil => rfl
  | cons b rest ih => exact (ih _ _).trans (writeByte_lines cfg free e off b)

theorem claim_lines (e : Eclic) (i : Nat) : (e.claim i).lines = e.lines :=
  modify_lines _ _ _ fun src => by split <;> rfl

theorem Work.partWrite {s t : State} (h : Work s t) (p : Part) (bytes : List Byte) : Work s (partWrite t p bytes) := by
  unfold Machine.partWrite
  split
  · exact (h.keepOld _).timer _ (writeWord_msftrst _ _ _)
  · exact (h.keepOld _).eclic _ (writeBytes_lines _ _ _ _ _)
  · exact h
  · exact h
  all_goals exact h.storeMem _ _

theorem Work.writeParts {s : State} (l : List Part) : ∀ {t : State} (_ : Work s t) (bytes : List Byte),
    Work s (writeParts t l bytes) := by
  induction l with
  | nil => exact fun h _ => h
  | cons p l ih => exact fun h bytes => ih (h.partWrite p _) _

theorem Work.spoilUnit {s t : State} (h : Work s t) (e : EccHit) : Work s (t.spoilUnit e) := by
  unfold State.spoilUnit
  simp only
  split
  · exact (h.storeMem _ _).storeMem _ _
  · exact h.storeMem _ _

theorem Work.spoilUnits {s : State} (l : List EccHit) : ∀ {t : State} (_ : Work s t), Work s (t.spoilUnits l) := by
  induction l with
  | nil => exact fun h => h
  | cons e l ih => exact fun h => ih (h.spoilUnit e)

theorem dataStore_works (s : State) (a : Word) (n : Nat) (v : DWord) : (dataStore s a n v).Works s := by
  unfold dataStore
  have hc := checkData_works s .store a n
  split
  · rename_i h; rw [h] at hc; exact hc
  · exact trivial
  · rename_i ps _ h
    have he := eccEffect_works (.refl (s := s)) .store ps .storeAmoAccessFault
    split
    · rename_i h; rw [h] at he; exact he
    · exact trivial
    · rename_i h; rw [h] at he
      exact Work.writeParts _ (Work.spoilUnits _ he) _

theorem runs_failAccess {i : Instr} {s t : State} (h : Work s t) (len : Word) (unstated : State → State) (e : Exc)
    (hl : len.getLsbD 0 = false) (hu : ∀ u, Work s u → Work s (unstated u)) :
    Runs i s (failAccess len unstated e t) := by
  unfold failAccess
  split
  · rename_i hi
    have : t.cfg.preciseAccessFaults = false := by
      unfold isImprecise at hi
      simp only [Bool.and_eq_true, Bool.not_eq_true'] at hi
      exact hi.1
    exact runs_retire (hu _ (h.noteFault e this)) len hl
  · exact runs_raise h e

theorem runs_loadX {i : Instr} {s : State} (len : Word) (rd : Reg) (ea : Word) (n : Nat) (ext : DWord → Word)
    (hl : len.getLsbD 0 = false) : Runs i s (loadX len rd ea n ext s) := by
  unfold loadX
  have hd := dataLoad_works s ea n
  split
  · rename_i h; rw [h] at hd; exact runs_retire (Work.setX hd _ _) len hl
  · rename_i h; rw [h] at hd; exact runs_failAccess hd len _ _ hl fun u hu => hu.setX _ _
  · exact runs_refused _

theorem runs_storeX {i : Instr} {s : State} (len : Word) (ea : Word) (n : Nat) (v : DWord)
    (hl : len.getLsbD 0 = false) : Runs i s (storeX len ea n v s) := by
  unfold storeX
  have hd := dataStore_works s ea n v
  split
  · rename_i h; rw [h] at hd; exact runs_retire hd len hl
  · rename_i h; rw [h] at hd; exact runs_failAccess hd len _ _ hl fun _ hu => hu
  · exact runs_refused _

/-! ### Floating point -/

/-- The core has floating-point registers. -/
def HasFp (s : State) : Prop := s.cfg.hasF = true ∨ s.cfg.hasD = true

theorem Work.fpWork {s t : State} (h : Work s t) (hf : HasFp s) (fl : BitVec 5) : Work s (t.fpDone fl) :=
  h.fp fl (by rw [h.cfg]; exact hf)

theorem runs_fpLegal {i j : Instr} {s : State} {has : Bool} {run : State → Out}
    (h : has = true → Runs i s (run s)) : Runs i s (fpLegal has j s run) := by
  unfold fpLegal
  exact runs_whenLegal fun ho => h (by simp only [Bool.and_eq_true] at ho; exact ho.1)

theorem runs_fpRounded {i j : Instr} {s : State} {has : Bool} {rm : BitVec 3} {run : RMode → State → Out}
    (h : has = true → ∀ mode, Runs i s (run mode s)) : Runs i s (fpRounded has j rm s run) := by
  unfold fpRounded
  refine runs_fpLegal fun ho => ?_
  split
  · exact runs_illegal
  · exact h ho _

theorem runs_fpF {i : Instr} {s : State} (hf : HasFp s) (rd : Reg) (v : DWord) (fl : BitVec 5) :
    Runs i s (retire 4 ((s.setF rd v).fpDone fl)) :=
  runs_retire ((Work.refl.setF rd v).fpWork hf fl) 4 (by decide)

theorem runs_finishX {i : Instr} {s : State} (hf : HasFp s) (rd : Reg) (v : Word) (fl : BitVec 5) :
    Runs i s (finishX rd v fl s) :=
  runs_retire ((Work.refl.setX rd v).fpWork hf fl) 4 (by decide)

theorem runs_loadS {i : Instr} {s : State} (hf : HasFp s) (len : Word) (rd : Reg) (ea : Word)
    (hl : len.getLsbD 0 = false) : Runs i s (loadS len rd ea s) := by
  unfold loadS
  have hd := dataLoad_works s ea 4
  split
  · rename_i h; rw [h] at hd; exact runs_retire ((Work.setF hd _ _).fpWork hf _) len hl
  · rename_i h; rw [h] at hd; exact runs_failAccess hd len _ _ hl fun u hu => (hu.setF _ _).fpWork hf _
  · exact runs_refused _

theorem runs_loadD {i : Instr} {s : State} (hf : HasFp s) (len : Word) (rd : Reg) (ea : Word)
    (hl : len.getLsbD 0 = false) : Runs i s (loadD len rd ea s) := by
  unfold loadD
  have hd := dataLoad_works s ea 8
  split
  · rename_i h; rw [h] at hd; exact runs_retire ((Work.setF hd _ _).fpWork hf _) len hl
  · rename_i h; rw [h] at hd; exact runs_failAccess hd len _ _ hl fun u hu => (hu.setF _ _).fpWork hf _
  · exact runs_refused _

theorem runs_storeF {i : Instr} {s : State} (hf : HasFp s) (len : Word) (rs2 : Reg) (ea : Word) (n : Nat)
    (hl : len.getLsbD 0 = false) : Runs i s (storeF len rs2 ea n s) := by
  unfold storeF
  have hd := dataStore_works s ea n (s.getF rs2)
  split
  · rename_i h; rw [h] at hd; exact runs_retire (Work.fpWork hd hf _) len hl
  · rename_i h; rw [h] at hd; exact runs_failAccess hd len _ _ hl fun u hu => hu.fpWork hf _
  · exact runs_refused _

/-! ### Atomics -/

theorem checkAtomic_works (s : State) (t : AccessKind) (a : Word) : (checkAtomic s t a).Works s := by
  unfold checkAtomic
  split
  · exact .refl
  · split
    · exact .refl
    · split
      · exact trivial
      · exact trivial
      · split
        · exact trivial
        · exact .refl

theorem checkAtomic_aligned {s : State} {t : AccessKind} {a : Word} {u : State}
    (h : checkAtomic s t a = .ok () u) : a.extractLsb' 0 2 = 0#2 := by
  unfold checkAtomic at h
  split at h
  · cases h
  · rename_i hm
    simp only [ne_eq, Decidable.not_not] at hm
    apply BitVec.eq_of_toNat_eq
    simpa [BitVec.extractLsb'_toNat] using hm

theorem Work.wordWrite {s t : State} (h : Work s t) (a v : Word) (wrong : List EccHit) :
    Work s (wordWrite t a v wrong) := (Work.spoilUnits wrong h).partWrite _ _

theorem runs_loadReserved {i : Instr} {s : State} (rd rs1 : Reg) : Runs i s (loadReserved rd rs1 s) := by
  unfold loadReserved
  have hc := checkAtomic_works s .load (s.getX rs1)
  have failed : ∀ e t, Work s t → Runs i s (failAccess 4 (fun t => t.setX rd ((Config.freeLoad t.free).setWidth 32)) e t) :=
    fun e t h => runs_failAccess h 4 _ _ (by decide) fun u hu => hu.setX _ _
  simp only
  split
  · rename_i h; rw [h] at hc; exact failed _ _ hc
  · exact runs_refused _
  · rename_i h
    have ha := checkAtomic_aligned h
    have he := eccEffect_works (.refl (s := s)) .load [⟨s.getX rs1, 4⟩] .loadAccessFault
    split
    · rename_i h; rw [h] at he
      exact runs_retire ((Work.setX he _ _).resv _ fun a e => by cases e; exact ha) 4 (by decide)
    · rename_i h; rw [h] at he; exact failed _ _ he
    · exact runs_refused _

theorem runs_storeConditional {i : Instr} {s : State} (rd rs1 rs2 : Reg) :
    Runs i s (storeConditional rd rs1 rs2 s) := by
  unfold storeConditional
  have hc := checkAtomic_works s .store (s.getX rs1)
  have failed : ∀ e t, Work s t → Runs i s
      (failAccess 4 (fun t => (t.setX rd ((Config.freeLoad t.free).setWidth 32)).withResv none) e t) :=
    fun e t h => runs_failAccess h 4 _ _ (by decide) fun u hu => (hu.setX _ _).resv none fun a e => by cases e
  simp only
  split
  · rename_i h; rw [h] at hc; exact failed _ _ hc
  · exact runs_refused _
  · split
    · have he := eccEffect_works (.refl (s := s)) .store [⟨s.getX rs1, 4⟩] .storeAmoAccessFault
      split
      · rename_i h; rw [h] at he
        exact runs_retire (((Work.wordWrite he _ _ _).setX _ _).resv none fun a e => by cases e) 4 (by decide)
      · rename_i h; rw [h] at he; exact failed _ _ he
      · exact runs_refused _
    · exact runs_retire ((Work.refl.setX _ _).resv none fun a e => by cases e) 4 (by decide)

theorem runs_atomicOp {i : Instr} {s : State} (op : Word → Word → Word) (rd rs1 rs2 : Reg) :
    Runs i s (atomicOp op rd rs1 rs2 s) := by
  unfold atomicOp
  have hc := checkAtomic_works s .amo (s.getX rs1)
  have failed : ∀ e t, Work s t → Runs i s (failAccess 4 (fun t => t.setX rd ((Config.freeLoad t.free).setWidth 32)) e t) :=
    fun e t h => runs_failAccess h 4 _ _ (by decide) fun u hu => hu.setX _ _
  simp only
  split
  · rename_i h; rw [h] at hc; exact failed _ _ hc
  · exact runs_refused _
  · have he := eccEffect_works (.refl (s := s)) .load [⟨s.getX rs1, 4⟩] .storeAmoAccessFault
    split
    · rename_i h; rw [h] at he; exact failed _ _ he
    · exact runs_refused _
    · rename_i h; rw [h] at he
      have hw := eccEffect_works he .store [⟨s.getX rs1, 4⟩] .storeAmoAccessFault
      split
      · rename_i h; rw [h] at hw; exact failed _ _ hw
      · exact runs_refused _
      · rename_i h; rw [h] at hw
        exact runs_retire ((Work.wordWrite hw _ _ _).setX _ _) 4 (by decide)

/-! ### CSR instructions -/

theorem checkFetch_works (s : State) (p : Priv) (a : Word) : (checkFetch s p a).Works s := by
  unfold checkFetch
  split
  · split
    · exact .refl
    · exact eccEffect_works .refl _ _ _
  · exact .refl

theorem vectorTableRead_works (s : State) (id : Nat) : (vectorTableRead s id).Works s := by
  unfold vectorTableRead
  have hc := checkFetch_works s .machine (s.csr.mtvt + 4 * BitVec.ofNat 32 id)
  simp only
  split
  · rename_i h; rw [h] at hc; exact hc
  · exact trivial
  · rename_i h; rw [h] at hc; exact hc

theorem handlerAddr_works (s : State) (id : Nat) : (handlerAddr s id).Works s := by
  unfold handlerAddr
  split
  · exact vectorTableRead_works s id
  · exact .refl

theorem permitted_mrw {s : State} {c : Csr} (h : s.priv = .machine) (he : c.existsIn s.cfg = true) (hc : c.cls = .mrw)
    (hn : c.enabled s = true) : c.permitted s true = true := by
  simp [Csr.permitted, he, hc, hn, CsrClass.permits, h]

theorem Work.mnxtiStatus {s t : State} (h : Work s t) (hm : t.priv = .machine) (set : Bool) (u : BitVec 5) :
    Work s (t.mnxtiStatus set u) := by
  unfold State.mnxtiStatus
  split
  · exact h
  · exact h.csr .mstatus _ (permitted_mrw hm rfl rfl rfl)

theorem runs_mnxtiOp {i : Instr} {s : State} (hm : s.priv = .machine) (set : Bool) (rd : Reg) (u : BitVec 5) :
    Runs i s (mnxtiOp set rd u s) := by
  unfold mnxtiOp
  split
  · exact runs_retire ((Work.mnxtiStatus .refl hm set u).setX _ _) 4 (by decide)
  · rename_i r _
    have hv := handlerAddr_works s r.id
    split
    · rename_i h
      rw [h] at hv
      have h1 := Work.mnxtiStatus hv ((Work.priv hv).trans hm) set u
      refine runs_retire (Work.setX ?_ _ _) 4 (by decide)
      split
      · exact h1
      · exact h1.claim _ (by rw [h1.priv]; exact hm)
    · rename_i h; rw [h] at hv; exact runs_raise hv _
    · exact runs_refused _

theorem runs_jalmnxtiOp {i : Instr} {s : State} (hm : s.priv = .machine) (rd : Reg) :
    Runs i s (jalmnxtiOp rd s) := by
  unfold jalmnxtiOp
  split
  · exact runs_retire .refl 4 (by decide)
  · rename_i r _
    have hv := handlerAddr_works s r.id
    split
    · rename_i h
      rw [h] at hv
      have h1 := Work.claim hv r ((Work.priv hv).trans hm)
      exact runs_retireAt ((h1.enable (h1.priv.trans hm)).setX _ _) _ fun _ => even_evenAddr _
    · rename_i h; rw [h] at hv; exact runs_raise hv _
    · exact runs_refused _

theorem runs_scratchSwap {i : Instr} {s : State} (hm : s.priv = .machine) (swap : Bool) (rd : Reg) (v : Word) :
    Runs i s (scratchSwap swap rd v s) := by
  unfold scratchSwap
  split
  · exact runs_retire ((Work.csr .refl .mscratch v (permitted_mrw hm rfl rfl rfl)).setX _ _) 4 (by decide)
  · exact runs_retire (Work.refl.setX _ _) 4 (by decide)

theorem runs_csrPlain {i : Instr} {s : State} (form : CsrForm) (rd : Reg) (c : Csr) (field : BitVec 5)
    (hp : c.permitted s (form.writes field) = true) : Runs i s (csrPlain form rd c field s) := by
  unfold csrPlain
  simp only
  split
  · rename_i hw
    rw [hw] at hp
    split
    · exact runs_refused _
    · unfold retireCsr retireUncounted
      have h := (Work.csr .refl c (form.value (csrRead s c) (form.operand field s)) hp).setX rd (csrRead s c)
      split
      · exact runs_work (h.goTo _ fun he => even_add he (by decide))
      · exact runs_retire h 4 (by decide)
  · unfold retireCsr
    rw [if_neg (by simp)]
    exact runs_retire (Work.refl.setX _ _) 4 (by decide)

theorem runs_csrInstr {i j : Instr} {s : State} (form : CsrForm) (rd : Reg) (a : CsrAddr) (field : BitVec 5) :
    Runs i s (csrInstr j form rd a field s) := by
  unfold csrInstr
  split
  · exact runs_illegal
  · rename_i c _
    split
    · rename_i hp
      have hm : c.cls = .mrw → s.priv = .machine := fun hc => by
        unfold Csr.permitted at hp
        rw [hc] at hp
        cases hs : s.priv
        · rw [hs] at hp; simp [CsrClass.permits] at hp
        · rfl
      unfold csrDispatch
      split
      · split
        · exact runs_mnxtiOp (hm rfl) _ _ _
        · exact runs_mnxtiOp (hm rfl) _ _ _
        · exact runs_refused _
      · split
        · exact runs_jalmnxtiOp (hm rfl) _
        · exact runs_refused _
      · split
        · exact runs_scratchSwap (hm rfl) _ _ _
        · exact runs_refused _
      · split
        · exact runs_scratchSwap (hm rfl) _ _ _
        · exact runs_refused _
      · split
        · exact runs_storeX _ _ _ _ (by decide)
        · exact runs_refused _
      · split
        · exact runs_storeX _ _ _ _ (by decide)
        · exact runs_refused _
      · split
        · exact runs_storeX _ _ _ _ (by decide)
        · exact runs_refused _
      · exact runs_csrPlain form rd c field hp
    · exact runs_illegal

/-! ### MRET and WFI -/

theorem runs_mret {s : State} : Runs .mret s (execMret s) := by
  unfold execMret
  refine runs_whenLegal fun hm => ?_
  have hm' : s.priv = .machine := by simpa using hm
  unfold returnFromTrap
  split
  · exact fun t e => by cases e; exact .trap .refl _ _
  · split
    · exact fun t e => by cases e
    · rename_i hn
      intro t e
      rw [retireAt_eq] at e
      cases e
      refine .mret rfl hm' fun hu => ?_
      by_contra hx
      exact hn ⟨hu, by simpa using hx⟩

theorem runs_wfi {i : Instr} {s : State} : Runs i s (execWfi s) := by
  unfold execWfi
  split
  · exact fun t e => by cases e; exact .trap .refl _ _
  · exact runs_retire Work.refl.sleep 4 (by decide)

/-! ### Every instruction -/

theorem even_offset {w : Nat} (off : BitVec w) : ((off ++ 0#1).signExtend 32).getLsbD 0 = false := by
  simp [BitVec.getLsbD_signExtend, BitVec.getLsbD_append, -BitVec.getLsbD_eq_getElem]

theorem runs_execLui {i : Instr} {s : State} (rd : Reg) (imm : BitVec 20) : Runs i s (execLui rd imm s) := by
  unfold execLui
  exact runs_writeRd _ _ _ (by decide)

theorem runs_execAuipc {i : Instr} {s : State} (rd : Reg) (imm : BitVec 20) : Runs i s (execAuipc rd imm s) := by
  unfold execAuipc
  exact runs_writeRd _ _ _ (by decide)

theorem runs_execJal {i : Instr} {s : State} (rd : Reg) (off : BitVec 20) : Runs i s (execJal rd off s) := by
  unfold execJal
  exact runs_jumpLink _ _ _ fun hp => even_add hp (even_offset _)

theorem runs_execJalr {i : Instr} {s : State} (rd rs1 : Reg) (imm : BitVec 12) : Runs i s (execJalr rd rs1 imm s) := by
  unfold execJalr
  exact runs_jumpLink _ _ _ fun _ => even_evenAddr _

theorem runs_execBeq {i : Instr} {s : State} (rs1 rs2 : Reg) (off : BitVec 12) : Runs i s (execBeq rs1 rs2 off s) := by
  unfold execBeq
  exact runs_branchIf _ _ _ (by decide) (even_offset _)

theorem runs_execBne {i : Instr} {s : State} (rs1 rs2 : Reg) (off : BitVec 12) : Runs i s (execBne rs1 rs2 off s) := by
  unfold execBne
  exact runs_branchIf _ _ _ (by decide) (even_offset _)

theorem runs_execBlt {i : Instr} {s : State} (rs1 rs2 : Reg) (off : BitVec 12) : Runs i s (execBlt rs1 rs2 off s) := by
  unfold execBlt
  exact runs_branchIf _ _ _ (by decide) (even_offset _)

theorem runs_execBge {i : Instr} {s : State} (rs1 rs2 : Reg) (off : BitVec 12) : Runs i s (execBge rs1 rs2 off s) := by
  unfold execBge
  exact runs_branchIf _ _ _ (by decide) (even_offset _)

theorem runs_execBltu {i : Instr} {s : State} (rs1 rs2 : Reg) (off : BitVec 12) : Runs i s (execBltu rs1 rs2 off s) := by
  unfold execBltu
  exact runs_branchIf _ _ _ (by decide) (even_offset _)

theorem runs_execBgeu {i : Instr} {s : State} (rs1 rs2 : Reg) (off : BitVec 12) : Runs i s (execBgeu rs1 rs2 off s) := by
  unfold execBgeu
  exact runs_branchIf _ _ _ (by decide) (even_offset _)

theorem runs_execLb {i : Instr} {s : State} (rd rs1 : Reg) (imm : BitVec 12) : Runs i s (execLb rd rs1 imm s) := by
  unfold execLb
  exact runs_loadX _ _ _ _ _ (by decide)

theorem runs_execLh {i : Instr} {s : State} (rd rs1 : Reg) (imm : BitVec 12) : Runs i s (execLh rd rs1 imm s) := by
  unfold execLh
  exact runs_loadX _ _ _ _ _ (by decide)

theorem runs_execLw {i : Instr} {s : State} (rd rs1 : Reg) (imm : BitVec 12) : Runs i s (execLw rd rs1 imm s) := by
  unfold execLw
  exact runs_loadX _ _ _ _ _ (by decide)

theorem runs_execLbu {i : Instr} {s : State} (rd rs1 : Reg) (imm : BitVec 12) : Runs i s (execLbu rd rs1 imm s) := by
  unfold execLbu
  exact runs_loadX _ _ _ _ _ (by decide)

theorem runs_execLhu {i : Instr} {s : State} (rd rs1 : Reg) (imm : BitVec 12) : Runs i s (execLhu rd rs1 imm s) := by
  unfold execLhu
  exact runs_loadX _ _ _ _ _ (by decide)

theorem runs_execSb {i : Instr} {s : State} (rs2 rs1 : Reg) (imm : BitVec 12) : Runs i s (execSb rs2 rs1 imm s) := by
  unfold execSb
  exact runs_storeX _ _ _ _ (by decide)

theorem runs_execSh {i : Instr} {s : State} (rs2 rs1 : Reg) (imm : BitVec 12) : Runs i s (execSh rs2 rs1 imm s) := by
  unfold execSh
  exact runs_storeX _ _ _ _ (by decide)

theorem runs_execSw {i : Instr} {s : State} (rs2 rs1 : Reg) (imm : BitVec 12) : Runs i s (execSw rs2 rs1 imm s) := by
  unfold execSw
  exact runs_storeX _ _ _ _ (by decide)

theorem runs_execAddi {i : Instr} {s : State} (rd rs1 : Reg) (imm : BitVec 12) : Runs i s (execAddi rd rs1 imm s) := by
  unfold execAddi
  exact runs_writeRd _ _ _ (by decide)

theorem runs_execSlti {i : Instr} {s : State} (rd rs1 : Reg) (imm : BitVec 12) : Runs i s (execSlti rd rs1 imm s) := by
  unfold execSlti
  exact runs_writeRd _ _ _ (by decide)

theorem runs_execSltiu {i : Instr} {s : State} (rd rs1 : Reg) (imm : BitVec 12) : Runs i s (execSltiu rd rs1 imm s) := by
  unfold execSltiu
  exact runs_writeRd _ _ _ (by decide)

theorem runs_execXori {i : Instr} {s : State} (rd rs1 : Reg) (imm : BitVec 12) : Runs i s (execXori rd rs1 imm s) := by
  unfold execXori
  exact runs_writeRd _ _ _ (by decide)

theorem runs_execOri {i : Instr} {s : State} (rd rs1 : Reg) (imm : BitVec 12) : Runs i s (execOri rd rs1 imm s) := by
  unfold execOri
  exact runs_writeRd _ _ _ (by decide)

theorem runs_execAndi {i : Instr} {s : State} (rd rs1 : Reg) (imm : BitVec 12) : Runs i s (execAndi rd rs1 imm s) := by
  unfold execAndi
  exact runs_writeRd _ _ _ (by decide)

theorem runs_execSlli {i : Instr} {s : State} (rd rs1 : Reg) (shamt : BitVec 5) : Runs i s (execSlli rd rs1 shamt s) := by
  unfold execSlli
  exact runs_writeRd _ _ _ (by decide)

theorem runs_execSrli {i : Instr} {s : State} (rd rs1 : Reg) (shamt : BitVec 5) : Runs i s (execSrli rd rs1 shamt s) := by
  unfold execSrli
  exact runs_writeRd _ _ _ (by decide)

theorem runs_execSrai {i : Instr} {s : State} (rd rs1 : Reg) (shamt : BitVec 5) : Runs i s (execSrai rd rs1 shamt s) := by
  unfold execSrai
  exact runs_writeRd _ _ _ (by decide)

theorem runs_execAdd {i : Instr} {s : State} (rd rs1 rs2 : Reg) : Runs i s (execAdd rd rs1 rs2 s) := by
  unfold execAdd
  exact runs_writeRd _ _ _ (by decide)

theorem runs_execSub {i : Instr} {s : State} (rd rs1 rs2 : Reg) : Runs i s (execSub rd rs1 rs2 s) := by
  unfold execSub
  exact runs_writeRd _ _ _ (by decide)

theorem runs_execSll {i : Instr} {s : State} (rd rs1 rs2 : Reg) : Runs i s (execSll rd rs1 rs2 s) := by
  unfold execSll
  exact runs_writeRd _ _ _ (by decide)

theorem runs_execSlt {i : Instr} {s : State} (rd rs1 rs2 : Reg) : Runs i s (execSlt rd rs1 rs2 s) := by
  unfold execSlt
  exact runs_writeRd _ _ _ (by decide)

theorem runs_execSltu {i : Instr} {s : State} (rd rs1 rs2 : Reg) : Runs i s (execSltu rd rs1 rs2 s) := by
  unfold execSltu
  exact runs_writeRd _ _ _ (by decide)

theorem runs_execXor {i : Instr} {s : State} (rd rs1 rs2 : Reg) : Runs i s (execXor rd rs1 rs2 s) := by
  unfold execXor
  exact runs_writeRd _ _ _ (by decide)

theorem runs_execSrl {i : Instr} {s : State} (rd rs1 rs2 : Reg) : Runs i s (execSrl rd rs1 rs2 s) := by
  unfold execSrl
  exact runs_writeRd _ _ _ (by decide)

theorem runs_execSra {i : Instr} {s : State} (rd rs1 rs2 : Reg) : Runs i s (execSra rd rs1 rs2 s) := by
  unfold execSra
  exact runs_writeRd _ _ _ (by decide)

theorem runs_execOr {i : Instr} {s : State} (rd rs1 rs2 : Reg) : Runs i s (execOr rd rs1 rs2 s) := by
  unfold execOr
  exact runs_writeRd _ _ _ (by decide)

theorem runs_execAnd {i : Instr} {s : State} (rd rs1 rs2 : Reg) : Runs i s (execAnd rd rs1 rs2 s) := by
  unfold execAnd
  exact runs_writeRd _ _ _ (by decide)

theorem runs_execFence {i : Instr} {s : State} (_fm _pred _succ : BitVec 4) (_rs1 _rd : Reg) : Runs i s (execFence _fm _pred _succ _rs1 _rd s) := by
  unfold execFence
  exact runs_retire .refl 4 (by decide)

theorem runs_execFenceI {i : Instr} {s : State} (_imm : BitVec 12) (_rs1 _rd : Reg) : Runs i s (execFenceI _imm _rs1 _rd s) := by
  unfold execFenceI
  exact runs_retire (Work.refl.stale _) 4 (by decide)

theorem runs_execMul {i : Instr} {s : State} (rd rs1 rs2 : Reg) : Runs i s (execMul rd rs1 rs2 s) := by
  unfold execMul
  exact runs_whenLegal fun _ => runs_writeRd _ _ _ (by decide)

theorem runs_execMulh {i : Instr} {s : State} (rd rs1 rs2 : Reg) : Runs i s (execMulh rd rs1 rs2 s) := by
  unfold execMulh
  exact runs_whenLegal fun _ => runs_writeRd _ _ _ (by decide)

theorem runs_execMulhsu {i : Instr} {s : State} (rd rs1 rs2 : Reg) : Runs i s (execMulhsu rd rs1 rs2 s) := by
  unfold execMulhsu
  exact runs_whenLegal fun _ => runs_writeRd _ _ _ (by decide)

theorem runs_execMulhu {i : Instr} {s : State} (rd rs1 rs2 : Reg) : Runs i s (execMulhu rd rs1 rs2 s) := by
  unfold execMulhu
  exact runs_whenLegal fun _ => runs_writeRd _ _ _ (by decide)

theorem runs_execDiv {i : Instr} {s : State} (rd rs1 rs2 : Reg) : Runs i s (execDiv rd rs1 rs2 s) := by
  unfold execDiv
  exact runs_whenLegal fun _ => runs_writeRd _ _ _ (by decide)

theorem runs_execDivu {i : Instr} {s : State} (rd rs1 rs2 : Reg) : Runs i s (execDivu rd rs1 rs2 s) := by
  unfold execDivu
  exact runs_whenLegal fun _ => runs_writeRd _ _ _ (by decide)

theorem runs_execRem {i : Instr} {s : State} (rd rs1 rs2 : Reg) : Runs i s (execRem rd rs1 rs2 s) := by
  unfold execRem
  exact runs_whenLegal fun _ => runs_writeRd _ _ _ (by decide)

theorem runs_execRemu {i : Instr} {s : State} (rd rs1 rs2 : Reg) : Runs i s (execRemu rd rs1 rs2 s) := by
  unfold execRemu
  exact runs_whenLegal fun _ => runs_writeRd _ _ _ (by decide)

theorem runs_execCAddi4spn {i : Instr} {s : State} (rd : CReg) (imm : BitVec 8) : Runs i s (execCAddi4spn rd imm s) := by
  unfold execCAddi4spn
  exact runs_whenLegal fun _ => runs_writeRd _ _ _ (by decide)

theorem runs_execCFld {i : Instr} {s : State} (rd rs1 : CReg) (imm : BitVec 5) : Runs i s (execCFld rd rs1 imm s) := by
  unfold execCFld
  exact runs_fpLegal fun h => runs_loadD (.inr (Bool.and_eq_true_iff.mp h).2) _ _ _ (by decide)

theorem runs_execCLw {i : Instr} {s : State} (rd rs1 : CReg) (imm : BitVec 5) : Runs i s (execCLw rd rs1 imm s) := by
  unfold execCLw
  exact runs_whenLegal fun _ => runs_loadX _ _ _ _ _ (by decide)

theorem runs_execCFlw {i : Instr} {s : State} (rd rs1 : CReg) (imm : BitVec 5) : Runs i s (execCFlw rd rs1 imm s) := by
  unfold execCFlw
  exact runs_fpLegal fun h => runs_loadS (.inl (Bool.and_eq_true_iff.mp h).2) _ _ _ (by decide)

theorem runs_execCFsd {i : Instr} {s : State} (rs2 rs1 : CReg) (imm : BitVec 5) : Runs i s (execCFsd rs2 rs1 imm s) := by
  unfold execCFsd
  exact runs_fpLegal fun h => runs_storeF (.inr (Bool.and_eq_true_iff.mp h).2) _ _ _ _ (by decide)

theorem runs_execCSw {i : Instr} {s : State} (rs2 rs1 : CReg) (imm : BitVec 5) : Runs i s (execCSw rs2 rs1 imm s) := by
  unfold execCSw
  exact runs_whenLegal fun _ => runs_storeX _ _ _ _ (by decide)

theorem runs_execCFsw {i : Instr} {s : State} (rs2 rs1 : CReg) (imm : BitVec 5) : Runs i s (execCFsw rs2 rs1 imm s) := by
  unfold execCFsw
  exact runs_fpLegal fun h => runs_storeF (.inl (Bool.and_eq_true_iff.mp h).2) _ _ _ _ (by decide)

theorem runs_execCNop {i : Instr} {s : State} (imm : BitVec 6) : Runs i s (execCNop imm s) := by
  unfold execCNop
  exact runs_whenLegal fun _ => runs_retire .refl 2 (by decide)

theorem runs_execCAddi {i : Instr} {s : State} (rd : Reg) (imm : BitVec 6) : Runs i s (execCAddi rd imm s) := by
  unfold execCAddi
  exact runs_whenLegal fun _ => runs_writeRd _ _ _ (by decide)

theorem runs_execCJal {i : Instr} {s : State} (off : BitVec 11) : Runs i s (execCJal off s) := by
  unfold execCJal
  exact runs_whenLegal fun _ => runs_jumpLink _ _ _ fun hp => even_add hp (even_offset _)

theorem runs_execCLi {i : Instr} {s : State} (rd : Reg) (imm : BitVec 6) : Runs i s (execCLi rd imm s) := by
  unfold execCLi
  exact runs_whenLegal fun _ => runs_writeRd _ _ _ (by decide)

theorem runs_execCAddi16sp {i : Instr} {s : State} (imm : BitVec 6) : Runs i s (execCAddi16sp imm s) := by
  unfold execCAddi16sp
  exact runs_whenLegal fun _ => runs_writeRd _ _ _ (by decide)

theorem runs_execCLui {i : Instr} {s : State} (rd : Reg) (imm : BitVec 6) : Runs i s (execCLui rd imm s) := by
  unfold execCLui
  exact runs_whenLegal fun _ => runs_writeRd _ _ _ (by decide)

theorem runs_execCSrli {i : Instr} {s : State} (rd : CReg) (shamt : BitVec 5) : Runs i s (execCSrli rd shamt s) := by
  unfold execCSrli
  exact runs_whenLegal fun _ => runs_writeRd _ _ _ (by decide)

theorem runs_execCSrai {i : Instr} {s : State} (rd : CReg) (shamt : BitVec 5) : Runs i s (execCSrai rd shamt s) := by
  unfold execCSrai
  exact runs_whenLegal fun _ => runs_writeRd _ _ _ (by decide)

theorem runs_execCAndi {i : Instr} {s : State} (rd : CReg) (imm : BitVec 6) : Runs i s (execCAndi rd imm s) := by
  unfold execCAndi
  exact runs_whenLegal fun _ => runs_writeRd _ _ _ (by decide)

theorem runs_execCSub {i : Instr} {s : State} (rd rs2 : CReg) : Runs i s (execCSub rd rs2 s) := by
  unfold execCSub
  exact runs_whenLegal fun _ => runs_writeRd _ _ _ (by decide)

theorem runs_execCXor {i : Instr} {s : State} (rd rs2 : CReg) : Runs i s (execCXor rd rs2 s) := by
  unfold execCXor
  exact runs_whenLegal fun _ => runs_writeRd _ _ _ (by decide)

theorem runs_execCOr {i : Instr} {s : State} (rd rs2 : CReg) : Runs i s (execCOr rd rs2 s) := by
  unfold execCOr
  exact runs_whenLegal fun _ => runs_writeRd _ _ _ (by decide)

theorem runs_execCAnd {i : Instr} {s : State} (rd rs2 : CReg) : Runs i s (execCAnd rd rs2 s) := by
  unfold execCAnd
  exact runs_whenLegal fun _ => runs_writeRd _ _ _ (by decide)

theorem runs_execCJ {i : Instr} {s : State} (off : BitVec 11) : Runs i s (execCJ off s) := by
  unfold execCJ
  exact runs_whenLegal fun _ => runs_jumpLink _ _ _ fun hp => even_add hp (even_offset _)

theorem runs_execCBeqz {i : Instr} {s : State} (rs1 : CReg) (off : BitVec 8) : Runs i s (execCBeqz rs1 off s) := by
  unfold execCBeqz
  exact runs_whenLegal fun _ => runs_branchIf _ _ _ (by decide) (even_offset _)

theorem runs_execCBnez {i : Instr} {s : State} (rs1 : CReg) (off : BitVec 8) : Runs i s (execCBnez rs1 off s) := by
  unfold execCBnez
  exact runs_whenLegal fun _ => runs_branchIf _ _ _ (by decide) (even_offset _)

theorem runs_execCSlli {i : Instr} {s : State} (rd : Reg) (shamt : BitVec 5) : Runs i s (execCSlli rd shamt s) := by
  unfold execCSlli
  exact runs_whenLegal fun _ => runs_writeRd _ _ _ (by decide)

theorem runs_execCFldsp {i : Instr} {s : State} (rd : Reg) (imm : BitVec 6) : Runs i s (execCFldsp rd imm s) := by
  unfold execCFldsp
  exact runs_fpLegal fun h => runs_loadD (.inr (Bool.and_eq_true_iff.mp h).2) _ _ _ (by decide)

theorem runs_execCLwsp {i : Instr} {s : State} (rd : Reg) (imm : BitVec 6) : Runs i s (execCLwsp rd imm s) := by
  unfold execCLwsp
  exact runs_whenLegal fun _ => runs_loadX _ _ _ _ _ (by decide)

theorem runs_execCFlwsp {i : Instr} {s : State} (rd : Reg) (imm : BitVec 6) : Runs i s (execCFlwsp rd imm s) := by
  unfold execCFlwsp
  exact runs_fpLegal fun h => runs_loadS (.inl (Bool.and_eq_true_iff.mp h).2) _ _ _ (by decide)

theorem runs_execCJr {i : Instr} {s : State} (rs1 : Reg) : Runs i s (execCJr rs1 s) := by
  unfold execCJr
  exact runs_whenLegal fun _ => runs_jumpLink _ _ _ fun _ => even_evenAddr _

theorem runs_execCMv {i : Instr} {s : State} (rd rs2 : Reg) : Runs i s (execCMv rd rs2 s) := by
  unfold execCMv
  exact runs_whenLegal fun _ => runs_writeRd _ _ _ (by decide)

theorem runs_execCEbreak {i : Instr} {s : State}  : Runs i s (execCEbreak s) := by
  unfold execCEbreak
  exact runs_whenLegal fun _ => runs_raise .refl _

theorem runs_execCJalr {i : Instr} {s : State} (rs1 : Reg) : Runs i s (execCJalr rs1 s) := by
  unfold execCJalr
  exact runs_whenLegal fun _ => runs_jumpLink _ _ _ fun _ => even_evenAddr _

theorem runs_execCAdd {i : Instr} {s : State} (rd rs2 : Reg) : Runs i s (execCAdd rd rs2 s) := by
  unfold execCAdd
  exact runs_whenLegal fun _ => runs_writeRd _ _ _ (by decide)

theorem runs_execCFsdsp {i : Instr} {s : State} (rs2 : Reg) (imm : BitVec 6) : Runs i s (execCFsdsp rs2 imm s) := by
  unfold execCFsdsp
  exact runs_fpLegal fun h => runs_storeF (.inr (Bool.and_eq_true_iff.mp h).2) _ _ _ _ (by decide)

theorem runs_execCSwsp {i : Instr} {s : State} (rs2 : Reg) (imm : BitVec 6) : Runs i s (execCSwsp rs2 imm s) := by
  unfold execCSwsp
  exact runs_whenLegal fun _ => runs_storeX _ _ _ _ (by decide)

theorem runs_execCFswsp {i : Instr} {s : State} (rs2 : Reg) (imm : BitVec 6) : Runs i s (execCFswsp rs2 imm s) := by
  unfold execCFswsp
  exact runs_fpLegal fun h => runs_storeF (.inl (Bool.and_eq_true_iff.mp h).2) _ _ _ _ (by decide)

theorem runs_execLrW {i : Instr} {s : State} (rd rs1 : Reg) (aq rl : Bool) : Runs i s (execLrW rd rs1 aq rl s) := by
  unfold execLrW
  exact runs_whenLegal fun _ => runs_loadReserved _ _

theorem runs_execScW {i : Instr} {s : State} (rd rs1 rs2 : Reg) (aq rl : Bool) : Runs i s (execScW rd rs1 rs2 aq rl s) := by
  unfold execScW
  exact runs_whenLegal fun _ => runs_storeConditional _ _ _

theorem runs_execAmoswapW {i : Instr} {s : State} (rd rs1 rs2 : Reg) (aq rl : Bool) : Runs i s (execAmoswapW rd rs1 rs2 aq rl s) := by
  unfold execAmoswapW
  exact runs_whenLegal fun _ => runs_atomicOp _ _ _ _

theorem runs_execAmoaddW {i : Instr} {s : State} (rd rs1 rs2 : Reg) (aq rl : Bool) : Runs i s (execAmoaddW rd rs1 rs2 aq rl s) := by
  unfold execAmoaddW
  exact runs_whenLegal fun _ => runs_atomicOp _ _ _ _

theorem runs_execAmoxorW {i : Instr} {s : State} (rd rs1 rs2 : Reg) (aq rl : Bool) : Runs i s (execAmoxorW rd rs1 rs2 aq rl s) := by
  unfold execAmoxorW
  exact runs_whenLegal fun _ => runs_atomicOp _ _ _ _

theorem runs_execAmoandW {i : Instr} {s : State} (rd rs1 rs2 : Reg) (aq rl : Bool) : Runs i s (execAmoandW rd rs1 rs2 aq rl s) := by
  unfold execAmoandW
  exact runs_whenLegal fun _ => runs_atomicOp _ _ _ _

theorem runs_execAmoorW {i : Instr} {s : State} (rd rs1 rs2 : Reg) (aq rl : Bool) : Runs i s (execAmoorW rd rs1 rs2 aq rl s) := by
  unfold execAmoorW
  exact runs_whenLegal fun _ => runs_atomicOp _ _ _ _

theorem runs_execAmominW {i : Instr} {s : State} (rd rs1 rs2 : Reg) (aq rl : Bool) : Runs i s (execAmominW rd rs1 rs2 aq rl s) := by
  unfold execAmominW
  exact runs_whenLegal fun _ => runs_atomicOp _ _ _ _

theorem runs_execAmomaxW {i : Instr} {s : State} (rd rs1 rs2 : Reg) (aq rl : Bool) : Runs i s (execAmomaxW rd rs1 rs2 aq rl s) := by
  unfold execAmomaxW
  exact runs_whenLegal fun _ => runs_atomicOp _ _ _ _

theorem runs_execAmominuW {i : Instr} {s : State} (rd rs1 rs2 : Reg) (aq rl : Bool) : Runs i s (execAmominuW rd rs1 rs2 aq rl s) := by
  unfold execAmominuW
  exact runs_whenLegal fun _ => runs_atomicOp _ _ _ _

theorem runs_execAmomaxuW {i : Instr} {s : State} (rd rs1 rs2 : Reg) (aq rl : Bool) : Runs i s (execAmomaxuW rd rs1 rs2 aq rl s) := by
  unfold execAmomaxuW
  exact runs_whenLegal fun _ => runs_atomicOp _ _ _ _

theorem runs_execFlw {i : Instr} {s : State} (rd rs1 : Reg) (imm : BitVec 12) : Runs i s (execFlw rd rs1 imm s) := by
  unfold execFlw
  exact runs_fpLegal fun h => runs_loadS (.inl h) _ _ _ (by decide)

theorem runs_execFsw {i : Instr} {s : State} (rs2 rs1 : Reg) (imm : BitVec 12) : Runs i s (execFsw rs2 rs1 imm s) := by
  unfold execFsw
  exact runs_fpLegal fun h => runs_storeF (.inl h) _ _ _ _ (by decide)

theorem runs_execFmaddS {i : Instr} {s : State} (rd rs1 rs2 rs3 : Reg) (rm : BitVec 3) : Runs i s (execFmaddS rd rs1 rs2 rs3 rm s) := by
  unfold execFmaddS
  exact runs_fpRounded fun h mode => runs_fpF (.inl h) _ _ _

theorem runs_execFmsubS {i : Instr} {s : State} (rd rs1 rs2 rs3 : Reg) (rm : BitVec 3) : Runs i s (execFmsubS rd rs1 rs2 rs3 rm s) := by
  unfold execFmsubS
  exact runs_fpRounded fun h mode => runs_fpF (.inl h) _ _ _

theorem runs_execFnmsubS {i : Instr} {s : State} (rd rs1 rs2 rs3 : Reg) (rm : BitVec 3) : Runs i s (execFnmsubS rd rs1 rs2 rs3 rm s) := by
  unfold execFnmsubS
  exact runs_fpRounded fun h mode => runs_fpF (.inl h) _ _ _

theorem runs_execFnmaddS {i : Instr} {s : State} (rd rs1 rs2 rs3 : Reg) (rm : BitVec 3) : Runs i s (execFnmaddS rd rs1 rs2 rs3 rm s) := by
  unfold execFnmaddS
  exact runs_fpRounded fun h mode => runs_fpF (.inl h) _ _ _

theorem runs_execFaddS {i : Instr} {s : State} (rd rs1 rs2 : Reg) (rm : BitVec 3) : Runs i s (execFaddS rd rs1 rs2 rm s) := by
  unfold execFaddS
  exact runs_fpRounded fun h mode => runs_fpF (.inl h) _ _ _

theorem runs_execFsubS {i : Instr} {s : State} (rd rs1 rs2 : Reg) (rm : BitVec 3) : Runs i s (execFsubS rd rs1 rs2 rm s) := by
  unfold execFsubS
  exact runs_fpRounded fun h mode => runs_fpF (.inl h) _ _ _

theorem runs_execFmulS {i : Instr} {s : State} (rd rs1 rs2 : Reg) (rm : BitVec 3) : Runs i s (execFmulS rd rs1 rs2 rm s) := by
  unfold execFmulS
  exact runs_fpRounded fun h mode => runs_fpF (.inl h) _ _ _

theorem runs_execFdivS {i : Instr} {s : State} (rd rs1 rs2 : Reg) (rm : BitVec 3) : Runs i s (execFdivS rd rs1 rs2 rm s) := by
  unfold execFdivS
  exact runs_fpRounded fun h mode => runs_fpF (.inl h) _ _ _

theorem runs_execFsqrtS {i : Instr} {s : State} (rd rs1 : Reg) (rm : BitVec 3) : Runs i s (execFsqrtS rd rs1 rm s) := by
  unfold execFsqrtS
  exact runs_fpRounded fun h mode => runs_fpF (.inl h) _ _ _

theorem runs_execFsgnjS {i : Instr} {s : State} (rd rs1 rs2 : Reg) : Runs i s (execFsgnjS rd rs1 rs2 s) := by
  unfold execFsgnjS
  exact runs_fpLegal fun h => runs_fpF (.inl h) _ _ _

theorem runs_execFsgnjnS {i : Instr} {s : State} (rd rs1 rs2 : Reg) : Runs i s (execFsgnjnS rd rs1 rs2 s) := by
  unfold execFsgnjnS
  exact runs_fpLegal fun h => runs_fpF (.inl h) _ _ _

theorem runs_execFsgnjxS {i : Instr} {s : State} (rd rs1 rs2 : Reg) : Runs i s (execFsgnjxS rd rs1 rs2 s) := by
  unfold execFsgnjxS
  exact runs_fpLegal fun h => runs_fpF (.inl h) _ _ _

theorem runs_execFminS {i : Instr} {s : State} (rd rs1 rs2 : Reg) : Runs i s (execFminS rd rs1 rs2 s) := by
  unfold execFminS
  exact runs_fpLegal fun h => runs_fpF (.inl h) _ _ _

theorem runs_execFmaxS {i : Instr} {s : State} (rd rs1 rs2 : Reg) : Runs i s (execFmaxS rd rs1 rs2 s) := by
  unfold execFmaxS
  exact runs_fpLegal fun h => runs_fpF (.inl h) _ _ _

theorem runs_execFcvtWS {i : Instr} {s : State} (rd rs1 : Reg) (rm : BitVec 3) : Runs i s (execFcvtWS rd rs1 rm s) := by
  unfold execFcvtWS
  exact runs_fpRounded fun h mode => runs_finishX (.inl h) _ _ _

theorem runs_execFcvtWuS {i : Instr} {s : State} (rd rs1 : Reg) (rm : BitVec 3) : Runs i s (execFcvtWuS rd rs1 rm s) := by
  unfold execFcvtWuS
  exact runs_fpRounded fun h mode => runs_finishX (.inl h) _ _ _

theorem runs_execFmvXW {i : Instr} {s : State} (rd rs1 : Reg) : Runs i s (execFmvXW rd rs1 s) := by
  unfold execFmvXW
  exact runs_fpLegal fun h => runs_finishX (.inl h) _ _ _

theorem runs_execFeqS {i : Instr} {s : State} (rd rs1 rs2 : Reg) : Runs i s (execFeqS rd rs1 rs2 s) := by
  unfold execFeqS
  exact runs_fpLegal fun h => runs_finishX (.inl h) _ _ _

theorem runs_execFltS {i : Instr} {s : State} (rd rs1 rs2 : Reg) : Runs i s (execFltS rd rs1 rs2 s) := by
  unfold execFltS
  exact runs_fpLegal fun h => runs_finishX (.inl h) _ _ _

theorem runs_execFleS {i : Instr} {s : State} (rd rs1 rs2 : Reg) : Runs i s (execFleS rd rs1 rs2 s) := by
  unfold execFleS
  exact runs_fpLegal fun h => runs_finishX (.inl h) _ _ _

theorem runs_execFclassS {i : Instr} {s : State} (rd rs1 : Reg) : Runs i s (execFclassS rd rs1 s) := by
  unfold execFclassS
  exact runs_fpLegal fun h => runs_finishX (.inl h) _ _ _

theorem runs_execFcvtSW {i : Instr} {s : State} (rd rs1 : Reg) (rm : BitVec 3) : Runs i s (execFcvtSW rd rs1 rm s) := by
  unfold execFcvtSW
  exact runs_fpRounded fun h mode => runs_fpF (.inl h) _ _ _

theorem runs_execFcvtSWu {i : Instr} {s : State} (rd rs1 : Reg) (rm : BitVec 3) : Runs i s (execFcvtSWu rd rs1 rm s) := by
  unfold execFcvtSWu
  exact runs_fpRounded fun h mode => runs_fpF (.inl h) _ _ _

theorem runs_execFmvWX {i : Instr} {s : State} (rd rs1 : Reg) : Runs i s (execFmvWX rd rs1 s) := by
  unfold execFmvWX
  exact runs_fpLegal fun h => runs_fpF (.inl h) _ _ _

theorem runs_execFld {i : Instr} {s : State} (rd rs1 : Reg) (imm : BitVec 12) : Runs i s (execFld rd rs1 imm s) := by
  unfold execFld
  exact runs_fpLegal fun h => runs_loadD (.inr h) _ _ _ (by decide)

theorem runs_execFsd {i : Instr} {s : State} (rs2 rs1 : Reg) (imm : BitVec 12) : Runs i s (execFsd rs2 rs1 imm s) := by
  unfold execFsd
  exact runs_fpLegal fun h => runs_storeF (.inr h) _ _ _ _ (by decide)

theorem runs_execFmaddD {i : Instr} {s : State} (rd rs1 rs2 rs3 : Reg) (rm : BitVec 3) : Runs i s (execFmaddD rd rs1 rs2 rs3 rm s) := by
  unfold execFmaddD
  exact runs_fpRounded fun h mode => runs_fpF (.inr h) _ _ _

theorem runs_execFmsubD {i : Instr} {s : State} (rd rs1 rs2 rs3 : Reg) (rm : BitVec 3) : Runs i s (execFmsubD rd rs1 rs2 rs3 rm s) := by
  unfold execFmsubD
  exact runs_fpRounded fun h mode => runs_fpF (.inr h) _ _ _

theorem runs_execFnmsubD {i : Instr} {s : State} (rd rs1 rs2 rs3 : Reg) (rm : BitVec 3) : Runs i s (execFnmsubD rd rs1 rs2 rs3 rm s) := by
  unfold execFnmsubD
  exact runs_fpRounded fun h mode => runs_fpF (.inr h) _ _ _

theorem runs_execFnmaddD {i : Instr} {s : State} (rd rs1 rs2 rs3 : Reg) (rm : BitVec 3) : Runs i s (execFnmaddD rd rs1 rs2 rs3 rm s) := by
  unfold execFnmaddD
  exact runs_fpRounded fun h mode => runs_fpF (.inr h) _ _ _

theorem runs_execFaddD {i : Instr} {s : State} (rd rs1 rs2 : Reg) (rm : BitVec 3) : Runs i s (execFaddD rd rs1 rs2 rm s) := by
  unfold execFaddD
  exact runs_fpRounded fun h mode => runs_fpF (.inr h) _ _ _

theorem runs_execFsubD {i : Instr} {s : State} (rd rs1 rs2 : Reg) (rm : BitVec 3) : Runs i s (execFsubD rd rs1 rs2 rm s) := by
  unfold execFsubD
  exact runs_fpRounded fun h mode => runs_fpF (.inr h) _ _ _

theorem runs_execFmulD {i : Instr} {s : State} (rd rs1 rs2 : Reg) (rm : BitVec 3) : Runs i s (execFmulD rd rs1 rs2 rm s) := by
  unfold execFmulD
  exact runs_fpRounded fun h mode => runs_fpF (.inr h) _ _ _

theorem runs_execFdivD {i : Instr} {s : State} (rd rs1 rs2 : Reg) (rm : BitVec 3) : Runs i s (execFdivD rd rs1 rs2 rm s) := by
  unfold execFdivD
  exact runs_fpRounded fun h mode => runs_fpF (.inr h) _ _ _

theorem runs_execFsqrtD {i : Instr} {s : State} (rd rs1 : Reg) (rm : BitVec 3) : Runs i s (execFsqrtD rd rs1 rm s) := by
  unfold execFsqrtD
  exact runs_fpRounded fun h mode => runs_fpF (.inr h) _ _ _

theorem runs_execFsgnjD {i : Instr} {s : State} (rd rs1 rs2 : Reg) : Runs i s (execFsgnjD rd rs1 rs2 s) := by
  unfold execFsgnjD
  exact runs_fpLegal fun h => runs_fpF (.inr h) _ _ _

theorem runs_execFsgnjnD {i : Instr} {s : State} (rd rs1 rs2 : Reg) : Runs i s (execFsgnjnD rd rs1 rs2 s) := by
  unfold execFsgnjnD
  exact runs_fpLegal fun h => runs_fpF (.inr h) _ _ _

theorem runs_execFsgnjxD {i : Instr} {s : State} (rd rs1 rs2 : Reg) : Runs i s (execFsgnjxD rd rs1 rs2 s) := by
  unfold execFsgnjxD
  exact runs_fpLegal fun h => runs_fpF (.inr h) _ _ _

theorem runs_execFminD {i : Instr} {s : State} (rd rs1 rs2 : Reg) : Runs i s (execFminD rd rs1 rs2 s) := by
  unfold execFminD
  exact runs_fpLegal fun h => runs_fpF (.inr h) _ _ _

theorem runs_execFmaxD {i : Instr} {s : State} (rd rs1 rs2 : Reg) : Runs i s (execFmaxD rd rs1 rs2 s) := by
  unfold execFmaxD
  exact runs_fpLegal fun h => runs_fpF (.inr h) _ _ _

theorem runs_execFcvtSD {i : Instr} {s : State} (rd rs1 : Reg) (rm : BitVec 3) : Runs i s (execFcvtSD rd rs1 rm s) := by
  unfold execFcvtSD
  exact runs_fpRounded fun h mode => runs_fpF (.inr h) _ _ _

theorem runs_execFcvtDS {i : Instr} {s : State} (rd rs1 : Reg) (rm : BitVec 3) : Runs i s (execFcvtDS rd rs1 rm s) := by
  unfold execFcvtDS
  exact runs_fpRounded fun h mode => runs_fpF (.inr h) _ _ _

theorem runs_execFeqD {i : Instr} {s : State} (rd rs1 rs2 : Reg) : Runs i s (execFeqD rd rs1 rs2 s) := by
  unfold execFeqD
  exact runs_fpLegal fun h => runs_finishX (.inr h) _ _ _

theorem runs_execFltD {i : Instr} {s : State} (rd rs1 rs2 : Reg) : Runs i s (execFltD rd rs1 rs2 s) := by
  unfold execFltD
  exact runs_fpLegal fun h => runs_finishX (.inr h) _ _ _

theorem runs_execFleD {i : Instr} {s : State} (rd rs1 rs2 : Reg) : Runs i s (execFleD rd rs1 rs2 s) := by
  unfold execFleD
  exact runs_fpLegal fun h => runs_finishX (.inr h) _ _ _

theorem runs_execFclassD {i : Instr} {s : State} (rd rs1 : Reg) : Runs i s (execFclassD rd rs1 s) := by
  unfold execFclassD
  exact runs_fpLegal fun h => runs_finishX (.inr h) _ _ _

theorem runs_execFcvtWD {i : Instr} {s : State} (rd rs1 : Reg) (rm : BitVec 3) : Runs i s (execFcvtWD rd rs1 rm s) := by
  unfold execFcvtWD
  exact runs_fpRounded fun h mode => runs_finishX (.inr h) _ _ _

theorem runs_execFcvtWuD {i : Instr} {s : State} (rd rs1 : Reg) (rm : BitVec 3) : Runs i s (execFcvtWuD rd rs1 rm s) := by
  unfold execFcvtWuD
  exact runs_fpRounded fun h mode => runs_finishX (.inr h) _ _ _

theorem runs_execFcvtDW {i : Instr} {s : State} (rd rs1 : Reg) (rm : BitVec 3) : Runs i s (execFcvtDW rd rs1 rm s) := by
  unfold execFcvtDW
  exact runs_fpRounded fun h mode => runs_fpF (.inr h) _ _ _

theorem runs_execFcvtDWu {i : Instr} {s : State} (rd rs1 : Reg) (rm : BitVec 3) : Runs i s (execFcvtDWu rd rs1 rm s) := by
  unfold execFcvtDWu
  exact runs_fpRounded fun h mode => runs_fpF (.inr h) _ _ _

theorem runs_execCsrrw {i : Instr} {s : State} (rd : Reg) (csr : CsrAddr) (rs1 : Reg) : Runs i s (execCsrrw rd csr rs1 s) := by
  unfold execCsrrw
  exact runs_csrInstr _ _ _ _

theorem runs_execCsrrs {i : Instr} {s : State} (rd : Reg) (csr : CsrAddr) (rs1 : Reg) : Runs i s (execCsrrs rd csr rs1 s) := by
  unfold execCsrrs
  exact runs_csrInstr _ _ _ _

theorem runs_execCsrrc {i : Instr} {s : State} (rd : Reg) (csr : CsrAddr) (rs1 : Reg) : Runs i s (execCsrrc rd csr rs1 s) := by
  unfold execCsrrc
  exact runs_csrInstr _ _ _ _

theorem runs_execCsrrwi {i : Instr} {s : State} (rd : Reg) (csr : CsrAddr) (uimm : BitVec 5) : Runs i s (execCsrrwi rd csr uimm s) := by
  unfold execCsrrwi
  exact runs_csrInstr _ _ _ _

theorem runs_execCsrrsi {i : Instr} {s : State} (rd : Reg) (csr : CsrAddr) (uimm : BitVec 5) : Runs i s (execCsrrsi rd csr uimm s) := by
  unfold execCsrrsi
  exact runs_csrInstr _ _ _ _

theorem runs_execCsrrci {i : Instr} {s : State} (rd : Reg) (csr : CsrAddr) (uimm : BitVec 5) : Runs i s (execCsrrci rd csr uimm s) := by
  unfold execCsrrci
  exact runs_csrInstr _ _ _ _

theorem runs_execEbreak {i : Instr} {s : State}  : Runs i s (execEbreak s) := by
  unfold execEbreak
  exact runs_raise .refl _

theorem runs_execEcall {i : Instr} {s : State}  : Runs i s (execEcall s) := by
  unfold execEcall
  exact runs_raise .refl _

/-- Everything an instruction can do. -/
theorem exec_ran {i : Instr} {s t : State} (h : exec i s = .next t) : Ran i s t := by
  revert h
  revert t
  show Runs i s (exec i s)
  cases i with
  | lui rd imm => exact runs_execLui rd imm
  | auipc rd imm => exact runs_execAuipc rd imm
  | jal rd off => exact runs_execJal rd off
  | jalr rd rs1 imm => exact runs_execJalr rd rs1 imm
  | beq rs1 rs2 off => exact runs_execBeq rs1 rs2 off
  | bne rs1 rs2 off => exact runs_execBne rs1 rs2 off
  | blt rs1 rs2 off => exact runs_execBlt rs1 rs2 off
  | bge rs1 rs2 off => exact runs_execBge rs1 rs2 off
  | bltu rs1 rs2 off => exact runs_execBltu rs1 rs2 off
  | bgeu rs1 rs2 off => exact runs_execBgeu rs1 rs2 off
  | lb rd rs1 imm => exact runs_execLb rd rs1 imm
  | lh rd rs1 imm => exact runs_execLh rd rs1 imm
  | lw rd rs1 imm => exact runs_execLw rd rs1 imm
  | lbu rd rs1 imm => exact runs_execLbu rd rs1 imm
  | lhu rd rs1 imm => exact runs_execLhu rd rs1 imm
  | sb rs2 rs1 imm => exact runs_execSb rs2 rs1 imm
  | sh rs2 rs1 imm => exact runs_execSh rs2 rs1 imm
  | sw rs2 rs1 imm => exact runs_execSw rs2 rs1 imm
  | addi rd rs1 imm => exact runs_execAddi rd rs1 imm
  | slti rd rs1 imm => exact runs_execSlti rd rs1 imm
  | sltiu rd rs1 imm => exact runs_execSltiu rd rs1 imm
  | xori rd rs1 imm => exact runs_execXori rd rs1 imm
  | ori rd rs1 imm => exact runs_execOri rd rs1 imm
  | andi rd rs1 imm => exact runs_execAndi rd rs1 imm
  | slli rd rs1 shamt => exact runs_execSlli rd rs1 shamt
  | srli rd rs1 shamt => exact runs_execSrli rd rs1 shamt
  | srai rd rs1 shamt => exact runs_execSrai rd rs1 shamt
  | add rd rs1 rs2 => exact runs_execAdd rd rs1 rs2
  | sub rd rs1 rs2 => exact runs_execSub rd rs1 rs2
  | sll rd rs1 rs2 => exact runs_execSll rd rs1 rs2
  | slt rd rs1 rs2 => exact runs_execSlt rd rs1 rs2
  | sltu rd rs1 rs2 => exact runs_execSltu rd rs1 rs2
  | xor rd rs1 rs2 => exact runs_execXor rd rs1 rs2
  | srl rd rs1 rs2 => exact runs_execSrl rd rs1 rs2
  | sra rd rs1 rs2 => exact runs_execSra rd rs1 rs2
  | or rd rs1 rs2 => exact runs_execOr rd rs1 rs2
  | and rd rs1 rs2 => exact runs_execAnd rd rs1 rs2
  | fence fm pred succ rs1 rd => exact runs_execFence fm pred succ rs1 rd
  | fenceI imm rs1 rd => exact runs_execFenceI imm rs1 rd
  | mul rd rs1 rs2 => exact runs_execMul rd rs1 rs2
  | mulh rd rs1 rs2 => exact runs_execMulh rd rs1 rs2
  | mulhsu rd rs1 rs2 => exact runs_execMulhsu rd rs1 rs2
  | mulhu rd rs1 rs2 => exact runs_execMulhu rd rs1 rs2
  | div rd rs1 rs2 => exact runs_execDiv rd rs1 rs2
  | divu rd rs1 rs2 => exact runs_execDivu rd rs1 rs2
  | rem rd rs1 rs2 => exact runs_execRem rd rs1 rs2
  | remu rd rs1 rs2 => exact runs_execRemu rd rs1 rs2
  | cAddi4spn rd imm => exact runs_execCAddi4spn rd imm
  | cFld rd rs1 imm => exact runs_execCFld rd rs1 imm
  | cLw rd rs1 imm => exact runs_execCLw rd rs1 imm
  | cFlw rd rs1 imm => exact runs_execCFlw rd rs1 imm
  | cFsd rs2 rs1 imm => exact runs_execCFsd rs2 rs1 imm
  | cSw rs2 rs1 imm => exact runs_execCSw rs2 rs1 imm
  | cFsw rs2 rs1 imm => exact runs_execCFsw rs2 rs1 imm
  | cNop imm => exact runs_execCNop imm
  | cAddi rd imm => exact runs_execCAddi rd imm
  | cJal off => exact runs_execCJal off
  | cLi rd imm => exact runs_execCLi rd imm
  | cAddi16sp imm => exact runs_execCAddi16sp imm
  | cLui rd imm => exact runs_execCLui rd imm
  | cSrli rd shamt => exact runs_execCSrli rd shamt
  | cSrai rd shamt => exact runs_execCSrai rd shamt
  | cAndi rd imm => exact runs_execCAndi rd imm
  | cSub rd rs2 => exact runs_execCSub rd rs2
  | cXor rd rs2 => exact runs_execCXor rd rs2
  | cOr rd rs2 => exact runs_execCOr rd rs2
  | cAnd rd rs2 => exact runs_execCAnd rd rs2
  | cJ off => exact runs_execCJ off
  | cBeqz rs1 off => exact runs_execCBeqz rs1 off
  | cBnez rs1 off => exact runs_execCBnez rs1 off
  | cSlli rd shamt => exact runs_execCSlli rd shamt
  | cFldsp rd imm => exact runs_execCFldsp rd imm
  | cLwsp rd imm => exact runs_execCLwsp rd imm
  | cFlwsp rd imm => exact runs_execCFlwsp rd imm
  | cJr rs1 => exact runs_execCJr rs1
  | cMv rd rs2 => exact runs_execCMv rd rs2
  | cEbreak => exact runs_execCEbreak
  | cJalr rs1 => exact runs_execCJalr rs1
  | cAdd rd rs2 => exact runs_execCAdd rd rs2
  | cFsdsp rs2 imm => exact runs_execCFsdsp rs2 imm
  | cSwsp rs2 imm => exact runs_execCSwsp rs2 imm
  | cFswsp rs2 imm => exact runs_execCFswsp rs2 imm
  | lrW rd rs1 aq rl => exact runs_execLrW rd rs1 aq rl
  | scW rd rs1 rs2 aq rl => exact runs_execScW rd rs1 rs2 aq rl
  | amoswapW rd rs1 rs2 aq rl => exact runs_execAmoswapW rd rs1 rs2 aq rl
  | amoaddW rd rs1 rs2 aq rl => exact runs_execAmoaddW rd rs1 rs2 aq rl
  | amoxorW rd rs1 rs2 aq rl => exact runs_execAmoxorW rd rs1 rs2 aq rl
  | amoandW rd rs1 rs2 aq rl => exact runs_execAmoandW rd rs1 rs2 aq rl
  | amoorW rd rs1 rs2 aq rl => exact runs_execAmoorW rd rs1 rs2 aq rl
  | amominW rd rs1 rs2 aq rl => exact runs_execAmominW rd rs1 rs2 aq rl
  | amomaxW rd rs1 rs2 aq rl => exact runs_execAmomaxW rd rs1 rs2 aq rl
  | amominuW rd rs1 rs2 aq rl => exact runs_execAmominuW rd rs1 rs2 aq rl
  | amomaxuW rd rs1 rs2 aq rl => exact runs_execAmomaxuW rd rs1 rs2 aq rl
  | flw rd rs1 imm => exact runs_execFlw rd rs1 imm
  | fsw rs2 rs1 imm => exact runs_execFsw rs2 rs1 imm
  | fmaddS rd rs1 rs2 rs3 rm => exact runs_execFmaddS rd rs1 rs2 rs3 rm
  | fmsubS rd rs1 rs2 rs3 rm => exact runs_execFmsubS rd rs1 rs2 rs3 rm
  | fnmsubS rd rs1 rs2 rs3 rm => exact runs_execFnmsubS rd rs1 rs2 rs3 rm
  | fnmaddS rd rs1 rs2 rs3 rm => exact runs_execFnmaddS rd rs1 rs2 rs3 rm
  | faddS rd rs1 rs2 rm => exact runs_execFaddS rd rs1 rs2 rm
  | fsubS rd rs1 rs2 rm => exact runs_execFsubS rd rs1 rs2 rm
  | fmulS rd rs1 rs2 rm => exact runs_execFmulS rd rs1 rs2 rm
  | fdivS rd rs1 rs2 rm => exact runs_execFdivS rd rs1 rs2 rm
  | fsqrtS rd rs1 rm => exact runs_execFsqrtS rd rs1 rm
  | fsgnjS rd rs1 rs2 => exact runs_execFsgnjS rd rs1 rs2
  | fsgnjnS rd rs1 rs2 => exact runs_execFsgnjnS rd rs1 rs2
  | fsgnjxS rd rs1 rs2 => exact runs_execFsgnjxS rd rs1 rs2
  | fminS rd rs1 rs2 => exact runs_execFminS rd rs1 rs2
  | fmaxS rd rs1 rs2 => exact runs_execFmaxS rd rs1 rs2
  | fcvtWS rd rs1 rm => exact runs_execFcvtWS rd rs1 rm
  | fcvtWuS rd rs1 rm => exact runs_execFcvtWuS rd rs1 rm
  | fmvXW rd rs1 => exact runs_execFmvXW rd rs1
  | feqS rd rs1 rs2 => exact runs_execFeqS rd rs1 rs2
  | fltS rd rs1 rs2 => exact runs_execFltS rd rs1 rs2
  | fleS rd rs1 rs2 => exact runs_execFleS rd rs1 rs2
  | fclassS rd rs1 => exact runs_execFclassS rd rs1
  | fcvtSW rd rs1 rm => exact runs_execFcvtSW rd rs1 rm
  | fcvtSWu rd rs1 rm => exact runs_execFcvtSWu rd rs1 rm
  | fmvWX rd rs1 => exact runs_execFmvWX rd rs1
  | fld rd rs1 imm => exact runs_execFld rd rs1 imm
  | fsd rs2 rs1 imm => exact runs_execFsd rs2 rs1 imm
  | fmaddD rd rs1 rs2 rs3 rm => exact runs_execFmaddD rd rs1 rs2 rs3 rm
  | fmsubD rd rs1 rs2 rs3 rm => exact runs_execFmsubD rd rs1 rs2 rs3 rm
  | fnmsubD rd rs1 rs2 rs3 rm => exact runs_execFnmsubD rd rs1 rs2 rs3 rm
  | fnmaddD rd rs1 rs2 rs3 rm => exact runs_execFnmaddD rd rs1 rs2 rs3 rm
  | faddD rd rs1 rs2 rm => exact runs_execFaddD rd rs1 rs2 rm
  | fsubD rd rs1 rs2 rm => exact runs_execFsubD rd rs1 rs2 rm
  | fmulD rd rs1 rs2 rm => exact runs_execFmulD rd rs1 rs2 rm
  | fdivD rd rs1 rs2 rm => exact runs_execFdivD rd rs1 rs2 rm
  | fsqrtD rd rs1 rm => exact runs_execFsqrtD rd rs1 rm
  | fsgnjD rd rs1 rs2 => exact runs_execFsgnjD rd rs1 rs2
  | fsgnjnD rd rs1 rs2 => exact runs_execFsgnjnD rd rs1 rs2
  | fsgnjxD rd rs1 rs2 => exact runs_execFsgnjxD rd rs1 rs2
  | fminD rd rs1 rs2 => exact runs_execFminD rd rs1 rs2
  | fmaxD rd rs1 rs2 => exact runs_execFmaxD rd rs1 rs2
  | fcvtSD rd rs1 rm => exact runs_execFcvtSD rd rs1 rm
  | fcvtDS rd rs1 rm => exact runs_execFcvtDS rd rs1 rm
  | feqD rd rs1 rs2 => exact runs_execFeqD rd rs1 rs2
  | fltD rd rs1 rs2 => exact runs_execFltD rd rs1 rs2
  | fleD rd rs1 rs2 => exact runs_execFleD rd rs1 rs2
  | fclassD rd rs1 => exact runs_execFclassD rd rs1
  | fcvtWD rd rs1 rm => exact runs_execFcvtWD rd rs1 rm
  | fcvtWuD rd rs1 rm => exact runs_execFcvtWuD rd rs1 rm
  | fcvtDW rd rs1 rm => exact runs_execFcvtDW rd rs1 rm
  | fcvtDWu rd rs1 rm => exact runs_execFcvtDWu rd rs1 rm
  | csrrw rd csr rs1 => exact runs_execCsrrw rd csr rs1
  | csrrs rd csr rs1 => exact runs_execCsrrs rd csr rs1
  | csrrc rd csr rs1 => exact runs_execCsrrc rd csr rs1
  | csrrwi rd csr uimm => exact runs_execCsrrwi rd csr uimm
  | csrrsi rd csr uimm => exact runs_execCsrrsi rd csr uimm
  | csrrci rd csr uimm => exact runs_execCsrrci rd csr uimm
  | ebreak => exact runs_execEbreak
  | ecall => exact runs_execEcall
  | mret => exact runs_mret
  | wfi => exact runs_wfi

end Sys2Proof.Machine
end

