-- ==== Sys2Proof/Laws/Step.lean ====
section
/-! SUPPORT. Everything a step can do, said once: `step_acts` and `act_cases`. A step lets the environment's events
happen, acts, and settles; acting is sleep, a trap at the boundary, or a fetch with the working changes of one instruction
(`Ran`). -/

namespace Sys2Proof.Machine

/-- What the middle of a step can be. -/
inductive Acted (s : State) : State → Prop
  | sleep (h : s.asleep = true) : Acted s (sleepStep s)
  | fault (e : Exc) (h : s.pendingFault = some e) : Acted s (takeException e s.pc (s.withPendingFault none))
  | nmi (h : nmiTaken s = true) : Acted s (takeNmi s)
  | irq {t : State} (r : Request) (ha : irqAllowed s = some r) (hm : eclicMode s = true)
    (h : takeIrq r s = .next t) : Acted s t
  | ran {u t : State} (i : Instr) (hu : Work s u) (hr : Ran i u t)
    (hi : i = .mret → ∃ c, fetch s = .ok c u ∧ decode c = some .mret) : Acted s t

theorem fetchUpper_works (s : State) (a : Word) : (fetchUpper s a).Works s := by
  unfold fetchUpper
  have hc := checkFetch_works s s.priv a
  split
  · rename_i h; rw [h] at hc; exact hc
  · exact trivial
  · rename_i h; rw [h] at hc; exact hc

theorem fetchLong_works {s t : State} (h : Work s t) (lo hi : BitVec 16) : (fetchLong lo hi t).Works s := by
  unfold fetchLong
  split
  · exact h
  · exact h

theorem Res.Works.trans {α : Type} {s t : State} {r : Res α} (h : Work s t) (hr : r.Works t) : r.Works s := by
  cases r with
  | ok v u => exact Work.trans h hr
  | exc e u => exact Work.trans h hr
  | refuse q => exact trivial

theorem fetch_works (s : State) : (fetch s).Works s := by
  unfold fetch
  split
  · exact .refl
  · have hc := checkFetch_works s s.priv (alignedAddr s.pc)
    split
    · rename_i h; rw [h] at hc; exact hc
    · exact trivial
    · rename_i u h
      rw [h] at hc
      replace hc : Work s u := hc
      simp only
      generalize (if s.pc.getLsbD 1 = true then _ else _ : BitVec 16) = lo
      split
      · split
        · have hw := Res.Works.trans hc (fetchUpper_works u (alignedAddr s.pc + 4))
          split
          · rename_i h2; rw [h2] at hw; exact hw
          · exact trivial
          · rename_i h2; rw [h2] at hw; exact fetchLong_works hw _ _
        · exact fetchLong_works hc _ _
      · split
        · exact hc
        · exact hc

theorem runInstr_acts {s t : State} (h : runInstr s = .next t) : Acted s t := by
  unfold runInstr at h
  have hf := fetch_works s
  split at h
  · rename_i c u hc
    rw [hc] at hf
    unfold runCode at h
    split at h
    · exact .ran .ebreak hf (runs_raise .refl _ _ h) nofun
    · rename_i i hd
      exact .ran i hf (exec_ran h) fun hi => ⟨c, hc, hi ▸ hd⟩
  · rename_i e u hc
    rw [hc] at hf
    exact .ran .ebreak hf (runs_raise .refl _ _ h) nofun
  · cases h

/-- The middle of a step, taken apart. -/
theorem act_cases {s t : State} (h : actStep s = .next t) : Acted s t := by
  unfold actStep at h
  split at h
  · rename_i ha
    cases h
    exact .sleep ha
  · split at h
    · rename_i o ho
      unfold boundaryTrap at ho
      split at ho
      · split at ho
        · rename_i e he _
          cases ho
          cases h
          exact .fault e he
        · cases ho
      · split at ho
        · rename_i hn
          cases ho
          cases h
          exact .nmi hn
        · split at ho
          · cases ho
          · rename_i r hr
            split at ho
            · rename_i hm
              cases ho
              exact .irq r hr hm h
            · cases ho
              cases h
    · exact runInstr_acts h

/-- A step is: the events, the middle, the end. -/
theorem step_acts {s t : State} (h : step s = .next t) : ∃ u, Acted (arrive s) u ∧ t = settle u := by
  unfold step at h
  cases hu : actStep (arrive s) with
  | next u =>
    rw [hu] at h
    cases h
    exact ⟨u, act_cases hu, rfl⟩
  | fault f => rw [hu] at h; cases h
  | refused r => rw [hu] at h; cases h

/-- The end of a step changes mcycle, the ECC errors of the step and the counter of the free values. -/
theorem settle_frame (s : State) :
    ∃ m, settle s = { s with mcycle := m, eccHits := [], free := s.free + 1 } := by
  unfold settle State.countCycles
  split <;> exact ⟨_, rfl⟩

/-- A relation every event keeps holds between a state and the state after a list of events. -/
theorem inputs_rel (R : State → State → Prop) (hr : ∀ s, R s s) (ht : ∀ s t u, R s t → R t u → R s u) (ok : Input → Prop)
    (h : ∀ s i, ok i → R s (s.input i)) : ∀ (g : List Input) (s : State), (∀ i ∈ g, ok i) → R s (s.inputsInOrder g) := by
  intro g
  induction g with
  | nil => exact fun s _ => hr s
  | cons i rest ih =>
    exact fun s hg => ht _ _ _ (h s i (hg i (by simp))) (ih _ fun j hj => hg j (by simp [hj]))

/-- Such a relation holds between a state and the state its step starts from, if it ignores the pulses and the queue. -/
theorem arrive_rel (R : State → State → Prop) (hr : ∀ s, R s s) (ht : ∀ s t u, R s t → R t u → R s u)
    (hx : ∀ s, R s s.endPulses) (hq : ∀ s l, R s (s.withInputs l)) (ok : Input → Prop)
    (h : ∀ s i, ok i → R s (s.input i)) (s : State) (hs : ∀ g rest, s.inputs = g :: rest → ∀ i ∈ g, ok i) :
    R s (arrive s) := by
  unfold arrive
  split
  · exact hx s
  · rename_i g rest hg
    exact ht _ _ _ (hx s) (ht _ _ _ (hq _ rest) (inputs_rel R hr ht ok h g _ (hs g rest hg)))

end Sys2Proof.Machine
end

