-- ==== Sys2Proof/Laws/Traps.lean ====
section
/-! SUPPORT. Traps: when a trap is due, what the entries write, how a return goes. -/

namespace Sys2Proof.Machine

/-- MRET where no fault waits and the saved mode exists. -/
theorem returnFromTrap_eq {s : State} (h : s.pendingFault = none)
    (hm : s.csr.mstatus.mpp = .machine ∨ s.cfg.hasUmode = true) :
    returnFromTrap s = retireAt s.csr.mepc (((s.withCsr (if s.cfg.hasNestedStack = true ∧ s.csr.mcause.interrupt = false
        then s.csr.leaveTrapPop s.cfg s.free else s.csr.leaveTrap s.cfg.hasUmode)).withPriv s.csr.mstatus.mpp).withResv none) := by
  have hn : ¬ (s.csr.mstatus.mpp = .user ∧ s.cfg.hasUmode = false) := by
    rintro ⟨a, b⟩; rcases hm with hm | hm <;> simp_all
  simp only [returnFromTrap, h, if_neg hn]

/-- When the NMI is taken. -/
theorem nmiTaken_iff (s : State) : nmiTaken s = true ↔ NmiReady s := by
  unfold nmiTaken NmiReady; simp

theorem tableWord_eq (s : State) (id : Nat) : s.csr.mtvt + 4 * BitVec.ofNat 32 id = tableWord s id := by
  unfold tableWord; congr 1
  apply BitVec.eq_of_toNat_eq; simp [BitVec.toNat_mul]

/-- When mnxti and jalmnxti find an interrupt. -/
theorem nextNonVectored_iff (s : State) (r : Request) : nextNonVectored s = some r ↔ NextInterrupt s r := by
  unfold nextNonVectored nextIrq NextInterrupt
  cases h : presented s.cfg s.eclic with
  | none => simp
  | some q =>
    simp only [BitVec.ult, decide_eq_true_eq]
    by_cases hl : s.csr.mcause.mpil.toNat < q.level.toNat
    · simp only [hl, if_true]
      cases hv : q.shv
      · simp only [Bool.false_eq_true, if_false, Option.some.injEq]
        constructor
        · rintro rfl; exact ⟨rfl, hl, hv⟩
        · exact fun h => h.1
      · simp only [if_true, Option.some.injEq]
        constructor
        · intro h; cases h
        · rintro ⟨rfl, _, h⟩; rw [hv] at h; cases h
    · simp only [hl, if_false, Option.some.injEq]
      constructor
      · intro h; cases h
      · rintro ⟨rfl, h, _⟩; exact absurd h hl

theorem nextNonVectored_none (s : State) (h : ∀ r, ¬ NextInterrupt s r) : nextNonVectored s = none := by
  cases hn : nextNonVectored s with
  | none => rfl
  | some r => exact absurd ((nextNonVectored_iff s r).1 hn) (h r)

/-- The hardware clear of an edge-triggered source's IP. -/
theorem claim_ipCleared (e : Eclic) (id : Nat) : IpCleared e (e.claim id) id := by
  refine ⟨rfl, rfl, by simp [Eclic.claim], fun j src h => ?_⟩
  simp only [Eclic.claim, List.getElem?_modify, h]
  by_cases hj : id = j
  · subst hj
    simp only [true_and, EclicSrc.isEdge, if_true, Option.map_eq_map, Option.map_some]; rfl
  · simp [hj, Ne.symm hj]

/-- A step with nothing from the environment. -/
theorem step_quiet {s : State} (h : Quiet s) : step s = thenSettle (actStep (s.endPulses)) := by
  unfold step arrive; rw [show s.inputs = [] from h]

theorem actStep_awake {s : State} (h : s.asleep = false) : actStep s =
    match boundaryTrap s with
    | some o => o
    | none => runInstr s := by
  unfold actStep; rw [h]; rfl

/-- A step whose boundary trap gives a next state. -/
theorem step_of_boundary {s : State} (h : Quiet s) (ha : s.asleep = false) {u : State}
    (hb : boundaryTrap (s.endPulses) = some (.next u)) :
    ∃ t, step s = .next t ∧ ∃ m, t = { u with mcycle := m, eccHits := [], free := u.free + 1 } := by
  obtain ⟨m, hm⟩ := settle_frame u
  refine ⟨settle u, ?_, m, hm⟩
  rw [step_quiet h, actStep_awake (by exact ha), hb]; rfl

/-- Every CSR after NMI entry. -/
theorem enterNmi_eq (c : Csrs) (pc p b) : c.enterNmi pc p b = { c with
        mepc := pc &&& 0xFFFFFFFE#32
        mcause := { c.mcause with interrupt := false, exccode := if c.mmisc.nmiCauseFff then 0xFFF else 0x001 }
        mstatus := { c.mstatus with mpie := c.mstatus.mie, mpp := p, mie := false }
        msubm := { ptyp := c.msubm.typ, typ := 3 }
        save1 := (c.enterNmi pc p b).save1
        save2 := (c.enterNmi pc p b).save2 } := by
  cases b <;> simp [Csrs.enterNmi, Csrs.pushIf, Csrs.push, evenAddr_eq, Mstatus.enter, Msubm.enter, nmiCode]

/-- When an interrupt is allowed. -/
theorem irqAllowed_iff (s : State) (r : Request) : irqAllowed s = some r ↔ IrqReady s r := by
  unfold irqAllowed IrqReady
  cases h : presented s.cfg s.eclic with
  | none => simp
  | some q =>
    simp only [BitVec.ult, Bool.and_eq_true, decide_eq_true_eq, Bool.or_eq_true, beq_iff_eq, Option.some.injEq]
    constructor
    · intro h; split at h
      · cases h; rename_i hc; exact ⟨rfl, hc.1, hc.2⟩
      · cases h
    · rintro ⟨rfl, h1, h2⟩; rw [if_pos ⟨h1, h2⟩]

/-- Every CSR after exception entry but the state stack and mepc. -/
theorem enterException_eq (c : Csrs) (e : Exc) (epc p b fr) : c.enterException e epc p b fr = { c with
        mepc := (c.enterException e epc p b fr).mepc
        mcause := { c.mcause with interrupt := false, exccode := e.code.num }
        mtval := e.tval.getD (Config.freeMtval fr)
        mdcause := detailBits e.detail c.mdcause fr
        mstatus := { c.mstatus with mpie := c.mstatus.mie, mpp := p, mie := false }
        msubm := { ptyp := c.msubm.typ, typ := 2 }
        save1 := (c.enterException e epc p b fr).save1
        save2 := (c.enterException e epc p b fr).save2 } := by
  cases b <;> simp [Csrs.enterException, Csrs.pushIf, Csrs.push, evenAddr_eq, Mstatus.enter, Msubm.enter]

/-- The state stack after exception entry. -/
theorem enterException_stack (c : Csrs) (e : Exc) (epc p b fr) :
    StackAtEntry b c (c.enterException e epc p b fr) := by
  cases b
  · exact ⟨rfl, rfl⟩
  · exact ⟨rfl, rfl, rfl, rfl, rfl, rfl, rfl⟩

theorem alignedAddr_toNat (b : Word) : (alignedAddr b).toNat = b.toNat / 4 * 4 := by
  have h : alignedAddr b = b >>> 2 <<< 2 := by
    apply BitVec.eq_of_getLsbD_eq; intro i hi
    unfold alignedAddr
    interval_cases i <;> simp
  rw [h]; have := b.isLt
  simp [BitVec.toNat_shiftLeft, Nat.shiftRight_eq_div_pow, Nat.shiftLeft_eq]; omega

/-- An even pc is the address of a word or its middle. -/
theorem alignedAddr_cases (pc : Word) (h0 : pc.getLsbD 0 = false) :
    (pc.getLsbD 1 = false ∧ alignedAddr pc = pc) ∨ (pc.getLsbD 1 = true ∧ pc = alignedAddr pc + 2) := by
  have hm := alignedAddr_toNat pc
  have b0 : pc.toNat % 2 = 0 := by
    have : pc.toNat.testBit 0 = false := h0
    rw [Nat.testBit_zero] at this; simpa using this
  have hb1 : pc.getLsbD 1 = pc.toNat.testBit 1 := rfl
  have hd : pc.toNat.testBit 1 = decide (pc.toNat / 2 % 2 = 1) := by rw [← Nat.testBit_zero, ← Nat.testBit_div_two]
  have := pc.isLt
  rw [hb1, hd]
  by_cases h : pc.toNat / 2 % 2 = 1
  · right
    refine ⟨by simpa using h, ?_⟩
    apply BitVec.eq_of_toNat_eq
    rw [BitVec.toNat_add, hm]; simp; omega
  · left
    refine ⟨by simpa using h, ?_⟩
    apply BitVec.eq_of_toNat_eq
    rw [hm]; omega

end Sys2Proof.Machine
end

