-- ==== Sys2Proof/Laws/Devices.lean ====
section
/-! SUPPORT. The TIMER and the ECLIC: what their registers read and store, what drives the lines, which source wins the arbitration; and the parts of a bus access. -/

namespace Sys2Proof.Machine

/-- What the arbitration compares: level, then priority, then number. -/
def Candidate.key (c : Candidate) : ℕ ×ₗ (ℕ ×ₗ ℕ) := toLex (c.level.toNat, toLex (c.prio.toNat, c.id))

/-- A source as a candidate. -/
def candidateOf (n : Nat) (nl : BitVec 4) (i : Nat) (src : EclicSrc) : Candidate :=
  { id := i, level := levelOf nl (src.ctlRead n), prio := priorityOf n nl (src.ctlRead n), shv := src.shv }

theorem Candidate.wins_iff (c b : Candidate) (h : b.id < c.id) : c.wins b = true ↔
    Candidate.key b ≤ Candidate.key c := by
  unfold Candidate.wins Candidate.key
  simp only [Bool.or_eq_true, BitVec.ult, BitVec.ule, decide_eq_true_eq, Bool.and_eq_true, beq_iff_eq, Prod.Lex.toLex_le_toLex, ← BitVec.toNat_inj]
  omega

theorem Candidate.wins_not (c b : Candidate) (h : b.id < c.id) (hw : c.wins b = false) :
    Candidate.key c ≤ Candidate.key b := by
  have := (Candidate.wins_iff c b h).not.1 (by simp [hw])
  exact le_of_lt (not_le.1 this)

def EclicSrc.active (src : EclicSrc) : Bool := src.ie && src.pending

def bestAfter (n : Nat) (nl : BitVec 4) (i : Nat) (src : EclicSrc) (best : Option Candidate) : Option Candidate :=
  if (src.ie && src.pending) = true then
        match best with
        | none => some (candidateOf n nl i src)
        | some b => if (candidateOf n nl i src).wins b = true then some (candidateOf n nl i src) else some b
      else best

theorem arbitrate_cons (n nl i src l best) :
    arbitrate n nl i (src :: l) best = arbitrate n nl (i+1) l (bestAfter n nl i src best) := rfl

/-- The arbitration gives an active source that no active source beats, or none when none is active. -/
theorem arbitrate_spec (n : Nat) (nl : BitVec 4) :
    ∀ (l : List EclicSrc) (i : Nat) (best : Option Candidate), (∀ b, best = some b → b.id < i) →
   (arbitrate n nl i l best = none → best = none ∧ ∀ (j : Nat) (src : EclicSrc), l[j]? = some src → EclicSrc.active src = false) ∧
   (∀ c, arbitrate n nl i l best = some c → (best = some c ∨ ∃ (j : Nat) (src : EclicSrc), l[j]? = some src ∧ EclicSrc.active src = true ∧ c = candidateOf n nl (i + j) src) ∧
     (∀ b, best = some b → Candidate.key b ≤ Candidate.key c) ∧ ∀ (j : Nat) (src : EclicSrc), l[j]? = some src → EclicSrc.active src = true → Candidate.key (candidateOf n nl (i + j) src) ≤ Candidate.key c) := by
  intro l
  induction l with
  | nil => intro i best hb; refine ⟨fun h => ⟨h, by simp⟩, fun c h => ⟨.inl h, fun b hb' => ?_, by simp⟩⟩
           simp only [arbitrate] at h; rw [hb'] at h; cases h; exact le_refl _
  | cons src l ih =>
    intro i best hb
    rw [arbitrate_cons]
    obtain ⟨best', hbest⟩ : ∃ b', b' = bestAfter n nl i src best := ⟨_, rfl⟩
    rw [← hbest]
    unfold bestAfter at hbest
    have hlt : ∀ b, best' = some b → b.id < i + 1 := by
      intro b h
      rw [hbest] at h
      split at h
      · cases hbb : best with
        | none => rw [hbb] at h; cases h; show i < _; omega
        | some b0 =>
          rw [hbb] at h; simp only at h
          split at h
          · cases h; show i < _; omega
          · have := hb b0 hbb; have e := Option.some.inj h; rw [← e]; omega
      · have := hb b h; omega
    obtain ⟨h1, h2⟩ := ih (i+1) best' hlt
    have hact : (src.ie && src.pending) = EclicSrc.active src := rfl
    refine ⟨fun h => ?_, fun c h => ?_⟩
    · obtain ⟨hn, hl⟩ := h1 h
      rw [hbest] at hn
      split at hn
      · cases hbb : best with
        | none => rw [hbb] at hn; cases hn
        | some b0 => rw [hbb] at hn; simp only at hn; split at hn <;> cases hn
      · rename_i hf
        refine ⟨hn, fun j s hj => ?_⟩
        cases j with
        | zero => simp at hj; subst hj; simpa [EclicSrc.active] using hf
        | succ j => exact hl j s (by simpa using hj)
    · obtain ⟨k1, k2, k3⟩ := h2 c h
      have kb : ∀ b, best = some b → Candidate.key b ≤ Candidate.key c := by
        intro b hbb
        rw [hbest, hbb] at k2
        simp only at k2
        split at k2
        · split at k2
          · rename_i hw
            exact le_trans ((Candidate.wins_iff _ _ (hb b hbb)).1 hw) (k2 _ rfl)
          · exact k2 _ rfl
        · exact k2 _ rfl
      have kc : EclicSrc.active src = true → Candidate.key (candidateOf n nl i src) ≤ Candidate.key c := by
        intro ha
        rw [hbest, hact, if_pos ha] at k2
        cases hbb : best with
        | none => rw [hbb] at k2; exact k2 _ rfl
        | some b0 =>
          rw [hbb] at k2; simp only at k2
          split at k2
          · exact k2 _ rfl
          · rename_i hw
            exact le_trans (Candidate.wins_not _ _ (hb b0 hbb) (by simpa using hw)) (k2 _ rfl)
      refine ⟨?_, kb, fun j s hj ha => ?_⟩
      · rcases k1 with k1 | ⟨j, s, hj, ha, rfl⟩
        · rw [hbest] at k1
          split at k1
          · rename_i ha
            have here : some (candidateOf n nl i src) = some c → (best = some c ∨ ∃ (j : Nat) (s : EclicSrc), (src :: l)[j]? = some s ∧ EclicSrc.active s = true ∧ c = candidateOf n nl (i + j) s) := by
              intro h; cases h; right; exact ⟨0, src, by simp, ha, rfl⟩
            cases hbb : best with
            | none => rw [hbb] at k1; rw [hbb] at here; exact here k1
            | some b0 =>
              rw [hbb] at k1; simp only at k1
              split at k1
              · rw [hbb] at here; exact here k1
              · left; exact k1
          · left; exact k1
        · right; exact ⟨j + 1, s, by simpa using hj, ha, by rw [show i + (j+1) = i + 1 + j by omega]⟩
      · cases j with
        | zero => simp at hj; subst hj; exact kc ha
        | succ j => have := k3 j s (by simpa using hj) ha; rwa [show i + 1 + j = i + (j+1) by omega] at this

/-- No ECC error is met in a device. -/
theorem eccMet_device {s : State} {path} {ps : List Part}
    (h : ∀ p ∈ ps, region s.cfg p.addr = .eclic ∨ region s.cfg p.addr = .timer ∨ region s.cfg p.addr = .ppi ∨
      region s.cfg p.addr = .fio) : (eccMet s path ps).isEmpty = true := by
  rw [List.isEmpty_iff, eccMet, List.filter_eq_nil_iff]
  intro e _
  have hp : ∀ p ∈ ps, e.meets s path p = false := fun p hm => by
    have : e.unit.serves s path p.addr = false := by
      unfold EccUnit.serves
      cases e.unit <;> rcases h p hm with h | h | h | h <;> simp [h]
    simp [EccHit.meets, this]
  simpa using hp

theorem toNat_sub_base {a b : Word} {off : Nat} (h : a.toNat = b.toNat + off) : (a - b).toNat = off := by
  have := a.isLt; have := b.isLt
  rw [BitVec.toNat_sub]; omega

/-- An aligned access has one part. -/
theorem parts_aligned {a : Word} {n : Nat} (h : n ∣ a.toNat) (hn : n ≠ 8) : parts a n = [⟨a, n⟩] := by
  unfold parts smallParts
  rw [if_neg hn, if_pos (Nat.mod_eq_zero_of_dvd h)]

theorem not_misaligned {s : State} {a : Word} {n : Nat} (h : n ∣ a.toNat) (hn : n ≠ 8) :
    misaligned s a n = false := by
  unfold misaligned accessAlign
  rw [if_neg hn, Nat.mod_eq_zero_of_dvd h]; rfl

/-- The checks of an access to a device register. -/
theorem checkData_device {s : State} {t} {a : Word} {n : Nat}
    (hr : region s.cfg a = .eclic ∨ (region s.cfg a = .timer ∧ n = 4)) (h : n ∣ a.toNat) (hn : n ≠ 8)
    (ht : t ≠ .fetch) (hp : pmpCheck s s.priv t a = true) :
    checkData s t a n = .ok [⟨a, n⟩] s := by
  have hb : busError s.cfg t a n = false := by
    have hf : (t == .fetch) = false := beq_eq_false_iff_ne.2 ht
    unfold busError; rcases hr with hr | hr <;> simp [hr, Region.mayFail, hf]
  have hrf : partRefusal s.cfg n ⟨a, n⟩ = none := by
    unfold partRefusal
    rcases hr with hr | ⟨hr, rfl⟩
    · simp [hr]
    · simp [hr]
  unfold checkData
  rw [not_misaligned h hn, parts_aligned h hn]
  simp [partFault, hp, hb, hrf]

theorem setWidth_mod (m : BitVec 64) : m.setWidth 32 = BitVec.ofNat 32 (m.toNat % 2^32) := by
  apply BitVec.eq_of_toNat_eq; simp

/-- What a load of a TIMER register gives. -/
theorem timer_readWord (t : Timer) (off : Nat) : t.readWord off = BitVec.ofNat 32 (timerWord t off) := by
  by_cases h1 : off = 0
  · subst h1; exact setWidth_mod _
  by_cases h2 : off = 4
  · subst h2; exact (double_halves _).2
  by_cases h3 : off = 8
  · subst h3; exact setWidth_mod _
  by_cases h4 : off = 12
  · subst h4; exact (double_halves _).2
  by_cases h5 : off = 0xFF0
  · subst h5; show BitVec.ofBool t.msftrst ++ 0#31 = BitVec.ofNat 32 (if t.msftrst then _ else _); cases t.msftrst <;> decide
  by_cases h6 : off = 0xFF8
  · subst h6
    show 0#29 ++ BitVec.ofBool t.clksrc ++ BitVec.ofBool t.cmpclren ++ BitVec.ofBool t.timestop = BitVec.ofNat 32 ((if t.clksrc then 4 else 0) + (if t.cmpclren then 2 else 0) + (if t.timestop then 1 else 0))
    cases t.clksrc <;> cases t.cmpclren <;> cases t.timestop <;> decide
  by_cases h7 : off = 0xFFC
  · subst h7; show 0#31 ++ BitVec.ofBool t.msip = BitVec.ofNat 32 (if t.msip then _ else _); cases t.msip <;> decide
  · have : timerWord t off = 0 := by simp only [timerWord, h1, h2, h3, h4, h5, h6, h7, if_false]
    rw [this]
    unfold Timer.readWord
    split <;> first | rfl | contradiction

/-- What a store to a TIMER register leaves. -/
theorem timer_writeWord (t : Timer) (off : Nat) (v : Word) : TimerStored t (t.writeWord off v) off v := by
  have hm := t.mtime.isLt; have hc := t.mtimecmp.isLt; have hv := v.isLt
  have hlo : ∀ m : BitVec 64, (m.extractLsb' 32 32 ++ v).toNat = m.toNat / 2^32 * 2^32 + v.toNat := fun m => by
    rw [Machine.append_toNat, BitVec.extractLsb'_toNat, Nat.shiftRight_eq_div_pow, Nat.mod_eq_of_lt]
    have := m.isLt; omega
  have hhi : ∀ m : BitVec 64, (v ++ m.setWidth 32).toNat = v.toNat * 2^32 + m.toNat % 2^32 := fun m => by
    rw [Machine.append_toNat, BitVec.toNat_setWidth]
  unfold TimerStored
  split_ifs with h1 h2 h3 h4 h5 h6 h7
  · subst h1; exact ⟨rfl, hlo _⟩
  · subst h2; exact ⟨rfl, hhi _⟩
  · subst h3; exact ⟨rfl, hlo _⟩
  · subst h4; exact ⟨rfl, hhi _⟩
  · subst h5; rfl
  · subst h6; rfl
  · subst h7; rfl
  · unfold Timer.writeWord
    split <;> first | rfl | contradiction

theorem timer_line_iff (t : Timer) : t.line = true ↔
    t.mtimecmp.toNat ≤ t.mtime.toNat := by simp [Timer.line, BitVec.ule]

/-- The TIMER's registers after they take new values. -/
theorem setTimer_timer (s : State) (t : Timer) : (s.setTimer t).timer = timerCleared s.timer t := by
  unfold State.setTimer timerCleared
  have h1 := timer_line_iff t; have h2 := timer_line_iff s.timer
  have : (t.cmpclren = true ∧ t.line = true ∧ s.timer.line = false) ↔ (t.cmpclren = true ∧ t.mtimecmp.toNat ≤ t.mtime.toNat ∧ s.timer.mtime.toNat < s.timer.mtimecmp.toNat) := by
    rw [h1, ← Bool.not_eq_true, h2, not_le]
  by_cases h : t.cmpclren = true ∧ t.mtimecmp.toNat ≤ t.mtime.toNat ∧ s.timer.mtime.toNat < s.timer.mtimecmp.toNat
  · simp only; rw [if_pos h, if_pos (this.2 h)]; rfl
  · simp only; rw [if_neg h, if_neg (fun x => h (this.1 x))]; rfl

theorem setLine_getElem (e : Eclic) (i j : Nat) (b : Bool) :
    (e.setLine i b).srcs[j]? = if i = j then (e.srcs[j]?).map (·.setLine b) else e.srcs[j]? := by
  simp only [Eclic.setLine, List.getElem?_modify]
  split <;> simp

/-- The TIMER's lines follow its registers. -/
theorem setTimer_lines (s : State) (t : Timer) : (s.setTimer t).TimerLines := by
  have key : ∀ (e : Eclic) (b3 b7 : Bool), (∀ src, ((e.setLine 3 b3).setLine 7 b7).srcs[3]? = some src → src.line = b3) ∧ (∀ src, ((e.setLine 3 b3).setLine 7 b7).srcs[7]? = some src → src.line = b7) := by
    intro e b3 b7
    refine ⟨fun src h => ?_, fun src h => ?_⟩
    · rw [setLine_getElem, if_neg (by decide), setLine_getElem, if_pos rfl, Option.map_eq_some_iff] at h
      obtain ⟨o, _, rfl⟩ := h; rfl
    · rw [setLine_getElem, if_pos rfl, Option.map_eq_some_iff] at h
      obtain ⟨o, _, rfl⟩ := h; rfl
  unfold State.setTimer
  simp only
  split
  · refine ⟨fun src h => ?_, fun src h => ?_⟩
    · change (((s.eclic.setLine 3 t.msip).setLine 7 t.line).setLine 7 _).srcs[3]? = _ at h
      rw [setLine_getElem, if_neg (by decide)] at h
      exact (key _ _ _).1 src h
    · change (((s.eclic.setLine 3 t.msip).setLine 7 t.line).setLine 7 _).srcs[7]? = _ at h
      rw [setLine_getElem, if_pos rfl, Option.map_eq_some_iff] at h
      obtain ⟨o, _, rfl⟩ := h
      exact timer_line_iff _
  · refine ⟨fun src h => (key _ _ _).1 src h, fun src h => ?_⟩
    rw [(key _ _ _).2 src h]; exact timer_line_iff t

/-- What a source makes of its line (60_exceptions.md R577). -/
theorem setLine_driven (src : EclicSrc) (b : Bool) : LineDriven src (src.setLine b) b := by
  refine ⟨rfl, fun ht hh => ?_, fun ht => ?_, fun ht => ?_⟩
  · rcases hh with hh | hh <;> simp [-BitVec.getLsbD_eq_getElem, EclicSrc.setLine, EclicSrc.pending, EclicSrc.isEdge, ht, hh]
  · simp [EclicSrc.setLine, EclicSrc.pending, EclicSrc.isEdge, ht]
  · simp [EclicSrc.setLine, EclicSrc.pending, EclicSrc.isEdge, ht]

theorem setLine_twice (src : EclicSrc) (b : Bool) : (src.setLine b).setLine b = src.setLine b := by
  cases b <;> simp [EclicSrc.setLine]

/-- What the TIMER changes in the ECLIC. -/
theorem setTimer_driven (s : State) (t : Timer) : TimerDriven s.timer t s.eclic (s.setTimer t).eclic := by
  have hline : t.line = decide (t.mtimecmp.toNat ≤ t.mtime.toNat) := by
    rw [Bool.eq_iff_iff, timer_line_iff, decide_eq_true_iff]
  have hpulse : (t.cmpclren = true ∧ t.line = true ∧ s.timer.line = false) ↔
      (t.cmpclren = true ∧ t.mtimecmp.toNat ≤ t.mtime.toNat ∧ s.timer.mtime.toNat < s.timer.mtimecmp.toNat) := by
    rw [timer_line_iff, ← Bool.not_eq_true, timer_line_iff, not_le]
  have hzero : ({ t with mtime := 0 } : Timer).line = decide (t.mtimecmp = 0) := by
    rw [Bool.eq_iff_iff, timer_line_iff, decide_eq_true_iff, ← BitVec.toNat_inj]
    simp
  unfold State.setTimer
  simp only [hzero]
  split
  · rename_i h
    obtain ⟨h1, h2, h3⟩ := hpulse.1 h
    refine ⟨rfl, by simp [Eclic.setLine, State.withTimer, State.withEclic], fun i h3 h7 => ?_, fun src src' he he' => ?_,
      fun src src' he he' => ?_⟩
    · change (((s.eclic.setLine 3 t.msip).setLine 7 t.line).setLine 7 _).srcs[i]? = _
      simp only [setLine_getElem, if_neg (Ne.symm h3), if_neg (Ne.symm h7)]
    · change (((s.eclic.setLine 3 t.msip).setLine 7 t.line).setLine 7 _).srcs[3]? = _ at he'
      simp [setLine_getElem, he] at he'
      exact he' ▸ setLine_driven src t.msip
    · change (((s.eclic.setLine 3 t.msip).setLine 7 t.line).setLine 7 _).srcs[7]? = _ at he'
      simp [setLine_getElem, he] at he'
      have ht : t.line = true := h.2.1
      split_ifs with hc
      · have hd : decide (t.mtimecmp = 0#64) = false := decide_eq_false hc.2.2.2
        exact ⟨_, setLine_driven src true, by rw [← he', ht, hd]; exact setLine_driven _ false⟩
      · have hz : t.mtimecmp = 0 := by by_contra hz; exact hc ⟨h1, h2, h3, hz⟩
        have hd : decide (t.mtimecmp = 0#64) = true := decide_eq_true hz
        rw [← he', ht, hd, setLine_twice, decide_eq_true h2]
        exact setLine_driven src true
  · rename_i h
    refine ⟨rfl, by simp [Eclic.setLine, State.withTimer, State.withEclic], fun i h3 h7 => ?_, fun src src' he he' => ?_,
      fun src src' he he' => ?_⟩
    · change ((s.eclic.setLine 3 t.msip).setLine 7 t.line).srcs[i]? = _
      simp only [setLine_getElem, if_neg (Ne.symm h3), if_neg (Ne.symm h7)]
    · change ((s.eclic.setLine 3 t.msip).setLine 7 t.line).srcs[3]? = _ at he'
      simp [setLine_getElem, he] at he'
      exact he' ▸ setLine_driven src t.msip
    · change ((s.eclic.setLine 3 t.msip).setLine 7 t.line).srcs[7]? = _ at he'
      simp [setLine_getElem, he] at he'
      rw [if_neg (fun hc => h (hpulse.2 ⟨hc.1, hc.2.1, hc.2.2.1⟩)), ← he', ← hline]
      exact setLine_driven src t.line

def partOf (p : Word × Nat) : Part := ⟨p.1, p.2⟩

theorem byteParts_eq (n : Nat) :
    ∀ a, byteParts a n = ((List.range n).map fun k => (a + BitVec.ofNat 32 k, 1)).map partOf := by
  induction n with
  | zero => intro a; rfl
  | succ n ih =>
    intro a
    rw [byteParts, ih, List.range_succ_eq_map]
    simp only [List.map_cons, List.map_map]
    congr 1
    · simp [partOf]
    · apply List.map_congr_left; intro k _
      simp only [Function.comp, partOf, Part.mk.injEq, and_true]
      rw [BitVec.add_assoc]; congr 1
      apply BitVec.eq_of_toNat_eq; simp [Nat.add_comm]

/-- The parts of an access, in the words of the statements. -/
theorem parts_eq (a : Word) (n : Nat) : parts a n = (busAccesses a n).map partOf := by
  have one : ∀ a n, smallParts a n = (if a.toNat % n = 0 then [(a, n)] else (List.range n).map fun k => (a + BitVec.ofNat 32 k, 1)).map partOf := by
    intro a n; unfold smallParts; split
    · rfl
    · exact byteParts_eq n a
  by_cases h : n = 8
  · rw [parts, busAccesses, if_pos h, if_pos h, one, one, List.map_append]
  · rw [parts, busAccesses, if_neg h, if_neg h]; exact one a n

/-- When an access is misaligned. -/
theorem unaligned_iff_misaligned (s : State) (a : Word) (n : Nat) : Unaligned s a n ↔ misaligned s a n = true := by
  unfold Unaligned misaligned accessAlign
  rw [Bool.and_eq_true, bne_iff_ne, ne_eq, ← Nat.dvd_iff_mod_eq_zero, Bool.not_eq_true', Bool.and_eq_false_iff] <;>
    (cases s.cfg.fldAlign <;> exact Iff.rfl)

end Sys2Proof.Machine
end

