-- ==== Sys2Proof/Laws/Fetch.lean ====
section
/-! SUPPORT. Fetch and the vector-table read: the bytes they find in each region, and what they answer when nothing stands
in their way. -/

namespace Sys2Proof.Machine

/-! ### The bytes that are found -/

theorem srcReadByte_srcByte (cfg : Config) (src : EclicSrc) (k : Nat) :
    src.readByte cfg.clicIntCtlBits k = srcByte cfg src k := by
  unfold EclicSrc.readByte srcByte
  split
  · rw [if_pos rfl]; cases src.pending <;> rfl
  · rw [if_neg (by decide), if_pos rfl]; cases src.ie <;> rfl
  · rfl
  · rename_i h0 h1 h2
    rw [if_neg h0, if_neg h1, if_neg h2]; rfl

theorem clicinfo_toNat (cfg : Config) : (clicinfo cfg).toNat = clicinfoNat cfg := by
  have := cfg.eclicVersion.isLt
  simp only [clicinfo, clicinfoNat, Machine.append_toNat, BitVec.toNat_ofNat]
  omega

/-- A byte of the ECLIC's registers, in the words of the statements. -/
theorem eclic_readByte (cfg : Config) (e : Eclic) (off : Nat) : e.readByte cfg off = eclicByte cfg e off := by
  unfold Eclic.readByte eclicByte
  split_ifs with h1 h2 h3 h4
  · apply BitVec.eq_of_toNat_eq
    have := e.nlbits.isLt
    simp only [Machine.append_toNat, BitVec.toNat_ofNat]
    omega
  · apply BitVec.eq_of_toNat_eq
    rw [BitVec.extractLsb'_toNat, clicinfo_toNat, Nat.shiftRight_eq_div_pow, BitVec.toNat_ofNat]
  · rfl
  · rw [show (off - 0x1000) % 4 = off % 4 by omega]
    cases e.srcs[(off - 0x1000) / 4]? with
    | none => rfl
    | some src => exact srcReadByte_srcByte cfg src _
  · rfl

/-- An address in the window of a device is not below its base. -/
theorem base_le_of_region {cfg : Config} {a : Word} :
    (region cfg a = .timer → cfg.timerBase.toNat ≤ a.toNat) ∧ (region cfg a = .eclic → cfg.eclicBase.toNat ≤ a.toNat) := by
  unfold region within
  constructor <;> intro h <;> simp only at h <;> split_ifs at h <;> simp_all

theorem timerWord_lt (t : Timer) (off : Nat) : timerWord t off < 2 ^ 32 := by
  have := t.mtime.isLt; have := t.mtimecmp.isLt
  unfold timerWord; split_ifs <;> omega

/-- The word that is found, in the words of the statements. -/
theorem busWord_found (s : State) (port : Nat → Nat → Byte) (a : Word) : busWord s port a = foundWord s port a := by
  obtain ⟨hb, hc⟩ := base_le_of_region (cfg := s.cfg) (a := a)
  have hsub : ∀ y : Word, y.toNat ≤ a.toNat → (a - y).toNat = a.toNat - y.toNat := fun y h => by bv_omega
  unfold busWord foundWord foundByte
  cases h : region s.cfg a <;> simp only
  · rw [timer_readWord, hsub _ (hb h)]
    have := timerWord_lt s.timer (a.toNat - s.cfg.timerBase.toNat)
    apply BitVec.eq_of_toNat_eq
    simp only [Machine.append_toNat, BitVec.toNat_ofNat]
    omega
  · rw [hsub _ (hc h)]; simp only [eclic_readByte]; rfl
  all_goals first | rfl | simp [Memory.read32]

/-- The word a store leaves for a fetch to see until FENCE.I. -/
theorem keepOld_stale (s : State) (a : Word) : (s.keepOld a).stale =
    ((a &&& 0xFFFFFFFC#32).toNat, foundWord s Config.freeFetchPort (a &&& 0xFFFFFFFC#32)) :: s.stale := by
  unfold State.keepOld; rw [busWord_found]; rfl

/-- In memory it is a byte of memory. -/
theorem foundByte_mem {s : State} {port : Nat → Nat → Byte} {a : Word} {k : Nat}
    (h : region s.cfg a ∈ [Region.ilm, .dlm, .system]) : foundByte s port a k = s.mem.read (a + BitVec.ofNat 32 k) := by
  unfold foundByte
  split <;> rename_i hr <;> first | rfl | (rw [hr] at h; simp at h)

/-- The bytes of an aligned word, as the fetch of code finds them. -/
theorem codeByte_add {s : State} {a : Word} (ha : alignedAddr a = a) {k : Nat} (hk : k < 4) :
    codeByte s (a + BitVec.ofNat 32 k) = foundByte s Config.freeFetchPort a k := by
  have h := alignedAddr_toNat a
  rw [ha] at h
  have := a.isLt
  have hb : (a + BitVec.ofNat 32 k).toNat = a.toNat + k := by bv_omega
  have e : (a + BitVec.ofNat 32 k) &&& 0xFFFFFFFC#32 = a := by
    apply BitVec.eq_of_toNat_eq
    rw [← alignedAddr_eq, alignedAddr_toNat, hb]; omega
  rw [codeByte, e, hb, show (a.toNat + k) % 4 = k by omega]

theorem alignedAddr_idem (a : Word) : alignedAddr (alignedAddr a) = alignedAddr a := by
  apply BitVec.eq_of_toNat_eq; simp only [alignedAddr_toNat]; omega

/-! ### The checks -/

/-- A fetch nothing stands in the way of. -/
theorem plainFetch_iff {s : State} {p : Priv} {a : Word} : plainFetch s p a = true ↔
    pmpCheck s p .fetch a = true ∧ busError s.cfg .fetch a 4 = false ∧ (eccMet s .fetch [⟨a, 4⟩]).isEmpty = true := by
  simp [plainFetch, and_assoc]

/-- Its checks pass. -/
theorem checkFetch_plain {s : State} {p : Priv} {a : Word} (h : plainFetch s p a = true) :
    checkFetch s p a = .ok [] s := by
  obtain ⟨h1, h2, h3⟩ := plainFetch_iff.1 h
  simp only [checkFetch, h1, h2, if_true, Bool.false_eq_true, if_false]
  exact eccEffect_none _ h3

/-- The vector-table read when nothing stands in its way. -/
theorem vectorTableRead_plain {s : State} {id} (h : plainFetch s .machine (tableWord s id) = true) :
    vectorTableRead s id = .ok (foundWord s Config.freeTablePort (tableWord s id)) s := by
  simp only [vectorTableRead, tableWord_eq, checkFetch_plain h, busWord_found]; simp

theorem vectorTableRead_pmp {s : State} {id} (h : pmpCheck s .machine .fetch (tableWord s id) = false) :
    vectorTableRead s id = .exc ⟨.instrAccessFault, some (tableWord s id), .pmp⟩ s := by
  simp only [vectorTableRead, tableWord_eq, checkFetch, h]; rfl

theorem vectorTableRead_bus {s : State} {id} (h : pmpCheck s .machine .fetch (tableWord s id) = true)
    (hb : busError s.cfg .fetch (tableWord s id) 4 = true) :
   vectorTableRead s id = .exc ⟨.instrAccessFault, some (tableWord s id), .bus⟩ s := by
  simp only [vectorTableRead, tableWord_eq, checkFetch, h, hb]; rfl

/-- The handler address mnxti and jalmnxti use, when nothing stands in the way of a read it takes. -/
theorem handlerAddr_plain {s : State} {id : Nat} {h : Word}
    (he : s.cfg.mnxtiReturns = .entry → h = tableWord s id)
    (hh : s.cfg.mnxtiReturns = .handler →
      plainFetch s .machine (tableWord s id) = true ∧ h = foundWord s Config.freeTablePort (tableWord s id)) :
    handlerAddr s id = .ok h s := by
  unfold handlerAddr
  cases hc : s.cfg.mnxtiReturns
  · obtain ⟨hp, rfl⟩ := hh hc
    exact vectorTableRead_plain hp
  · rw [he hc]; simp only [tableWord_eq]

/-! ### The parcels -/

theorem word_high (b3 b2 b1 b0 : Byte) : (b3 ++ b2 ++ b1 ++ b0 : Word).extractLsb' 16 16 = b3 ++ b2 := by
  apply BitVec.eq_of_getLsbD_eq; intro i hi
  interval_cases i <;> simp only [getLsbD_append_cases, BitVec.getLsbD_extractLsb'] <;> simp

theorem word_low (b3 b2 b1 b0 : Byte) : (b3 ++ b2 ++ b1 ++ b0 : Word).setWidth 16 = b1 ++ b0 := by
  apply BitVec.eq_of_getLsbD_eq; intro i hi
  interval_cases i <;> simp only [getLsbD_append_cases, BitVec.getLsbD_setWidth] <;> simp

theorem joinParcels_bytes (b3 b2 b1 b0 : Byte) : joinParcels (b1 ++ b0) (b3 ++ b2) = b3 ++ b2 ++ b1 ++ b0 := by
  unfold joinParcels
  apply BitVec.eq_of_getLsbD_eq; intro i hi
  interval_cases i <;> simp only [getLsbD_append_cases] <;> simp

theorem add_two_one (a : Word) : a + 2 + 1 = a + 3 := by rw [BitVec.add_assoc]; rfl

theorem memWord_high (m : Memory) (a : Word) : (memWord m a).extractLsb' 16 16 = memHalf m (a + 2) := by
  rw [memHalf, add_two_one]; exact word_high ..

theorem memWord_low (m : Memory) (a : Word) : (memWord m a).setWidth 16 = memHalf m a := word_low ..

theorem joinParcels_halves (m : Memory) (a : Word) : joinParcels (memHalf m a) (memHalf m (a + 2)) = memWord m a := by
  rw [memHalf, memHalf, add_two_one]; exact joinParcels_bytes ..

/-- The lower half of an aligned word. -/
theorem foundWord_low {s : State} {a : Word} (ha : alignedAddr a = a) :
    (foundWord s Config.freeFetchPort a).setWidth 16 = codeHalf s a := by
  have h0 := codeByte_add (s := s) ha (k := 0) (by decide)
  have h1 := codeByte_add (s := s) ha (k := 1) (by decide)
  rw [show a + BitVec.ofNat 32 0 = a from BitVec.add_zero a] at h0
  rw [codeHalf, show a + 1 = a + BitVec.ofNat 32 1 from rfl, h1, h0, foundWord, word_low]

/-- The upper half of an aligned word. -/
theorem foundWord_high {s : State} {a : Word} (ha : alignedAddr a = a) :
    (foundWord s Config.freeFetchPort a).extractLsb' 16 16 = codeHalf s (a + 2) := by
  have h2 := codeByte_add (s := s) ha (k := 2) (by decide)
  have h3 := codeByte_add (s := s) ha (k := 3) (by decide)
  rw [codeHalf, add_two_one, show a + 3 = a + BitVec.ofNat 32 3 from rfl, h3, show a + 2 = a + BitVec.ofNat 32 2 from rfl, h2,
    foundWord, word_high]

theorem codeWord_low (s : State) (pc : Word) : (codeWord s pc).setWidth 16 = codeHalf s pc := by
  rw [codeWord, codeHalf, codeHalf]
  apply BitVec.eq_of_getLsbD_eq; intro i hi
  interval_cases i <;> simp only [getLsbD_append_cases, BitVec.getLsbD_setWidth] <;> simp

theorem fetchView_plain {s : State} (h : s.stale = []) (a) : fetchView s a = foundWord s Config.freeFetchPort a := by
  unfold fetchView; rw [h]; exact busWord_found s _ a

/-- A word arrives as it is when no error is met. -/
theorem arrives_right (x a : Word) : x ^^^ wrongWord [] a = x := by simp

/-- A fetch of a 16-bit instruction. -/
theorem fetch_half {s : State} {h : BitVec 16} (hs : s.stale = []) (h0 : s.pc.getLsbD 0 = false)
    (hc : s.cfg.hasC = true) (hp : plainFetch s s.priv (alignedAddr s.pc) = true)
    (hm : codeHalf s s.pc = h) (hl : isLong h = false) : fetch s = .ok (.half h) s := by
  have hbt : badTarget s s.pc = false := by simp [badTarget, hc]
  have hi := alignedAddr_idem s.pc
  unfold fetch
  rw [h0, hbt]
  simp only [Bool.or_self, Bool.false_eq_true, if_false, checkFetch_plain hp, fetchView_plain hs, arrives_right]
  rcases alignedAddr_cases s.pc h0 with ⟨h1, ha⟩ | ⟨h1, ha⟩
  · simp only [h1, ha, Bool.false_eq_true, if_false, foundWord_low ha, hm, hl, hc, if_true]
  · simp only [h1, if_true, foundWord_high hi, ← ha, hm, hl, Bool.false_eq_true, if_false, hc]

/-- A fetch of a 32-bit instruction. -/
theorem fetch_word {s : State} {w : Word} (hs : s.stale = []) (h0 : s.pc.getLsbD 0 = false)
    (hp : plainFetch s s.priv (alignedAddr s.pc) = true)
    (h1c : s.pc.getLsbD 1 = true → s.cfg.hasC = true ∧ plainFetch s s.priv (alignedAddr s.pc + 4) = true)
    (hm : codeWord s s.pc = w) (hl : isLong (w.setWidth 16) = true)
    (hv : isVeryLong (w.setWidth 16) = false) : fetch s = .ok (.word w) s := by
  have hlo : codeHalf s s.pc = w.setWidth 16 := by rw [← hm, codeWord_low]
  have hj : joinParcels (w.setWidth 16) (codeHalf s (s.pc + 2)) = w := by rw [← hlo, ← hm]; rfl
  have hi := alignedAddr_idem s.pc
  unfold fetch
  rcases alignedAddr_cases s.pc h0 with ⟨h1, ha⟩ | ⟨h1, ha⟩
  · have hbt : badTarget s s.pc = false := by simp only [badTarget, h1, Bool.and_false]
    rw [h0, hbt]
    simp only [Bool.or_self, Bool.false_eq_true, if_false, checkFetch_plain hp, fetchView_plain hs, arrives_right]
    rw [h1, ha]
    simp only [Bool.false_eq_true, if_false, foundWord_low ha, foundWord_high ha, hlo, hl, if_true, fetchLong, hv, hj]
  · obtain ⟨hc, hp4⟩ := h1c h1
    have hbt : badTarget s s.pc = false := by simp [badTarget, hc]
    have e2 : alignedAddr s.pc + 4 = s.pc + 2 := by
      have := congrArg (· + 2#32) ha
      rw [show s.pc + 2 = _ from this, BitVec.add_assoc]; rfl
    have e4 : alignedAddr (s.pc + 2) = s.pc + 2 := by
      have h := alignedAddr_toNat s.pc
      apply BitVec.eq_of_toNat_eq; rw [alignedAddr_toNat, ← e2]; bv_omega
    rw [h0, hbt]
    simp only [Bool.or_self, Bool.false_eq_true, if_false, checkFetch_plain hp, fetchView_plain hs, arrives_right]
    simp only [h1, if_true, foundWord_high hi, ← ha, hlo, hl, fetchUpper, checkFetch_plain hp4, fetchView_plain hs, fetchLong,
      hv, Bool.false_eq_true, if_false]
    rw [e2]
    simp only [arrives_right, foundWord_low e4, hj]

end Sys2Proof.Machine
end

