-- ==== Sys2Proof/Laws/Ecc.lean ====
section
/-! SUPPORT. ECC errors: which of them an access meets, what recording them changes, which bits arrive wrong, and how an
access that meets some ends (20_memory.md R210, 60_exceptions.md R605 to R609). -/

namespace Sys2Proof.Machine

/-! ### Units and lines -/

theorem toNat_and_low (a : Word) (k : Nat) (h : k = 2 ∨ k = 3) :
    (a &&& ~~~(BitVec.ofNat 32 (2 ^ k - 1))).toNat = a.toNat / 2 ^ k * 2 ^ k := by
  have e : a &&& ~~~(BitVec.ofNat 32 (2 ^ k - 1)) = a >>> k <<< k := by
    rcases h with rfl | rfl <;> (apply BitVec.eq_of_getLsbD_eq; intro i hi; interval_cases i <;> simp)
  rw [e]
  have := a.isLt
  rcases h with rfl | rfl <;>
    (simp [BitVec.toNat_shiftLeft, Nat.shiftRight_eq_div_pow, Nat.shiftLeft_eq]; omega)

/-- The first address of a unit is a multiple of its size. -/
theorem EccUnit.base_toNat (u : EccUnit) (a : Word) : (u.base a).toNat = a.toNat / u.bytes * u.bytes := by
  have h2 := toNat_and_low a 2 (.inl rfl)
  have h3 := toNat_and_low a 3 (.inr rfl)
  cases u <;> simp only [EccUnit.base, EccUnit.bytes] <;> first | exact h2 | exact h3

theorem EccUnit.bytes_pos (u : EccUnit) : 0 < u.bytes := by cases u <;> decide

/-- Two addresses are in one unit if they give the same unit number. -/
theorem EccUnit.base_eq_iff (u : EccUnit) (a b : Word) :
    u.base a = u.base b ↔ a.toNat / u.bytes = b.toNat / u.bytes := by
  rw [← BitVec.toNat_inj, u.base_toNat, u.base_toNat]
  exact Nat.mul_left_inj (Nat.pos_iff_ne_zero.1 u.bytes_pos)

theorem EccUnit.sub_base (u : EccUnit) (a : Word) : (a - u.base a).toNat = a.toNat % u.bytes := by
  have hb := u.base_toNat a
  have hm := Nat.div_add_mod a.toNat u.bytes
  have hl := a.isLt
  have hc := Nat.mul_comm u.bytes (a.toNat / u.bytes)
  rw [BitVec.toNat_sub_of_le (by rw [BitVec.le_def, hb]; exact Nat.div_mul_le_self _ _), hb]
  omega

/-! ### Which errors an access meets -/

theorem meets_iff (s : State) (path : AccessPath) (p : Word × Nat) (h : EccHit) :
    h.meets s path (partOf p) = true ↔ EccMeets s path p h := by
  have hd : h.inData path (partOf p) = true ↔
      h.addr.toNat / h.unit.bytes = p.1.toNat / h.unit.bytes ∧ (path = .store → p.2 < h.unit.bytes) := by
    have e : h.inData path (partOf p) =
      (h.unit.base h.addr == h.unit.base p.1 && (path != .store || decide (p.2 < h.unit.bytes))) := rfl
    rw [e]
    simp [EccUnit.base_eq_iff, imp_iff_not_or]
  have hl : h.unit.sameLine s.cfg h.addr p.1 = true ↔
      (h.unit = .icache ∧ h.addr.toNat / 2 ^ (2 + s.cfg.icLsize.toNat) = p.1.toNat / 2 ^ (2 + s.cfg.icLsize.toNat)) ∨
      (h.unit = .dcache ∧ h.addr.toNat / 2 ^ (2 + s.cfg.dcLsize.toNat) = p.1.toNat / 2 ^ (2 + s.cfg.dcLsize.toNat)) := by
    cases hu : h.unit <;> simp [EccUnit.sameLine, cacheLineSize]
  simp only [EccHit.meets, EccMeets, Bool.and_eq_true, beq_iff_eq]
  cases hr : h.ram
  · simp only [reduceCtorEq, false_implies, true_implies, and_true, hd, and_assoc]
    rfl
  · simp only [reduceCtorEq, false_implies, true_implies, true_and, ← hl, and_assoc, partOf]

/-- The errors the parts of an access meet, in the words of the statements. -/
theorem mem_eccMet (s : State) (path : AccessPath) (l : List (Word × Nat)) (h : EccHit) :
    h ∈ eccMet s path (l.map partOf) ↔ EccMet s path l h := by
  simp [eccMet, EccMet, List.any_map, meets_iff]

theorem traps_iff (s : State) (path : AccessPath) (p : Word × Nat) (l : List (Word × Nat)) (hp : p ∈ l) :
    ((eccMet s path (l.map partOf)).any fun h => h.traps s.csr && h.meets s path (partOf p)) = true ↔
      EccTraps s path p := by
  simp only [List.any_eq_true, Bool.and_eq_true, meets_iff, mem_eccMet, EccTraps, EccMet, EccHit.traps, EccHit.noticed]
  exact ⟨fun ⟨h, ⟨hm, _⟩, ⟨⟨ho, hd⟩, he⟩, hq⟩ => ⟨h, hm, hq, hd, ho, he⟩,
    fun ⟨h, hm, hq, hd, ho, he⟩ => ⟨h, ⟨hm, p, hp, hq⟩, ⟨⟨ho, hd⟩, he⟩, hq⟩⟩

/-! ### Recording -/

theorem mask_number (u : EccUnit) (k : Nat) : u.mask.getLsbD k = true ↔ u.number = k := by
  by_cases hk : k < 5
  · interval_cases k <;> cases u <;> decide
  · have h1 : u.mask.getLsbD k = false := BitVec.getLsbD_of_ge _ _ (by omega)
    have h2 : u.number < 5 := by cases u <;> decide
    rw [h1]
    simp; omega

/-- Recording a list of errors touches SRAMID, RAMID and the outputs only. -/
theorem noteHits_noted (l : List EccHit) (s : State) : EccNoted s (s.noteHits l) (· ∈ l) := by
  induction l generalizing s with
  | nil => exact ⟨rfl, by simp [FlagsNoted, State.noteHits], by simp [FlagsNoted, State.noteHits],
      by simp [FlagsNoted, State.noteHits], by simp [FlagsNoted, State.noteHits], rfl, rfl⟩
  | cons h rest ih =>
    by_cases hn : h.noticed s.csr = true
    · have e : s.noteHits (h :: rest) = (s.noteEcc h.unit h.double).noteHits rest := by
        simp only [State.noteHits, hn, if_true]
      obtain ⟨hr, h1, h2, h3, h4, h5, h6⟩ := ih (s.noteEcc h.unit h.double)
      rw [e]
      have hon : ∀ u, eccOn (s.noteEcc h.unit h.double).csr u = eccOn s.csr u := fun u => by
        cases hd : h.double <;> cases u <;> simp [State.noteEcc, Csrs.noteEcc, eccOn, State.withCsr, State.withEccOut]
      have hu : eccOn s.csr h.unit = true := hn
      refine ⟨?_, fun k => ?_, fun k => ?_, fun k => ?_, fun k => ?_, h5.trans ?_, h6.trans ?_⟩
      · rw [hr]
        cases hd : h.double <;> rfl
      · rw [h1 k]
        simp only [hon]
        cases hd : h.double <;>
          simp [State.noteEcc, Csrs.noteEcc, EccOutputs.note, State.withCsr, State.withEccOut, hd, mask_number, hu,
            -BitVec.getLsbD_eq_getElem, or_assoc]
      · rw [h2 k]
        simp only [hon]
        cases hd : h.double <;>
          simp [State.noteEcc, Csrs.noteEcc, EccOutputs.note, State.withCsr, State.withEccOut, hd, mask_number, hu,
            -BitVec.getLsbD_eq_getElem, or_assoc]
      · rw [h3 k]
        simp only [hon]
        cases hd : h.double <;>
          simp [State.noteEcc, Csrs.noteEcc, EccOutputs.note, State.withCsr, State.withEccOut, hd, mask_number, hu,
            -BitVec.getLsbD_eq_getElem, or_assoc]
      · rw [h4 k]
        simp only [hon]
        cases hd : h.double <;>
          simp [State.noteEcc, Csrs.noteEcc, EccOutputs.note, State.withCsr, State.withEccOut, hd, mask_number, hu,
            -BitVec.getLsbD_eq_getElem, or_assoc]
      · cases hd : h.double <;> rfl
      · cases hd : h.double <;> rfl
    · have e : s.noteHits (h :: rest) = s.noteHits rest := by simp only [State.noteHits, hn, if_false, Bool.false_eq_true]
      have hu : ¬ eccOn s.csr h.unit = true := hn
      rw [e]
      obtain ⟨hr, h1, h2, h3, h4, h56⟩ := ih s
      exact ⟨hr, fun k => by rw [h1 k]; simp [hu], fun k => by rw [h2 k]; simp [hu], fun k => by rw [h3 k]; simp [hu],
        fun k => by rw [h4 k]; simp [hu], h56⟩

/-- Recording depends on which errors are met only. -/
theorem EccNoted.congr {s u : State} {p q : EccHit → Prop} (h : EccNoted s u p) (e : ∀ x, p x ↔ q x) : EccNoted s u q := by
  have : p = q := funext fun x => propext (e x)
  exact this ▸ h

/-! ### The bits that arrive -/

theorem wrongByte_cons (h : EccHit) (rest : List EccHit) (a : Word) :
    wrongByte (h :: rest) a = h.flips a ^^^ wrongByte rest a := by
  have hs := h.unit.sub_base a
  simp only [wrongByte, EccHit.flips, EccUnit.base_eq_iff, hs]
  split
  · congr 1
  · rfl

/-- The wrong bits of a byte, of the errors a test picks. -/
theorem wrongByte_filter {used : EccHit → Prop} {p : EccHit → Bool} (a : Word) (l : List EccHit)
    (h : ∀ x ∈ l, p x = true ↔ used x) : WrongBits used a l (wrongByte (l.filter p) a) := by
  induction l with
  | nil => exact .nil
  | cons x rest ih =>
    have ih := ih fun y hy => h y (List.mem_cons_of_mem _ hy)
    by_cases hx : p x = true
    · rw [List.filter_cons_of_pos hx, wrongByte_cons]
      exact .flip x rest _ ih ((h x (by simp)).1 hx)
    · rw [List.filter_cons_of_neg hx]
      exact .skip x rest _ ih fun hu => hx ((h x (by simp)).2 hu)

/-- They are determined. -/
theorem WrongBits.unique {used : EccHit → Prop} {a : Word} {l : List EccHit} {v w : Byte} (h : WrongBits used a l v)
    (k : WrongBits used a l w) : v = w := by
  induction h generalizing w with
  | nil => cases k; rfl
  | skip x rest v hr hn ih =>
    cases k with
    | skip _ _ _ hr' _ => exact ih hr'
    | flip _ _ _ _ hu => exact absurd hu hn
  | flip x rest v hr hu ih =>
    cases k with
    | skip _ _ _ _ hn => exact absurd hu hn
    | flip _ _ w' hr' _ => rw [ih hr']

/-- The errors an access uses, as `eccEffect` picks them. -/
theorem spoils_iff {s : State} {path : AccessPath} {l : List (Word × Nat)} {h : EccHit} (hm : EccMet s path l h) :
    h.spoils s.csr = true ↔ EccUsed s (EccMet s path l) h := by
  have e : h.spoils s.csr = if eccOn s.csr h.unit = true then h.double else h.path != .store || h.ram == .tag := rfl
  rw [e]
  simp only [EccUsed, hm, true_and]
  by_cases ho : eccOn s.csr h.unit = true
  · rw [if_pos ho, if_pos ho]
  · rw [if_neg ho, if_neg ho]
    cases hr : h.ram <;> cases hp : h.path <;> simp

/-- The wrong bits of a byte are those of the errors that the access meets and uses. -/
theorem wrongBits_met (s : State) (path : AccessPath) (l : List (Word × Nat)) (a : Word) :
    WrongBits (EccUsed s (EccMet s path l)) a s.eccHits
      (wrongByte ((eccMet s path (l.map partOf)).filter (·.spoils s.csr)) a) := by
  rw [eccMet, List.filter_filter]
  refine wrongByte_filter a s.eccHits fun x hx => ?_
  have hm : ((l.map partOf).any fun p => x.meets s path p) = true ↔ EccMet s path l x := by
    simp [EccMet, hx, List.any_map, meets_iff]
  rw [Bool.and_eq_true, hm]
  exact ⟨fun h => (spoils_iff h.2).1 h.1, fun h => ⟨(spoils_iff h.1).2 h, h.1⟩⟩

/-- A byte that arrives. -/
theorem byteArrives_iff {s : State} {path : AccessPath} {l : List (Word × Nat)} {m : Memory} {a : Word} :
    ByteArrives s (EccMet s path l) m a ↔
      m.read a = s.mem.read a ^^^ wrongByte ((eccMet s path (l.map partOf)).filter (·.spoils s.csr)) a :=
  ⟨fun ⟨w, hw, e⟩ => by rw [e, hw.unique (wrongBits_met ..)], fun e => ⟨_, wrongBits_met .., e⟩⟩

theorem append_xor {v w : Nat} (a c : BitVec v) (b d : BitVec w) : (a ++ b) ^^^ (c ++ d) = (a ^^^ c) ++ (b ^^^ d) := by
  apply BitVec.eq_of_getLsbD_eq; intro i _
  simp only [BitVec.getLsbD_xor, BitVec.getLsbD_append]
  split <;> rfl

theorem word_xor (a b c d e f g h : Byte) : (a ++ b ++ c ++ d : Word) ^^^ (e ++ f ++ g ++ h : Word) =
    (a ^^^ e) ++ (b ^^^ f) ++ (c ^^^ g) ++ (d ^^^ h) :=
  (append_xor _ _ _ _).trans (by rw [append_xor, append_xor])

/-- A word that a fetch or a vector-table read finds, as it arrives. -/
theorem busWord_arrives {s : State} {port : Nat → Nat → Byte} {m : Memory} {a : Word} (h : WordArrives s port m a) :
    busWord s port a ^^^ wrongWord ((eccMet s .fetch [⟨a, 4⟩]).filter (·.spoils s.csr)) a = memWord m a := by
  have b : ∀ k < 4, m.read (a + BitVec.ofNat 32 k) =
      foundByte s port a k ^^^ wrongByte ((eccMet s .fetch [⟨a, 4⟩]).filter (·.spoils s.csr)) (a + BitVec.ofNat 32 k) := by
    intro k hk
    obtain ⟨w, h1, h2⟩ := h k hk _ rfl
    rw [h2, h1.unique (wrongBits_met s .fetch [(a, 4)] _)]; rfl
  have b0 := b 0 (by decide)
  rw [show a + BitVec.ofNat 32 0 = a from BitVec.add_zero a] at b0
  rw [busWord_found, memWord, show a + 1 = a + BitVec.ofNat 32 1 from rfl, show a + 2 = a + BitVec.ofNat 32 2 from rfl,
    show a + 3 = a + BitVec.ofNat 32 3 from rfl, b0, b 1 (by decide), b 2 (by decide), b 3 (by decide)]
  exact word_xor ..

/-! ### How an access that meets errors ends -/

/-- The first part that meets an error which traps raises. -/
theorem eccEffect_traps {s : State} {path : AccessPath} {before after : List (Word × Nat)} {p : Word × Nat}
    (code : ExcCode) (hp : EccTraps s path p) (hb : ∀ q ∈ before, ¬ EccTraps s path q) :
    eccEffect s path ((before ++ p :: after).map partOf) code =
      .exc ⟨code, some p.1, .keep⟩ (s.noteHits (eccMet s path ((before ++ p :: after).map partOf))) := by
  have hf : ((before ++ p :: after).map partOf).find?
      (fun q => (eccMet s path ((before ++ p :: after).map partOf)).any fun h => h.traps s.csr && h.meets s path q) =
        some (partOf p) := by
    rw [List.find?_eq_some_iff_append]
    refine ⟨(traps_iff s path p _ (by simp)).2 hp, before.map partOf, after.map partOf, by simp, ?_⟩
    intro q hq
    obtain ⟨q', hq', rfl⟩ := List.mem_map.1 hq
    have := (traps_iff s path q' (before ++ p :: after) (by simp [hq'])).not.2 (hb q' hq')
    simpa using this
  simp only [eccEffect, hf]
  rfl

/-- If none traps the access goes on, and what arrives wrong is what the errors it uses say. -/
theorem eccEffect_ok {s : State} {path : AccessPath} {l : List (Word × Nat)} (code : ExcCode)
    (h : ∀ q ∈ l, ¬ EccTraps s path q) :
    eccEffect s path (l.map partOf) code = .ok ((eccMet s path (l.map partOf)).filter (·.spoils s.csr))
      (s.noteHits (eccMet s path (l.map partOf))) := by
  have hf : (l.map partOf).find?
      (fun q => (eccMet s path (l.map partOf)).any fun h => h.traps s.csr && h.meets s path q) = none := by
    rw [List.find?_eq_none]
    intro q hq
    obtain ⟨q', hq', rfl⟩ := List.mem_map.1 hq
    have := (traps_iff s path q' l hq').not.2 (h q' hq')
    simpa using this
  simp only [eccEffect, hf]

/-- The errors it met are recorded, whatever it does. -/
theorem eccMet_noted (s : State) (path : AccessPath) (l : List (Word × Nat)) :
    EccNoted s (s.noteHits (eccMet s path (l.map partOf))) (EccMet s path l) :=
  (noteHits_noted _ s).congr fun h => mem_eccMet s path l h

/-! ### Units written back with wrong bits -/

/-- An aligned word stored over itself with the wrong bits of one error. -/
theorem read_spoilt {s : State} (hw : s.mem.wf = true) (h : EccHit) (a b : Word) :
    (s.storeMem a (spoilBytes [h] a (s.mem.readBytes a 4))).mem.read b =
      if (b - a).toNat < 4 then s.mem.read b ^^^ h.flips b else s.mem.read b := by
  have one : ∀ c, wrongByte [h] c = h.flips c := fun c => by rw [wrongByte_cons]; simp [wrongByte]
  have e : spoilBytes [h] a (s.mem.readBytes a 4) = [s.mem.read a ^^^ h.flips a, s.mem.read (a + 1) ^^^ h.flips (a + 1),
      s.mem.read (a + 1 + 1) ^^^ h.flips (a + 1 + 1), s.mem.read (a + 1 + 1 + 1) ^^^ h.flips (a + 1 + 1 + 1)] := by
    simp [Memory.readBytes, spoilBytes, one]
  rw [storeMem_mem, Memory.read_writeBytes hw _ _ _ (by rw [e]; simp)]
  simp only [e]
  by_cases hk : (b - a).toNat < 4
  · rw [if_pos hk, dif_pos (by simpa using hk)]
    have hb : b = a + BitVec.ofNat 32 (b - a).toNat := by bv_omega
    have hc : (b - a).toNat = 0 ∨ (b - a).toNat = 1 ∨ (b - a).toNat = 2 ∨ (b - a).toNat = 3 := by omega
    rcases hc with h0 | h0 | h0 | h0 <;> rw [h0] at hb <;> simp only [h0] <;> subst hb <;> simp [BitVec.add_assoc]
  · rw [if_neg hk, dif_neg (by simpa using hk)]

/-- An error turns over bits of its own unit only. -/
theorem EccHit.flips_unit (h : EccHit) (b : Word) :
    h.flips b = if (b - h.unit.base h.addr).toNat < h.unit.bytes then h.flips b else 0 := by
  split
  · rfl
  · next hn =>
    rw [EccHit.flips, if_neg]
    intro he
    rw [← EccUnit.base_eq_iff] at he
    rw [he, EccUnit.sub_base] at hn
    exact hn (Nat.mod_lt _ h.unit.bytes_pos)

/-- A unit written back turns over the bits of its error and changes nothing else. -/
theorem spoilUnit_does {s : State} (hw : s.mem.wf = true) (h : EccHit) :
    OnlyMem s (s.spoilUnit h) ∧ (s.spoilUnit h).mem.wf = true ∧
      ∀ b, (s.spoilUnit h).mem.read b = s.mem.read b ^^^ h.flips b := by
  unfold State.spoilUnit
  simp only
  have hf := h.flips_unit
  generalize h.unit.base h.addr = a at hf ⊢
  have o := storeMem_onlyMem s a (spoilBytes [h] a (s.mem.readBytes a 4))
  have w : (s.storeMem a (spoilBytes [h] a (s.mem.readBytes a 4))).mem.wf = true := by
    rw [storeMem_mem]; exact Memory.wf_writeBytes hw _ _
  have r := read_spoilt hw h a
  by_cases h8 : h.unit.bytes = 8
  · rw [if_pos h8]
    refine ⟨o.trans (storeMem_onlyMem _ _ _), by rw [storeMem_mem]; exact Memory.wf_writeBytes w _ _, fun b => ?_⟩
    rw [read_spoilt w h (a + 4) b, hf b, h8, r b]
    by_cases c1 : (b - a).toNat < 4
    · rw [if_pos c1, if_neg (by bv_omega), if_pos (by omega)]
    · by_cases c2 : (b - (a + 4)).toNat < 4
      · rw [if_pos c2, if_neg c1, if_pos (by bv_omega)]
      · rw [if_neg c2, if_neg c1, if_neg (by bv_omega)]; simp
  · have h4 : h.unit.bytes = 4 := by cases hu : h.unit <;> simp [hu, EccUnit.bytes] at h8 ⊢
    rw [if_neg h8]
    refine ⟨o, w, fun b => ?_⟩
    rw [hf b, h4, r b]
    split <;> simp

/-- The same of a list of errors. -/
theorem spoilUnits_does {s : State} (hw : s.mem.wf = true) (l : List EccHit) :
    OnlyMem s (s.spoilUnits l) ∧ (s.spoilUnits l).mem.wf = true ∧
      ∀ b, (s.spoilUnits l).mem.read b = s.mem.read b ^^^ wrongByte l b := by
  induction l generalizing s with
  | nil => exact ⟨OnlyMem.refl s, hw, fun b => by simp [wrongByte, State.spoilUnits]⟩
  | cons h l ih =>
    obtain ⟨a1, a2, a3⟩ := spoilUnit_does hw h
    obtain ⟨b1, b2, b3⟩ := ih a2
    refine ⟨a1.trans b1, b2, fun b => ?_⟩
    rw [State.spoilUnits, b3, a3, wrongByte_cons, BitVec.xor_assoc]

/-- There is always a memory that holds the bytes as they arrive. -/
theorem exists_arrives {s : State} (hw : s.mem.wf = true) (path : AccessPath) (l : List (Word × Nat)) :
    ∃ m : Memory, m.wf = true ∧ ∀ b, ByteArrives s (EccMet s path l) m b := by
  obtain ⟨-, h1, h2⟩ := spoilUnits_does hw ((eccMet s path (l.map partOf)).filter (·.spoils s.csr))
  exact ⟨_, h1, fun b => byteArrives_iff.2 (h2 b)⟩

/-- A word of memory that arrives byte by byte. -/
theorem wordArrives_mem {s : State} {port : Nat → Nat → Byte} {m : Memory} {a : Word}
    (hr : region s.cfg a ∈ [Region.ilm, .dlm, .system])
    (hm : ∀ k < 4, ByteArrives s (EccMet s .fetch [(a, 4)]) m (a + BitVec.ofNat 32 k)) : WordArrives s port m a := by
  rintro k hk b rfl
  obtain ⟨w, h1, h2⟩ := hm k hk
  exact ⟨w, h1, by rw [h2, foundByte_mem hr]⟩

/-- There is a memory that holds the bytes as they arrive at a fetch, where every error is met by the fetch of each word of
its unit. -/
theorem wordArrives_spoilt {s : State} {port : Nat → Nat → Byte} (hw : s.mem.wf = true)
    (h : ∀ x ∈ s.eccHits, ∀ b : Word, (b - x.unit.base x.addr).toNat < x.unit.bytes →
      EccMeets s .fetch (b &&& 0xFFFFFFFC#32, 4) x) {a : Word} (ha : alignedAddr a = a)
    (hr : region s.cfg a ∈ [Region.ilm, .dlm, .system]) :
    WordArrives s port (s.spoilUnits (s.eccHits.filter (·.spoils s.csr))).mem a := by
  refine wordArrives_mem hr fun k hk => ?_
  obtain ⟨b, hb⟩ : ∃ b, b = a + BitVec.ofNat 32 k := ⟨_, rfl⟩
  obtain rfl : b &&& 0xFFFFFFFC#32 = a := by
    have h := alignedAddr_toNat a
    rw [ha] at h
    apply BitVec.eq_of_toNat_eq
    rw [← alignedAddr_eq, alignedAddr_toNat, hb]; bv_omega
  rw [← hb, byteArrives_iff, (spoilUnits_does hw _).2.2 b]
  congr 1
  rw [eccMet, List.filter_filter]
  generalize s.eccHits = l at h
  induction l with
  | nil => rfl
  | cons x rest ih =>
    have ih := ih fun y hy => h y (List.mem_cons_of_mem _ hy)
    by_cases hx : x.spoils s.csr = true
    · rw [List.filter_cons_of_pos hx, wrongByte_cons]
      by_cases hb : (b - x.unit.base x.addr).toNat < x.unit.bytes
      · have hq := (meets_iff s .fetch _ x).2 (h x (by simp) b hb)
        rw [List.filter_cons_of_pos (by simp [hx, hq]), wrongByte_cons, ih]
      · have hz : x.flips b = 0 := by rw [x.flips_unit, if_neg hb]
        by_cases hq : x.meets s .fetch (partOf (b &&& 0xFFFFFFFC#32, 4)) = true
        · rw [List.filter_cons_of_pos (by simp [hx, hq]), wrongByte_cons, ih]
        · rw [List.filter_cons_of_neg (by simp [hx, hq]), ih, hz]
          exact BitVec.zero_xor
    · rw [List.filter_cons_of_neg hx, List.filter_cons_of_neg (by simp [hx]), ih]

/-! ### Loads and stores that meet errors which do not trap -/

/-- An access of plain memory that the PMP and the bus allow goes on, errors or not. -/
theorem checkData_allowed {s : State} {t : AccessKind} {a : Word} {n : Nat} (hu : ¬ Unaligned s a n)
    (hp : PlainParts s t (busAccesses a n)) :
    checkData s t a n = .ok (parts a n) s ∧ misaligned s a n = false ∧
      ∀ p ∈ parts a n, pmpCheck s s.priv t p.addr = true ∧ busError s.cfg t p.addr p.size = false ∧
        plainForData s.cfg p.addr = true := by
  have hm : misaligned s a n = false := by rw [unaligned_iff_misaligned] at hu; simpa using hu
  have hq : ∀ p ∈ parts a n, pmpCheck s s.priv t p.addr = true ∧ busError s.cfg t p.addr p.size = false ∧
      plainForData s.cfg p.addr = true := by
    intro p h
    rw [parts_eq] at h
    obtain ⟨q, hq, rfl⟩ := List.mem_map.1 h
    exact hp q hq
  have h1 : (parts a n).findSome? (partFault s t) = none := by
    rw [List.findSome?_eq_none_iff]
    intro p h
    simp [partFault, (hq p h).1, (hq p h).2.1]
  have h2 : (parts a n).findSome? (partRefusal s.cfg n) = none := by
    rw [List.findSome?_eq_none_iff]
    exact fun p h => partRefusal_plain (hq p h).2.2
  exact ⟨by rw [checkData, if_neg (by simp [hm]), h1, h2], hm, hq⟩

/-- Bytes that arrive are those of a memory that holds them so. -/
theorem spoilBytes_readBytes {s m : Memory} {wrong : List EccHit}
    (h : ∀ b, m.read b = s.read b ^^^ wrongByte wrong b) (n : Nat) (a : Word) :
    spoilBytes wrong a (s.readBytes a n) = m.readBytes a n := by
  induction n generalizing a with
  | zero => rfl
  | succ n ih => simp [Memory.readBytes, spoilBytes, ih, h]

/-- A load gets the bytes as they arrive, as it would from a memory that holds them so. -/
theorem dataLoad_arrives {s : State} {a : Word} {n : Nat} (hu : ¬ Unaligned s a n)
    (hp : PlainParts s .load (busAccesses a n)) (ht : ∀ q ∈ busAccesses a n, ¬ EccTraps s .load q) {m : Memory}
    (hm : ∀ b, ByteArrives s (EccMet s .load (busAccesses a n)) m b) :
    dataLoad s a n = .ok (joinBytes (m.readBytes a n)) (s.noteHits (eccMet s .load ((busAccesses a n).map partOf))) ∧
    dataLoad { s with eccHits := [], mem := m } a n =
      .ok (joinBytes (m.readBytes a n)) { s with eccHits := [], mem := m } := by
  obtain ⟨hc, hma, hq⟩ := checkData_allowed hu hp
  constructor
  · unfold dataLoad
    rw [hc]
    simp only
    rw [parts_eq, eccEffect_ok _ ht]
    simp only
    rw [← parts_eq]
    congr 2
    rw [← flatMap_parts (s := { s with mem := m }) fun p h => (hq p h).2.2]
    refine List.flatMap_congr fun p h => ?_
    rw [partRead_plain (hq p h).2.2, partRead_plain (s := { s with mem := m }) (hq p h).2.2, parts_eq]
    exact spoilBytes_readBytes (fun b => byteArrives_iff.1 (hm b)) _ _
  · exact dataLoad_plain (s := { s with eccHits := [], mem := m })
      (plainAccess_iff.2 ⟨(hma : misaligned s a n = false), hq, by simp [eccMet]⟩)

/-- A store leaves in memory what it would leave in a memory that holds the bytes as they arrive. -/
theorem dataStore_arrives {s : State} {a : Word} {n : Nat} (v : DWord) (hn : n ≤ 8) (hu : ¬ Unaligned s a n)
    (hp : PlainParts s .store (busAccesses a n)) (ht : ∀ q ∈ busAccesses a n, ¬ EccTraps s .store q)
    (hw : s.mem.wf = true) {m : Memory} (hw' : m.wf = true)
    (hm : ∀ b, ByteArrives s (EccMet s .store (busAccesses a n)) m b) :
    ∃ t t', dataStore s a n v = .ok () t ∧
      OnlyMem (s.noteHits (eccMet s .store ((busAccesses a n).map partOf))) t ∧
      dataStore { s with eccHits := [], mem := m } a n v = .ok () t' ∧ OnlyMem { s with eccHits := [], mem := m } t' ∧
      ∀ b, t.mem.read b = t'.mem.read b := by
  obtain ⟨hc, hma, hq⟩ := checkData_allowed hu hp
  obtain ⟨t', h1, h2, h3⟩ := dataStore_plain (s := { s with eccHits := [], mem := m }) (a := a) (n := n) v
    (plainAccess_iff.2 ⟨(hma : misaligned s a n = false), hq, by simp [eccMet]⟩)
  have hN := eccMet_noted s .store (busAccesses a n)
  have hmem : (s.noteHits (eccMet s .store ((busAccesses a n).map partOf))).mem = s.mem := by rw [hN.rest]
  have hcfg : (s.noteHits (eccMet s .store ((busAccesses a n).map partOf))).cfg = s.cfg := by rw [hN.rest]
  have hst : dataStore s a n v = .ok () (writeParts ((s.noteHits (eccMet s .store ((busAccesses a n).map partOf))).spoilUnits
      ((eccMet s .store ((busAccesses a n).map partOf)).filter (·.spoils s.csr))) (parts a n) (splitBytes n v)) := by
    unfold dataStore
    rw [hc]
    simp only
    rw [parts_eq, eccEffect_ok _ ht]
  generalize s.noteHits (eccMet s .store ((busAccesses a n).map partOf)) = u at hN hmem hcfg hst ⊢
  obtain ⟨b1, b2, b3⟩ := spoilUnits_does (s := u) (by rw [hmem]; exact hw)
    ((eccMet s .store ((busAccesses a n).map partOf)).filter (·.spoils s.csr))
  obtain ⟨c1, c2⟩ := writeParts_plain (bytes := splitBytes n v)
    (fun p h => by rw [b1.rest.cfg, hcfg]; exact (hq p h).2.2) (length_splitBytes n v)
  refine ⟨_, t', hst, b1.trans c1, h1, h2, fun b => ?_⟩
  rw [c2, h3, Memory.read_writeBytes b2 _ _ _ (by rw [length_splitBytes]; omega),
    Memory.read_writeBytes hw' _ _ _ (by rw [length_splitBytes]; omega), b3, hmem, ← byteArrives_iff.1 (hm b)]

end Sys2Proof.Machine
end

