-- ==== Sys2Proof/Laws/Encoding.lean ====
section
/-! SUPPORT. What the six fields of `joinWord`, the five of `joinHalf` and the re-assembled immediates are
(30_encoding.md R225, R226, R240, R244). With these a round trip never looks inside a bit vector. -/

namespace Sys2Proof.Laws

@[simp] theorem f7Field_joinWord (f7 : BitVec 7) (rs2 rs1 : Reg) (f3 : BitVec 3) (rd : Reg) (op : BitVec 7) :
    f7Field (joinWord f7 rs2 rs1 f3 rd op) = f7 := by
  unfold f7Field joinWord
  erw [BitVec.extractLsb'_append_eq_of_le (by decide), BitVec.extractLsb'_append_eq_of_le (by decide), BitVec.extractLsb'_append_eq_of_le (by decide), BitVec.extractLsb'_append_eq_of_le (by decide), BitVec.extractLsb'_append_eq_of_le (by decide)]
  simp

@[simp] theorem rs2Field_joinWord (f7 : BitVec 7) (rs2 rs1 : Reg) (f3 : BitVec 3) (rd : Reg) (op : BitVec 7) :
    rs2Field (joinWord f7 rs2 rs1 f3 rd op) = rs2 := by
  unfold rs2Field joinWord
  erw [BitVec.extractLsb'_append_eq_of_le (by decide), BitVec.extractLsb'_append_eq_of_le (by decide), BitVec.extractLsb'_append_eq_of_le (by decide), BitVec.extractLsb'_append_eq_of_le (by decide), BitVec.extractLsb'_append_eq_of_add_le (by decide)]
  simp

@[simp] theorem rs1Field_joinWord (f7 : BitVec 7) (rs2 rs1 : Reg) (f3 : BitVec 3) (rd : Reg) (op : BitVec 7) :
    rs1Field (joinWord f7 rs2 rs1 f3 rd op) = rs1 := by
  unfold rs1Field joinWord
  erw [BitVec.extractLsb'_append_eq_of_le (by decide), BitVec.extractLsb'_append_eq_of_le (by decide), BitVec.extractLsb'_append_eq_of_le (by decide), BitVec.extractLsb'_append_eq_of_add_le (by decide)]
  simp

@[simp] theorem f3Field_joinWord (f7 : BitVec 7) (rs2 rs1 : Reg) (f3 : BitVec 3) (rd : Reg) (op : BitVec 7) :
    f3Field (joinWord f7 rs2 rs1 f3 rd op) = f3 := by
  unfold f3Field joinWord
  erw [BitVec.extractLsb'_append_eq_of_le (by decide), BitVec.extractLsb'_append_eq_of_le (by decide), BitVec.extractLsb'_append_eq_of_add_le (by decide)]
  simp

@[simp] theorem rdField_joinWord (f7 : BitVec 7) (rs2 rs1 : Reg) (f3 : BitVec 3) (rd : Reg) (op : BitVec 7) :
    rdField (joinWord f7 rs2 rs1 f3 rd op) = rd := by
  unfold rdField joinWord
  erw [BitVec.extractLsb'_append_eq_of_le (by decide), BitVec.extractLsb'_append_eq_of_add_le (by decide)]
  simp

@[simp] theorem opField_joinWord (f7 : BitVec 7) (rs2 rs1 : Reg) (f3 : BitVec 3) (rd : Reg) (op : BitVec 7) :
    opField (joinWord f7 rs2 rs1 f3 rd op) = op := by
  unfold opField joinWord
  erw [BitVec.extractLsb'_append_eq_of_add_le (by decide)]
  simp

@[simp] theorem cF3Field_joinHalf (f3 : BitVec 3) (b : BitVec 1) (hi lo : BitVec 5) (op : BitVec 2) :
    cF3Field (joinHalf f3 b hi lo op) = f3 := by
  unfold cF3Field joinHalf
  erw [BitVec.extractLsb'_append_eq_of_le (by decide), BitVec.extractLsb'_append_eq_of_le (by decide), BitVec.extractLsb'_append_eq_of_le (by decide), BitVec.extractLsb'_append_eq_of_le (by decide)]
  simp

@[simp] theorem cBitField_joinHalf (f3 : BitVec 3) (b : BitVec 1) (hi lo : BitVec 5) (op : BitVec 2) :
    cBitField (joinHalf f3 b hi lo op) = b := by
  unfold cBitField joinHalf
  erw [BitVec.extractLsb'_append_eq_of_le (by decide), BitVec.extractLsb'_append_eq_of_le (by decide), BitVec.extractLsb'_append_eq_of_le (by decide), BitVec.extractLsb'_append_eq_of_add_le (by decide)]
  simp

@[simp] theorem cHiField_joinHalf (f3 : BitVec 3) (b : BitVec 1) (hi lo : BitVec 5) (op : BitVec 2) :
    cHiField (joinHalf f3 b hi lo op) = hi := by
  unfold cHiField joinHalf
  erw [BitVec.extractLsb'_append_eq_of_le (by decide), BitVec.extractLsb'_append_eq_of_le (by decide), BitVec.extractLsb'_append_eq_of_add_le (by decide)]
  simp

@[simp] theorem cLoField_joinHalf (f3 : BitVec 3) (b : BitVec 1) (hi lo : BitVec 5) (op : BitVec 2) :
    cLoField (joinHalf f3 b hi lo op) = lo := by
  unfold cLoField joinHalf
  erw [BitVec.extractLsb'_append_eq_of_le (by decide), BitVec.extractLsb'_append_eq_of_add_le (by decide)]
  simp

@[simp] theorem cOpField_joinHalf (f3 : BitVec 3) (b : BitVec 1) (hi lo : BitVec 5) (op : BitVec 2) :
    cOpField (joinHalf f3 b hi lo op) = op := by
  unfold cOpField joinHalf
  erw [BitVec.extractLsb'_append_eq_of_add_le (by decide)]
  simp

theorem append_toNat {w v : Nat} (x : BitVec w) (y : BitVec v) :
    (x ++ y).toNat = x.toNat * 2 ^ v + y.toNat := by
  rw [BitVec.toNat_append, ← Nat.shiftLeft_add_eq_or_of_lt y.isLt, Nat.shiftLeft_eq]

theorem extract_high {w v s l : Nat} (x : BitVec w) (y : BitVec v) (h : v ≤ s) :
    (x ++ y).extractLsb' s l = x.extractLsb' (s - v) l := BitVec.extractLsb'_append_eq_of_le h

theorem extract_low {w v s l : Nat} (x : BitVec w) (y : BitVec v) (h : s + l ≤ v) :
    (x ++ y).extractLsb' s l = y.extractLsb' s l := BitVec.extractLsb'_append_eq_of_add_le h

@[simp] theorem immI_join (imm : BitVec 12) : immI (imm.extractLsb' 5 7) (imm.extractLsb' 0 5) = imm := by
  apply BitVec.eq_of_toNat_eq
  have := imm.isLt
  unfold immI
  repeat erw [append_toNat]
  repeat first
    | (erw [extract_high]; rotate_left; · decide)
    | (erw [extract_low]; rotate_left; · decide)
  repeat erw [append_toNat]
  simp only [BitVec.extractLsb'_toNat, Nat.shiftRight_eq_div_pow]
  simp
  try omega

@[simp] theorem immS_join (imm : BitVec 12) : immS (imm.extractLsb' 5 7) (imm.extractLsb' 0 5) = imm := by
  apply BitVec.eq_of_toNat_eq
  have := imm.isLt
  unfold immS
  repeat erw [append_toNat]
  repeat first
    | (erw [extract_high]; rotate_left; · decide)
    | (erw [extract_low]; rotate_left; · decide)
  repeat erw [append_toNat]
  simp only [BitVec.extractLsb'_toNat, Nat.shiftRight_eq_div_pow]
  simp
  try omega

@[simp] theorem immB_join (off : BitVec 12) : immB (off.extractLsb' 11 1 ++ off.extractLsb' 4 6) (off.extractLsb' 0 4 ++ off.extractLsb' 10 1) = off := by
  apply BitVec.eq_of_toNat_eq
  have := off.isLt
  unfold immB
  repeat erw [append_toNat]
  repeat first
    | (erw [extract_high]; rotate_left; · decide)
    | (erw [extract_low]; rotate_left; · decide)
  repeat erw [append_toNat]
  simp only [BitVec.extractLsb'_toNat, Nat.shiftRight_eq_div_pow]
  simp
  try omega

@[simp] theorem immU_join (imm : BitVec 20) : immU (imm.extractLsb' 13 7) (imm.extractLsb' 8 5) (imm.extractLsb' 3 5) (imm.extractLsb' 0 3) = imm := by
  apply BitVec.eq_of_toNat_eq
  have := imm.isLt
  unfold immU
  repeat erw [append_toNat]
  repeat first
    | (erw [extract_high]; rotate_left; · decide)
    | (erw [extract_low]; rotate_left; · decide)
  repeat erw [append_toNat]
  simp only [BitVec.extractLsb'_toNat, Nat.shiftRight_eq_div_pow]
  simp
  try omega

@[simp] theorem immJ_join (off : BitVec 20) : immJ (off.extractLsb' 19 1 ++ off.extractLsb' 4 6) (off.extractLsb' 0 4 ++ off.extractLsb' 10 1)
    (off.extractLsb' 14 5) (off.extractLsb' 11 3) = off := by
  apply BitVec.eq_of_toNat_eq
  have := off.isLt
  unfold immJ
  repeat erw [append_toNat]
  repeat first
    | (erw [extract_high]; rotate_left; · decide)
    | (erw [extract_low]; rotate_left; · decide)
  repeat erw [append_toNat]
  simp only [BitVec.extractLsb'_toNat, Nat.shiftRight_eq_div_pow]
  simp
  try omega

@[simp] theorem immCiw_join (rd : CReg) (imm : BitVec 8) : immCiw (imm.extractLsb' 3 1) (imm.extractLsb' 2 1 ++ imm.extractLsb' 4 4)
    (imm.extractLsb' 0 1 ++ imm.extractLsb' 1 1 ++ rd) = imm := by
  unfold immCiw
  repeat first
    | (erw [extract_high]; rotate_left; · decide)
    | (erw [extract_low]; rotate_left; · decide)
  revert imm; decide

@[simp] theorem immClw_join (r rs1 : CReg) (imm : BitVec 5) : immClw (imm.extractLsb' 3 1) (imm.extractLsb' 1 2 ++ rs1)
    (imm.extractLsb' 0 1 ++ imm.extractLsb' 4 1 ++ r) = imm := by
  unfold immClw cTop
  repeat first
    | (erw [extract_high]; rotate_left; · decide)
    | (erw [extract_low]; rotate_left; · decide)
  revert imm; decide

@[simp] theorem immCld_join (r rs1 : CReg) (imm : BitVec 5) : immCld (imm.extractLsb' 2 1) (imm.extractLsb' 0 2 ++ rs1) (imm.extractLsb' 3 2 ++ r) = imm := by
  unfold immCld cTop
  repeat first
    | (erw [extract_high]; rotate_left; · decide)
    | (erw [extract_low]; rotate_left; · decide)
  revert imm; decide

@[simp] theorem immCi_join (imm : BitVec 6) : immCi (imm.extractLsb' 5 1) (imm.extractLsb' 0 5) = imm := by
  unfold immCi
  repeat first
    | (erw [extract_high]; rotate_left; · decide)
    | (erw [extract_low]; rotate_left; · decide)
  revert imm; decide

@[simp] theorem immCj_join (off : BitVec 11) : immCj (off.extractLsb' 10 1)
    (off.extractLsb' 3 1 ++ off.extractLsb' 7 2 ++ off.extractLsb' 9 1 ++ off.extractLsb' 5 1)
    (off.extractLsb' 6 1 ++ off.extractLsb' 0 3 ++ off.extractLsb' 4 1) = off := by
  apply BitVec.eq_of_toNat_eq
  have := off.isLt
  unfold immCj
  repeat erw [append_toNat]
  repeat first
    | (erw [extract_high]; rotate_left; · decide)
    | (erw [extract_low]; rotate_left; · decide)
  repeat erw [append_toNat]
  simp only [BitVec.extractLsb'_toNat, Nat.shiftRight_eq_div_pow]
  simp
  try omega

@[simp] theorem immC16sp_join (imm : BitVec 6) : immC16sp (imm.extractLsb' 5 1)
    (imm.extractLsb' 0 1 ++ imm.extractLsb' 2 1 ++ imm.extractLsb' 3 2 ++ imm.extractLsb' 1 1) = imm := by
  unfold immC16sp
  repeat first
    | (erw [extract_high]; rotate_left; · decide)
    | (erw [extract_low]; rotate_left; · decide)
  revert imm; decide

@[simp] theorem immCb_join (rs1 : CReg) (off : BitVec 8) : immCb (off.extractLsb' 7 1) (off.extractLsb' 2 2 ++ rs1)
    (off.extractLsb' 5 2 ++ off.extractLsb' 0 2 ++ off.extractLsb' 4 1) = off := by
  unfold immCb cTop
  repeat first
    | (erw [extract_high]; rotate_left; · decide)
    | (erw [extract_low]; rotate_left; · decide)
  revert off; decide

@[simp] theorem immClwsp_join (imm : BitVec 6) : immClwsp (imm.extractLsb' 3 1) (imm.extractLsb' 0 3 ++ imm.extractLsb' 4 2) = imm := by
  unfold immClwsp
  repeat first
    | (erw [extract_high]; rotate_left; · decide)
    | (erw [extract_low]; rotate_left; · decide)
  revert imm; decide

@[simp] theorem immCldsp_join (imm : BitVec 6) : immCldsp (imm.extractLsb' 2 1) (imm.extractLsb' 0 2 ++ imm.extractLsb' 3 3) = imm := by
  unfold immCldsp
  repeat first
    | (erw [extract_high]; rotate_left; · decide)
    | (erw [extract_low]; rotate_left; · decide)
  revert imm; decide

@[simp] theorem immCswsp_join (imm : BitVec 6) : immCswsp (imm.extractLsb' 3 1) (imm.extractLsb' 0 3 ++ imm.extractLsb' 4 2) = imm := by
  unfold immCswsp
  repeat first
    | (erw [extract_high]; rotate_left; · decide)
    | (erw [extract_low]; rotate_left; · decide)
  revert imm; decide

@[simp] theorem immCsdsp_join (imm : BitVec 6) : immCsdsp (imm.extractLsb' 2 1) (imm.extractLsb' 0 2 ++ imm.extractLsb' 3 3) = imm := by
  unfold immCsdsp
  repeat first
    | (erw [extract_high]; rotate_left; · decide)
    | (erw [extract_low]; rotate_left; · decide)
  revert imm; decide

@[simp] theorem cReg_join (t : BitVec 2) (r : CReg) : cReg (t ++ r) = r := by
  unfold cReg
  repeat first
    | (erw [extract_high]; rotate_left; · decide)
    | (erw [extract_low]; rotate_left; · decide)
  simp

@[simp] theorem cTop_join (t : BitVec 2) (r : CReg) : cTop (t ++ r) = t := by
  unfold cTop
  repeat first
    | (erw [extract_high]; rotate_left; · decide)
    | (erw [extract_low]; rotate_left; · decide)
  simp

@[simp] theorem cReg_join3 (s t : BitVec 1) (r : CReg) : cReg (s ++ t ++ r) = r := by
  unfold cReg
  repeat first
    | (erw [extract_high]; rotate_left; · decide)
    | (erw [extract_low]; rotate_left; · decide)
  simp

@[simp] theorem amo_funct5 (f5 : BitVec 5) (aq rl : Bool) :
    (f5 ++ BitVec.ofBool aq ++ BitVec.ofBool rl : BitVec 7).extractLsb' 2 5 = f5 := by
  cases aq <;> cases rl <;> revert f5 <;> decide

@[simp] theorem amo_aq (f5 : BitVec 5) (aq rl : Bool) :
    (f5 ++ BitVec.ofBool aq ++ BitVec.ofBool rl : BitVec 7)[1] = aq := by
  cases aq <;> cases rl <;> revert f5 <;> decide

@[simp] theorem amo_rl (f5 : BitVec 5) (aq rl : Bool) :
    (f5 ++ BitVec.ofBool aq ++ BitVec.ofBool rl : BitVec 7)[0] = rl := by
  cases aq <;> cases rl <;> revert f5 <;> decide

@[simp] theorem r4_fmt (rs3 : Reg) (fmt : BitVec 2) :
    (rs3 ++ fmt : BitVec 7).extractLsb' 0 2 = fmt := by revert rs3 fmt; decide

@[simp] theorem r4_rs3 (rs3 : Reg) (fmt : BitVec 2) :
    (rs3 ++ fmt : BitVec 7).extractLsb' 2 5 = rs3 := by revert rs3 fmt; decide

@[simp] theorem fence_fm (fm pred : BitVec 4) :
    (fm ++ pred.extractLsb' 1 3 : BitVec 7).extractLsb' 3 4 = fm := by revert fm pred; decide

@[simp] theorem fence_pred (fm pred succ : BitVec 4) :
    ((fm ++ pred.extractLsb' 1 3 : BitVec 7).extractLsb' 0 3
      ++ (pred.extractLsb' 0 1 ++ succ : BitVec 5).extractLsb' 4 1 : BitVec 4) = pred := by
  have hf : (fm ++ pred.extractLsb' 1 3 : BitVec 7).extractLsb' 0 3 = pred.extractLsb' 1 3 := by
    clear succ; revert fm pred; decide
  have hs : (pred.extractLsb' 0 1 ++ succ : BitVec 5).extractLsb' 4 1 = pred.extractLsb' 0 1 := by
    clear hf fm; revert pred succ; decide
  rw [hf, hs]; clear hf hs fm succ; revert pred; decide

@[simp] theorem fence_succ (pred succ : BitVec 4) :
    (pred.extractLsb' 0 1 ++ succ : BitVec 5).extractLsb' 0 4 = succ := by revert pred succ; decide

/-- The bits of a C.ADDI16SP immediate are a permutation: none set only when none is set (R366). -/
@[simp] theorem immCi_c16sp_eq_zero (imm : BitVec 6) :
    immCi (imm.extractLsb' 5 1)
      (imm.extractLsb' 0 1 ++ imm.extractLsb' 2 1 ++ imm.extractLsb' 3 2 ++ imm.extractLsb' 1 1) = 0#6
      ↔ imm = 0#6 := by revert imm; decide

end Sys2Proof.Laws
end

