-- ==== Sys2Proof/Laws/Fp.lean ====
section
/-! SUPPORT. What the shared floating-point operations do: the legality checks, the results, loads and stores. -/

namespace Sys2Proof.Machine

/-- A floating-point instruction of a subset that is there, with FS not Off, runs. -/
theorem fpLegal_ready {has : Bool} {s : State} (h : FpReady s has) (i : Instr) (run : State → Out) :
    fpLegal has i s run = run s := by
  obtain ⟨h1, h2⟩ := h
  have : (s.csr.mstatus.fs != 0#2) = true := by simp [h2]
  simp only [fpLegal, h1, Bool.true_and]
  exact (congrArg (fun b => whenLegal b i s run) this).trans rfl

/-- The same for one with a rounding mode that resolves. -/
theorem fpRounded_ready {has : Bool} {s : State} {rm mode} (h : FpReady s has)
    (hm : resolveRm rm s.csr.fcsr.frm = some mode) (i : Instr) (run : RMode → State → Out) :
   fpRounded has i rm s run = run mode s := by
  rw [fpRounded, fpLegal_ready h]; simp [hm]

/-- Everything a floating-point result does. -/
theorem retire_setF_done (s : State) (rd : Reg) (v : DWord) (fl) (len) :
   ∃ t, retire len ((s.setF rd v).fpDone fl) = .next t ∧ DoneF s t rd v fl (s.pc + len) :=
  ⟨_, retire_eq _ _, { x := fun r => by simp [State.getX], f := fun r => by simp [State.getF_setF],
                       mem := ⟨fun _ => by simp, by simp⟩, pc := by simp, csr := by simp; rfl, resv := by simp,
                       rest := ⟨by simp, by simp, by simp, by simp, by simp, by simp, by simp, by simp, by simp,
                       by simp, by simp,
        by simp, by simp, by simp⟩ }⟩

/-- Everything a floating-point instruction with an integer result does. -/
theorem finishX_done (s : State) (rd : Reg) (v : Word) (fl) :
   ∃ t, finishX rd v fl s = .next t ∧ DoneFx s t rd v fl (s.pc + 4) :=
  ⟨_, retire_eq _ _, { x := fun r => by simpa using wroteX_setX s rd v r, f := fun r => by simp,
                       mem := ⟨fun _ => by simp, by simp⟩, pc := by simp, csr := by simp; rfl, resv := by simp,
                       rest := ⟨by simp, by simp, by simp, by simp, by simp, by simp, by simp, by simp, by simp,
                       by simp, by simp,
        by simp, by simp, by simp⟩ }⟩

theorem doneF_of_eq {o : Out} {s : State} {rd : Reg} {v v' fl pc} (h : v = v')
    (x : ∃ t, o = .next t ∧ DoneF s t rd v fl pc) :
   ∃ t, o = .next t ∧ DoneF s t rd v' fl pc := h ▸ x

/-- Everything a single-precision load does when nothing stands in its way. -/
theorem loadS_done {s : State} (len rd) {ea} (h : plainLoad s ea 4 = true) :
   ∃ t, loadS len rd ea s = .next t ∧ DoneF s t rd (boxS s.cfg.hasD (memWord s.mem ea)) 0 (s.pc + len) := by
  unfold loadS; rw [dataLoad_plain h]
  exact doneF_of_eq (by simp) (retire_setF_done s rd _ 0 len)

/-- Everything a double-precision load does when nothing stands in its way. -/
theorem loadD_done {s : State} (len rd) {ea} (h : plainLoad s ea 8 = true) :
   ∃ t, loadD len rd ea s = .next t ∧ DoneF s t rd (memDouble s.mem ea) 0 (s.pc + len) := by
  unfold loadD; rw [dataLoad_plain h]
  exact doneF_of_eq (by simp) (retire_setF_done s rd _ 0 len)

/-- Everything a floating-point store does when nothing stands in its way. -/
theorem storeF_done {s : State} (len r) {ea n} (hm : s.mem.wf = true) (hn : n ≤ 8) (h : plainStore s ea n = true) :
   ∃ t, storeF len r ea n s = .next t ∧ DoneFStore s t ea n (s.getF r) (s.pc + len) := by
  obtain ⟨t, ht, ho, hmem⟩ := dataStore_plain (s.getF r) h
  unfold storeF
  rw [ht]
  refine ⟨_, retire_eq len _, ?_⟩
  exact
    { x := fun r => by simp [State.getX, ho.x]
      f := fun r => by simp [State.getF, ho.f]
      mem := fun b => by simp [hmem, Memory.read_writeBytes_splitBytes hm _ _ _ _ hn]
      pc := by simp [ho.pc]
      csr := by simp [ho.csr]; rfl
      resv := by simp [ho.resv]
      rest := ho.rest.trans ⟨rfl, rfl, rfl, rfl, rfl, rfl, rfl, rfl, rfl, rfl, rfl, rfl, rfl, rfl⟩ }

/-- Everything a single-precision result does. -/
theorem finishS_done (s : State) (rd r) : ∃ t, finishS rd r s = .next t ∧
    DoneF s t rd (boxS s.cfg.hasD (BitVec.ofNat 32 r.bits)) r.flags (s.pc + 4) :=
  retire_setF_done s rd _ _ 4

/-- Everything a double-precision result does. -/
theorem finishD_done (s : State) (rd r) : ∃ t, finishD rd r s = .next t ∧
    DoneF s t rd (BitVec.ofNat 64 r.bits) r.flags (s.pc + 4) :=
  retire_setF_done s rd _ _ 4

/-- What an atomic meets when nothing stands in its way: no exception, no refusal, no ECC error, plain memory. -/
theorem checkAtomic_plain {s t path a} (h : plainAtomic s t path a = true) : checkAtomic s t a = .ok () s ∧
    plainForData s.cfg a = true ∧ (eccMet s path [⟨a, 4⟩]).isEmpty = true ∧
    (t = .amo → (eccMet s .store [⟨a, 4⟩]).isEmpty = true) := by
  simp only [plainAtomic, Bool.and_eq_true, beq_iff_eq] at h
  obtain ⟨⟨h0, h1⟩, h2⟩ := h
  have ha : a.toNat % 4 = 0 := by
    have := congrArg BitVec.toNat h0
    simpa [BitVec.extractLsb'_toNat] using this
  obtain ⟨-, hp, he⟩ := plainAccess_iff.1 h1
  have hps : parts a 4 = [⟨a, 4⟩] := by simp [parts, smallParts, ha]
  rw [hps] at hp he
  obtain ⟨p1, p2, p3⟩ := hp ⟨a, 4⟩ (by simp)
  refine ⟨?_, p3, he, fun ht => by simpa [ht] using h2⟩
  have hr := partRefusal_plain (n := 4) (p := ⟨a, 4⟩) p3
  unfold checkAtomic
  rw [if_neg (by omega)]
  simp only [partFault, p1, p2, if_true, hr]
  unfold plainForData at p3
  simp only at p3
  split at p3 <;> first | (rename_i hreg; simp only [hreg]; rfl) | simp at p3

/-- The word an atomic reads in plain memory. -/
theorem wordRead_plain {s : State} {a : Word} (h : plainForData s.cfg a = true) : wordRead s a = memWord s.mem a := by
  rw [wordRead, partRead_plain (p := ⟨a, 4⟩) h] <;> simp

/-- The store of an atomic in plain memory. -/
theorem wordWrite_plain {s : State} {a : Word} (v : Word) (h : plainForData s.cfg a = true) :
    wordWrite s a v [] = s.storeMem a (splitBytes 4 (v.setWidth 64)) := by
  rw [wordWrite, spoilUnits_nil, partWrite_plain (p := ⟨a, 4⟩) h]

end Sys2Proof.Machine
end

