-- ==== Sys2Proof/Laws/FloatOrder.lean ====
section
/-! SUPPORT. The encodings of floating-point numbers: the order of the encodings is the order of the values; the class of an encoding. -/

namespace Sys2Proof.Machine

/-- The number, in units of the smallest subnormal, that magnitude bits stand for. -/
def scaled (fb k : Nat) : Nat := if k / 2^fb = 0 then k % 2^fb else (k % 2^fb + 2^fb) * 2^(k / 2^fb - 1)

/-- The larger the magnitude bits, the larger the number. -/
theorem scaled_lt {fb a b : Nat} (h : a < b) : scaled fb a < scaled fb b := by
  unfold scaled
  have hp : 0 < 2^fb := Nat.pow_pos (by decide)
  generalize 2^fb = P at *
  have hq : a / P ≤ b / P := Nat.div_le_div_right (le_of_lt h)
  have ha := Nat.div_add_mod a P
  have hb := Nat.div_add_mod b P
  have ma := Nat.mod_lt a hp
  have mb := Nat.mod_lt b hp
  generalize a / P = x at *
  generalize b / P = y at *
  generalize a % P = u at *
  generalize b % P = v at *
  rcases Nat.lt_or_ge x y with hlt | hge
  · have h1 : (if x = 0 then u else (u + P) * 2 ^ (x - 1)) < P * 2^x := by
      split
      · next h0 => rw [h0]; simpa using ma
      · next h0 =>
        have : 2^x = 2 * 2^(x - 1) := by rw [← pow_succ']; congr 1; omega
        rw [this, ← mul_assoc]
        exact Nat.mul_lt_mul_of_pos_right (by omega) (Nat.pow_pos (by decide))
    have h2 : P * 2^x ≤ (if y = 0 then v else (v + P) * 2 ^ (y - 1)) := by
      rw [if_neg (by omega)]
      exact Nat.mul_le_mul (by omega) (Nat.pow_le_pow_right (by decide) (by omega))
    exact lt_of_lt_of_le h1 h2
  · have e : x = y := by omega
    subst e
    have : u < v := by omega
    split
    · exact this
    · exact Nat.mul_lt_mul_of_pos_right (by omega) (Nat.pow_pos (by decide))

theorem scaled_lt_iff {fb a b : Nat} : scaled fb a < scaled fb b ↔ a < b := by
  constructor
  · intro h
    rcases Nat.lt_trichotomy a b with h1 | h1 | h1
    · exact h1
    · subst h1; omega
    · have := scaled_lt (fb := fb) h1; omega
  · exact scaled_lt

section
variable (f : FFmt) (n : Nat)

/-- The magnitude bits of an encoding. -/
def FFmt.mag : Nat := n % 2^(f.expBits + f.fracBits)

/-- The sign bit of an encoding. -/
def FFmt.sign : Bool := n.testBit (f.expBits + f.fracBits)

theorem mag_frac : FFmt.mag f n % 2^f.fracBits = n % 2^f.fracBits := by
  unfold FFmt.mag; rw [Nat.mod_mod_of_dvd]; exact Nat.pow_dvd_pow 2 (by omega)

theorem mag_exponent : FFmt.mag f n / 2^f.fracBits = n >>> f.fracBits % 2^f.expBits := by
  unfold FFmt.mag; rw [Nat.shiftRight_eq_div_pow, Nat.add_comm, pow_add, Nat.mod_mul_right_div_self]

theorem order_eq : f.order n = if FFmt.sign f n then -(FFmt.mag f n : Int) else FFmt.mag f n := rfl

theorem unpack_eq_mag : f.unpack n =
   if FFmt.mag f n / 2^f.fracBits = 2^f.expBits - 1 then (if FFmt.mag f n % 2^f.fracBits = 0 then .inf (FFmt.sign f n) else .nan (!(n % 2^f.fracBits).testBit (f.fracBits - 1)))
   else .fin (FFmt.sign f n) (if FFmt.mag f n / 2^f.fracBits = 0 then FFmt.mag f n % 2^f.fracBits else FFmt.mag f n % 2^f.fracBits + 2^f.fracBits)
     (if FFmt.mag f n / 2^f.fracBits = 0 then f.qMin else f.qMin + (FFmt.mag f n / 2^f.fracBits - 1 : Nat)) := by
  rw [mag_frac, mag_exponent]
  unfold FFmt.unpack
  simp only [FFmt.sign]
  split
  · rfl
  · split
    · rfl
    · rfl

theorem num_unpack (h : (f.unpack n).isFin = true) :
    (f.unpack n).num = (if FFmt.sign f n then -1 else 1) * (scaled f.fracBits (FFmt.mag f n) : ℚ) * 2^f.qMin := by
  rw [unpack_eq_mag] at h ⊢
  split at h
  · split at h <;> simp [FVal.isFin] at h
  · next h0 =>
    rw [if_neg h0]
    unfold scaled
    simp only [FVal.num]
    by_cases hx : FFmt.mag f n / 2^f.fracBits = 0
    · simp only [hx, if_true]
    · simp only [hx, if_false]
      rw [zpow_add₀ (by norm_num), zpow_natCast]
      push_cast
      ring

end

/-- The number, in units of the smallest subnormal, that an encoding stands for. -/
def signedScaled (f : FFmt) (n : Nat) : ℤ := if FFmt.sign f n then -(scaled f.fracBits (FFmt.mag f n) : ℤ) else scaled f.fracBits (FFmt.mag f n)

theorem scaled_zero (fb) : scaled fb 0 = 0 := by simp [scaled]

theorem signedScaled_lt (f : FFmt) (a b : Nat) : signedScaled f a < signedScaled f b ↔ f.order a < f.order b := by
  unfold signedScaled; rw [order_eq, order_eq]
  have h1 := @scaled_lt_iff f.fracBits (FFmt.mag f a) (FFmt.mag f b)
  have h2 := @scaled_lt_iff f.fracBits (FFmt.mag f b) (FFmt.mag f a)
  have h3 := @scaled_lt_iff f.fracBits 0 (FFmt.mag f a)
  have h4 := @scaled_lt_iff f.fracBits 0 (FFmt.mag f b)
  rw [scaled_zero] at h3 h4
  split <;> split <;> omega

theorem signedScaled_eq (f : FFmt) (a b : Nat) : signedScaled f a = signedScaled f b ↔ f.order a = f.order b := by
  have h1 := signedScaled_lt f a b
  have h2 := signedScaled_lt f b a
  omega

theorem mag_lt (f : FFmt) (n) : FFmt.mag f n / 2^f.fracBits < 2^f.expBits := by
  rw [mag_exponent]; exact Nat.mod_lt _ (Nat.pow_pos (by decide))

theorem mag_fin (f : FFmt) (n) (h : (f.unpack n).isFin = true) : FFmt.mag f n < (2^f.expBits - 1) * 2^f.fracBits := by
  have := mag_lt f n
  rw [unpack_eq_mag] at h
  split at h
  · split at h <;> simp [FVal.isFin] at h
  · next h0 => exact (Nat.div_lt_iff_lt_mul (Nat.pow_pos (by decide))).1 (by omega)

theorem mag_inf (f : FFmt) (n) (s) (h : f.unpack n = .inf s) : FFmt.mag f n = (2^f.expBits - 1) * 2^f.fracBits ∧
    s = FFmt.sign f n := by
  rw [unpack_eq_mag] at h
  split at h
  · next h0 =>
    split at h
    · next h1 =>
      have := Nat.div_add_mod (FFmt.mag f n) (2^f.fracBits)
      rw [h0, h1] at this
      refine ⟨by rw [← this]; ring, ?_⟩
      simpa using h.symm
    · simp at h
  · simp at h

theorem num_signedScaled (f n) (h : (f.unpack n).isFin = true) :
    (f.unpack n).num = (signedScaled f n : ℚ) * 2^f.qMin := by
  rw [num_unpack f n h]; unfold signedScaled; split <;> simp

theorem qMin_pos (f : FFmt) : (0:ℚ) < 2^f.qMin := by positivity

theorem place_finite {v : FVal} (h : v.isFin = true) : v.place = ((v.num : WithTop ℚ) : WithBot (WithTop ℚ)) := by
  cases v <;> simp_all [FVal.isFin, FVal.place]

/-- The order of the encodings is the order of the values. -/
theorem place_lt_iff (f : FFmt) (hE : 1 ≤ f.expBits) (a b : Nat) (ha : (f.unpack a).isNan = false)
    (hb : (f.unpack b).isNan = false) :
   (f.unpack a).place < (f.unpack b).place ↔ f.order a < f.order b := by
  rw [← signedScaled_lt]
  rcases hua : f.unpack a with s | s | ⟨s, m, e⟩
  · rw [hua] at ha; simp [FVal.isNan] at ha
  · obtain ⟨m1, rfl⟩ := mag_inf f a s hua
    rcases hub : f.unpack b with s | s | ⟨s, m, e⟩
    · rw [hub] at hb; simp [FVal.isNan] at hb
    · obtain ⟨m2, rfl⟩ := mag_inf f b s hub
      unfold signedScaled; rw [m1, m2]
      have h2 : 0 < (2^f.expBits - 1) * 2^f.fracBits := by
        have : 2^1 ≤ 2^f.expBits := Nat.pow_le_pow_right (by decide) hE
        exact Nat.mul_pos (by omega) (Nat.pow_pos (by decide))
      have := @scaled_lt f.fracBits _ _ h2
      rw [scaled_zero] at this
      cases FFmt.sign f a <;> cases FFmt.sign f b <;> simp [FVal.place] <;> omega
    · have hf : (f.unpack b).isFin = true := by rw [hub]; rfl
      have hl := mag_fin f b hf
      have := @scaled_lt f.fracBits _ _ hl
      rw [← m1] at this
      unfold signedScaled
      cases FFmt.sign f a <;> cases FFmt.sign f b <;> simp [FVal.place] <;> omega
  · have hfa : (f.unpack a).isFin = true := by rw [hua]; rfl
    rcases hub : f.unpack b with s' | s' | ⟨s', m', e'⟩
    · rw [hub] at hb; simp [FVal.isNan] at hb
    · obtain ⟨m2, rfl⟩ := mag_inf f b s' hub
      have hl := mag_fin f a hfa
      have := @scaled_lt f.fracBits _ _ hl
      rw [← m2] at this
      have hT : ((((FVal.fin s m e).num : ℚ) : WithTop ℚ) : WithBot (WithTop ℚ)) < ((⊤ : WithTop ℚ) : WithBot (WithTop ℚ)) :=
        WithBot.coe_lt_coe.2 (WithTop.coe_lt_top _)
      have hT' : ((((FVal.fin s m e).num : ℚ) : WithTop ℚ) : WithBot (WithTop ℚ)) < (⊤ : WithBot (WithTop ℚ)) := hT
      unfold signedScaled
      cases FFmt.sign f a <;> cases FFmt.sign f b <;> simp [FVal.place] <;> first | omega | exact iff_of_true hT (by omega)
    · have hfb : (f.unpack b).isFin = true := by rw [hub]; rfl
      rw [← hua, ← hub, place_finite hfa, place_finite hfb, WithBot.coe_lt_coe, WithTop.coe_lt_coe, num_signedScaled f a hfa, num_signedScaled f b hfb,
        mul_lt_mul_iff_left₀ (qMin_pos f)]
      exact_mod_cast Iff.rfl

theorem place_eq_iff (f : FFmt) (hE : 1 ≤ f.expBits) (a b : Nat) (ha : (f.unpack a).isNan = false)
    (hb : (f.unpack b).isNan = false) :
   (f.unpack a).place = (f.unpack b).place ↔ f.order a = f.order b := by
  have h1 := place_lt_iff f hE a b ha hb
  have h2 := place_lt_iff f hE b a hb ha
  constructor
  · intro h; rw [h] at h1 h2; simp at h1 h2; omega
  · intro h
    rcases lt_trichotomy (f.unpack a).place (f.unpack b).place with h3 | h3 | h3
    · have := h1.1 h3; omega
    · exact h3
    · have := h2.1 h3; omega

theorem order_le (f : FFmt) (hE : 1 ≤ f.expBits) (a b : Nat) (ha : (f.unpack a).isNan = false)
    (hb : (f.unpack b).isNan = false) :
   (f.unpack a).place ≤ (f.unpack b).place ↔ f.order a ≤ f.order b := by
  rw [← not_lt, place_lt_iff f hE b a hb ha]; omega

theorem isNeg_unpack (f : FFmt) (n) (h : (f.unpack n).isNan = false) :
    (f.unpack n).isNeg = n.testBit (f.expBits + f.fracBits) := by
  rw [unpack_eq_mag] at h ⊢
  split
  · split
    · rfl
    · simp_all [FVal.isNan]
  · rfl

/-- The class of an encoding by its fields. -/
theorem fClass_isClass (f : FFmt) (n : Nat) (sb : BitVec 1) (ex : BitVec f.expBits) (fr : BitVec f.fracBits)
    (hs : sb = BitVec.ofBool (n.testBit (f.expBits + f.fracBits))) (he : ex.toNat = n >>> f.fracBits % 2^f.expBits)
    (hfr : fr.toNat = n % 2^f.fracBits) :
   ∃ k, fClass f n = BitVec.ofNat 32 (2^k) ∧ IsClass sb ex fr k := by
  refine ⟨_, ?_, rfl⟩
  unfold fClass FFmt.unpack
  have e1 : (ex = BitVec.allOnes f.expBits) ↔ n >>> f.fracBits % 2^f.expBits = 2^f.expBits - 1 := by
    rw [← he, ← BitVec.toNat_inj, BitVec.toNat_allOnes]
  have e2 : (ex = 0#f.expBits) ↔ n >>> f.fracBits % 2^f.expBits = 0 := by
    rw [← he, ← BitVec.toNat_inj]; simp
  have e3 : (fr = 0#f.fracBits) ↔ n % 2^f.fracBits = 0 := by
    rw [← hfr, ← BitVec.toNat_inj]; simp
  have e4 : fr.msb = (n % 2^f.fracBits).testBit (f.fracBits - 1) := by
    rw [BitVec.msb_eq_getLsbD_last, BitVec.getLsbD, hfr]
  have e5 : (sb = 1#1) ↔ n.testBit (f.expBits + f.fracBits) = true := by
    rw [hs]; cases n.testBit (f.expBits + f.fracBits) <;> decide
  simp only [e1, e2, e3, e4, e5]
  have hlt := Nat.mod_lt n (Nat.pow_pos (a := 2) (n := f.fracBits) (by decide))
  generalize n.testBit (f.expBits + f.fracBits) = B
  generalize (n % 2^f.fracBits).testBit (f.fracBits - 1) = C
  generalize n >>> f.fracBits % 2^f.expBits = E
  generalize n % 2^f.fracBits = F at *
  by_cases hE : E = 2^f.expBits - 1
  · simp only [hE, if_true]
    by_cases hF : F = 0
    · simp only [hF, if_true]; cases B <;> rfl
    · simp only [hF, if_false]; cases C <;> rfl
  · by_cases h0 : E = 0
    · have hE' : ¬ (0 = 2^f.expBits - 1) := h0 ▸ hE
      simp only [h0, hE', if_true, if_false]
      by_cases hF : F = 0
      · simp only [hF, if_true]; cases B <;> rfl
      · simp only [hF, hlt, if_true, if_false]; cases B <;> rfl
    · simp only [hE, h0, if_false]
      have : ¬ (F + 2^f.fracBits = 0) := by omega
      have h2 : ¬ (F + 2^f.fracBits < 2^f.fracBits) := by omega
      simp only [this, h2, if_false]; cases B <;> rfl

end Sys2Proof.Machine
end

