-- ==== Sys2Proof/Laws/PerInstr.lean ====
section
/-! SUPPORT. The statement made for every instruction: its own words say how long it is (30_encoding.md R221), so a
fetch reads exactly them. -/

namespace Sys2Proof.Laws

/-- A half-word does not end in 11; a word does, and its bits 4:2 are not 111 (30_encoding.md R221). -/
def Length.Statement (i : Instr) : Prop :=
  (∀ h, encode i = .half h → isLong h = false) ∧
    ∀ w, encode i = .word w → isLong (w.setWidth 16) = true ∧ isVeryLong (w.setWidth 16) = false

theorem length_half {i : Instr} {h : BitVec 16} (he : encode i = .half h) (ho : cOpField h ≠ 3#2) :
    Length.Statement i := by
  refine ⟨fun h' e => ?_, fun w e => ?_⟩
  · rw [he] at e
    cases e
    simpa [isLong, cOpField] using ho
  · rw [he] at e
    cases e

theorem length_word {i : Instr} {w : BitVec 32} (he : encode i = .word w) (h3 : (opField w).extractLsb' 0 2 = 3#2)
    (h7 : (opField w).extractLsb' 2 3 ≠ 7#3) : Length.Statement i := by
  refine ⟨fun h e => ?_, fun w' e => ?_⟩
  · rw [he] at e
    cases e
  · rw [he] at e
    cases e
    have e0 : (w.setWidth 16).extractLsb' 0 2 = (opField w).extractLsb' 0 2 := by
      apply BitVec.eq_of_getLsbD_eq
      intro i hi
      interval_cases i <;> simp [opField]
    have e2 : (w.setWidth 16).extractLsb' 2 3 = (opField w).extractLsb' 2 3 := by
      apply BitVec.eq_of_getLsbD_eq
      intro i hi
      interval_cases i <;> simp [opField]
    rw [isLong, isVeryLong, e0, e2, h3]
    simpa using h7

theorem Length.lui {rd} {imm} : Length.Statement (.lui rd imm) :=
  length_word rfl (by simp) (by simp)
theorem Length.auipc {rd} {imm} : Length.Statement (.auipc rd imm) :=
  length_word rfl (by simp) (by simp)
theorem Length.jal {rd} {off} : Length.Statement (.jal rd off) :=
  length_word rfl (by simp) (by simp)
theorem Length.jalr {rd} {rs1} {imm} : Length.Statement (.jalr rd rs1 imm) :=
  length_word rfl (by simp) (by simp)
theorem Length.beq {rs1} {rs2} {off} : Length.Statement (.beq rs1 rs2 off) :=
  length_word rfl (by simp) (by simp)
theorem Length.bne {rs1} {rs2} {off} : Length.Statement (.bne rs1 rs2 off) :=
  length_word rfl (by simp) (by simp)
theorem Length.blt {rs1} {rs2} {off} : Length.Statement (.blt rs1 rs2 off) :=
  length_word rfl (by simp) (by simp)
theorem Length.bge {rs1} {rs2} {off} : Length.Statement (.bge rs1 rs2 off) :=
  length_word rfl (by simp) (by simp)
theorem Length.bltu {rs1} {rs2} {off} : Length.Statement (.bltu rs1 rs2 off) :=
  length_word rfl (by simp) (by simp)
theorem Length.bgeu {rs1} {rs2} {off} : Length.Statement (.bgeu rs1 rs2 off) :=
  length_word rfl (by simp) (by simp)
theorem Length.lb {rd} {rs1} {imm} : Length.Statement (.lb rd rs1 imm) :=
  length_word rfl (by simp) (by simp)
theorem Length.lh {rd} {rs1} {imm} : Length.Statement (.lh rd rs1 imm) :=
  length_word rfl (by simp) (by simp)
theorem Length.lw {rd} {rs1} {imm} : Length.Statement (.lw rd rs1 imm) :=
  length_word rfl (by simp) (by simp)
theorem Length.lbu {rd} {rs1} {imm} : Length.Statement (.lbu rd rs1 imm) :=
  length_word rfl (by simp) (by simp)
theorem Length.lhu {rd} {rs1} {imm} : Length.Statement (.lhu rd rs1 imm) :=
  length_word rfl (by simp) (by simp)
theorem Length.sb {rs2} {rs1} {imm} : Length.Statement (.sb rs2 rs1 imm) :=
  length_word rfl (by simp) (by simp)
theorem Length.sh {rs2} {rs1} {imm} : Length.Statement (.sh rs2 rs1 imm) :=
  length_word rfl (by simp) (by simp)
theorem Length.sw {rs2} {rs1} {imm} : Length.Statement (.sw rs2 rs1 imm) :=
  length_word rfl (by simp) (by simp)
theorem Length.addi {rd} {rs1} {imm} : Length.Statement (.addi rd rs1 imm) :=
  length_word rfl (by simp) (by simp)
theorem Length.slti {rd} {rs1} {imm} : Length.Statement (.slti rd rs1 imm) :=
  length_word rfl (by simp) (by simp)
theorem Length.sltiu {rd} {rs1} {imm} : Length.Statement (.sltiu rd rs1 imm) :=
  length_word rfl (by simp) (by simp)
theorem Length.xori {rd} {rs1} {imm} : Length.Statement (.xori rd rs1 imm) :=
  length_word rfl (by simp) (by simp)
theorem Length.ori {rd} {rs1} {imm} : Length.Statement (.ori rd rs1 imm) :=
  length_word rfl (by simp) (by simp)
theorem Length.andi {rd} {rs1} {imm} : Length.Statement (.andi rd rs1 imm) :=
  length_word rfl (by simp) (by simp)
theorem Length.slli {rd} {rs1} {shamt} : Length.Statement (.slli rd rs1 shamt) :=
  length_word rfl (by simp) (by simp)
theorem Length.srli {rd} {rs1} {shamt} : Length.Statement (.srli rd rs1 shamt) :=
  length_word rfl (by simp) (by simp)
theorem Length.srai {rd} {rs1} {shamt} : Length.Statement (.srai rd rs1 shamt) :=
  length_word rfl (by simp) (by simp)
theorem Length.add {rd} {rs1} {rs2} : Length.Statement (.add rd rs1 rs2) :=
  length_word rfl (by simp) (by simp)
theorem Length.sub {rd} {rs1} {rs2} : Length.Statement (.sub rd rs1 rs2) :=
  length_word rfl (by simp) (by simp)
theorem Length.sll {rd} {rs1} {rs2} : Length.Statement (.sll rd rs1 rs2) :=
  length_word rfl (by simp) (by simp)
theorem Length.slt {rd} {rs1} {rs2} : Length.Statement (.slt rd rs1 rs2) :=
  length_word rfl (by simp) (by simp)
theorem Length.sltu {rd} {rs1} {rs2} : Length.Statement (.sltu rd rs1 rs2) :=
  length_word rfl (by simp) (by simp)
theorem Length.xor {rd} {rs1} {rs2} : Length.Statement (.xor rd rs1 rs2) :=
  length_word rfl (by simp) (by simp)
theorem Length.srl {rd} {rs1} {rs2} : Length.Statement (.srl rd rs1 rs2) :=
  length_word rfl (by simp) (by simp)
theorem Length.sra {rd} {rs1} {rs2} : Length.Statement (.sra rd rs1 rs2) :=
  length_word rfl (by simp) (by simp)
theorem Length.or {rd} {rs1} {rs2} : Length.Statement (.or rd rs1 rs2) :=
  length_word rfl (by simp) (by simp)
theorem Length.and {rd} {rs1} {rs2} : Length.Statement (.and rd rs1 rs2) :=
  length_word rfl (by simp) (by simp)
theorem Length.fence {fm} {pred} {succ} {rs1} {rd} : Length.Statement (.fence fm pred succ rs1 rd) :=
  length_word rfl (by simp) (by simp)
theorem Length.fenceI {imm} {rs1} {rd} : Length.Statement (.fenceI imm rs1 rd) :=
  length_word rfl (by simp) (by simp)
theorem Length.mul {rd} {rs1} {rs2} : Length.Statement (.mul rd rs1 rs2) :=
  length_word rfl (by simp) (by simp)
theorem Length.mulh {rd} {rs1} {rs2} : Length.Statement (.mulh rd rs1 rs2) :=
  length_word rfl (by simp) (by simp)
theorem Length.mulhsu {rd} {rs1} {rs2} : Length.Statement (.mulhsu rd rs1 rs2) :=
  length_word rfl (by simp) (by simp)
theorem Length.mulhu {rd} {rs1} {rs2} : Length.Statement (.mulhu rd rs1 rs2) :=
  length_word rfl (by simp) (by simp)
theorem Length.div {rd} {rs1} {rs2} : Length.Statement (.div rd rs1 rs2) :=
  length_word rfl (by simp) (by simp)
theorem Length.divu {rd} {rs1} {rs2} : Length.Statement (.divu rd rs1 rs2) :=
  length_word rfl (by simp) (by simp)
theorem Length.rem {rd} {rs1} {rs2} : Length.Statement (.rem rd rs1 rs2) :=
  length_word rfl (by simp) (by simp)
theorem Length.remu {rd} {rs1} {rs2} : Length.Statement (.remu rd rs1 rs2) :=
  length_word rfl (by simp) (by simp)
theorem Length.cAddi4spn {rd} {imm} : Length.Statement (.cAddi4spn rd imm) :=
  length_half rfl (by simp)
theorem Length.cFld {rd} {rs1} {imm} : Length.Statement (.cFld rd rs1 imm) :=
  length_half rfl (by simp)
theorem Length.cLw {rd} {rs1} {imm} : Length.Statement (.cLw rd rs1 imm) :=
  length_half rfl (by simp)
theorem Length.cFlw {rd} {rs1} {imm} : Length.Statement (.cFlw rd rs1 imm) :=
  length_half rfl (by simp)
theorem Length.cFsd {rs2} {rs1} {imm} : Length.Statement (.cFsd rs2 rs1 imm) :=
  length_half rfl (by simp)
theorem Length.cSw {rs2} {rs1} {imm} : Length.Statement (.cSw rs2 rs1 imm) :=
  length_half rfl (by simp)
theorem Length.cFsw {rs2} {rs1} {imm} : Length.Statement (.cFsw rs2 rs1 imm) :=
  length_half rfl (by simp)
theorem Length.cNop {imm} : Length.Statement (.cNop imm) :=
  length_half rfl (by simp)
theorem Length.cAddi {rd} {imm} : Length.Statement (.cAddi rd imm) :=
  length_half rfl (by simp)
theorem Length.cJal {off} : Length.Statement (.cJal off) :=
  length_half rfl (by simp)
theorem Length.cLi {rd} {imm} : Length.Statement (.cLi rd imm) :=
  length_half rfl (by simp)
theorem Length.cAddi16sp {imm} : Length.Statement (.cAddi16sp imm) :=
  length_half rfl (by simp)
theorem Length.cLui {rd} {imm} : Length.Statement (.cLui rd imm) :=
  length_half rfl (by simp)
theorem Length.cSrli {rd} {shamt} : Length.Statement (.cSrli rd shamt) :=
  length_half rfl (by simp)
theorem Length.cSrai {rd} {shamt} : Length.Statement (.cSrai rd shamt) :=
  length_half rfl (by simp)
theorem Length.cAndi {rd} {imm} : Length.Statement (.cAndi rd imm) :=
  length_half rfl (by simp)
theorem Length.cSub {rd} {rs2} : Length.Statement (.cSub rd rs2) :=
  length_half rfl (by simp)
theorem Length.cXor {rd} {rs2} : Length.Statement (.cXor rd rs2) :=
  length_half rfl (by simp)
theorem Length.cOr {rd} {rs2} : Length.Statement (.cOr rd rs2) :=
  length_half rfl (by simp)
theorem Length.cAnd {rd} {rs2} : Length.Statement (.cAnd rd rs2) :=
  length_half rfl (by simp)
theorem Length.cJ {off} : Length.Statement (.cJ off) :=
  length_half rfl (by simp)
theorem Length.cBeqz {rs1} {off} : Length.Statement (.cBeqz rs1 off) :=
  length_half rfl (by simp)
theorem Length.cBnez {rs1} {off} : Length.Statement (.cBnez rs1 off) :=
  length_half rfl (by simp)
theorem Length.cSlli {rd} {shamt} : Length.Statement (.cSlli rd shamt) :=
  length_half rfl (by simp)
theorem Length.cFldsp {rd} {imm} : Length.Statement (.cFldsp rd imm) :=
  length_half rfl (by simp)
theorem Length.cLwsp {rd} {imm} : Length.Statement (.cLwsp rd imm) :=
  length_half rfl (by simp)
theorem Length.cFlwsp {rd} {imm} : Length.Statement (.cFlwsp rd imm) :=
  length_half rfl (by simp)
theorem Length.cJr {rs1} : Length.Statement (.cJr rs1) :=
  length_half rfl (by simp)
theorem Length.cMv {rd} {rs2} : Length.Statement (.cMv rd rs2) :=
  length_half rfl (by simp)
theorem Length.cEbreak : Length.Statement .cEbreak :=
  length_half rfl (by simp)
theorem Length.cJalr {rs1} : Length.Statement (.cJalr rs1) :=
  length_half rfl (by simp)
theorem Length.cAdd {rd} {rs2} : Length.Statement (.cAdd rd rs2) :=
  length_half rfl (by simp)
theorem Length.cFsdsp {rs2} {imm} : Length.Statement (.cFsdsp rs2 imm) :=
  length_half rfl (by simp)
theorem Length.cSwsp {rs2} {imm} : Length.Statement (.cSwsp rs2 imm) :=
  length_half rfl (by simp)
theorem Length.cFswsp {rs2} {imm} : Length.Statement (.cFswsp rs2 imm) :=
  length_half rfl (by simp)
theorem Length.lrW {rd} {rs1} {aq} {rl} : Length.Statement (.lrW rd rs1 aq rl) :=
  length_word rfl (by simp) (by simp)
theorem Length.scW {rd} {rs1} {rs2} {aq} {rl} : Length.Statement (.scW rd rs1 rs2 aq rl) :=
  length_word rfl (by simp) (by simp)
theorem Length.amoswapW {rd} {rs1} {rs2} {aq} {rl} : Length.Statement (.amoswapW rd rs1 rs2 aq rl) :=
  length_word rfl (by simp) (by simp)
theorem Length.amoaddW {rd} {rs1} {rs2} {aq} {rl} : Length.Statement (.amoaddW rd rs1 rs2 aq rl) :=
  length_word rfl (by simp) (by simp)
theorem Length.amoxorW {rd} {rs1} {rs2} {aq} {rl} : Length.Statement (.amoxorW rd rs1 rs2 aq rl) :=
  length_word rfl (by simp) (by simp)
theorem Length.amoandW {rd} {rs1} {rs2} {aq} {rl} : Length.Statement (.amoandW rd rs1 rs2 aq rl) :=
  length_word rfl (by simp) (by simp)
theorem Length.amoorW {rd} {rs1} {rs2} {aq} {rl} : Length.Statement (.amoorW rd rs1 rs2 aq rl) :=
  length_word rfl (by simp) (by simp)
theorem Length.amominW {rd} {rs1} {rs2} {aq} {rl} : Length.Statement (.amominW rd rs1 rs2 aq rl) :=
  length_word rfl (by simp) (by simp)
theorem Length.amomaxW {rd} {rs1} {rs2} {aq} {rl} : Length.Statement (.amomaxW rd rs1 rs2 aq rl) :=
  length_word rfl (by simp) (by simp)
theorem Length.amominuW {rd} {rs1} {rs2} {aq} {rl} : Length.Statement (.amominuW rd rs1 rs2 aq rl) :=
  length_word rfl (by simp) (by simp)
theorem Length.amomaxuW {rd} {rs1} {rs2} {aq} {rl} : Length.Statement (.amomaxuW rd rs1 rs2 aq rl) :=
  length_word rfl (by simp) (by simp)
theorem Length.flw {rd} {rs1} {imm} : Length.Statement (.flw rd rs1 imm) :=
  length_word rfl (by simp) (by simp)
theorem Length.fsw {rs2} {rs1} {imm} : Length.Statement (.fsw rs2 rs1 imm) :=
  length_word rfl (by simp) (by simp)
theorem Length.fmaddS {rd} {rs1} {rs2} {rs3} {rm} : Length.Statement (.fmaddS rd rs1 rs2 rs3 rm) :=
  length_word rfl (by simp) (by simp)
theorem Length.fmsubS {rd} {rs1} {rs2} {rs3} {rm} : Length.Statement (.fmsubS rd rs1 rs2 rs3 rm) :=
  length_word rfl (by simp) (by simp)
theorem Length.fnmsubS {rd} {rs1} {rs2} {rs3} {rm} : Length.Statement (.fnmsubS rd rs1 rs2 rs3 rm) :=
  length_word rfl (by simp) (by simp)
theorem Length.fnmaddS {rd} {rs1} {rs2} {rs3} {rm} : Length.Statement (.fnmaddS rd rs1 rs2 rs3 rm) :=
  length_word rfl (by simp) (by simp)
theorem Length.faddS {rd} {rs1} {rs2} {rm} : Length.Statement (.faddS rd rs1 rs2 rm) :=
  length_word rfl (by simp) (by simp)
theorem Length.fsubS {rd} {rs1} {rs2} {rm} : Length.Statement (.fsubS rd rs1 rs2 rm) :=
  length_word rfl (by simp) (by simp)
theorem Length.fmulS {rd} {rs1} {rs2} {rm} : Length.Statement (.fmulS rd rs1 rs2 rm) :=
  length_word rfl (by simp) (by simp)
theorem Length.fdivS {rd} {rs1} {rs2} {rm} : Length.Statement (.fdivS rd rs1 rs2 rm) :=
  length_word rfl (by simp) (by simp)
theorem Length.fsqrtS {rd} {rs1} {rm} : Length.Statement (.fsqrtS rd rs1 rm) :=
  length_word rfl (by simp) (by simp)
theorem Length.fsgnjS {rd} {rs1} {rs2} : Length.Statement (.fsgnjS rd rs1 rs2) :=
  length_word rfl (by simp) (by simp)
theorem Length.fsgnjnS {rd} {rs1} {rs2} : Length.Statement (.fsgnjnS rd rs1 rs2) :=
  length_word rfl (by simp) (by simp)
theorem Length.fsgnjxS {rd} {rs1} {rs2} : Length.Statement (.fsgnjxS rd rs1 rs2) :=
  length_word rfl (by simp) (by simp)
theorem Length.fminS {rd} {rs1} {rs2} : Length.Statement (.fminS rd rs1 rs2) :=
  length_word rfl (by simp) (by simp)
theorem Length.fmaxS {rd} {rs1} {rs2} : Length.Statement (.fmaxS rd rs1 rs2) :=
  length_word rfl (by simp) (by simp)
theorem Length.fcvtWS {rd} {rs1} {rm} : Length.Statement (.fcvtWS rd rs1 rm) :=
  length_word rfl (by simp) (by simp)
theorem Length.fcvtWuS {rd} {rs1} {rm} : Length.Statement (.fcvtWuS rd rs1 rm) :=
  length_word rfl (by simp) (by simp)
theorem Length.fmvXW {rd} {rs1} : Length.Statement (.fmvXW rd rs1) :=
  length_word rfl (by simp) (by simp)
theorem Length.feqS {rd} {rs1} {rs2} : Length.Statement (.feqS rd rs1 rs2) :=
  length_word rfl (by simp) (by simp)
theorem Length.fltS {rd} {rs1} {rs2} : Length.Statement (.fltS rd rs1 rs2) :=
  length_word rfl (by simp) (by simp)
theorem Length.fleS {rd} {rs1} {rs2} : Length.Statement (.fleS rd rs1 rs2) :=
  length_word rfl (by simp) (by simp)
theorem Length.fclassS {rd} {rs1} : Length.Statement (.fclassS rd rs1) :=
  length_word rfl (by simp) (by simp)
theorem Length.fcvtSW {rd} {rs1} {rm} : Length.Statement (.fcvtSW rd rs1 rm) :=
  length_word rfl (by simp) (by simp)
theorem Length.fcvtSWu {rd} {rs1} {rm} : Length.Statement (.fcvtSWu rd rs1 rm) :=
  length_word rfl (by simp) (by simp)
theorem Length.fmvWX {rd} {rs1} : Length.Statement (.fmvWX rd rs1) :=
  length_word rfl (by simp) (by simp)
theorem Length.fld {rd} {rs1} {imm} : Length.Statement (.fld rd rs1 imm) :=
  length_word rfl (by simp) (by simp)
theorem Length.fsd {rs2} {rs1} {imm} : Length.Statement (.fsd rs2 rs1 imm) :=
  length_word rfl (by simp) (by simp)
theorem Length.fmaddD {rd} {rs1} {rs2} {rs3} {rm} : Length.Statement (.fmaddD rd rs1 rs2 rs3 rm) :=
  length_word rfl (by simp) (by simp)
theorem Length.fmsubD {rd} {rs1} {rs2} {rs3} {rm} : Length.Statement (.fmsubD rd rs1 rs2 rs3 rm) :=
  length_word rfl (by simp) (by simp)
theorem Length.fnmsubD {rd} {rs1} {rs2} {rs3} {rm} : Length.Statement (.fnmsubD rd rs1 rs2 rs3 rm) :=
  length_word rfl (by simp) (by simp)
theorem Length.fnmaddD {rd} {rs1} {rs2} {rs3} {rm} : Length.Statement (.fnmaddD rd rs1 rs2 rs3 rm) :=
  length_word rfl (by simp) (by simp)
theorem Length.faddD {rd} {rs1} {rs2} {rm} : Length.Statement (.faddD rd rs1 rs2 rm) :=
  length_word rfl (by simp) (by simp)
theorem Length.fsubD {rd} {rs1} {rs2} {rm} : Length.Statement (.fsubD rd rs1 rs2 rm) :=
  length_word rfl (by simp) (by simp)
theorem Length.fmulD {rd} {rs1} {rs2} {rm} : Length.Statement (.fmulD rd rs1 rs2 rm) :=
  length_word rfl (by simp) (by simp)
theorem Length.fdivD {rd} {rs1} {rs2} {rm} : Length.Statement (.fdivD rd rs1 rs2 rm) :=
  length_word rfl (by simp) (by simp)
theorem Length.fsqrtD {rd} {rs1} {rm} : Length.Statement (.fsqrtD rd rs1 rm) :=
  length_word rfl (by simp) (by simp)
theorem Length.fsgnjD {rd} {rs1} {rs2} : Length.Statement (.fsgnjD rd rs1 rs2) :=
  length_word rfl (by simp) (by simp)
theorem Length.fsgnjnD {rd} {rs1} {rs2} : Length.Statement (.fsgnjnD rd rs1 rs2) :=
  length_word rfl (by simp) (by simp)
theorem Length.fsgnjxD {rd} {rs1} {rs2} : Length.Statement (.fsgnjxD rd rs1 rs2) :=
  length_word rfl (by simp) (by simp)
theorem Length.fminD {rd} {rs1} {rs2} : Length.Statement (.fminD rd rs1 rs2) :=
  length_word rfl (by simp) (by simp)
theorem Length.fmaxD {rd} {rs1} {rs2} : Length.Statement (.fmaxD rd rs1 rs2) :=
  length_word rfl (by simp) (by simp)
theorem Length.fcvtSD {rd} {rs1} {rm} : Length.Statement (.fcvtSD rd rs1 rm) :=
  length_word rfl (by simp) (by simp)
theorem Length.fcvtDS {rd} {rs1} {rm} : Length.Statement (.fcvtDS rd rs1 rm) :=
  length_word rfl (by simp) (by simp)
theorem Length.feqD {rd} {rs1} {rs2} : Length.Statement (.feqD rd rs1 rs2) :=
  length_word rfl (by simp) (by simp)
theorem Length.fltD {rd} {rs1} {rs2} : Length.Statement (.fltD rd rs1 rs2) :=
  length_word rfl (by simp) (by simp)
theorem Length.fleD {rd} {rs1} {rs2} : Length.Statement (.fleD rd rs1 rs2) :=
  length_word rfl (by simp) (by simp)
theorem Length.fclassD {rd} {rs1} : Length.Statement (.fclassD rd rs1) :=
  length_word rfl (by simp) (by simp)
theorem Length.fcvtWD {rd} {rs1} {rm} : Length.Statement (.fcvtWD rd rs1 rm) :=
  length_word rfl (by simp) (by simp)
theorem Length.fcvtWuD {rd} {rs1} {rm} : Length.Statement (.fcvtWuD rd rs1 rm) :=
  length_word rfl (by simp) (by simp)
theorem Length.fcvtDW {rd} {rs1} {rm} : Length.Statement (.fcvtDW rd rs1 rm) :=
  length_word rfl (by simp) (by simp)
theorem Length.fcvtDWu {rd} {rs1} {rm} : Length.Statement (.fcvtDWu rd rs1 rm) :=
  length_word rfl (by simp) (by simp)
theorem Length.csrrw {rd} {csr} {rs1} : Length.Statement (.csrrw rd csr rs1) :=
  length_word rfl (by simp) (by simp)
theorem Length.csrrs {rd} {csr} {rs1} : Length.Statement (.csrrs rd csr rs1) :=
  length_word rfl (by simp) (by simp)
theorem Length.csrrc {rd} {csr} {rs1} : Length.Statement (.csrrc rd csr rs1) :=
  length_word rfl (by simp) (by simp)
theorem Length.csrrwi {rd} {csr} {uimm} : Length.Statement (.csrrwi rd csr uimm) :=
  length_word rfl (by simp) (by simp)
theorem Length.csrrsi {rd} {csr} {uimm} : Length.Statement (.csrrsi rd csr uimm) :=
  length_word rfl (by simp) (by simp)
theorem Length.csrrci {rd} {csr} {uimm} : Length.Statement (.csrrci rd csr uimm) :=
  length_word rfl (by simp) (by simp)
theorem Length.ebreak : Length.Statement .ebreak :=
  length_word rfl (by simp) (by simp)
theorem Length.ecall : Length.Statement .ecall :=
  length_word rfl (by simp) (by simp)
theorem Length.mret : Length.Statement .mret :=
  length_word rfl (by simp) (by simp)
theorem Length.wfi : Length.Statement .wfi :=
  length_word rfl (by simp) (by simp)

end Sys2Proof.Laws
end

