-- ==== Sys2Proof/Laws/Rounding.lean ====
section
/-! SUPPORT. What rounding to an integer multiple of a power of two gives, how an encoding is read back, the integer square root, and why one sticky bit is enough. -/

namespace Sys2Proof.Machine

/-- The rounded integer is less than 1 away. -/
theorem roundsToInt_close {rm : RMode} {u : ℝ} {k : ℤ} (h : RoundsToInt rm u k) : |u - k| < 1 := by
  rw [abs_lt]
  cases rm with
  | rne => have := abs_le.1 h.1; constructor <;> linarith
  | rtz =>
    rcases lt_or_ge u 0 with hu | hu
    · have := h.2 hu; constructor <;> linarith
    · have := h.1 hu; constructor <;> linarith
  | rdn => have := h.1; have := h.2; constructor <;> linarith
  | rup => have := h.1; have := h.2; constructor <;> linarith
  | rmm => have := abs_le.1 h.1; constructor <;> linarith

theorem roundsToInt_not_lt {rm : RMode} {u : ℝ} {k j : ℤ} (h : RoundsToInt rm u k) (g : RoundsToInt rm u j) :
    ¬ k < j := by
  intro hkj
  have hj : k + 1 ≤ j := hkj
  have hj' : (k : ℝ) + 1 ≤ j := by exact_mod_cast hj
  cases rm with
  | rne =>
    have a := abs_le.1 h.1; have b := abs_le.1 g.1
    have e1 : u - k = 1/2 := by linarith
    have e2 : u - j = -(1/2) := by linarith
    have p1 := h.2 (by rw [e1]; norm_num)
    have p2 := g.2 (by rw [e2]; norm_num)
    have : (j : ℝ) = k + 1 := by linarith
    have : j = k + 1 := by exact_mod_cast this
    omega
  | rtz =>
    rcases lt_or_ge u 0 with hu | hu
    · have a := h.2 hu; have b := g.2 hu; linarith
    · have a := h.1 hu; have b := g.1 hu; linarith
  | rdn => have a := h.2; have b := g.1; linarith
  | rup => have a := h.1; have b := g.2; linarith
  | rmm =>
    have a := abs_le.1 h.1; have b := abs_le.1 g.1
    have e1 : u - k = 1/2 := by linarith
    have e2 : u - j = -(1/2) := by linarith
    have p1 := h.2 (by rw [e1]; norm_num)
    have p2 := g.2 (by rw [e2]; norm_num)
    have ej : (j : ℝ) = k + 1 := by linarith
    have eu : u = k + 1/2 := by linarith
    rw [ej, eu] at p2
    rw [eu] at p1
    rcases le_or_gt 0 k with hk | hk
    · have : (0:ℝ) ≤ k := by exact_mod_cast hk
      rw [abs_of_nonneg this, abs_of_nonneg (by linarith)] at p1; linarith
    · have hk' : k + 1 ≤ 0 := hk
      have : (k:ℝ) + 1 ≤ 0 := by exact_mod_cast hk'
      rw [abs_of_nonpos this, abs_of_nonpos (by linarith)] at p2; linarith

/-- There is one rounded integer. -/
theorem roundsToInt_unique {rm : RMode} {u : ℝ} {k j : ℤ} (h : RoundsToInt rm u k) (g : RoundsToInt rm u j) :
    k = j := by
  have := roundsToInt_not_lt h g; have := roundsToInt_not_lt g h; omega

/-- The sign as a factor. -/
def signReal (neg : Bool) : ℝ := if neg then -1 else 1

/-- The sign as a factor. -/
def signInt (neg : Bool) : ℤ := if neg then -1 else 1

/-- Rounding a whole number and a fraction. -/
theorem roundsToInt_frac (rm : RMode) (neg : Bool) (k : ℕ) (t : ℝ) (h0 : 0 ≤ t) (h1 : t < 1) (up : Bool)
    (hup : up = true ↔ match rm with
      | .rne => 1/2 < t ∨ (t = 1/2 ∧ k % 2 = 1)
      | .rtz => False
      | .rdn => neg = true ∧ t ≠ 0
      | .rup => neg = false ∧ t ≠ 0
      | .rmm => 1/2 ≤ t) :
    RoundsToInt rm (signReal neg * (k + t)) (signInt neg * (if up then k + 1 else k : ℕ)) := by
  have hk : (0:ℝ) ≤ k := Nat.cast_nonneg k
  have ht : t ≠ 0 ↔ 0 < t := ⟨fun h => lt_of_le_of_ne h0 (Ne.symm h), fun h => ne_of_gt h⟩
  have key : ∀ K : ℕ, |signReal neg * (k + t) - ((signInt neg * (K : ℤ) : ℤ) : ℝ)| = |(k : ℝ) + t - K| := by
    intro K
    cases neg
    · simp [signReal, signInt]
    · simp only [signReal, signInt, if_true]; push_cast
      rw [← abs_neg]; congr 1; ring
  cases rm with
  | rne =>
    simp only at hup
    show |_| ≤ _ ∧ (|_| = _ → _)
    rw [key]
    cases hc : up
    · have : ¬ (1/2 < t ∨ (t = 1/2 ∧ k % 2 = 1)) := fun h => by rw [hup.2 h] at hc; cases hc
      push Not at this
      simp only [Bool.false_eq_true, if_false]
      rw [show (k:ℝ) + t - k = t by ring, abs_of_nonneg h0]
      refine ⟨this.1, fun h => ?_⟩
      have := this.2 h
      cases neg <;> simp [signInt] <;> omega
    · have := hup.1 hc
      simp only [if_true]
      rw [show (k:ℝ) + t - (k+1 : ℕ) = -(1 - t) by push_cast; ring, abs_neg, abs_of_nonneg (by linarith)]
      refine ⟨by rcases this with h | h <;> linarith [h], fun h => ?_⟩
      have ht2 : t = 1/2 := by linarith
      rcases this with h | h
      · linarith
      · have := h.2
        cases neg <;> simp [signInt] <;> omega
  | rtz =>
    simp only at hup
    have hc : up = false := by simpa using hup
    rw [hc]
    simp only [Bool.false_eq_true, if_false]
    cases neg
    · simp only [signReal, signInt, Bool.false_eq_true, if_false, one_mul]
      exact ⟨fun _ => ⟨by push_cast; linarith, by push_cast; linarith⟩, fun h => by exfalso; linarith⟩
    · simp only [signReal, signInt, if_true]
      refine ⟨fun h => ?_, fun h => ⟨by push_cast; linarith, by push_cast; linarith⟩⟩
      have e1 : (k:ℝ) = 0 := by linarith
      have e2 : t = 0 := by linarith
      push_cast; constructor <;> linarith
  | rdn =>
    simp only at hup
    cases neg
    · have hc : up = false := by simpa using hup
      rw [hc]
      simp only [signReal, signInt, Bool.false_eq_true, if_false, one_mul]
      exact ⟨by push_cast; linarith, by push_cast; linarith⟩
    · simp only [true_and, ht] at hup
      simp only [signReal, signInt, if_true]
      cases hc : up
      · have : ¬ 0 < t := fun h => by rw [hup.2 h] at hc; cases hc
        simp only [Bool.false_eq_true, if_false]
        exact ⟨by push_cast; linarith, by push_cast; linarith⟩
      · have := hup.1 hc
        simp only [if_true]
        exact ⟨by push_cast; linarith, by push_cast; linarith⟩
  | rup =>
    simp only at hup
    cases neg
    · simp only [true_and, ht] at hup
      simp only [signReal, signInt, Bool.false_eq_true, if_false, one_mul]
      cases hc : up
      · have : ¬ 0 < t := fun h => by rw [hup.2 h] at hc; cases hc
        simp only [Bool.false_eq_true, if_false]
        exact ⟨by push_cast; linarith, by push_cast; linarith⟩
      · have := hup.1 hc
        simp only [if_true]
        exact ⟨by push_cast; linarith, by push_cast; linarith⟩
    · have hc : up = false := by simpa using hup
      rw [hc]
      simp only [signReal, signInt, if_true, Bool.false_eq_true, if_false]
      exact ⟨by push_cast; linarith, by push_cast; linarith⟩
  | rmm =>
    simp only at hup
    show |_| ≤ _ ∧ (|_| = _ → _)
    rw [key]
    cases hc : up
    · have : ¬ (1/2 ≤ t) := fun h => by rw [hup.2 h] at hc; cases hc
      push Not at this
      simp only [Bool.false_eq_true, if_false]
      rw [show (k:ℝ) + t - k = t by ring, abs_of_nonneg h0]
      exact ⟨by linarith, fun h => by linarith⟩
    · have := hup.1 hc
      simp only [if_true]
      rw [show (k:ℝ) + t - (k+1 : ℕ) = -(1 - t) by push_cast; ring, abs_neg, abs_of_nonneg (by linarith)]
      refine ⟨by linarith, fun h => ?_⟩
      have e1 : |signReal neg * (k + t)| = k + t := by
        rw [abs_mul, abs_of_nonneg (by linarith : (0:ℝ) ≤ k + t)]; cases neg <;> simp [signReal]
      have e2 : |((signInt neg * ((k+1 : ℕ) : ℤ) : ℤ) : ℝ)| = k + 1 := by
        push_cast; rw [abs_mul, abs_of_nonneg (by linarith : (0:ℝ) ≤ k + 1)]; cases neg <;> simp [signInt]
      rw [e1, e2]; linarith

/-- `roundShift` rounds `m / 2^s` and says whether that is inexact. -/
theorem roundShift_rounds (rm : RMode) (neg : Bool) (m s : ℕ) :
    RoundsToInt rm (signReal neg * ((m : ℝ) / 2 ^ s)) (signInt neg * ((roundShift rm neg m s).1 : ℤ)) ∧
    ((roundShift rm neg m s).2 = true ↔ ((roundShift rm neg m s).1 : ℝ) ≠ (m : ℝ) / 2 ^ s) := by
  have hp : (0:ℝ) < 2 ^ s := by positivity
  have hdm := Nat.div_add_mod m (2 ^ s)
  have hmod := Nat.mod_lt m (show 0 < 2 ^ s by positivity)
  set k := m / 2 ^ s with hk
  set r := m % 2 ^ s with hr
  have hmr : (m : ℝ) / 2 ^ s = k + r / 2 ^ s := by
    have : (m : ℝ) = 2 ^ s * k + r := by exact_mod_cast hdm.symm
    rw [this]; field_simp
  have hrr : (r : ℝ) < 2 ^ s := by exact_mod_cast hmod
  have t0 : (0:ℝ) ≤ r / 2 ^ s := by positivity
  have t1 : (r:ℝ) / 2 ^ s < 1 := by rw [div_lt_one hp]; exact hrr
  have th : (1/2 : ℝ) < r / 2 ^ s ↔ 2 ^ s < 2 * r := by
    rw [lt_div_iff₀ hp, ← Nat.cast_lt (α := ℝ)]; push_cast; constructor <;> intro h <;> linarith
  have tl : (1/2 : ℝ) ≤ r / 2 ^ s ↔ 2 ^ s ≤ 2 * r := by
    rw [le_div_iff₀ hp, ← Nat.cast_le (α := ℝ)]; push_cast; constructor <;> intro h <;> linarith
  have te : (r:ℝ) / 2 ^ s = 1/2 ↔ 2 * r = 2 ^ s := by
    rw [div_eq_iff (ne_of_gt hp), ← Nat.cast_inj (R := ℝ)]; push_cast; constructor <;> intro h <;> linarith
  have tz : (r:ℝ) / 2 ^ s ≠ 0 ↔ r ≠ 0 := by
    rw [Ne, div_eq_zero_iff]; simp [ne_of_gt hp]
  have hs : m >>> s = k := Nat.shiftRight_eq_div_pow m s
  have e : (roundShift rm neg m s).1 = if roundsUp rm neg k r s then k + 1 else k := by
    simp only [roundShift, hs, ← hr]
  have e2 : (roundShift rm neg m s).2 = (r != 0) := rfl
  rw [e, e2, hmr]
  constructor
  · apply roundsToInt_frac rm neg k _ t0 t1
    cases rm <;> simp only [roundsUp, th, te, tl, tz] <;> simp
  · have hk0 : (0:ℝ) ≤ k := Nat.cast_nonneg k
    rw [bne_iff_ne, ← tz]
    constructor
    · intro h heq
      have hp' : 0 < (r:ℝ) / 2 ^ s := lt_of_le_of_ne t0 (Ne.symm h)
      split at heq
      · push_cast at heq; linarith
      · linarith
    · intro h hz
      have hr0 : r = 0 := by by_contra hc; exact (tz.2 hc) hz
      apply h
      have : roundsUp rm neg k r s = false := by
        have hp2 : 2 ^ s ≠ 0 := by positivity
        rw [hr0]; cases rm <;> simp [roundsUp]; intro h; exact absurd h.symm hp2
      rw [this, hz]; simp

theorem two_zpow_toNat (d : ℤ) (h : 0 ≤ d) : (2:ℝ) ^ d = 2 ^ d.toNat := by
  conv_lhs => rw [← Int.toNat_of_nonneg h]
  exact zpow_natCast _ _

theorem roundsToInt_int (rm : RMode) (k : ℤ) : RoundsToInt rm (k : ℝ) k := by
  have h12 : ¬ ((0:ℝ) = 1/2) := by norm_num
  cases rm with
  | rne => exact ⟨by simp, fun h => absurd (by simp at h) h12⟩
  | rtz => exact ⟨fun _ => ⟨le_refl _, by linarith⟩, fun _ => ⟨le_refl _, by linarith⟩⟩
  | rdn => exact ⟨le_refl _, by linarith⟩
  | rup => exact ⟨le_refl _, by linarith⟩
  | rmm => exact ⟨by simp, fun h => absurd (by simp at h) h12⟩

/-- `roundAt` rounds `m * 2^e` to a multiple of `2^q` and says whether that is inexact. -/
theorem roundAt_rounds (rm : RMode) (neg : Bool) (m : ℕ) (e q : ℤ) :
    RoundsToInt rm (signReal neg * ((m : ℝ) * 2 ^ e / 2 ^ q)) (signInt neg * ((roundAt rm neg m e q).1 : ℤ)) ∧
    ((roundAt rm neg m e q).2 = true ↔ ((roundAt rm neg m e q).1 : ℝ) ≠ (m : ℝ) * 2 ^ e / 2 ^ q) := by
  have hd : (m : ℝ) * 2 ^ e / 2 ^ q = m * 2 ^ (e - q) := by
    rw [zpow_sub₀ (by norm_num)]; ring
  rw [hd]
  unfold roundAt
  split
  · rename_i h
    have : (m : ℝ) * 2 ^ (e - q) = (m <<< (e - q).toNat : ℕ) := by
      rw [two_zpow_toNat _ (by omega), Nat.shiftLeft_eq]; push_cast; rfl
    rw [this]
    refine ⟨?_, by simp⟩
    have := roundsToInt_int rm (signInt neg * ((m <<< (e - q).toNat : ℕ) : ℤ))
    generalize m <<< (e - q).toNat = M at this ⊢
    have e3 : signReal neg * (M : ℝ) = ((signInt neg * (M : ℤ) : ℤ) : ℝ) := by
      cases neg <;> simp [signReal, signInt]
    rw [e3]; exact this
  · rename_i h
    have : (m : ℝ) * 2 ^ (e - q) = m / 2 ^ (q - e).toNat := by
      rw [← two_zpow_toNat _ (by omega), show e - q = -(q - e) by ring, zpow_neg]; rfl
    rw [this]
    exact roundShift_rounds rm neg m _

/-- Reading an encoding made of a sign and magnitude bits. -/
theorem unpack_signBits {f : FFmt} (hf : f = fmtS ∨ f = fmtD) (neg : Bool) (n : ℕ)
    (hn : n < 2 ^ (f.expBits + f.fracBits)) :
    f.unpack (f.signBits neg + n) =
      if n / 2 ^ f.fracBits = 2 ^ f.expBits - 1 then
        if n % 2 ^ f.fracBits = 0 then .inf neg else .nan (!(n % 2 ^ f.fracBits).testBit (f.fracBits - 1))
      else if n / 2 ^ f.fracBits = 0 then .fin neg (n % 2 ^ f.fracBits) f.qMin
      else .fin neg (n % 2 ^ f.fracBits + 2 ^ f.fracBits) (f.qMin + (n / 2 ^ f.fracBits - 1 : Nat)) := by
  have h1 : (f.signBits neg + n) % 2 ^ f.fracBits = n % 2 ^ f.fracBits := by
    rcases hf with rfl | rfl <;> cases neg <;> simp [FFmt.signBits, fmtS, fmtD] <;> omega
  have h2 : (f.signBits neg + n) >>> f.fracBits % 2 ^ f.expBits = n / 2 ^ f.fracBits := by
    rw [Nat.shiftRight_eq_div_pow]
    rcases hf with rfl | rfl <;> cases neg <;> simp [FFmt.signBits, fmtS, fmtD] at hn ⊢ <;> omega
  have h3 : (f.signBits neg + n).testBit (f.expBits + f.fracBits) = neg := by
    rw [Nat.testBit_eq_decide_div_mod_eq]
    rcases hf with rfl | rfl <;> cases neg <;> simp [FFmt.signBits, fmtS, fmtD] at hn ⊢ <;> omega
  unfold FFmt.unpack
  simp only [h1, h2, h3]

/-- Reading back an encoding of `K * 2^(qMin + d)`, a carry into the exponent included. -/
theorem unpack_encoding {f : FFmt} (hf : f = fmtS ∨ f = fmtD) (neg : Bool) (d K : ℕ)
    (h : d * 2 ^ f.fracBits + K < f.infBits)
    (hK : K ≤ 2 ^ (f.fracBits + 1)) (hd : d = 0 ∨ 2 ^ f.fracBits ≤ K) :
    ∃ m e, f.unpack (f.signBits neg + (d * 2 ^ f.fracBits + K)) = .fin neg m e ∧ (m : ℝ) * 2 ^ e = K * 2 ^ (f.qMin + d) := by
  have hinf : f.infBits = (2 ^ f.expBits - 1) * 2 ^ f.fracBits := by unfold FFmt.infBits; rw [Nat.shiftLeft_eq]
  have hn : d * 2 ^ f.fracBits + K < 2 ^ (f.expBits + f.fracBits) := by
    rw [hinf] at h
    rcases hf with rfl | rfl <;> simp [fmtS, fmtD] at h ⊢ <;> omega
  rw [unpack_signBits hf neg _ hn]
  have h2 : (2:ℝ) ≠ 0 := by norm_num
  set P := 2 ^ f.fracBits with hP
  have hPp : 0 < P := by positivity
  have hK' : K ≤ 2 * P := by rw [pow_succ] at hK; omega
  have hne : ¬ (d * P + K) / P = 2 ^ f.expBits - 1 := by
    rw [hinf] at h
    have := (Nat.div_lt_iff_lt_mul hPp).2 h
    omega
  rw [if_neg hne]
  have hq : (d * P + K) / P = d + K / P := by rw [Nat.add_comm, Nat.add_mul_div_right _ _ hPp, Nat.add_comm]
  have hr : (d * P + K) % P = K % P := by rw [Nat.add_comm, Nat.add_mul_mod_self_right]
  rw [hq, hr]
  rcases lt_trichotomy K P with hlt | heq | hgt
  · have hd0 : d = 0 := by rcases hd with h | h <;> omega
    rw [if_pos (by rw [hd0, Nat.div_eq_of_lt hlt]), Nat.mod_eq_of_lt hlt]
    exact ⟨_, _, rfl, by rw [hd0]; simp⟩
  · rw [heq, Nat.div_self hPp, Nat.mod_self, if_neg (by omega)]
    refine ⟨_, _, rfl, ?_⟩
    simp
  · rcases eq_or_lt_of_le hK' with h2P | h2P
    · rw [h2P, Nat.mul_div_cancel _ hPp, Nat.mul_mod_left, if_neg (by omega)]
      refine ⟨_, _, rfl, ?_⟩
      have : (d + 2 - 1 : ℕ) = d + 1 := by omega
      rw [this]
      push_cast
      rw [show f.qMin + (↑d + 1) = f.qMin + ↑d + 1 by ring, zpow_add_one₀ h2]
      ring
    · have hk1 : K / P = 1 := by
        apply Nat.div_eq_of_lt_le <;> omega
      have hk2 : K % P = K - P := by
        have := Nat.div_add_mod K P; rw [hk1] at this; omega
      rw [hk1, hk2, if_neg (by omega)]
      refine ⟨_, _, rfl, ?_⟩
      have : K - P + P = K := by omega
      rw [this, show d + 1 - 1 = d by omega]

/-- When an encoding reaches that of infinity. -/
theorem overflow_iff {f : FFmt} (hf : f = fmtS ∨ f = fmtD) {d K : ℕ} (hK : K ≤ 2 ^ (f.fracBits + 1))
    (hd : d = 0 ∨ 2 ^ f.fracBits ≤ K) :
    f.infBits ≤ d * 2 ^ f.fracBits + K ↔ 2 ^ (f.fracBits + (2 ^ f.expBits - 2)) ≤ K * 2 ^ d := by
  have hinf : f.infBits = (2 ^ f.expBits - 1) * 2 ^ f.fracBits := by unfold FFmt.infBits; rw [Nat.shiftLeft_eq]
  have hE : 8 ≤ 2 ^ f.expBits := by rcases hf with rfl | rfl <;> simp [fmtS, fmtD]
  rw [hinf]
  generalize 2 ^ f.expBits = E at *
  generalize f.fracBits = F at *
  have hP : 0 < 2 ^ F := by positivity
  have hK2 : K ≤ 2 * 2 ^ F := by rw [pow_succ] at hK; omega
  constructor
  · intro h
    have hd1 : E - 3 ≤ d := by
      by_contra hc
      have : d + 1 ≤ E - 3 := by omega
      have : (d + 1) * 2 ^ F ≤ (E - 3) * 2 ^ F := Nat.mul_le_mul_right _ this
      have e1 : (E - 1) * 2 ^ F = (E - 3) * 2 ^ F + 2 * 2 ^ F := by rw [← Nat.add_mul]; congr 1; omega
      rw [Nat.add_mul] at this
      omega
    rcases Nat.eq_or_lt_of_le hd1 with hh | hh
    · have e1 : (E - 1) * 2 ^ F = (E - 3) * 2 ^ F + 2 * 2 ^ F := by rw [← Nat.add_mul]; congr 1; omega
      rw [← hh] at h ⊢
      have : 2 * 2 ^ F ≤ K := by omega
      calc 2 ^ (F + (E - 2)) = (2 * 2 ^ F) * 2 ^ (E - 3) := by rw [show F + (E - 2) = 1 + F + (E - 3) by omega, pow_add, pow_add, pow_one]
        _ ≤ K * 2 ^ (E - 3) := Nat.mul_le_mul_right _ this
    · have hPK : 2 ^ F ≤ K := by rcases hd with h | h; omega; exact h
      rw [pow_add]
      exact Nat.mul_le_mul hPK (Nat.pow_le_pow_right (by norm_num) (by omega))
  · intro h
    by_contra hc
    push Not at hc
    apply absurd h
    push Not
    rcases Nat.lt_or_ge d (E - 3) with hh | hh
    · calc K * 2 ^ d ≤ (2 * 2 ^ F) * 2 ^ d := Nat.mul_le_mul_right _ hK2
        _ = 2 ^ (1 + F + d) := by rw [pow_add, pow_add, pow_one]
        _ < 2 ^ (F + (E - 2)) := Nat.pow_lt_pow_right (by norm_num) (by omega)
    · have hPK : 2 ^ F ≤ K := by rcases hd with h | h; omega; exact h
      have hd3 : d = E - 3 := by
        by_contra hx
        have : E - 2 ≤ d := by omega
        have : (E - 2) * 2 ^ F ≤ d * 2 ^ F := Nat.mul_le_mul_right _ this
        have e1 : (E - 1) * 2 ^ F = (E - 2) * 2 ^ F + 2 ^ F := by rw [show E - 1 = (E - 2) + 1 by omega, Nat.add_mul, Nat.one_mul]
        omega
      rw [hd3] at hc ⊢
      have e1 : (E - 1) * 2 ^ F = (E - 3) * 2 ^ F + 2 * 2 ^ F := by rw [← Nat.add_mul]; congr 1; omega
      have : K < 2 * 2 ^ F := by omega
      calc K * 2 ^ (E - 3) < (2 * 2 ^ F) * 2 ^ (E - 3) := Nat.mul_lt_mul_of_pos_right this (by positivity)
        _ = 2 ^ (F + (E - 2)) := by rw [show F + (E - 2) = 1 + F + (E - 3) by omega, pow_add, pow_add, pow_one]

theorem num_fin_real (neg m e) : ((FVal.num (.fin neg m e) : ℚ) : ℝ) = signReal neg * (m * 2 ^ e) := by
  simp only [FVal.num]; push_cast; cases neg <;> simp [signReal]

/-- No half integer separates the two numbers. -/
def SameHalves (u u' : ℝ) : Prop := ∀ j : ℤ, (u < (j : ℝ) / 2 ↔ u' < (j : ℝ) / 2) ∧ ((j : ℝ) / 2 < u ↔ (j : ℝ) / 2 < u')

theorem SameHalves.symm {u u' : ℝ} (h : SameHalves u u') : SameHalves u' u := fun j => ⟨(h j).1.symm, (h j).2.symm⟩

theorem SameHalves.eqv {u u' : ℝ} (h : SameHalves u u') (j : ℤ) : u = (j : ℝ) / 2 ↔ u' = (j : ℝ) / 2 := by
  have := h j
  constructor
  · intro e
    have a : ¬ u < (j : ℝ)/2 := by rw [e]; exact lt_irrefl _
    have b : ¬ (j : ℝ)/2 < u := by rw [e]; exact lt_irrefl _
    exact le_antisymm (not_lt.1 (fun x => b (this.2.2 x))) (not_lt.1 (fun x => a (this.1.2 x)))
  · intro e
    have a : ¬ u' < (j : ℝ)/2 := by rw [e]; exact lt_irrefl _
    have b : ¬ (j : ℝ)/2 < u' := by rw [e]; exact lt_irrefl _
    exact le_antisymm (not_lt.1 (fun x => b (this.2.1 x))) (not_lt.1 (fun x => a (this.1.1 x)))

theorem SameHalves.neg {u u' : ℝ} (h : SameHalves u u') : SameHalves (-u) (-u') := fun j => by
  have := h (-j)
  push_cast at this
  constructor
  · rw [neg_lt, neg_lt (a := u'), ← neg_div]; exact this.2
  · rw [lt_neg, lt_neg (b := u'), ← neg_div]; exact this.1

/-- Such numbers round to the same integer. -/
theorem roundsToInt_sameHalves {rm} {u u' : ℝ} (h : SameHalves u u') {k : ℤ} (hk : RoundsToInt rm u k) :
    RoundsToInt rm u' k := by
  have lt : ∀ j : ℤ, (u < j ↔ u' < j) ∧ ((j : ℝ) < u ↔ (j : ℝ) < u') := fun j => by
    have := h (2 * j); push_cast at this
    rw [show (2 * (j:ℝ)) / 2 = j by ring] at this; exact this
  have z := lt 0; push_cast at z
  have a1 := lt k
  have a2 := lt (k + 1); push_cast at a2
  have a3 := lt (k - 1); push_cast at a3
  have b1 := h (2 * k + 1); have b2 := h (2 * k - 1)
  have c1 := h.eqv (2 * k + 1); have c2 := h.eqv (2 * k - 1)
  push_cast at b1 b2 c1 c2
  rw [show (2 * (k:ℝ) + 1) / 2 = k + 1/2 by ring] at b1 c1
  rw [show (2 * (k:ℝ) - 1) / 2 = k - 1/2 by ring] at b2 c2
  have near : ∀ w : ℝ, |w - k| ≤ 1/2 ↔ ¬ (k:ℝ) + 1/2 < w ∧ ¬ w < (k:ℝ) - 1/2 := fun w => by
    rw [abs_le, not_lt, not_lt]; constructor
    · rintro ⟨p, q⟩; constructor <;> linarith
    · rintro ⟨p, q⟩; constructor <;> linarith
  have tie : ∀ w : ℝ, |w - k| = 1/2 ↔ w = (k:ℝ) + 1/2 ∨ w = (k:ℝ) - 1/2 := fun w => by
    rw [abs_eq (by norm_num)]; constructor
    · rintro (p | p); left; linarith; right; linarith
    · rintro (p | p); left; linarith; right; linarith
  cases rm with
  | rne =>
    refine ⟨(near _).2 ?_, fun hh => hk.2 ((tie _).2 ?_)⟩
    · rw [← b1.2, ← b2.1]; exact (near _).1 hk.1
    · rw [c1, c2]; exact (tie _).1 hh
  | rtz =>
    refine ⟨fun hh => ?_, fun hh => ?_⟩
    · have := hk.1 (not_lt.1 fun x => absurd (z.1.1 x) (not_lt.2 hh))
      exact ⟨not_lt.1 fun x => absurd (a1.1.2 x) (not_lt.2 this.1), a2.1.1 this.2⟩
    · have := hk.2 (z.1.2 hh)
      exact ⟨not_lt.1 fun x => absurd (a1.2.2 x) (not_lt.2 this.1), a3.2.1 this.2⟩
  | rdn => exact ⟨not_lt.1 fun x => absurd (a1.1.2 x) (not_lt.2 hk.1), a2.1.1 hk.2⟩
  | rup => exact ⟨not_lt.1 fun x => absurd (a1.2.2 x) (not_lt.2 hk.1), a3.2.1 hk.2⟩
  | rmm =>
    refine ⟨(near _).2 ?_, fun hh => ?_⟩
    · rw [← b1.2, ← b2.1]; exact (near _).1 hk.1
    · rcases (tie _).1 hh with g | g
      · have e := c1.2 g
        have := hk.2 ((tie _).2 (.inl e)); rw [g]; rwa [e] at this
      · have e := c2.2 g
        have := hk.2 ((tie _).2 (.inr e)); rw [g]; rwa [e] at this

/-- A number and its floor with a sticky half have no half integer of a coarser unit between them. -/
theorem sticky_sameHalves (x y : ℝ) (N : ℕ) (h2 : x < N + 1)
    (hy : (x = N ∧ y = N) ∨ ((N:ℝ) < x ∧ y = N + 1/2)) (d : ℕ) (hd : 1 ≤ d) :
    SameHalves (x / 2 ^ d) (y / 2 ^ d) := fun j => by
  obtain ⟨c, rfl⟩ : ∃ c, d = c + 1 := ⟨d - 1, by omega⟩
  have hp : (0:ℝ) < 2 ^ (c + 1) := by positivity
  set J : ℤ := j * 2 ^ c with hJ
  have e : (j : ℝ) / 2 * 2 ^ (c + 1) = J := by rw [hJ]; push_cast; rw [pow_succ]; ring
  rw [div_lt_iff₀ hp, div_lt_iff₀ hp, lt_div_iff₀ hp, lt_div_iff₀ hp, e]
  have step : ∀ {a b : ℤ}, (a : ℝ) < b → (a : ℝ) + 1 ≤ b := fun h => by exact_mod_cast (Int.cast_lt.1 h)
  have nN : (N : ℝ) = ((N : ℤ) : ℝ) := by simp
  rcases hy with ⟨a, b⟩ | ⟨a, b⟩
  · rw [a, b]; exact ⟨Iff.rfl, Iff.rfl⟩
  · rw [b]
    rw [nN] at h2 a ⊢
    constructor
    · constructor
      · intro h; have := step (lt_trans a h); linarith
      · intro h; have := step (show (((N : ℤ)) : ℝ) < J by linarith); linarith
    · constructor
      · intro h
        have : (J : ℝ) < (N : ℤ) + 1 := by linarith
        have : (J : ℝ) < (((N : ℤ) + 1 : ℤ) : ℝ) := by push_cast; linarith
        have := step this; push_cast at this; push_cast; linarith
      · intro h
        have : (J : ℝ) < (((N : ℤ) + 1 : ℤ) : ℝ) := by push_cast; push_cast at h; linarith
        have := step this; push_cast at this; push_cast at a; linarith

theorem isqrtFrom_spec : ∀ (i acc n : ℕ), acc * acc ≤ n → n < (acc + 2 ^ i) * (acc + 2 ^ i) →
    isqrtFrom i acc n * isqrtFrom i acc n ≤ n ∧ n < (isqrtFrom i acc n + 1) * (isqrtFrom i acc n + 1) := by
  intro i
  induction i with
  | zero => intro acc n h1 h2; exact ⟨h1, by rw [pow_zero] at h2; exact h2⟩
  | succ i ih =>
    intro acc n h1 h2
    simp only [isqrtFrom]
    split
    · rename_i h
      refine ih _ n h ?_
      rw [pow_succ] at h2
      rwa [show acc + 2 ^ i + 2 ^ i = acc + 2 ^ i * 2 by ring]
    · rename_i h
      exact ih _ n h1 (not_le.1 h)

/-- The integer square root. -/
theorem isqrt_spec (n : ℕ) : isqrt n * isqrt n ≤ n ∧ n < (isqrt n + 1) * (isqrt n + 1) := by
  unfold isqrt
  refine isqrtFrom_spec _ 0 n (by simp) ?_
  rw [Nat.zero_add, ← pow_add]
  by_cases h : n = 0
  · rw [h]; positivity
  · exact lt_of_lt_of_le (Nat.lt_log2_self (n := n)) (Nat.pow_le_pow_right (by norm_num) (by omega))

end Sys2Proof.Machine
end

