-- ==== Sys2Proof/Tests/Slice0.lean ====
section
/-! SUPPORT. Tests: terms WellFormed refuses, words of the encoding tables, single steps against the vectors of
95_test_vectors.md and 96_test_vectors_fp.md, and for every obligation with a premise a state and operands that meet it. -/

namespace Sys2Proof.Tests

open Sys2Proof.Machine

/-! ### WellFormed: for each check a term it refuses -/

theorem test_wf_addi4spn_zero : (Instr.cAddi4spn 3 0).wellFormed = false := by decide
theorem test_wf_addi_x0 : (Instr.cAddi 0 1).wellFormed = false := by decide
theorem test_wf_addi16sp_zero : (Instr.cAddi16sp 0).wellFormed = false := by decide
theorem test_wf_lui_x2 : (Instr.cLui 2 1).wellFormed = false := by decide
theorem test_wf_lui_zero : (Instr.cLui 1 0).wellFormed = false := by decide
theorem test_wf_lwsp_x0 : (Instr.cLwsp 0 1).wellFormed = false := by decide
theorem test_wf_jr_x0 : (Instr.cJr 0).wellFormed = false := by decide
theorem test_wf_mv_x0 : (Instr.cMv 5 0).wellFormed = false := by decide
theorem test_wf_jalr_x0 : (Instr.cJalr 0).wellFormed = false := by decide
theorem test_wf_add_x0 : (Instr.cAdd 5 0).wellFormed = false := by decide

/-! ### Decoding: one word of every row of the opcode table, field by field from the encodings of 30_encoding.md and
the family files, then words that are no instruction -/

theorem test_decode_rv32i_1 :
    decode (.word (0b10000110100110010010#20 ++ 0b00101#5 ++ 0b0110111#7)) = some (.lui 5 551314) ∧
    decode (.word (0b10110111101011001010#20 ++ 0b00101#5 ++ 0b0010111#7)) = some (.auipc 5 752330) ∧
    decode (.word (0b11000011010010011101#20 ++ 0b00101#5 ++ 0b1101111#7)) = some (.jal 5 846362) ∧
    decode (.word (0b101010110010#12 ++ 0b10110#5 ++ 0b000#3 ++ 0b00101#5 ++ 0b1100111#7)) = some (.jalr 5 22 2738) ∧
    decode (.word (0b1001100#7 ++ 0b01011#5 ++ 0b10110#5 ++ 0b000#3 ++ 0b10100#5 ++ 0b1100011#7)) = some (.beq 22 11 2250) ∧
    decode (.word (0b1010100#7 ++ 0b01011#5 ++ 0b10110#5 ++ 0b001#3 ++ 0b11101#5 ++ 0b1100011#7)) = some (.bne 22 11 3406) ∧
    decode (.word (0b1001001#7 ++ 0b01011#5 ++ 0b10110#5 ++ 0b100#3 ++ 0b10101#5 ++ 0b1100011#7)) = some (.blt 22 11 3226) ∧
    decode (.word (0b1110110#7 ++ 0b01011#5 ++ 0b10110#5 ++ 0b101#3 ++ 0b00101#5 ++ 0b1100011#7)) = some (.bge 22 11 3938) ∧
    decode (.word (0b1110101#7 ++ 0b01011#5 ++ 0b10110#5 ++ 0b110#3 ++ 0b00100#5 ++ 0b1100011#7)) = some (.bltu 22 11 2898) ∧
    decode (.word (0b1100110#7 ++ 0b01011#5 ++ 0b10110#5 ++ 0b111#3 ++ 0b01101#5 ++ 0b1100011#7)) = some (.bgeu 22 11 3686) ∧
    decode (.word (0b111010011110#12 ++ 0b10110#5 ++ 0b000#3 ++ 0b00101#5 ++ 0b0000011#7)) = some (.lb 5 22 3742) ∧
    decode (.word (0b110000100010#12 ++ 0b10110#5 ++ 0b001#3 ++ 0b00101#5 ++ 0b0000011#7)) = some (.lh 5 22 3106) ∧
    decode (.word (0b100001100010#12 ++ 0b10110#5 ++ 0b010#3 ++ 0b00101#5 ++ 0b0000011#7)) = some (.lw 5 22 2146) := by
  decide

theorem test_decode_rv32i_2 :
    decode (.word (0b101011010110#12 ++ 0b10110#5 ++ 0b100#3 ++ 0b00101#5 ++ 0b0000011#7)) = some (.lbu 5 22 2774) ∧
    decode (.word (0b100000010110#12 ++ 0b10110#5 ++ 0b101#3 ++ 0b00101#5 ++ 0b0000011#7)) = some (.lhu 5 22 2070) ∧
    decode (.word (0b1000000#7 ++ 0b01011#5 ++ 0b10110#5 ++ 0b000#3 ++ 0b11010#5 ++ 0b0100011#7)) = some (.sb 11 22 2074) ∧
    decode (.word (0b1111110#7 ++ 0b01011#5 ++ 0b10110#5 ++ 0b001#3 ++ 0b10110#5 ++ 0b0100011#7)) = some (.sh 11 22 4054) ∧
    decode (.word (0b1111111#7 ++ 0b01011#5 ++ 0b10110#5 ++ 0b010#3 ++ 0b10010#5 ++ 0b0100011#7)) = some (.sw 11 22 4082) ∧
    decode (.word (0b100001000010#12 ++ 0b10110#5 ++ 0b000#3 ++ 0b00101#5 ++ 0b0010011#7)) = some (.addi 5 22 2114) ∧
    decode (.word (0b101000100010#12 ++ 0b10110#5 ++ 0b010#3 ++ 0b00101#5 ++ 0b0010011#7)) = some (.slti 5 22 2594) ∧
    decode (.word (0b100101001010#12 ++ 0b10110#5 ++ 0b011#3 ++ 0b00101#5 ++ 0b0010011#7)) = some (.sltiu 5 22 2378) ∧
    decode (.word (0b110100001010#12 ++ 0b10110#5 ++ 0b100#3 ++ 0b00101#5 ++ 0b0010011#7)) = some (.xori 5 22 3338) ∧
    decode (.word (0b101010000010#12 ++ 0b10110#5 ++ 0b110#3 ++ 0b00101#5 ++ 0b0010011#7)) = some (.ori 5 22 2690) ∧
    decode (.word (0b100111001010#12 ++ 0b10110#5 ++ 0b111#3 ++ 0b00101#5 ++ 0b0010011#7)) = some (.andi 5 22 2506) ∧
    decode (.word (0b0000000#7 ++ 0b10011#5 ++ 0b10110#5 ++ 0b001#3 ++ 0b00101#5 ++ 0b0010011#7)) = some (.slli 5 22 19) ∧
    decode (.word (0b0000000#7 ++ 0b10011#5 ++ 0b10110#5 ++ 0b101#3 ++ 0b00101#5 ++ 0b0010011#7)) = some (.srli 5 22 19) := by
  decide

theorem test_decode_rv32i_3 :
    decode (.word (0b0100000#7 ++ 0b10011#5 ++ 0b10110#5 ++ 0b101#3 ++ 0b00101#5 ++ 0b0010011#7)) = some (.srai 5 22 19) ∧
    decode (.word (0b0000000#7 ++ 0b01011#5 ++ 0b10110#5 ++ 0b000#3 ++ 0b00101#5 ++ 0b0110011#7)) = some (.add 5 22 11) ∧
    decode (.word (0b0100000#7 ++ 0b01011#5 ++ 0b10110#5 ++ 0b000#3 ++ 0b00101#5 ++ 0b0110011#7)) = some (.sub 5 22 11) ∧
    decode (.word (0b0000000#7 ++ 0b01011#5 ++ 0b10110#5 ++ 0b001#3 ++ 0b00101#5 ++ 0b0110011#7)) = some (.sll 5 22 11) ∧
    decode (.word (0b0000000#7 ++ 0b01011#5 ++ 0b10110#5 ++ 0b010#3 ++ 0b00101#5 ++ 0b0110011#7)) = some (.slt 5 22 11) ∧
    decode (.word (0b0000000#7 ++ 0b01011#5 ++ 0b10110#5 ++ 0b011#3 ++ 0b00101#5 ++ 0b0110011#7)) = some (.sltu 5 22 11) ∧
    decode (.word (0b0000000#7 ++ 0b01011#5 ++ 0b10110#5 ++ 0b100#3 ++ 0b00101#5 ++ 0b0110011#7)) = some (.xor 5 22 11) ∧
    decode (.word (0b0000000#7 ++ 0b01011#5 ++ 0b10110#5 ++ 0b101#3 ++ 0b00101#5 ++ 0b0110011#7)) = some (.srl 5 22 11) ∧
    decode (.word (0b0100000#7 ++ 0b01011#5 ++ 0b10110#5 ++ 0b101#3 ++ 0b00101#5 ++ 0b0110011#7)) = some (.sra 5 22 11) ∧
    decode (.word (0b0000000#7 ++ 0b01011#5 ++ 0b10110#5 ++ 0b110#3 ++ 0b00101#5 ++ 0b0110011#7)) = some (.or 5 22 11) ∧
    decode (.word (0b0000000#7 ++ 0b01011#5 ++ 0b10110#5 ++ 0b111#3 ++ 0b00101#5 ++ 0b0110011#7)) = some (.and 5 22 11) ∧
    decode (.word (0b1000#4 ++ 0b0011#4 ++ 0b0010#4 ++ 0b10110#5 ++ 0b000#3 ++ 0b00101#5 ++ 0b0001111#7)) = some (.fence 8 3 2 22 5) ∧
    decode (.word (0b110111011010#12 ++ 0b10110#5 ++ 0b001#3 ++ 0b00101#5 ++ 0b0001111#7)) = some (.fenceI 3546 22 5) := by
  decide

theorem test_decode_m :
    decode (.word (0b0000001#7 ++ 0b01011#5 ++ 0b10110#5 ++ 0b000#3 ++ 0b00101#5 ++ 0b0110011#7)) = some (.mul 5 22 11) ∧
    decode (.word (0b0000001#7 ++ 0b01011#5 ++ 0b10110#5 ++ 0b001#3 ++ 0b00101#5 ++ 0b0110011#7)) = some (.mulh 5 22 11) ∧
    decode (.word (0b0000001#7 ++ 0b01011#5 ++ 0b10110#5 ++ 0b010#3 ++ 0b00101#5 ++ 0b0110011#7)) = some (.mulhsu 5 22 11) ∧
    decode (.word (0b0000001#7 ++ 0b01011#5 ++ 0b10110#5 ++ 0b011#3 ++ 0b00101#5 ++ 0b0110011#7)) = some (.mulhu 5 22 11) ∧
    decode (.word (0b0000001#7 ++ 0b01011#5 ++ 0b10110#5 ++ 0b100#3 ++ 0b00101#5 ++ 0b0110011#7)) = some (.div 5 22 11) ∧
    decode (.word (0b0000001#7 ++ 0b01011#5 ++ 0b10110#5 ++ 0b101#3 ++ 0b00101#5 ++ 0b0110011#7)) = some (.divu 5 22 11) ∧
    decode (.word (0b0000001#7 ++ 0b01011#5 ++ 0b10110#5 ++ 0b110#3 ++ 0b00101#5 ++ 0b0110011#7)) = some (.rem 5 22 11) ∧
    decode (.word (0b0000001#7 ++ 0b01011#5 ++ 0b10110#5 ++ 0b111#3 ++ 0b00101#5 ++ 0b0110011#7)) = some (.remu 5 22 11) := by
  decide

theorem test_decode_c_1 :
    decode (.half (0b000#3 ++ 0b10110001#8 ++ 0b110#3 ++ 0b00#2)) = some (.cAddi4spn 6 202) ∧
    decode (.half (0b001#3 ++ 0b110#3 ++ 0b011#3 ++ 0b11#2 ++ 0b110#3 ++ 0b00#2)) = some (.cFld 6 3 30) ∧
    decode (.half (0b010#3 ++ 0b111#3 ++ 0b011#3 ++ 0b01#2 ++ 0b110#3 ++ 0b00#2)) = some (.cLw 6 3 30) ∧
    decode (.half (0b011#3 ++ 0b011#3 ++ 0b011#3 ++ 0b01#2 ++ 0b110#3 ++ 0b00#2)) = some (.cFlw 6 3 22) ∧
    decode (.half (0b101#3 ++ 0b010#3 ++ 0b011#3 ++ 0b11#2 ++ 0b001#3 ++ 0b00#2)) = some (.cFsd 1 3 26) ∧
    decode (.half (0b110#3 ++ 0b011#3 ++ 0b011#3 ++ 0b01#2 ++ 0b001#3 ++ 0b00#2)) = some (.cSw 1 3 22) ∧
    decode (.half (0b111#3 ++ 0b011#3 ++ 0b011#3 ++ 0b01#2 ++ 0b001#3 ++ 0b00#2)) = some (.cFsw 1 3 22) ∧
    decode (.half (0b000#3 ++ 0b1#1 ++ 0b00000#5 ++ 0b10010#5 ++ 0b01#2)) = some (.cNop 50) ∧
    decode (.half (0b000#3 ++ 0b1#1 ++ 0b00101#5 ++ 0b11010#5 ++ 0b01#2)) = some (.cAddi 5 58) ∧
    decode (.half (0b001#3 ++ 0b11000001100#11 ++ 0b01#2)) = some (.cJal 1038) ∧
    decode (.half (0b010#3 ++ 0b1#1 ++ 0b00101#5 ++ 0b11010#5 ++ 0b01#2)) = some (.cLi 5 58) ∧
    decode (.half (0b011#3 ++ 0b1#1 ++ 0b00010#5 ++ 0b00101#5 ++ 0b01#2)) = some (.cAddi16sp 50) ∧
    decode (.half (0b011#3 ++ 0b1#1 ++ 0b00101#5 ++ 0b10110#5 ++ 0b01#2)) = some (.cLui 5 54) := by
  decide

theorem test_decode_c_2 :
    decode (.half (0b100000#6 ++ 0b110#3 ++ 0b11010#5 ++ 0b01#2)) = some (.cSrli 6 26) ∧
    decode (.half (0b100001#6 ++ 0b110#3 ++ 0b11010#5 ++ 0b01#2)) = some (.cSrai 6 26) ∧
    decode (.half (0b100#3 ++ 0b1#1 ++ 0b10#2 ++ 0b110#3 ++ 0b00110#5 ++ 0b01#2)) = some (.cAndi 6 38) ∧
    decode (.half (0b100011#6 ++ 0b110#3 ++ 0b00#2 ++ 0b001#3 ++ 0b01#2)) = some (.cSub 6 1) ∧
    decode (.half (0b100011#6 ++ 0b110#3 ++ 0b01#2 ++ 0b001#3 ++ 0b01#2)) = some (.cXor 6 1) ∧
    decode (.half (0b100011#6 ++ 0b110#3 ++ 0b10#2 ++ 0b001#3 ++ 0b01#2)) = some (.cOr 6 1) ∧
    decode (.half (0b100011#6 ++ 0b110#3 ++ 0b11#2 ++ 0b001#3 ++ 0b01#2)) = some (.cAnd 6 1) ∧
    decode (.half (0b101#3 ++ 0b10011011100#11 ++ 0b01#2)) = some (.cJ 1734) ∧
    decode (.half (0b110#3 ++ 0b100#3 ++ 0b011#3 ++ 0b11100#5 ++ 0b01#2)) = some (.cBeqz 3 226) ∧
    decode (.half (0b111#3 ++ 0b110#3 ++ 0b011#3 ++ 0b11101#5 ++ 0b01#2)) = some (.cBnez 3 250) ∧
    decode (.half (0b0000#4 ++ 0b00101#5 ++ 0b10010#5 ++ 0b10#2)) = some (.cSlli 5 18) ∧
    decode (.half (0b001#3 ++ 0b0#1 ++ 0b00101#5 ++ 0b10110#5 ++ 0b10#2)) = some (.cFldsp 5 50) ∧
    decode (.half (0b010#3 ++ 0b1#1 ++ 0b00101#5 ++ 0b01011#5 ++ 0b10#2)) = some (.cLwsp 5 58) := by
  decide

theorem test_decode_c_3 :
    decode (.half (0b011#3 ++ 0b1#1 ++ 0b00101#5 ++ 0b11010#5 ++ 0b10#2)) = some (.cFlwsp 5 46) ∧
    decode (.half (0b1000#4 ++ 0b10110#5 ++ 0b0000010#7)) = some (.cJr 22) ∧
    decode (.half (0b1000#4 ++ 0b00101#5 ++ 0b01011#5 ++ 0b10#2)) = some (.cMv 5 11) ∧
    decode (.half (0b1001000000000010#16)) = some .cEbreak ∧
    decode (.half (0b1001#4 ++ 0b10110#5 ++ 0b0000010#7)) = some (.cJalr 22) ∧
    decode (.half (0b1001#4 ++ 0b00101#5 ++ 0b01011#5 ++ 0b10#2)) = some (.cAdd 5 11) ∧
    decode (.half (0b101#3 ++ 0b010100#6 ++ 0b01011#5 ++ 0b10#2)) = some (.cFsdsp 11 34) ∧
    decode (.half (0b110#3 ++ 0b111010#6 ++ 0b01011#5 ++ 0b10#2)) = some (.cSwsp 11 46) ∧
    decode (.half (0b111#3 ++ 0b011010#6 ++ 0b01011#5 ++ 0b10#2)) = some (.cFswsp 11 38) := by
  decide

theorem test_decode_a :
    decode (.word (0b00010#5 ++ 0b1#1 ++ 0b0#1 ++ 0b00000#5 ++ 0b10110#5 ++ 0b010#3 ++ 0b00101#5 ++ 0b0101111#7)) = some (.lrW 5 22 true false) ∧
    decode (.word (0b00011#5 ++ 0b1#1 ++ 0b0#1 ++ 0b01011#5 ++ 0b10110#5 ++ 0b010#3 ++ 0b00101#5 ++ 0b0101111#7)) = some (.scW 5 22 11 true false) ∧
    decode (.word (0b00001#5 ++ 0b1#1 ++ 0b0#1 ++ 0b01011#5 ++ 0b10110#5 ++ 0b010#3 ++ 0b00101#5 ++ 0b0101111#7)) = some (.amoswapW 5 22 11 true false) ∧
    decode (.word (0b00000#5 ++ 0b1#1 ++ 0b0#1 ++ 0b01011#5 ++ 0b10110#5 ++ 0b010#3 ++ 0b00101#5 ++ 0b0101111#7)) = some (.amoaddW 5 22 11 true false) ∧
    decode (.word (0b00100#5 ++ 0b1#1 ++ 0b0#1 ++ 0b01011#5 ++ 0b10110#5 ++ 0b010#3 ++ 0b00101#5 ++ 0b0101111#7)) = some (.amoxorW 5 22 11 true false) ∧
    decode (.word (0b01100#5 ++ 0b1#1 ++ 0b0#1 ++ 0b01011#5 ++ 0b10110#5 ++ 0b010#3 ++ 0b00101#5 ++ 0b0101111#7)) = some (.amoandW 5 22 11 true false) ∧
    decode (.word (0b01000#5 ++ 0b1#1 ++ 0b0#1 ++ 0b01011#5 ++ 0b10110#5 ++ 0b010#3 ++ 0b00101#5 ++ 0b0101111#7)) = some (.amoorW 5 22 11 true false) ∧
    decode (.word (0b10000#5 ++ 0b1#1 ++ 0b0#1 ++ 0b01011#5 ++ 0b10110#5 ++ 0b010#3 ++ 0b00101#5 ++ 0b0101111#7)) = some (.amominW 5 22 11 true false) ∧
    decode (.word (0b10100#5 ++ 0b1#1 ++ 0b0#1 ++ 0b01011#5 ++ 0b10110#5 ++ 0b010#3 ++ 0b00101#5 ++ 0b0101111#7)) = some (.amomaxW 5 22 11 true false) ∧
    decode (.word (0b11000#5 ++ 0b1#1 ++ 0b0#1 ++ 0b01011#5 ++ 0b10110#5 ++ 0b010#3 ++ 0b00101#5 ++ 0b0101111#7)) = some (.amominuW 5 22 11 true false) ∧
    decode (.word (0b11100#5 ++ 0b1#1 ++ 0b0#1 ++ 0b01011#5 ++ 0b10110#5 ++ 0b010#3 ++ 0b00101#5 ++ 0b0101111#7)) = some (.amomaxuW 5 22 11 true false) := by
  decide

theorem test_decode_f_1 :
    decode (.word (0b110111110110#12 ++ 0b10110#5 ++ 0b010#3 ++ 0b00101#5 ++ 0b0000111#7)) = some (.flw 5 22 3574) ∧
    decode (.word (0b1101011#7 ++ 0b01011#5 ++ 0b10110#5 ++ 0b010#3 ++ 0b01010#5 ++ 0b0100111#7)) = some (.fsw 11 22 3434) ∧
    decode (.word (0b11100#5 ++ 0b00#2 ++ 0b01011#5 ++ 0b10110#5 ++ 0b011#3 ++ 0b00101#5 ++ 0b1000011#7)) = some (.fmaddS 5 22 11 28 3) ∧
    decode (.word (0b11100#5 ++ 0b00#2 ++ 0b01011#5 ++ 0b10110#5 ++ 0b011#3 ++ 0b00101#5 ++ 0b1000111#7)) = some (.fmsubS 5 22 11 28 3) ∧
    decode (.word (0b11100#5 ++ 0b00#2 ++ 0b01011#5 ++ 0b10110#5 ++ 0b011#3 ++ 0b00101#5 ++ 0b1001011#7)) = some (.fnmsubS 5 22 11 28 3) ∧
    decode (.word (0b11100#5 ++ 0b00#2 ++ 0b01011#5 ++ 0b10110#5 ++ 0b011#3 ++ 0b00101#5 ++ 0b1001111#7)) = some (.fnmaddS 5 22 11 28 3) ∧
    decode (.word (0b0000000#7 ++ 0b01011#5 ++ 0b10110#5 ++ 0b011#3 ++ 0b00101#5 ++ 0b1010011#7)) = some (.faddS 5 22 11 3) ∧
    decode (.word (0b0000100#7 ++ 0b01011#5 ++ 0b10110#5 ++ 0b011#3 ++ 0b00101#5 ++ 0b1010011#7)) = some (.fsubS 5 22 11 3) ∧
    decode (.word (0b0001000#7 ++ 0b01011#5 ++ 0b10110#5 ++ 0b011#3 ++ 0b00101#5 ++ 0b1010011#7)) = some (.fmulS 5 22 11 3) ∧
    decode (.word (0b0001100#7 ++ 0b01011#5 ++ 0b10110#5 ++ 0b011#3 ++ 0b00101#5 ++ 0b1010011#7)) = some (.fdivS 5 22 11 3) ∧
    decode (.word (0b010110000000#12 ++ 0b10110#5 ++ 0b011#3 ++ 0b00101#5 ++ 0b1010011#7)) = some (.fsqrtS 5 22 3) ∧
    decode (.word (0b0010000#7 ++ 0b01011#5 ++ 0b10110#5 ++ 0b000#3 ++ 0b00101#5 ++ 0b1010011#7)) = some (.fsgnjS 5 22 11) ∧
    decode (.word (0b0010000#7 ++ 0b01011#5 ++ 0b10110#5 ++ 0b001#3 ++ 0b00101#5 ++ 0b1010011#7)) = some (.fsgnjnS 5 22 11) := by
  decide

theorem test_decode_f_2 :
    decode (.word (0b0010000#7 ++ 0b01011#5 ++ 0b10110#5 ++ 0b010#3 ++ 0b00101#5 ++ 0b1010011#7)) = some (.fsgnjxS 5 22 11) ∧
    decode (.word (0b0010100#7 ++ 0b01011#5 ++ 0b10110#5 ++ 0b000#3 ++ 0b00101#5 ++ 0b1010011#7)) = some (.fminS 5 22 11) ∧
    decode (.word (0b0010100#7 ++ 0b01011#5 ++ 0b10110#5 ++ 0b001#3 ++ 0b00101#5 ++ 0b1010011#7)) = some (.fmaxS 5 22 11) ∧
    decode (.word (0b110000000000#12 ++ 0b10110#5 ++ 0b011#3 ++ 0b00101#5 ++ 0b1010011#7)) = some (.fcvtWS 5 22 3) ∧
    decode (.word (0b110000000001#12 ++ 0b10110#5 ++ 0b011#3 ++ 0b00101#5 ++ 0b1010011#7)) = some (.fcvtWuS 5 22 3) ∧
    decode (.word (0b111000000000#12 ++ 0b10110#5 ++ 0b000#3 ++ 0b00101#5 ++ 0b1010011#7)) = some (.fmvXW 5 22) ∧
    decode (.word (0b1010000#7 ++ 0b01011#5 ++ 0b10110#5 ++ 0b010#3 ++ 0b00101#5 ++ 0b1010011#7)) = some (.feqS 5 22 11) ∧
    decode (.word (0b1010000#7 ++ 0b01011#5 ++ 0b10110#5 ++ 0b001#3 ++ 0b00101#5 ++ 0b1010011#7)) = some (.fltS 5 22 11) ∧
    decode (.word (0b1010000#7 ++ 0b01011#5 ++ 0b10110#5 ++ 0b000#3 ++ 0b00101#5 ++ 0b1010011#7)) = some (.fleS 5 22 11) ∧
    decode (.word (0b111000000000#12 ++ 0b10110#5 ++ 0b001#3 ++ 0b00101#5 ++ 0b1010011#7)) = some (.fclassS 5 22) ∧
    decode (.word (0b110100000000#12 ++ 0b10110#5 ++ 0b011#3 ++ 0b00101#5 ++ 0b1010011#7)) = some (.fcvtSW 5 22 3) ∧
    decode (.word (0b110100000001#12 ++ 0b10110#5 ++ 0b011#3 ++ 0b00101#5 ++ 0b1010011#7)) = some (.fcvtSWu 5 22 3) ∧
    decode (.word (0b111100000000#12 ++ 0b10110#5 ++ 0b000#3 ++ 0b00101#5 ++ 0b1010011#7)) = some (.fmvWX 5 22) := by
  decide

theorem test_decode_d_1 :
    decode (.word (0b101100001110#12 ++ 0b10110#5 ++ 0b011#3 ++ 0b00101#5 ++ 0b0000111#7)) = some (.fld 5 22 2830) ∧
    decode (.word (0b1101101#7 ++ 0b01011#5 ++ 0b10110#5 ++ 0b011#3 ++ 0b11110#5 ++ 0b0100111#7)) = some (.fsd 11 22 3518) ∧
    decode (.word (0b11100#5 ++ 0b01#2 ++ 0b01011#5 ++ 0b10110#5 ++ 0b011#3 ++ 0b00101#5 ++ 0b1000011#7)) = some (.fmaddD 5 22 11 28 3) ∧
    decode (.word (0b11100#5 ++ 0b01#2 ++ 0b01011#5 ++ 0b10110#5 ++ 0b011#3 ++ 0b00101#5 ++ 0b1000111#7)) = some (.fmsubD 5 22 11 28 3) ∧
    decode (.word (0b11100#5 ++ 0b01#2 ++ 0b01011#5 ++ 0b10110#5 ++ 0b011#3 ++ 0b00101#5 ++ 0b1001011#7)) = some (.fnmsubD 5 22 11 28 3) ∧
    decode (.word (0b11100#5 ++ 0b01#2 ++ 0b01011#5 ++ 0b10110#5 ++ 0b011#3 ++ 0b00101#5 ++ 0b1001111#7)) = some (.fnmaddD 5 22 11 28 3) ∧
    decode (.word (0b0000001#7 ++ 0b01011#5 ++ 0b10110#5 ++ 0b011#3 ++ 0b00101#5 ++ 0b1010011#7)) = some (.faddD 5 22 11 3) ∧
    decode (.word (0b0000101#7 ++ 0b01011#5 ++ 0b10110#5 ++ 0b011#3 ++ 0b00101#5 ++ 0b1010011#7)) = some (.fsubD 5 22 11 3) ∧
    decode (.word (0b0001001#7 ++ 0b01011#5 ++ 0b10110#5 ++ 0b011#3 ++ 0b00101#5 ++ 0b1010011#7)) = some (.fmulD 5 22 11 3) ∧
    decode (.word (0b0001101#7 ++ 0b01011#5 ++ 0b10110#5 ++ 0b011#3 ++ 0b00101#5 ++ 0b1010011#7)) = some (.fdivD 5 22 11 3) ∧
    decode (.word (0b010110100000#12 ++ 0b10110#5 ++ 0b011#3 ++ 0b00101#5 ++ 0b1010011#7)) = some (.fsqrtD 5 22 3) ∧
    decode (.word (0b0010001#7 ++ 0b01011#5 ++ 0b10110#5 ++ 0b000#3 ++ 0b00101#5 ++ 0b1010011#7)) = some (.fsgnjD 5 22 11) ∧
    decode (.word (0b0010001#7 ++ 0b01011#5 ++ 0b10110#5 ++ 0b001#3 ++ 0b00101#5 ++ 0b1010011#7)) = some (.fsgnjnD 5 22 11) := by
  decide

theorem test_decode_d_2 :
    decode (.word (0b0010001#7 ++ 0b01011#5 ++ 0b10110#5 ++ 0b010#3 ++ 0b00101#5 ++ 0b1010011#7)) = some (.fsgnjxD 5 22 11) ∧
    decode (.word (0b0010101#7 ++ 0b01011#5 ++ 0b10110#5 ++ 0b000#3 ++ 0b00101#5 ++ 0b1010011#7)) = some (.fminD 5 22 11) ∧
    decode (.word (0b0010101#7 ++ 0b01011#5 ++ 0b10110#5 ++ 0b001#3 ++ 0b00101#5 ++ 0b1010011#7)) = some (.fmaxD 5 22 11) ∧
    decode (.word (0b010000000001#12 ++ 0b10110#5 ++ 0b011#3 ++ 0b00101#5 ++ 0b1010011#7)) = some (.fcvtSD 5 22 3) ∧
    decode (.word (0b010000100000#12 ++ 0b10110#5 ++ 0b011#3 ++ 0b00101#5 ++ 0b1010011#7)) = some (.fcvtDS 5 22 3) ∧
    decode (.word (0b1010001#7 ++ 0b01011#5 ++ 0b10110#5 ++ 0b010#3 ++ 0b00101#5 ++ 0b1010011#7)) = some (.feqD 5 22 11) ∧
    decode (.word (0b1010001#7 ++ 0b01011#5 ++ 0b10110#5 ++ 0b001#3 ++ 0b00101#5 ++ 0b1010011#7)) = some (.fltD 5 22 11) ∧
    decode (.word (0b1010001#7 ++ 0b01011#5 ++ 0b10110#5 ++ 0b000#3 ++ 0b00101#5 ++ 0b1010011#7)) = some (.fleD 5 22 11) ∧
    decode (.word (0b111000100000#12 ++ 0b10110#5 ++ 0b001#3 ++ 0b00101#5 ++ 0b1010011#7)) = some (.fclassD 5 22) ∧
    decode (.word (0b110000100000#12 ++ 0b10110#5 ++ 0b011#3 ++ 0b00101#5 ++ 0b1010011#7)) = some (.fcvtWD 5 22 3) ∧
    decode (.word (0b110000100001#12 ++ 0b10110#5 ++ 0b011#3 ++ 0b00101#5 ++ 0b1010011#7)) = some (.fcvtWuD 5 22 3) ∧
    decode (.word (0b110100100000#12 ++ 0b10110#5 ++ 0b011#3 ++ 0b00101#5 ++ 0b1010011#7)) = some (.fcvtDW 5 22 3) ∧
    decode (.word (0b110100100001#12 ++ 0b10110#5 ++ 0b011#3 ++ 0b00101#5 ++ 0b1010011#7)) = some (.fcvtDWu 5 22 3) := by
  decide

theorem test_decode_system :
    decode (.word (0b001101000001#12 ++ 0b10110#5 ++ 0b001#3 ++ 0b00101#5 ++ 0b1110011#7)) = some (.csrrw 5 0x341 22) ∧
    decode (.word (0b001101000001#12 ++ 0b10110#5 ++ 0b010#3 ++ 0b00101#5 ++ 0b1110011#7)) = some (.csrrs 5 0x341 22) ∧
    decode (.word (0b001101000001#12 ++ 0b10110#5 ++ 0b011#3 ++ 0b00101#5 ++ 0b1110011#7)) = some (.csrrc 5 0x341 22) ∧
    decode (.word (0b001101000001#12 ++ 0b11010#5 ++ 0b101#3 ++ 0b00101#5 ++ 0b1110011#7)) = some (.csrrwi 5 0x341 26) ∧
    decode (.word (0b001101000001#12 ++ 0b11010#5 ++ 0b110#3 ++ 0b00101#5 ++ 0b1110011#7)) = some (.csrrsi 5 0x341 26) ∧
    decode (.word (0b001101000001#12 ++ 0b11010#5 ++ 0b111#3 ++ 0b00101#5 ++ 0b1110011#7)) = some (.csrrci 5 0x341 26) ∧
    decode (.word (0b00000000000100000000000001110011#32)) = some .ebreak ∧
    decode (.word (0b00000000000000000000000001110011#32)) = some .ecall ∧
    decode (.word (0b00110000001000000000000001110011#32)) = some .mret ∧
    decode (.word (0b00010000010100000000000001110011#32)) = some .wfi := by
  decide

/-- Words and parcels 95_test_vectors.md and 30_encoding.md list as illegal. -/
theorem test_decode_illegal :
    ([0x0000, 0x0004, 0x6101, 0x6281, 0x9C01, 0x9C21, 0x8002, 0x4002, 0x1286, 0x9005, 0x8000].all fun h =>
      (decode (.half h)).isNone) = true ∧
    ([0xFFFFFFFF, 0x107322AF, 0x287322AF, 0xC22110D3, 0xE20102D3, 0x10200073, 0x12000073].all fun w =>
      (decode (.word w)).isNone) = true := by
  decide

theorem test_decodeTableWord :
    decodeTableWord 32 0x00500093 = some (.addi 1 0 5) ∧ decodeTableWord 16 0x9002 = some .cEbreak ∧
    decodeTableWord 32 0x30200073 = some .mret ∧ decodeTableWord 16 0x0000 = none := by
  decide

/-! ### Single steps. The expected results are those of 95_test_vectors.md and 96_test_vectors_fp.md. -/

/-- A predicate of the next state; false of a fault and a refusal. -/
def nextIs (o : Out) (p : State → Bool) : Bool :=
  match o with
  | .next t => p t
  | _ => false

/-- The state the vectors start from: no state stack, misaligned accesses not carried out, mtvec 0x83. -/
def vec : State :=
  let s := State.resetWith { Config.default with hasNestedStack := false, hasMisaligned := false }
  s.withCsr { s.csr with mtvec := 0x83, mstatus := { s.csr.mstatus with fs := 1 } }

/-- `s` with some integer registers set. -/
def withX (s : State) : List (Reg × Word) → State
  | [] => s
  | (r, v) :: rest => withX (s.setX r v) rest

/-- `s` with some floating-point registers set. -/
def withF (s : State) : List (Reg × DWord) → State
  | [] => s
  | (r, v) :: rest => withF (s.setF r v) rest

/-- `s` with a word in memory. -/
def withWord (s : State) (a v : Word) : State := s.withMem (s.mem.writeBytes a (splitBytes 4 (v.setWidth 64)))

/-- One step of `s` with the instruction word `w` placed. -/
def run (s : State) (w : Nat) : Out := step (s.withFetchWord 32 w)

/-- One step of the word with the two operands in x6 and x7 leaves the result in x5 and goes to the next word. -/
def gives : Nat × Word × Word × Word → Bool
  | (w, a, b, r) => nextIs (run (withX vec [(6, a), (7, b)]) w) fun t => t.getX 5 == r && t.pc == 0x1004

theorem test_upper_immediate : [(0xFFFFF2B7, 0, 0, 0xFFFFF000), (0xFFFFF297, 0, 0, 0x00000000)].all gives = true := by
  decide

theorem test_immediate :
    [(0x7FF30293, 0x7FFFFFFF, 0, 0x800007FE), (0xFFF32293, 0xFFFFFFFE, 0, 1), (0xFFF33293, 0xFFFFFFFE, 0, 1),
     (0xFFF34293, 0x0F0F0F0F, 0, 0xF0F0F0F0), (0x80036293, 0xFF, 0, 0xFFFFF8FF),
     (0xFF037293, 0x12345678, 0, 0x12345670), (0x01F31293, 3, 0, 0x80000000), (0x01F35293, 0x80000000, 0, 1),
     (0x41F35293, 0x80000000, 0, 0xFFFFFFFF)].all gives = true := by
  decide

theorem test_register :
    [(0x007302B3, 0xFFFFFFFF, 1, 0), (0x407302B3, 0x80000000, 1, 0x7FFFFFFF),
     (0x007312B3, 1, 0xFFFFFFFF, 0x80000000), (0x007352B3, 0x80000000, 0x23, 0x10000000),
     (0x407352B3, 0x80000000, 0x23, 0xF0000000), (0x007322B3, 0x80000000, 0x7FFFFFFF, 1),
     (0x007332B3, 0x80000000, 0x7FFFFFFF, 0), (0x007342B3, 0xFF00FF00, 0x0FF00FF0, 0xF0F0F0F0),
     (0x007362B3, 0xFF00FF00, 0x0FF00FF0, 0xFFF0FFF0), (0x007372B3, 0xFF00FF00, 0x0FF00FF0, 0x0F000F00)].all
      gives = true := by
  decide

theorem test_multiply :
    [(0x027302B3, 0x12345678, 0x9ABCDEF0, 0x242D2080), (0x027312B3, 0x12345678, 0x9ABCDEF0, 0xF8CC93D6),
     (0x027322B3, 0x80000000, 0xFFFFFFFF, 0x80000000), (0x027332B3, 0x12345678, 0x9ABCDEF0, 0x0B00EA4E)].all
      gives = true := by
  decide

theorem test_divide :
    [(0x027342B3, 7, 0xFFFFFFFE, 0xFFFFFFFD), (0x027342B3, 0x80000000, 0xFFFFFFFF, 0x80000000),
     (0x027352B3, 0x80000000, 0xFFFFFFFF, 0), (0x027352B3, 0x12345678, 0, 0xFFFFFFFF),
     (0x027362B3, 0xFFFFFFF9, 2, 0xFFFFFFFF), (0x027362B3, 0x12345678, 0, 0x12345678),
     (0x027372B3, 0xFFFFFFF9, 2, 1), (0x027372B3, 0x12345678, 0, 0x12345678)].all gives = true := by
  decide

/-- One step of the word with the two operands in x5 and x6 leaves x1 and the pc. -/
def goes : Nat × Word × Word × Word × Word → Bool
  | (w, a, b, x1, pc) => nextIs (run (withX vec [(5, a), (6, b)]) w) fun t => t.getX 1 == x1 && t.pc == pc

theorem test_jump :
    [(0x800FF0EF, 0, 0, 0x1004, 0x0000), (0xFFF300E7, 0, 0x2004, 0x1004, 0x2002)].all goes = true := by
  decide

theorem test_branch :
    [(0x00628863, 7, 7, 0, 0x1010), (0xFE6298E3, 7, 8, 0, 0xFF0), (0x0062C863, 0xFFFFFFFF, 0, 0, 0x1010),
     (0x0062E863, 0xFFFFFFFF, 0, 0, 0x1004), (0x0062D863, 0x80000000, 0x7FFFFFFF, 0, 0x1004),
     (0x0062F863, 0x80000000, 0x7FFFFFFF, 0, 0x1010)].all goes = true := by
  decide

/-- Without C a jump to 0x2002 raises code 0 with mtval the target. -/
theorem test_jump_misaligned :
    let s := State.resetWith { Config.default with hasC := false }
    nextIs (run (s.setX 6 0x2000) 0x00230067) (fun t =>
      t.csr.mepc == 0x1000 && t.csr.mtval == 0x2002 && t.csr.mcause.exccode == 0) = true := by
  decide

/-- The memory the load and store vectors start from: 0x8899AABB and 0x00FF7F80 from 0x20000000 on. -/
def vecMem : State := withWord (withWord (vec.setX 6 0x20000000) 0x20000000 0x8899AABB) 0x20000004 0x00FF7F80

theorem test_load :
    ([(0x00330283, 0xFFFFFF88), (0x00334283, 0x88), (0x00231283, 0xFFFF8899), (0x00235283, 0x8899),
      (0x00032283, 0x8899AABB)].all fun (p : Nat × Word) => nextIs (run vecMem p.1) fun t => t.getX 5 == p.2) = true := by
  decide

theorem test_store :
    ([(0x005300A3, 0x8899EFBB, 0x00FF7F80), (0x00531123, 0x56EFAABB, 0x00FF7F80),
      (0x00532223, 0x8899AABB, 0x123456EF)].all fun (p : Nat × Word × Word) =>
        nextIs (run (vecMem.setX 5 0x123456EF) p.1) fun t =>
          t.mem.read32 0x20000000 == p.2.1 && t.mem.read32 0x20000004 == p.2.2) = true := by
  decide

/-- Vectors I-M1 and I-M4: a misaligned access the hardware splits. -/
theorem test_misaligned :
    let s := vecMem.withMem vecMem.mem
    let m := { s with cfg := { s.cfg with hasMisaligned := true },
                      csr := { s.csr with mmisc := { s.csr.mmisc with misalign := true } } }
    nextIs (run m 0x00132283) (fun t => t.getX 5 == 0x808899AA) = true ∧
    nextIs (run (m.setX 5 0x123456EF) 0x00532123) (fun t =>
      t.mem.read32 0x20000000 == 0x56EFAABB && t.mem.read32 0x20000004 == 0x00FF1234) = true ∧
    nextIs (run s 0x00132283) (fun t => t.csr.mcause.exccode == 4 && t.csr.mtval == 0x20000001) = true := by
  decide

theorem test_fence :
    nextIs (run vec 0x0FF0000F) (fun t => t.pc == 0x1004) = true ∧
    nextIs (run vec 0x0000100F) (fun t => t.pc == 0x1004 && t.stale.isEmpty) = true := by
  decide

/-- x8, x9, x10 and x5, x6 before the 16-bit instructions; expected values by the 32-bit expansions of 95_test_vectors.md. -/
def vecC : State := withX vec [(2, 0x20000000), (5, 7), (6, 0x20000100), (8, 0xF0), (9, 0x3C), (10, 0x1F)]

theorem test_compressed_alu :
    ([(0x0040, 8, 0x20000004), (0x1281, 5, 0xFFFFFFE7), (0x557D, 10, 0xFFFFFFFF), (0x7101, 2, 0x1FFFFE00),
      (0x72FD, 5, 0xFFFFF000), (0x8005, 8, 0x78), (0x84FD, 9, 0), (0x893D, 10, 0xF), (0x8C05, 8, 0xB4),
      (0x8C25, 8, 0xCC), (0x8C45, 8, 0xFC), (0x8C65, 8, 0x30), (0x0286, 5, 0xE), (0x829A, 5, 0x20000100),
      (0x929A, 5, 0x20000107), (0x0001, 5, 7)].all fun (p : Nat × Reg × Word) =>
        nextIs (run vecC p.1) fun t => t.getX p.2.1 == p.2.2 && t.pc == 0x1002) = true := by
  decide

theorem test_compressed_control :
    ([(0xBFFD, 0, 0xFFE), (0x3001, 0x1002, 0x800), (0x8082, 0, 0), (0x9282, 0x1002, 6), (0xD001, 0, 0x1002),
      (0xE389, 0, 0x1002)].all fun (p : Nat × Word × Word) =>
        nextIs (run vecC p.1) fun t => t.getX 1 == p.2.1 && t.pc == p.2.2) = true := by
  decide

theorem test_compressed_memory :
    let s := withWord vecC 0x200000FC 0x12345678
    nextIs (run s 0x52FE) (fun t => t.getX 5 == 0x12345678) = true ∧
    nextIs (run (s.setX 8 0x20000080) 0x5C64) (fun t => t.getX 9 == 0x12345678) = true ∧
    nextIs (run s 0xDF96) (fun t => t.mem.read32 0x200000FC == 7) = true ∧
    nextIs (run (s.setX 11 0x20000000) 0xC1A8) (fun t => t.mem.read32 0x20000040 == 0x1F) = true := by
  decide

/-- Atomics on 0x7FFFFFFE at 0x20000000: x5 gets the old word, memory the result. -/
theorem test_amo :
    ([(0x087322AF, 0x11111111, 0x11111111), (0x007322AF, 3, 0x80000001), (0x207322AF, 0xFFFFFFFF, 0x80000001),
      (0x607322AF, 0x0000FFFF, 0x0000FFFE), (0x407322AF, 0x80000001, 0xFFFFFFFF),
      (0x807322AF, 0x80000000, 0x80000000), (0xA07322AF, 0x80000000, 0x7FFFFFFE),
      (0xC07322AF, 0x80000000, 0x7FFFFFFE), (0xE07322AF, 0x80000000, 0x80000000)].all
        fun (p : Nat × Word × Word) =>
          nextIs (run (withX (withWord vec 0x20000000 0x7FFFFFFE) [(6, 0x20000000), (7, p.2.1)]) p.1) fun t =>
            t.getX 5 == 0x7FFFFFFE && t.mem.read32 0x20000000 == p.2.2) = true := by
  decide

theorem test_lr_sc :
    let s := withX (withWord vec 0x20000000 0x7FFFFFFE) [(6, 0x20000000), (7, 0xAAAAAAAA)]
    nextIs (run s 0x100322AF) (fun t => t.getX 5 == 0x7FFFFFFE && t.resv == some 0x20000000) = true ∧
    nextIs (run (s.withResv (some 0x20000000)) 0x187324AF) (fun t =>
      t.getX 9 == 0 && t.mem.read32 0x20000000 == 0xAAAAAAAA && t.resv == none) = true ∧
    nextIs (run s 0x187324AF) (fun t => t.getX 9 == 1 && t.mem.read32 0x20000000 == 0x7FFFFFFE) = true := by
  decide

/-- One step of the word with f2, f3, f4 holding the operands leaves `r` in f1 and the flags. -/
def givesF (s : State) : Nat × DWord × DWord × DWord × DWord × BitVec 5 → Bool
  | (w, a, b, c, r, fl) => nextIs (run (withF s [(2, a), (3, b), (4, c)]) w) fun t =>
      t.getF 1 == r && t.csr.fcsr.fflags == fl && t.csr.mstatus.fs == 3

/-- A boxed single. -/
def box (v : Word) : DWord := 0xFFFFFFFF#32 ++ v

theorem test_single_arithmetic :
    ([(0x003100D3, 0x3F800000, 0x33800000, 0, 0x3F800000, 1), (0x083100D3, 0x00800000, 1, 0, 0x007FFFFF, 0),
      (0x103100D3, 0x00800001, 0x3F000000, 0, 0x00400000, 3), (0x183100D3, 0xBF800000, 0, 0, 0xFF800000, 8),
      (0x580100D3, 0x40000000, 0, 0, 0x3FB504F3, 1), (0x203100C3, 0x3F800001, 0x3F800001, 0xBF800002, 0x28800000, 0),
      (0x203100C7, 0x3F800001, 0x3F800001, 0xBF800002, 0x40000002, 1),
      (0x203100CB, 0x3F800001, 0x3F800001, 0xBF800002, 0xC0000002, 1),
      (0x203100CF, 0x3F800001, 0x3F800001, 0xBF800002, 0xA8800000, 0)].all
        fun (p : Nat × Word × Word × Word × Word × BitVec 5) =>
          givesF vec (p.1, box p.2.1, box p.2.2.1, box p.2.2.2.1, box p.2.2.2.2.1, p.2.2.2.2.2)) = true := by
  decide +kernel

theorem test_single_other :
    ([(0x203100D3, 0x3FC00000, 0xC0200000, 0xBFC00000, 0), (0x203110D3, 0x3FC00000, 0xC0200000, 0x3FC00000, 0),
      (0x203120D3, 0xBFC00000, 0xC0200000, 0x3FC00000, 0), (0x283100D3, 0x3F800000, 0x7F800001, 0x7FC00000, 16),
      (0x283110D3, 0x7FC00000, 0x3F800000, 0x3F800000, 0)].all
        fun (p : Nat × Word × Word × Word × BitVec 5) =>
          givesF vec (p.1, box p.2.1, box p.2.2.1, 0, box p.2.2.2.1, p.2.2.2.2)) = true := by
  decide

/-- One step of the word with f2 and f3 holding the operands leaves `r` in x5 and the flags. -/
def givesFx (s : State) : Nat × DWord × DWord × Word × BitVec 5 → Bool
  | (w, a, b, r, fl) => nextIs (run (withF s [(2, a), (3, b)]) w) fun t =>
      t.getX 5 == r && t.csr.fcsr.fflags == fl && t.csr.mstatus.fs == 3

theorem test_single_to_integer :
    ([(0xA03122D3, 0, 0x80000000, 1, 0), (0xA03112D3, 0x7FC00000, 0x3F800000, 0, 16),
      (0xA03102D3, 0xBF800000, 0x3F800000, 1, 0), (0xE00112D3, 0x80000001, 0, 4, 0),
      (0xC00102D3, 0xBF000000, 0, 0, 1), (0xC00112D3, 0x4F000000, 0, 0x7FFFFFFF, 16),
      (0xC01112D3, 0xBF000000, 0, 0, 1), (0xE00102D3, 0xFFC12345, 0, 0xFFC12345, 0)].all
        fun (p : Nat × Word × Word × Word × BitVec 5) =>
          givesFx vec (p.1, box p.2.1, box p.2.2.1, p.2.2.2.1, p.2.2.2.2)) = true := by
  decide

theorem test_single_from_integer :
    ([(0xD00300D3, 0xFFFFFFFF, 0xBF800000, 0), (0xD01300D3, 0xFFFFFFFF, 0x4F800000, 1),
      (0xF00300D3, 0x7F800001, 0x7F800001, 0)].all fun (p : Nat × Word × Word × BitVec 5) =>
        givesF (vec.setX 6 p.2.1) (p.1, 0, 0, 0, box p.2.2.1, p.2.2.2)) = true := by
  decide

theorem test_double_arithmetic :
    [(0x023110D3, 0x7FEFFFFFFFFFFFFF, 0x7FEFFFFFFFFFFFFF, 0, 0x7FEFFFFFFFFFFFFF, 5),
     (0x0A3100D3, 0x0010000000000000, 1, 0, 0x000FFFFFFFFFFFFF, 0),
     (0x123100D3, 0x0010000000000001, 0x3FE0000000000000, 0, 0x0008000000000000, 3),
     (0x1A3100D3, 0xBFF0000000000000, 0, 0, 0xFFF0000000000000, 8),
     (0x5A0100D3, 0x4000000000000000, 0, 0, 0x3FF6A09E667F3BCD, 1)].all (givesF vec) = true := by
  decide +kernel

theorem test_double_fused :
    [(0x223100C3, 0x3FF0000000000001, 0x3FF0000000000001, 0xBFF0000000000002, 0x3970000000000000, 0),
     (0x223100C7, 0x3FF0000000000001, 0x3FF0000000000001, 0xBFF0000000000002, 0x4000000000000002, 1),
     (0x223100CB, 0x3FF0000000000001, 0x3FF0000000000001, 0xBFF0000000000002, 0xC000000000000002, 1),
     (0x223100CF, 0x3FF0000000000001, 0x3FF0000000000001, 0xBFF0000000000002, 0xB970000000000000, 0)].all
      (givesF vec) = true := by
  decide

theorem test_double_other :
    [(0x223100D3, 0x3FF8000000000000, 0xC004000000000000, 0, 0xBFF8000000000000, 0),
     (0x222110D3, 0x7FF0000000000001, 0, 0, 0xFFF0000000000001, 0),
     (0x222120D3, 0x8000000000000000, 0, 0, 0, 0),
     (0x2A3100D3, 0, 0x8000000000000000, 0, 0x8000000000000000, 0),
     (0x2A3110D3, 0x3FF0000000000000, 0x7FF0000000000001, 0, 0x7FF8000000000000, 16),
     (0x401100D3, 0x3FB999999999999A, 0, 0, 0xFFFFFFFF3DCCCCCD, 1),
     (0x420100D3, 0xFFFFFFFF00000001, 0, 0, 0x36A0000000000000, 0)].all (givesF vec) = true ∧
    givesF (vec.setX 6 0xFFFFFFF9) (0xD20300D3, 0, 0, 0, 0xC01C000000000000, 0) = true ∧
    givesF (vec.setX 6 0xFFFFFFF9) (0xD21300D3, 0, 0, 0, 0x41EFFFFFFF200000, 0) = true := by
  decide

theorem test_double_to_integer :
    [(0xA23122D3, 0, 0x8000000000000000, 1, 0), (0xA23112D3, 0x7FF8000000000000, 0, 0, 16),
     (0xA23102D3, 0xBFF0000000000000, 0x3FF0000000000000, 1, 0), (0xE20112D3, 0x8000000000000001, 0, 4, 0),
     (0xC20122D3, 0xC1E0000000100000, 0, 0x80000000, 16), (0xC21102D3, 0x41EFFFFFFFF00000, 0, 0xFFFFFFFF, 16)].all
      (givesFx vec) = true := by
  decide

theorem test_fp_memory :
    let s := withWord (withWord (vec.setX 2 0x20000000) 0x20000008 0x7F800001) 0x2000000C 0x7FF00000
    nextIs (run s 0x00812087) (fun t => t.getF 1 == 0xFFFFFFFF7F800001) = true ∧
    nextIs (run s 0x00813087) (fun t => t.getF 1 == 0x7FF000007F800001) = true ∧
    nextIs (run (s.setF 1 0xBFF80000BFC00000) 0x00112427) (fun t =>
      t.mem.read32 0x20000008 == 0xBFC00000 && t.mem.read32 0x2000000C == 0x7FF00000) = true ∧
    nextIs (run (s.setF 1 0xBFF8000000000000) 0x00113427) (fun t =>
      t.mem.read32 0x20000008 == 0 && t.mem.read32 0x2000000C == 0xBFF80000) = true := by
  decide

theorem test_compressed_fp_memory :
    let s := withWord (withX vec [(2, 0x20000000), (9, 0x20000000), (8, 0x20000000), (10, 0x20000000)]) 0x20000004 5
    nextIs (run s 0x6292) (fun t => t.getF 5 == 0xFFFFFFFF00000005) = true ∧
    nextIs (run s 0x6144) (fun t => t.getF 9 == 0xFFFFFFFF00000005) = true ∧
    nextIs (run (withWord s 0x200000F8 9) 0x3CE0) (fun t => t.getF 8 == 9) = true ∧
    nextIs (run (withWord s 0x200001F8 9) 0x30FE) (fun t => t.getF 1 == 9) = true ∧
    nextIs (run (s.setF 5 3) 0xE216) (fun t => t.mem.read32 0x20000004 == 3) = true ∧
    nextIs (run (s.setF 9 3) 0xFD64) (fun t => t.mem.read32 0x2000007C == 3) = true ∧
    nextIs (run (s.setF 15 0x300000002) 0xA41C) (fun t => t.mem.read32 0x2000000C == 3) = true ∧
    nextIs (run (s.setF 1 0x300000002) 0xBF86) (fun t => t.mem.read32 0x200001F8 == 2) = true := by
  decide

/-- Rows S1, S4 and W2, W3 of section 2.7, and the read-only row S7. -/
theorem test_csr :
    let s := withX (vec.withCsr { vec.csr with mscratch := 0x22222222 }) [(6, 0x11111111)]
    nextIs (run s 0x340312F3) (fun t => t.getX 5 == 0x22222222 && t.csr.mscratch == 0x11111111) = true ∧
    nextIs (run s 0x34036073) (fun t => t.csr.mscratch == 0x22222222 ||| 6) = true ∧
    nextIs (run (s.setX 6 0xFFFFFFFF) 0x30031073) (fun t => csrRead t .mstatus == 0x8007F888) = true ∧
    nextIs (run (s.setX 6 0xFFFFFFFF) 0x34231073) (fun t =>
      csrRead t .mcause == 0xF8FF0FFF && t.csr.mstatus.mpie) = true ∧
    nextIs (run s 0xF11322F3) (fun t => t.csr.mcause.exccode == 2 && t.csr.mtval == 0xF11322F3) = true := by
  decide

/-- CSRRS, CSRRC, CSRRWI and CSRRCI on mscratch. -/
theorem test_csr_bits :
    let s := withX (vec.withCsr { vec.csr with mscratch := 0x22222222 }) [(6, 0x0000000F)]
    ([(0x340322F3, 0x2222222F), (0x340332F3, 0x22222220), (0x340452F3, 8), (0x340172F3, 0x22222220)].all
      fun (p : Nat × Word) => nextIs (run s p.1) fun t => t.getX 5 == 0x22222222 && t.csr.mscratch == p.2) = true := by
  decide

/-- Rows E1, E2, E3, E4 and E6 of section 2.8. -/
theorem test_environment_calls :
    let m := { vec with csr := { vec.csr with mstatus := { vec.csr.mstatus with mie := true } } }
    let open_ : State := { vec with priv := .user,
                                    csr := { vec.csr with pmp := [⟨false, .napot, true, false, false, 0x1FFFFFFF⟩] } }
    nextIs (run m 0x00000073) (fun t => csrRead t .mcause == 0x3800000B && t.pc == 0x80) = true ∧
    nextIs (run m 0x00100073) (fun t => csrRead t .mcause == 0x38000003 && t.csr.mepc == 0x1000) = true ∧
    nextIs (run m 0x9002) (fun t => csrRead t .mcause == 0x38000003 && csrRead t .msubm == 0x80) = true ∧
    nextIs (run open_ 0x00000073) (fun t => csrRead t .mcause == 8 && t.priv == .machine) = true ∧
    nextIs (run open_ 0x10500073) (fun t => t.asleep && t.pc == 0x1004) = true := by
  decide

/-- The MRET of example T1: to User Mode at mepc, mstatus 0x80. -/
theorem test_mret :
    let s := { vec with csr := { vec.csr with mepc := 0x101C, mstatus := { vec.csr.mstatus with fs := 0 } } }
    nextIs (run s 0x30200073) (fun t => t.pc == 0x101C && t.priv == .user && csrRead t .mstatus == 0x80) = true := by
  decide

/-! ### Witnesses: for every obligation with a premise, states and operands that meet it

Each theorem names its obligation and states the premises at concrete values, at a boundary of their range too. -/

/-- Machine Mode, every subset, FS on. x5 and x8 point to the ILM, x2 to the DLM, x6 to the last byte of the address
space, x7 is the most negative number. A word is stored at x5. -/
def plain : State :=
  let s := State.reset
  let s := s.withCsr { s.csr with mtvec := 0x80000803, mtvt := 0x80000400, mstatus := { s.csr.mstatus with fs := 3 } }
  withWord (withX s [(2, 0x90000000), (5, 0x80000200), (6, 0xFFFFFFFF), (7, 0x80000000), (8, 0x80000200)]) 0x80000200
    0x0403FF80

/-- `plain` with another configuration. -/
def withCfg (f : Config → Config) : State := { plain with cfg := f plain.cfg }

/-- `plain` with other CSRs. -/
def withCsrs (s : State) (f : Csrs → Csrs) : State := s.withCsr (f s.csr)

/-- A core without C and without misaligned accesses in hardware. -/
def noC : State :=
  withCsrs (withCfg fun c => { c with hasC := false, hasMisaligned := false }) fun c =>
    { c with mmisc := { c.mmisc with misalign := false } }

/-- `s` in User Mode with one PMP entry that allows everything. -/
def inUser (s : State) : State :=
  withCsrs { s with priv := .user } fun c => { c with pmp := [⟨false, .napot, true, true, true, 0x3FFFFFFF⟩] }

/-- `s` with source 19 enabled, edge-triggered and pending at the largest level, and its vector-table word. -/
def withIrq (s : State) (shv : Bool) : State :=
  withWord
    (s.withEclic { s.eclic with
      nlbits := 4
      srcs := s.eclic.srcs.set 19
        { line := true, ip := true, held := none, ie := true, trig := 1, shv := shv, ctl := 0xF0 } })
    0x8000044C 0x80004130

/-- The request source 19 makes. -/
def irq19 (shv : Bool) : Request := { id := 19, level := 0xFF, shv := shv }

/-- `s` with MIE set. -/
def mieOn (s : State) : State := withCsrs s fun c => { c with mstatus := { c.mstatus with mie := true } }

/-- `s` with a locked entry that allows nothing in the four bytes at `a`. -/
def denied (s : State) (a : Word) : State :=
  withCsrs s fun c => { c with pmp := [⟨true, .na4, false, false, false, a.extractLsb' 2 30⟩] }

/-- `s` where the bus answers every access to the four bytes at `a` with an error. -/
def busFails (s : State) (a : Word) : State :=
  { s with cfg := { s.cfg with busErrors := [{ base := a.toNat, size := 4, fetch := true, load := true, store := true }] } }

theorem test_witness_JumpResults :
    noC.cfg.hasC = false ∧ (noC.pc + BitVec.ofInt 32 (2 * (2#20).toInt)).getLsbD 1 = false ∧
    (noC.pc + BitVec.ofInt 32 (2 * (0x80000#20).toInt)).getLsbD 1 = false ∧
    (noC.getX 5 + sext 0x800#12).getLsbD 1 = false ∧ plain.cfg.hasC = true := by
  decide

theorem test_witness_BranchResults :
    noC.cfg.hasC = false ∧ (noC.pc + BitVec.ofInt 32 (2 * (0x800#12).toInt)).getLsbD 1 = false ∧
    noC.getX 5 = noC.getX 8 ∧ noC.getX 5 ≠ noC.getX 6 ∧ (noC.getX 7).toInt < (noC.getX 6).toInt ∧
    (noC.getX 7).toInt ≤ (noC.getX 7).toInt ∧ (noC.getX 7).toNat < (noC.getX 6).toNat ∧
    (noC.getX 6).toNat ≤ (noC.getX 6).toNat := by
  decide

theorem test_witness_MisalignedTargets :
    noC.cfg.hasC = false ∧ noC.pendingFault = none ∧
    (noC.pc + BitVec.ofInt 32 (2 * (1#20).toInt)).getLsbD 1 = true ∧
    ((noC.getX 6 + sext 0#12) &&& 0xFFFFFFFE#32).getLsbD 1 = true ∧
    (noC.pc + BitVec.ofInt 32 (2 * (0x7FF#12).toInt)).getLsbD 1 = true := by
  decide

theorem test_witness_LoadResults :
    plainLoad plain (plain.getX 5 + sext 0#12) 1 = true ∧ plainLoad plain (plain.getX 5 + sext 0#12) 2 = true ∧
    plainLoad plain (plain.getX 5 + sext 0x7FF#12) 4 = true ∧ plainLoad plain (plain.getX 6 + sext 0#12) 1 = true ∧
    plainLoad plain (plain.getX 6 + sext 0#12) 2 = true ∧ plainLoad plain (plain.getX 6 + sext 0#12) 4 = true := by
  decide

theorem test_witness_StoreResults :
    plain.mem.wf = true ∧ plainStore plain (plain.getX 5 + sext 0#12) 1 = true ∧
    plainStore plain (plain.getX 5 + sext 0#12) 2 = true ∧ plainStore plain (plain.getX 5 + sext 0x800#12) 4 = true ∧
    plainStore plain (plain.getX 6 + sext 0#12) 1 = true ∧ plainStore plain (plain.getX 6 + sext 0#12) 4 = true := by
  decide

theorem test_witness_MultiplyDivideResults :
    plain.cfg.hasM = true ∧ plain.getX 7 = 0x80000000 ∧ plain.getX 0 = 0 ∧ plain.getX 6 = 0xFFFFFFFF := by
  decide

theorem test_witness_CompressedAluResults : plain.cfg.hasC = true := by decide

theorem test_witness_CompressedControlResults :
    plain.cfg.hasC = true ∧ plain.getX (1#2 ++ 1#3) = 0 ∧ plain.getX (1#2 ++ 0#3) ≠ 0 := by
  decide

theorem test_witness_CompressedLoadStoreResults :
    plain.cfg.hasC = true ∧ plain.mem.wf = true ∧
    plainLoad plain (plain.getX (1#2 ++ 0#3) + BitVec.ofNat 32 (4 * (31#5).toNat)) 4 = true ∧
    plainLoad plain (plain.getX 2 + BitVec.ofNat 32 (4 * (63#6).toNat)) 4 = true ∧
    plainStore plain (plain.getX (1#2 ++ 0#3) + BitVec.ofNat 32 (4 * (0#5).toNat)) 4 = true ∧
    plainStore plain (plain.getX 2 + BitVec.ofNat 32 (4 * (63#6).toNat)) 4 = true := by
  decide

/-- x9 is the last word of the address space. -/
def atomic : State := (plain.setX 9 0xFFFFFFFC).withResv (some 0x80000200)

theorem test_witness_ReservationResults :
    atomic.cfg.hasA = true ∧ plainAtomic atomic .load .load (atomic.getX 5) = true ∧
    plainAtomic atomic .store .store (atomic.getX 5) = true ∧ atomic.mem.wf = true ∧
    atomic.resv = some (atomic.getX 5) ∧ atomic.cfg.scSpuriousFail = false ∧
    plainAtomic atomic .store .store (atomic.getX 9) = true ∧ atomic.resv ≠ some (atomic.getX 9) := by
  decide

theorem test_witness_AtomicResults :
    atomic.cfg.hasA = true ∧ atomic.mem.wf = true ∧ plainAtomic atomic .amo .load (atomic.getX 5) = true ∧
    plainAtomic atomic .amo .load (atomic.getX 9) = true := by
  decide

/-- The subset premises of the floating-point statements. -/
theorem fpReady_plain : FpReady plain plain.cfg.hasF ∧ FpReady plain plain.cfg.hasD := by
  unfold FpReady; decide

theorem test_witness_FpLoadResults :
    FpReady plain plain.cfg.hasF ∧ FpReady plain plain.cfg.hasD ∧ plain.cfg.hasC = true ∧
    plainLoad plain (plain.getX 5 + sext 0#12) 4 = true ∧ plainLoad plain (plain.getX 5 + sext 0x7FF#12) 8 = true ∧
    plainLoad plain (plain.getX (1#2 ++ 0#3) + BitVec.ofNat 32 (4 * (31#5).toNat)) 4 = true ∧
    plainLoad plain (plain.getX 2 + BitVec.ofNat 32 (4 * (63#6).toNat)) 4 = true ∧
    plainLoad plain (plain.getX (1#2 ++ 0#3) + BitVec.ofNat 32 (8 * (31#5).toNat)) 8 = true ∧
    plainLoad plain (plain.getX 2 + BitVec.ofNat 32 (8 * (63#6).toNat)) 8 = true := by
  unfold FpReady; decide

theorem test_witness_FpStoreResults :
    plain.mem.wf = true ∧ FpReady plain plain.cfg.hasF ∧ FpReady plain plain.cfg.hasD ∧ plain.cfg.hasC = true ∧
    plainStore plain (plain.getX 5 + sext 0#12) 4 = true ∧ plainStore plain (plain.getX 6 + sext 0x7FF#12) 8 = true ∧
    plainStore plain (plain.getX (1#2 ++ 0#3) + BitVec.ofNat 32 (4 * (31#5).toNat)) 4 = true ∧
    plainStore plain (plain.getX 2 + BitVec.ofNat 32 (4 * (63#6).toNat)) 4 = true ∧
    plainStore plain (plain.getX (1#2 ++ 0#3) + BitVec.ofNat 32 (8 * (31#5).toNat)) 8 = true ∧
    plainStore plain (plain.getX 2 + BitVec.ofNat 32 (8 * (63#6).toNat)) 8 = true := by
  unfold FpReady; decide

theorem test_witness_FpArithmeticResults :
    FpReady plain plain.cfg.hasF ∧ FpReady plain plain.cfg.hasD ∧ resolveRm 0 plain.csr.fcsr.frm = some .rne ∧
    resolveRm 4 plain.csr.fcsr.frm = some .rmm ∧ resolveRm 1 plain.csr.fcsr.frm = some .rtz ∧
    resolveRm 7 plain.csr.fcsr.frm = some .rne := by
  unfold FpReady; decide

/-- The number 1 of single precision meets the premises of `IsRounded`, below the limit of the format. -/
theorem test_witness_RoundingIsCorrect :
    (1 : Nat) ≠ 0 ∧ (2 : ℝ) ^ (0 : ℤ) ≤ |((FVal.num (.fin false 1 0) : ℚ) : ℝ)| ∧
    |((FVal.num (.fin false 1 0) : ℚ) : ℝ)| < (2 : ℝ) ^ ((0 : ℤ) + 1) ∧
    (-23 : ℤ) = max fmtS.qMin (0 - fmtS.fracBits) ∧
    RoundsToInt .rne (((FVal.num (.fin false 1 0) : ℚ) : ℝ) / (2 : ℝ) ^ (-23 : ℤ)) 8388608 ∧
    RoundsToInt .rne (((FVal.num (.fin false 1 0) : ℚ) : ℝ) / (2 : ℝ) ^ ((0 : ℤ) - fmtS.fracBits)) 8388608 ∧
    |((8388608 : ℤ) : ℝ) * 2 ^ (-23 : ℤ)| < (2 : ℝ) ^ fmtS.eLimit := by
  have hq : fmtS.qMin = -149 := by decide
  have hf : (fmtS.fracBits : ℤ) = 23 := by decide
  have he : fmtS.eLimit = 128 := by decide
  rw [hq, hf, he]
  norm_num [FVal.num, RoundsToInt, zpow_neg]

/-- And 2^128, at the limit. -/
theorem test_witness_RoundingIsCorrect_limit :
    (2 : ℝ) ^ (128 : ℤ) ≤ |((FVal.num (.fin true 1 128) : ℚ) : ℝ)| ∧
    |((FVal.num (.fin true 1 128) : ℚ) : ℝ)| < (2 : ℝ) ^ ((128 : ℤ) + 1) ∧
    (105 : ℤ) = max fmtS.qMin (128 - fmtS.fracBits) ∧
    RoundsToInt .rne (((FVal.num (.fin true 1 128) : ℚ) : ℝ) / (2 : ℝ) ^ (105 : ℤ)) (-8388608) ∧
    (2 : ℝ) ^ fmtS.eLimit ≤ |((-8388608 : ℤ) : ℝ) * 2 ^ (105 : ℤ)| := by
  have hq : fmtS.qMin = -149 := by decide
  have hf : (fmtS.fracBits : ℤ) = 23 := by decide
  have he : fmtS.eLimit = 128 := by decide
  rw [hq, hf, he]
  norm_num [FVal.num, RoundsToInt]

theorem test_witness_ArithmeticIsRounded :
    let x := FVal.fin false 3 (-1)
    let y := FVal.fin true 1 0
    let z := FVal.fin false 1 (-149)
    x.isFin = true ∧ y.isFin = true ∧ z.isFin = true ∧ x.num + y.num ≠ 0 ∧ x.num - y.num ≠ 0 ∧ x.num * y.num ≠ 0 ∧
    x.num ≠ 0 ∧ y.num ≠ 0 ∧ x.num * y.num + z.num ≠ 0 ∧ 0 < x.num ∧ (-2147483648 : Int) ≠ 0 := by
  refine ⟨rfl, rfl, rfl, ?_⟩
  norm_num [FVal.num]

/-- NaNs, sums that are 0 with and without equal signs, and multiply-adds with infinities and with the exact sum 0. -/
theorem test_witness_SpecialOperands :
    (FVal.nan true).isNan = true ∧ (FVal.nan false).isNan = true ∧ (FVal.fin true 0 0).isFin = true ∧
    (FVal.fin false 1 127).isFin = true ∧ (1 : Nat) ≠ 0 ∧ (FVal.inf true).isNan = false ∧
    (FVal.fin true 1 0).num + (FVal.fin false 1 0).num = 0 ∧ (FVal.fin true 0 0).num + (FVal.fin true 0 1).num = 0 ∧
    InfProduct (.inf true) (.fin false 1 0) ∧ InfProduct (.fin true 1 0) (.inf true) ∧ InfProduct (.inf true) (.inf false) ∧
    FVal.inf true = .inf ((FVal.inf true).isNeg != (FVal.inf false).isNeg) ∧
    FVal.inf false = .inf (!((FVal.inf true).isNeg != (FVal.inf false).isNeg)) ∧
    (FVal.fin true 1 0).num * (FVal.fin false 2 0).num + (FVal.fin false 1 1).num = 0 := by
  refine ⟨rfl, rfl, rfl, rfl, by decide, rfl, ?_, ?_, .left _ _ _ _ (by decide), .right _ _ _ _ (by decide), .both _ _, rfl,
    rfl, ?_⟩ <;> norm_num [FVal.num]

theorem test_witness_SignAndMoveResults : FpReady plain plain.cfg.hasF ∧ FpReady plain plain.cfg.hasD :=
  fpReady_plain

/-- Operands of both precisions: NaNs of both kinds, both zeros, both infinities. -/
theorem test_witness_MinMaxResults :
    FpReady plain plain.cfg.hasF ∧ FpReady plain plain.cfg.hasD ∧
    fmtS.unpack 0x7F800001 = .nan true ∧ fmtS.unpack 0x7FC00000 = .nan false ∧
    fmtD.unpack 0x7FF0000000000001 = .nan true ∧ fmtD.unpack 0x7FF8000000000000 = .nan false ∧
    (fmtS.unpack 0xFF800000).place < (fmtS.unpack 0x7F800000).place ∧
    (fmtS.unpack 0x80000000).place = (fmtS.unpack 0).place ∧
    (fmtD.unpack 0xFFF0000000000000).place < (fmtD.unpack 0x7FF0000000000000).place ∧
    (fmtD.unpack 0x8000000000000000).place = (fmtD.unpack 0).place := by
  have s1 : fmtS.unpack 0xFF800000 = .inf true := by decide
  have s2 : fmtS.unpack 0x7F800000 = .inf false := by decide
  have s3 : fmtS.unpack 0x80000000 = .fin true 0 (-149) := by decide
  have s4 : fmtS.unpack 0 = .fin false 0 (-149) := by decide
  have d1 : fmtD.unpack 0xFFF0000000000000 = .inf true := by decide
  have d2 : fmtD.unpack 0x7FF0000000000000 = .inf false := by decide
  have d3 : fmtD.unpack 0x8000000000000000 = .fin true 0 (-1074) := by decide
  have d4 : fmtD.unpack 0 = .fin false 0 (-1074) := by decide
  refine ⟨fpReady_plain.1, fpReady_plain.2, by decide, by decide, by decide, by decide, ?_⟩
  rw [s1, s2, s3, s4, d1, d2, d3, d4]
  simp [FVal.place, FVal.num]

/-- f1 a signaling NaN, f2 a quiet one, f3 -inf, of both precisions in turn. -/
theorem test_witness_CompareResults :
    let s := withF plain [(1, box 0x7F800001), (2, box 0x7FC00000), (3, box 0xFF800000)]
    let d := withF plain [(1, 0x7FF0000000000001), (3, 0xFFF0000000000000)]
    (s.cfg.hasF = true ∧ s.csr.mstatus.fs ≠ 0#2) ∧ (d.cfg.hasD = true ∧ d.csr.mstatus.fs ≠ 0#2) ∧
    (s.valS 1).isNan = true ∧ (s.valS 2).isNan = true ∧ (s.valS 3).isNan = false ∧
    (d.valD 1).isNan = true ∧ (d.valD 3).isNan = false := by
  decide

theorem test_witness_ClassResults : FpReady plain plain.cfg.hasF ∧ FpReady plain plain.cfg.hasD := fpReady_plain

/-- f1 = 2^31, one beyond the range of a signed integer, f2 the first single below it, f3 = 2.5, f4 a NaN. -/
def toInt : State := withF plain [(1, box 0x4F000000), (2, box 0xCF000001), (3, box 0x40200000), (4, box 0x7FC00000)]

theorem test_witness_ConversionResults_toInteger :
    resolveRm 0 toInt.csr.fcsr.frm = some .rne ∧ FpReady toInt toInt.cfg.hasF ∧ FpReady toInt toInt.cfg.hasD ∧
    (toInt.valS 4).isNan = true ∧ toInt.valS 1 = .fin false 8388608 8 ∧ toInt.valS 2 = .fin true 8388609 8 ∧
    toInt.valS 3 = .fin false 10485760 (-22) ∧ (toInt.valS 3).isFin = true := by
  unfold FpReady; decide

/-- The integers these three values round to, to the nearest: too large, too small, in range. -/
theorem test_witness_ConversionResults_rounded :
    RoundsToInt .rne ((FVal.num (.fin false 8388608 8) : ℚ) : ℝ) 2147483648 ∧ (2147483647 : ℤ) < 2147483648 ∧
    RoundsToInt .rne ((FVal.num (.fin true 8388609 8) : ℚ) : ℝ) (-2147483904) ∧ (-2147483904 : ℤ) < -2147483648 ∧
    RoundsToInt .rne ((FVal.num (.fin false 10485760 (-22)) : ℚ) : ℝ) 2 := by
  norm_num [FVal.num, RoundsToInt, zpow_neg]

theorem test_witness_ConversionResults :
    resolveRm 4 plain.csr.fcsr.frm = some .rmm ∧ FpReady plain plain.cfg.hasF ∧ FpReady plain plain.cfg.hasD := by
  unfold FpReady; decide

/-- frm holds an illegal mode. -/
def badFrm : State := withCsrs plain fun c => { c with fcsr := { frm := 7, fflags := 0 } }

theorem test_witness_IllegalRoundingModes :
    RoundingField badFrm.cfg (.faddS 1 2 3 7) 7 badFrm.cfg.hasF ∧ FpReady badFrm badFrm.cfg.hasF ∧
    badFrm.pendingFault = none ∧ badFrm.csr.fcsr.frm = 7#3 ∧
    RoundingField badFrm.cfg (.fcvtDWu 1 2 5) 5 badFrm.cfg.hasD ∧ FpReady badFrm badFrm.cfg.hasD :=
  ⟨.faddS .., ⟨by decide, by decide⟩, by decide, by decide, .fcvtDWu .., ⟨by decide, by decide⟩⟩

theorem test_witness_IllegalInstructions :
    noC.pendingFault = none ∧ (subsetOf (.cNop 0)).present noC.cfg = false ∧ vec.pendingFault = none ∧
    (subsetOf (.fld 1 2 0)).needsFs = true ∧ State.reset.csr.mstatus.fs = 0#2 ∧ State.reset.pendingFault = none := by
  decide

theorem test_witness_EnvironmentCalls :
    plain.pendingFault = none ∧ plain.cfg.hasC = true ∧ (inUser plain).pendingFault = none := by
  decide

/-- In Machine Mode with each kind of trap to return from, with and without the state stack. -/
theorem test_witness_ReturnFromTrap :
    (inUser plain).priv = .user ∧ (inUser plain).pendingFault = none ∧ plain.pendingFault = none ∧
    plain.priv = .machine ∧ plain.cfg.hasUmode = true ∧ plain.cfg.hasNestedStack = true ∧
    plain.csr.mcause.interrupt = false ∧ vec.priv = .machine ∧ vec.cfg.hasNestedStack = false ∧
    vec.cfg.hasUmode = true ∧ vec.pendingFault = none ∧
    (withCsrs plain fun c => { c with mcause := { c.mcause with interrupt := true } }).csr.mcause.interrupt = true ∧
    (State.resetWith { Config.default with hasUmode := false }).csr.mstatus.mpp = .machine := by
  decide

/-- A sleeping hart with nothing to wake it, with an NMI, with a request, and with the event. -/
theorem test_witness_SleepResults :
    plain.pendingFault = none ∧ (plain.withAsleep true).asleep = true ∧
    (plain.withNmiPending true).csr.msubm.typ ≠ 3#2 ∧ presented plain.cfg plain.eclic = none ∧
    presented plain.cfg (withIrq plain true).eclic = some (irq19 true) ∧ plain.csr.wfe = false ∧
    (withCsrs (plain.withRxEvt true) fun c => { c with wfe := true, mcountinhibit := { cy := true, ir := false } }).rxEvt = true := by
  decide

/-- `plain` asleep, with a group of events before the step. -/
def asleepWith (g : List Input) : State := (plain.withAsleep true).withInputs [g]

/-- No event, a tick, and a bus write to the word reserved, after each of which the hart sleeps; an NMI edge and rx_evt. -/
theorem test_witness_SleepResults_events :
    (∀ g ∈ [[], [Input.tick], [.busWrite 0x80000200 1, .irq 18 true], [.nmiEdge], [.rxEvt true]],
      (asleepWith g).asleep = true ∧ (arrive (asleepWith g)).asleep = true ∧ ∀ k ∈ [false, true], Input.reset k ∉ g) ∧
    (arrive (asleepWith [.tick])).nmiPending = false ∧ (arrive (asleepWith [.nmiEdge])).nmiPending = true ∧
    (arrive (asleepWith [.rxEvt true])).rxEvt = true ∧
    (arrive ((asleepWith [.busWrite 0x80000200 1]).withResv (some 0x80000200))).resv = none := by
  decide

/-- One access for each of the reasons of R34. -/
theorem test_witness_CsrAccessRights :
    plain.pendingFault = none ∧ (inUser plain).pendingFault = none ∧
    CsrForbidden plain 0x7FF true ∧ CsrForbidden plain 0xF11 true ∧ CsrForbidden (inUser plain) 0x300 false ∧
    CsrForbidden (inUser plain) 0xC00 false ∧ CsrForbidden (inUser plain) 0xC81 false ∧
    CsrForbidden (inUser plain) 0xC02 false ∧ CsrForbidden State.reset 0x003 (1#5 != 0) := by
  have absent : ∀ c, ¬ CsrAt plain.cfg 0x7FF c := by
    rintro c (h | h | h | ⟨h, -⟩ | ⟨h, -⟩ | ⟨k, h, -, hk, -⟩ | ⟨k, h, -, hk, -⟩ | ⟨h, -⟩ | ⟨h, -⟩ | ⟨h, -⟩ | ⟨h, -⟩ | ⟨h, -⟩ |
      ⟨h, -⟩) <;> simp at h <;> omega
  exact ⟨by decide, by decide, .absent absent, .readOnly rfl (by decide),
    .machineOnly rfl (by decide), .cycle rfl (by decide) rfl, .time rfl (by decide) rfl,
    .instret rfl (by decide) rfl, .fpOff (by decide) (by decide)⟩

/-- A CSR of each kind of condition, the last PMP registers and the address after each. -/
theorem test_witness_CsrAccessRights_at :
    CsrAt plain.cfg 0x300 .mstatus ∧ CsrAt plain.cfg 0x3A3 (.pmpcfg 3) ∧ CsrAt plain.cfg 0x3BF (.pmpaddr 15) ∧
    CsrAt plain.cfg 0x7CA .mcacheCtl ∧ CsrAt plain.cfg 0x7DE .meccLock ∧ CsrAt plain.cfg 0x7DC .msavedcause2 ∧
    plain.cfg.pmpEntries = 16 ∧ Csr.ofAddr 0x3A4 = some (.pmpcfg 4) ∧ Csr.existsIn plain.cfg (.pmpcfg 4) = false ∧
    Csr.existsIn plain.cfg (.pmpaddr 16) = false ∧ Csr.existsIn vec.cfg .msavedcause2 = false ∧
    Csr.existsIn { plain.cfg with hasIcache := false } .mcacheCtl = false :=
  ⟨.machine (by decide), .pmpcfg 3 (by decide) rfl (by decide) (by decide), .pmpaddr 15 (by decide) rfl (by decide) (by decide),
    .cache (by decide) rfl, .ecc (by decide) rfl, .stack (by decide) rfl, by decide⟩

theorem test_witness_CsrReadResults :
    Csr.ofAddr 0x300 = some .mstatus ∧ Csr.mstatus.isPoint = false ∧ Csr.mstatus.permitted plain false = true ∧
    Csr.ofAddr 0xFC2 = some .mcfgInfo ∧ Csr.mcfgInfo.isPoint = false ∧ Csr.mcfgInfo.permitted plain false = true ∧
    Csr.ofAddr 0x001 = some .fflags ∧ Csr.fflags.permitted (inUser plain) false = true := by
  decide

theorem test_witness_CsrWriteResults :
    Csr.ofAddr 0x7C0 = some .milmCtl ∧ Csr.milmCtl.isPoint = false ∧ Csr.milmCtl.permitted plain true = true ∧
    csrWriteRefused plain .milmCtl 0x80000000 = false ∧ csrWriteRefused plain .milmCtl (plain.getX 31) = false ∧
    Csr.ofAddr 0x3A3 = some (.pmpcfg 3) ∧ (Csr.pmpcfg 3).permitted plain true = true ∧
    csrWriteRefused plain (.pmpcfg 3) (csrRead plain (.pmpcfg 3) ||| plain.getX 31) = false ∧ (31#5) ≠ 0#5 := by
  decide

theorem test_witness_CsrLayouts :
    (0 : Nat) < 4 ∧ plain.csr.pmp[4 * 0 + 0]? = some .zero ∧ (3 : Nat) < 4 ∧ plain.csr.pmp[4 * 3 + 3]? = some .zero ∧
    plain.csr.pmp[15]? = some .zero := by
  decide

/-- msavestatus with PTYP2 = 3, MPP2 = 3, MPIE2 = 1, PTYP1 = 2, MPP1 = 3, MPIE1 = 1 (11_state_nuclei_csr.md R108), and
milm_ctl, mdlm_ctl with the bases 0x80000000 and 0x90000000. -/
theorem test_csr_layouts :
    csrRead (withCsrs plain fun c => { c with
      save1 := { c.save1 with ptyp := 2, mpp := 3, mpie := true }
      save2 := { c.save2 with ptyp := 3, mpp := 3, mpie := true } }) .msavestatus = 0x0000C787 ∧
    csrRead plain .milmCtl = 0x80000001 ∧ csrRead plain .mdlmCtl = 0x90000001 := by
  decide

/-- The source 19 asks in a core whose MNXTI_RETURNS is entry. -/
def tableEntry : State := { withIrq plain false with cfg := { plain.cfg with mnxtiReturns := .entry } }

/-- Without a request, and with one from source 19, in both readings of MNXTI_RETURNS. -/
theorem test_witness_InterruptClaimResults :
    plain.priv = .machine ∧ (∀ r, ¬ NextInterrupt plain r) ∧ NextInterrupt (withIrq plain false) (irq19 false) ∧
    (withIrq plain false).cfg.hasUmode = true ∧ (withIrq plain false).cfg.mnxtiReturns = .handler ∧
    (tableEntry.priv = .machine ∧ NextInterrupt tableEntry (irq19 false) ∧ tableEntry.cfg.mnxtiReturns = .entry) ∧
    plainFetch (withIrq plain false) .machine (tableWord (withIrq plain false) 19) = true := by
  have nothing : presented plain.cfg plain.eclic = none := by decide
  refine ⟨by decide, fun r h => ?_, ⟨by decide, by decide, by decide⟩, by decide, by decide,
    ⟨by decide, ⟨by decide, by decide, by decide⟩, by decide⟩, by decide⟩
  have := h.1
  rw [nothing] at this
  cases this

/-- jalmnxti goes to the address of the table word, without a read of it (00_scope.md R8, 92_eei_decisions.md D15, log 48). -/
theorem test_jalmnxti_entry :
    nextIs (exec (.csrrw 1 0x7ED 2) (denied tableEntry 0x8000044C)) (fun t =>
      t.pc == 0x8000044C && t.getX 1 == 0x1000 && t.csr.mcause.exccode == 19) = true := by
  decide

/-- The vector table in the DLM, and in the registers of the ECLIC, where the word of source 19 is {clicintctl, clicintattr,
clicintie, clicintip} (60_exceptions.md R564, R583, log 26). -/
theorem test_table_regions :
    nextIs (exec (.csrrw 1 0x7ED 2) (withCsrs (withWord (withIrq plain false) 0x9000044C 0x80004130) fun c =>
      { c with mtvt := 0x90000400 })) (fun t => t.pc == 0x80004130) = true ∧
    nextIs (exec (.csrrw 1 0x7ED 2) (withCsrs (withIrq plain false) fun c => { c with mtvt := 0x0C001000 })) (fun t =>
      t.pc == 0xFFC20100) = true := by
  decide

theorem test_witness_InterruptClaimResults_faults :
    let p := denied (withIrq plain false) 0x8000044C
    let b := busFails (withIrq plain false) 0x8000044C
    p.priv = .machine ∧ p.pendingFault = none ∧ NextInterrupt p (irq19 false) ∧
    FetchRefused p .machine (tableWord p 19) 1 ∧ ReadsTable p (.csrrw 1 0x7ED 2) ∧ b.priv = .machine ∧
    b.pendingFault = none ∧ NextInterrupt b (irq19 false) ∧ FetchRefused b .machine (tableWord b 19) 2 ∧
    ReadsTable b (.csrrci 1 0x345 8) := by
  refine ⟨?_, ?_, ?_, ?_, .jump _ _ (by decide), ?_, ?_, ?_, ?_, .clear _ _ (by decide)⟩ <;>
    (try unfold NextInterrupt) <;> (try unfold FetchRefused) <;> decide

/-- The source 19 asks, and a 2-bit error is in its word of the vector table, with the exception of the ILM on or off. -/
def tableErr (shv excp : Bool) : State :=
  (withCsrs (mieOn (withIrq plain shv)) fun c => { c with milm := { rwecc := false, excpEn := excp, eccEn := true } }).withEccHits
    [⟨.fetch, .ilm, .data, 0x80000448, true, 0x600000000⟩]

theorem test_witness_InterruptClaimResults_ecc :
    let e := tableErr false true
    let n := tableErr false false
    (e.priv = .machine ∧ NextInterrupt e (irq19 false) ∧ FetchAllowed e .machine (tableWord e 19) ∧
      EccTraps e .fetch (tableWord e 19, 4) ∧ e.pendingFault = none) ∧
    (n.priv = .machine ∧ NextInterrupt n (irq19 false) ∧ FetchAllowed n .machine (tableWord n 19) ∧
      ¬ EccTraps n .fetch (tableWord n 19, 4) ∧ ReadsTable n (.csrrw 1 0x7ED 2) ∧ ReadsTable n (.csrrsi 1 0x345 8) ∧
      ∃ m : Memory, m.wf = true ∧ ∀ b, ByteArrives n (EccMet n .fetch [(tableWord n 19, 4)]) m b) := by
  refine ⟨?_, by decide, ?_, ?_, ?_, .jump _ _ (by decide), .set _ _ (by decide), exists_arrives (by decide) ..⟩ <;>
    (try unfold NextInterrupt) <;> (try unfold EccTraps EccMeets) <;> (try unfold FetchAllowed) <;> decide

/-- Of the table word 0x80004130 bits 1 and 2 arrive wrong, so jalmnxti and a vectored interrupt go to 0x80004136. -/
theorem test_table_error :
    nextIs (exec (.csrrw 1 0x7ED 2) (tableErr false false)) (fun t =>
      t.pc == 0x80004136 && t.csr.mecc.ramid == 0b01000) = true ∧
    nextIs (step (tableErr true false)) (fun t => t.pc == 0x80004136 && t.csr.mecc.ramid == 0b01000) = true := by
  decide

theorem test_witness_ScratchAndPushResults :
    plain.priv = .machine ∧ plain.csr.mstatus.mpp ≠ .machine ∧ plain.mem.wf = true ∧
    plainStore plain (plain.getX 2 + BitVec.ofNat 32 (4 * (31#5).toNat)) 4 = true ∧
    ¬ (((withCsrs plain fun c => { c with mintstatus := { mil := 63, uil := 0 } }).csr.mcause.mpil = 0#8) ↔
       ((withCsrs plain fun c => { c with mintstatus := { mil := 63, uil := 0 } }).csr.mintstatus.mil = 0#8)) := by
  decide

/-- `plain` with injection into the D-cache's tags on, which no step leads to. -/
def injecting : State := withCsrs plain fun c => { c with dcache := { c.dcache with rwtecc := true } }

theorem test_witness_RefusedCsrForms :
    plain.priv = .machine ∧ Csr.ofAddr 0x345 = some .mnxti ∧ Csr.mnxti.isPoint = true ∧
    Csr.ofAddr 0x7EF = some .pushmepc ∧ Csr.pushmepc.isPoint = true ∧ Csr.ofAddr 0x7C0 = some .milmCtl ∧
    plain.csr.meccLock = false ∧ Csr.milmCtl.existsIn plain.cfg = true ∧ Csr.ofAddr 0x7CA = some .mcacheCtl ∧
    Csr.mcacheCtl.existsIn plain.cfg = true ∧ Injects .milmCtl (plain.getX 6) ∧
    Injects .mcacheCtl (csrRead plain .mcacheCtl ||| plain.getX 6) ∧
    Injects .milmCtl (csrRead plain .milmCtl ||| (8#5).zeroExtend 32) ∧ (8#5 : BitVec 5) ≠ 0#5 ∧
    Injects .mcacheCtl (csrRead injecting .mcacheCtl &&& ~~~injecting.getX 0) ∧
    Injects .mcacheCtl (csrRead injecting .mcacheCtl &&& ~~~(1#5).zeroExtend 32) := by
  unfold Injects; decide

/-- Data accesses the model stops on: an execute-only ILM, a byte of the TIMER, 8 bytes of the ECLIC. -/
theorem test_witness_RefusedAccesses_data :
    let x := withCfg fun c => { c with ilmXonly := true }
    let t := plain.setX 5 0x02000FFF
    let e := plain.setX 5 0x0C000000
    (DataAccess x (.lw 7 5 0) 4 .load (x.getX 5 + sext 0#12) 4 ∧ x.cfg.ilmXonly = true ∧
      ∀ q ∈ busAccesses (x.getX 5 + sext 0#12) 4, region x.cfg q.1 = .ilm ∧ pmpCheck x x.priv .load q.1 = true ∧
        busError x.cfg .load q.1 q.2 = false) ∧
    (DataAccess t (.lb 7 5 0) 4 .load (t.getX 5 + sext 0#12) 1 ∧
      ∀ q ∈ busAccesses (t.getX 5 + sext 0#12) 1, region t.cfg q.1 = .timer) ∧
    (DataAccess e (.fld 7 5 0) 4 .load (e.getX 5 + sext 0#12) 8 ∧
      ∀ q ∈ busAccesses (e.getX 5 + sext 0#12) 8, region e.cfg q.1 = .eclic) := by
  refine ⟨⟨.lw .., ?_⟩, ⟨.lb .., ?_⟩, ⟨.fld _ _ _ ⟨by decide, by decide⟩, ?_⟩⟩ <;> decide

/-- x5 points to the first word of the PPI, x6 to the last byte of the FIO. -/
def ports : State :=
  (((withCfg fun c => { c with hasPpi := true, ppiBpa := 0x280000, ppiSize := 1, hasFio := true, fioBpa := 0x300000,
                               fioSize := 1 }).setX 5 0xA0000000).setX 6 0xC00003FF)

/-- Loads, a store of 8 bytes, one byte at the end of a port, a load that is split, and atomics. -/
theorem test_witness_PortAccesses :
    (DataAccess ports (.fsd 1 5 0) 4 .store (ports.getX 5 + sext 0#12) 8 ∧
      ¬ Unaligned ports (ports.getX 5 + sext 0#12) 8 ∧
      AllowedIn ports .store (busAccesses (ports.getX 5 + sext 0#12) 8) [.ppi, .fio]) ∧
    (DataAccess ports (.lbu 1 6 0) 4 .load (ports.getX 6 + sext 0#12) 1 ∧
      AllowedIn ports .load (busAccesses (ports.getX 6 + sext 0#12) 1) [.ppi, .fio]) ∧
    (¬ Unaligned ports (ports.getX 5 + sext 1#12) 4 ∧
      AllowedIn ports .load (busAccesses (ports.getX 5 + sext 1#12) 4) [.ppi, .fio]) ∧
    ports.cfg.hasA = true ∧ AtomicAccess ports (.amoxorW 1 5 7 true true) .amo (ports.getX 5) ∧
    4 ∣ (ports.getX 5).toNat ∧ AllowedIn ports .amo [(ports.getX 5, 4)] [.ppi, .fio] ∧
    AllowedIn ports .load [(ports.getX 5, 4)] [.ppi, .fio] ∧ AllowedIn ports .store [(ports.getX 5, 4)] [.ppi, .fio] := by
  refine ⟨⟨.fsd _ _ _ ⟨by decide, by decide⟩, ?_⟩, ⟨.lbu .., ?_⟩, ?_, by decide, .xor .., by decide, ?_⟩ <;>
    (unfold AllowedIn; try unfold Unaligned) <;> decide

theorem test_witness_RefusedAccesses_atomic :
    let e := plain.setX 5 0x0C000000
    AtomicAccess e (.amoaddW 7 5 6 true false) .amo (e.getX 5) ∧ e.cfg.hasA = true ∧ 4 ∣ (e.getX 5).toNat ∧
    pmpCheck e e.priv .amo (e.getX 5) = true ∧ busError e.cfg .amo (e.getX 5) 4 = false ∧
    region e.cfg (e.getX 5) = .eclic :=
  ⟨.add .., by decide, by decide, by decide, by decide, by decide⟩

/-- No request is there, so no interrupt is due. -/
theorem no_trap (s : State) (h : s.pendingFault = none) (hn : s.nmiPending = false) (hp : presented s.cfg s.eclic = none) :
    NoTrapDue s := by
  refine ⟨h, fun hr => ?_, fun r hr => ?_⟩
  · rw [NmiReady, hn] at hr; exact absurd hr.1 (by decide)
  · have := hr.1
    rw [hp] at this
    cases this

theorem test_witness_RefusedAccesses_step :
    let m := withCsrs (withIrq (mieOn plain) false) fun c => { c with mtvec := 0x80000800 }
    Quiet m ∧ m.asleep = false ∧ m.pendingFault = none ∧ ¬ NmiReady m ∧ IrqReady m (irq19 false) ∧
    m.csr.mtvec.extractLsb' 0 6 ≠ 3#6 := by
  refine ⟨rfl, by decide, by decide, ?_, ⟨by decide, by decide, by decide⟩, by decide⟩
  unfold NmiReady; decide

/-- A misaligned load that is not split; an access the PMP and one the bus refuses, the second word of FSD too. -/
theorem test_witness_DataAccessFaults :
    let b := busFails plain 0x80000200
    let d := denied plain 0x80000204
    noC.pendingFault = none ∧ DataAccess noC (.lw 7 5 1) 4 .load (noC.getX 5 + sext 1#12) 4 ∧
    Unaligned noC (noC.getX 5 + sext 1#12) 4 ∧
    b.cfg.preciseAccessFaults = true ∧ DataAccess b (.lw 7 5 0) 4 .load (b.getX 5 + sext 0#12) 4 ∧
    ¬ Unaligned b (b.getX 5 + sext 0#12) 4 ∧
    FirstFailure b .load (busAccesses (b.getX 5 + sext 0#12) 4) 0x80000200 false ∧
    DataAccess d (.fsd 7 5 0) 4 .store (d.getX 5 + sext 0#12) 8 ∧
    FirstFailure d .store (busAccesses (d.getX 5 + sext 0#12) 8) 0x80000204 true := by
  refine ⟨by decide, .lw .., by unfold Unaligned; decide, by decide, .lw .., by unfold Unaligned; decide,
    ⟨[], (0x80000200, 4), [], by decide, rfl, by decide, by decide⟩, .fsd _ _ _ ⟨by decide, by decide⟩,
    ⟨[(0x80000200, 4)], (0x80000204, 4), [], by decide, rfl, by decide, by decide⟩⟩

theorem test_witness_DataAccessFaults_atomic :
    let d := denied plain 0x80000200
    AtomicAccess plain (.lrW 7 6 false false) .load (plain.getX 6) ∧ ¬ 4 ∣ (plain.getX 6).toNat ∧
    d.cfg.hasA = true ∧ AtomicAccess d (.scW 7 5 6 false false) .store (d.getX 5) ∧ 4 ∣ (d.getX 5).toNat ∧
    FirstFailure d .store [(d.getX 5, 4)] 0x80000200 true :=
  ⟨.lrW .., by decide, by decide, .scW .., by decide, ⟨[], (0x80000200, 4), [], by decide, rfl, by decide, by decide⟩⟩

/-- A fetch that the PMP and one that the bus refuses, of the first and of the second word of an instruction. -/
theorem test_witness_FetchFaults :
    let d := denied (plain.withPc 0x80000202) 0x80000200
    let b := busFails (plain.withPc 0x80000200) 0x80000200
    let u := denied (plain.withPc 0x80000202) 0x80000204
    (Quiet d ∧ d.asleep = false ∧ NoTrapDue d ∧ d.pc.getLsbD 0 = false ∧ d.cfg.hasC = true ∧
      FetchRefused d d.priv (d.pc &&& 0xFFFFFFFC#32) 1) ∧
    (NoTrapDue b ∧ FetchRefused b b.priv (b.pc &&& 0xFFFFFFFC#32) 2) ∧
    (NoTrapDue u ∧ u.stale = [] ∧ plainFetch u u.priv (u.pc &&& 0xFFFFFFFC#32) = true ∧ u.pc.getLsbD 1 = true ∧
      (codeByte u u.pc).extractLsb' 0 2 = 3#2 ∧ FetchRefused u u.priv ((u.pc &&& 0xFFFFFFFC#32) + 4) 1) := by
  unfold FetchRefused
  exact ⟨⟨rfl, by decide, no_trap _ rfl rfl (by decide), by decide, by decide, by decide⟩,
    ⟨no_trap _ rfl rfl (by decide), by decide⟩, no_trap _ rfl rfl (by decide), by decide, by decide, by decide, by decide,
    by decide⟩

/-- A parcel and a word that are no instruction, a long format, and a parcel where the core has no C. -/
theorem test_witness_FetchFaults_illegal :
    let h := plain.withPc 0x80000000
    let w := plain.withFetchWord 32 0x10200073
    let l := (plain.withPc 0x80000202).withFetchWord 32 0xFFFFFFFF
    let n := noC.withPc 0x80000000
    (NoTrapDue h ∧ codeHalf h h.pc = 0 ∧ (0#16).extractLsb' 0 2 ≠ 3#2 ∧ decode (.half 0) = none ∧
      plainFetch h h.priv (h.pc &&& 0xFFFFFFFC#32) = true) ∧
    (NoTrapDue w ∧ w.stale = [] ∧ codeWord w w.pc = 0x10200073 ∧ decode (.word 0x10200073) = none ∧
      plainFetch w w.priv (w.pc &&& 0xFFFFFFFC#32) = true ∧ w.pc.getLsbD 1 = false) ∧
    (NoTrapDue l ∧ codeWord l l.pc = 0xFFFFFFFF ∧ (0xFFFFFFFF#32).extractLsb' 2 3 = 7#3 ∧
      plainFetch l l.priv ((l.pc &&& 0xFFFFFFFC#32) + 4) = true) ∧
    (NoTrapDue n ∧ n.cfg.hasC = false ∧ n.pc.getLsbD 1 = false) := by
  exact ⟨⟨no_trap _ rfl rfl (by decide), by decide, by decide, by decide, by decide⟩,
    ⟨no_trap _ rfl rfl (by decide), by decide, by decide, by decide, by decide, by decide⟩,
    ⟨no_trap _ rfl rfl (by decide), by decide, by decide, by decide⟩, no_trap _ rfl rfl (by decide), by decide, by decide⟩

/-- `plain` with ECC and its exceptions on in the ILM and the DLM, and one error in this step. -/
def eccErr (h : EccHit) : State :=
  let on : LocalMemCtl := { rwecc := false, excpEn := true, eccEn := true }
  (withCsrs plain fun c => { c with milm := on, mdlm := on }).withEccHits [h]

/-- A load of a DLM word with a 2-bit error, a byte store into such a word, FLD with the error in its second word. -/
theorem test_witness_EccErrors_traps :
    let l := eccErr ⟨.load, .dlm, .data, 0x90000000, true, 3⟩
    let b := eccErr ⟨.store, .dlm, .data, 0x90000000, true, 3⟩
    let d := eccErr ⟨.load, .dlm, .data, 0x90000007, true, 3⟩
    (DataAccess l (.lw 7 2 0) 4 .load (l.getX 2 + sext 0#12) 4 ∧ ¬ Unaligned l (l.getX 2 + sext 0#12) 4 ∧
      PlainParts l .load (busAccesses (l.getX 2 + sext 0#12) 4) ∧ l.pendingFault = none ∧
      l.cfg.preciseAccessFaults = true ∧ busAccesses (l.getX 2 + sext 0#12) 4 = [] ++ (0x90000000, 4) :: [] ∧
      EccTraps l .load (0x90000000, 4)) ∧
    (DataAccess b (.sb 7 2 3) 4 .store (b.getX 2 + sext 3#12) 1 ∧
      busAccesses (b.getX 2 + sext 3#12) 1 = [] ++ (0x90000003, 1) :: [] ∧ EccTraps b .store (0x90000003, 1)) ∧
    (DataAccess d (.fld 7 2 0) 4 .load (d.getX 2 + sext 0#12) 8 ∧
      busAccesses (d.getX 2 + sext 0#12) 8 = [(0x90000000, 4)] ++ (0x90000004, 4) :: [] ∧
      ¬ EccTraps d .load (0x90000000, 4) ∧ EccTraps d .load (0x90000004, 4)) := by
  refine ⟨⟨.lw .., ?_⟩, ⟨.sb .., ?_⟩, ⟨.fld _ _ _ ⟨by decide, by decide⟩, ?_⟩⟩ <;>
    (unfold EccTraps EccMeets; try unfold Unaligned PlainParts) <;> decide

/-- `eccErr` with x5 at a word of memory behind the D-cache, which is on, as are its ECC and exception; x5 is reserved. -/
def cacheErr (h : EccHit) : State :=
  let on : CacheCtl := { rwdecc := false, rwtecc := false, excpEn := true, eccEn := true, en := true }
  ((withCsrs (eccErr h) fun c => { c with dcache := on }).setX 5 0x20000000).withResv (some 0x20000000)

/-- An error in the tag of a line: an aligned word store meets it, and LR.W, SC.W and the store of an AMO do. -/
theorem test_witness_EccErrors_tags :
    let w := cacheErr ⟨.store, .dcache, .tag, 0x2000001F, true, 0⟩
    let l := cacheErr ⟨.load, .dcache, .tag, 0x2000001F, true, 0⟩
    (busAccesses (w.getX 5 + sext 0#12) 4 = [] ++ (0x20000000, 4) :: [] ∧ EccTraps w .store (0x20000000, 4)) ∧
    (w.cfg.hasA = true ∧ 4 ∣ (w.getX 5).toNat ∧ PlainParts w .store [(w.getX 5, 4)] ∧ PlainParts w .amo [(w.getX 5, 4)] ∧
      w.resv = some (w.getX 5) ∧ w.cfg.scSpuriousFail = false ∧ ¬ EccTraps w .load (w.getX 5, 4) ∧
      EccTraps w .store (w.getX 5, 4)) ∧
    (PlainParts l .load [(l.getX 5, 4)] ∧ EccTraps l .load (l.getX 5, 4)) ∧
    ¬ EccTraps (cacheErr ⟨.store, .dcache, .tag, 0x20000020, true, 0⟩) .store (0x20000000, 4) ∧
    ¬ EccTraps (cacheErr ⟨.store, .dcache, .data, 0x20000000, true, 0⟩) .store (0x20000000, 4) ∧
    (w.withResv none).resv ≠ some (w.getX 5) ∧
    (w.csr.dcache.en = true ∧ w.csr.dcache.eccEn = true ∧ w.asleep = false ∧ w.csr.dcache.excpEn = true) := by
  refine ⟨⟨?_, ?_⟩, ⟨?_, ?_, ?_, ?_, ?_, ?_, ?_, ?_⟩, ⟨?_, ?_⟩, ?_, ?_, ?_, ?_⟩ <;>
    (try unfold EccTraps EccMeets) <;> (try unfold PlainParts) <;> decide

/-- An aligned word store whose tag lookup meets a 2-bit error enters code 7, with mtval its address and RAMID's D-cache
bit set (60_exceptions.md R605, R609). -/
theorem test_sw_tag_error :
    nextIs (exec (.sw 7 5 0) (cacheErr ⟨.store, .dcache, .tag, 0x2000001F, true, 0⟩)) (fun t =>
      t.csr.mcause.exccode == 7 && t.csr.mtval == 0x20000000 && t.csr.mecc.ramid == 0b00010) = true := by
  decide

/-- A 1-bit error of a load, a fetch with a 2-bit error, and an ECC that is off. -/
theorem test_witness_EccErrors :
    let l := eccErr ⟨.load, .dlm, .data, 0x90000000, false, 1⟩
    let f := (eccErr ⟨.fetch, .ilm, .data, 0x80000204, true, 3⟩).withPc 0x80000200
    (∀ h, EccMet l .load (busAccesses (l.getX 2 + sext 0#12) 4) h → eccOn l.csr h.unit = true ∧ h.double = false) ∧
    EccMet l .load (busAccesses (l.getX 2 + sext 0#12) 4) ⟨.load, .dlm, .data, 0x90000000, false, 1⟩ ∧
    (Quiet f ∧ f.asleep = false ∧ NoTrapDue f ∧ f.pc.getLsbD 0 = false ∧
      pmpCheck f f.priv .fetch (f.pc &&& 0xFFFFFFFC#32) = true ∧
      busError f.cfg .fetch (f.pc &&& 0xFFFFFFFC#32) 4 = false ∧
      EccTraps f .fetch (f.pc &&& 0xFFFFFFFC#32, 4)) ∧
    Correctable (cacheErr ⟨.load, .dcache, .tag, 0, false, 1⟩) (AmoMet (cacheErr ⟨.load, .dcache, .tag, 0, false, 1⟩) 0) ∧
    eccOn l.csr .ilm = true ∧ eccOn plain.csr .ilm = false := by
  refine ⟨fun h hm => ?_, ?_, ⟨rfl, by decide, no_trap _ rfl rfl (by decide), by decide, by decide, by decide, ?_⟩,
    fun h hm => ?_, by decide, by decide⟩
  · have : h = ⟨.load, .dlm, .data, 0x90000000, false, 1⟩ := List.mem_singleton.1 hm.1
    subst this
    decide
  · unfold EccMet EccMeets; decide
  · unfold EccTraps EccMeets; decide
  · have : h = ⟨.load, .dcache, .tag, 0, false, 1⟩ := by rcases hm with hm | hm <;> exact List.mem_singleton.1 hm.1
    subst this
    decide

/-- `eccErr` with the exceptions of 2-bit errors off. -/
def passErr (h : EccHit) : State :=
  withCsrs (eccErr h) fun c => { c with milm := { c.milm with excpEn := false }, mdlm := { c.mdlm with excpEn := false } }

/-- A core with imprecise faults in the state `s`. -/
def imprecise (s : State) : State := { s with cfg := { s.cfg with preciseAccessFaults := false } }

/-- With imprecise faults: a load, a byte store, an SC.W and the store of an AMO that meet a 2-bit error which traps. -/
theorem test_witness_EccErrors_imprecise :
    let l := imprecise (eccErr ⟨.load, .dlm, .data, 0x90000000, true, 3⟩)
    let b := imprecise (eccErr ⟨.store, .dlm, .data, 0x90000000, true, 3⟩)
    let w := imprecise (cacheErr ⟨.store, .dcache, .tag, 0x2000001F, true, 0⟩)
    (l.cfg.preciseAccessFaults = false ∧ DataAccess l (.lw 7 2 0) 4 .load (l.getX 2 + sext 0#12) 4 ∧
      ¬ Unaligned l (l.getX 2 + sext 0#12) 4 ∧ PlainParts l .load (busAccesses (l.getX 2 + sext 0#12) 4) ∧
      busAccesses (l.getX 2 + sext 0#12) 4 = [] ++ (0x90000000, 4) :: [] ∧ EccTraps l .load (0x90000000, 4) ∧
      LoadsX (.lw 7 2 0) 7) ∧
    (b.cfg.preciseAccessFaults = false ∧ DataAccess b (.sb 7 2 3) 4 .store (b.getX 2 + sext 3#12) 1 ∧
      PlainParts b .store (busAccesses (b.getX 2 + sext 3#12) 1) ∧
      busAccesses (b.getX 2 + sext 3#12) 1 = [] ++ (0x90000003, 1) :: [] ∧ EccTraps b .store (0x90000003, 1)) ∧
    (w.cfg.preciseAccessFaults = false ∧ w.cfg.hasA = true ∧ 4 ∣ (w.getX 5).toNat ∧ PlainParts w .store [(w.getX 5, 4)] ∧
      PlainParts w .amo [(w.getX 5, 4)] ∧ w.resv = some (w.getX 5) ∧ w.cfg.scSpuriousFail = false ∧
      AtomicAccess w (.scW 7 5 6 false false) .store (w.getX 5) ∧ IsScW (.scW 7 5 6 false false) ∧
      AtomicAccess w (.amoaddW 7 5 6 false false) .amo (w.getX 5) ∧ ¬ EccTraps w .load (w.getX 5, 4) ∧
      EccTraps w .store (w.getX 5, 4)) := by
  refine ⟨⟨?_, .lw .., ?_, ?_, ?_, ?_, .lw ..⟩, ⟨?_, .sb .., ?_, ?_, ?_⟩,
    ⟨?_, ?_, ?_, ?_, ?_, ?_, ?_, .scW .., .scW .., .add .., ?_, ?_⟩⟩ <;>
    (try unfold EccTraps EccMeets) <;> (try unfold Unaligned) <;> (try unfold PlainParts) <;> decide

/-- Such a load retires: the error is in RAMID and the outputs, code 5 waits, and no trap is taken; such a store, with code 7,
writes nothing (60_exceptions.md R526, R605). -/
theorem test_imprecise_ecc :
    let l := imprecise (eccErr ⟨.load, .dlm, .data, 0x90000000, true, 3⟩)
    let b := imprecise (eccErr ⟨.store, .dlm, .data, 0x90000000, true, 3⟩)
    nextIs (exec (.lw 7 2 0) l) (fun t =>
      t.pc == l.pc + 4 && t.csr.mecc.ramid == 0b10000 && t.eccDoubleOut == 0b10000 && t.csr.mcause == l.csr.mcause &&
        t.pendingFault == some ⟨.loadAccessFault, some 0x90000000, .keep⟩) = true ∧
    nextIs (exec (.sb 7 2 3) (b.setX 7 9)) (fun t =>
      t.mem.read 0x90000003 == 0 && t.csr.mecc.ramid == 0b10000 && t.getX 7 == 9 &&
        t.pendingFault == some ⟨.storeAmoAccessFault, some 0x90000003, .keep⟩) = true := by
  decide

/-- A 2-bit error that an access through the slave port meets is recorded and answered there with an error, whatever the
exception enable; one of 1 bit is recorded only, and with ECC off nothing happens (60_exceptions.md R606, R609). -/
theorem test_slave_port_error :
    let s := withCsrs plain fun c => { c with mdlm := { c.mdlm with eccEn := true, excpEn := false } }
    let t := s.input (.eccOther .slavePort .dlm true)
    let u := s.input (.eccOther .slavePort .dlm false)
    eccOn s.csr .dlm = true ∧ eccOn plain.csr .dlm = false ∧
    (t.slavePortError, t.sbaError, t.eccDoubleOut, t.csr.mecc.ramid) = (true, false, 0b10000, 0b10000) ∧
    (u.slavePortError, u.sbaError, u.eccSingleOut, u.csr.mecc.sramid) = (false, false, 0b10000, 0b10000) ∧
    (s.input (.eccOther .sba .dlm true)).sbaError = true ∧ plain.input (.eccOther .slavePort .dlm true) = plain := by
  decide

/-- A load and a byte store that meet a 2-bit error which raises nothing, LR.W and an AMO. -/
theorem test_witness_EccErrors_delivered :
    let l := passErr ⟨.load, .dlm, .data, 0x90000000, true, 3⟩
    let b := passErr ⟨.store, .dlm, .data, 0x90000000, true, 3⟩
    (DataAccess l (.lw 7 2 0) 4 .load (l.getX 2 + sext 0#12) 4 ∧ ¬ Unaligned l (l.getX 2 + sext 0#12) 4 ∧
      PlainParts l .load (busAccesses (l.getX 2 + sext 0#12) 4) ∧
      (∀ q ∈ busAccesses (l.getX 2 + sext 0#12) 4, ¬ EccTraps l .load q) ∧
      ∃ m : Memory, m.wf = true ∧ ∀ c, ByteArrives l (EccMet l .load (busAccesses (l.getX 2 + sext 0#12) 4)) m c) ∧
    (DataAccess b (.sb 7 2 3) 4 .store (b.getX 2 + sext 3#12) 1 ∧
      (∀ q ∈ busAccesses (b.getX 2 + sext 3#12) 1, ¬ EccTraps b .store q) ∧ b.mem.wf = true ∧
      ∃ m : Memory, m.wf = true ∧ ∀ c, ByteArrives b (EccMet b .store (busAccesses (b.getX 2 + sext 3#12) 1)) m c) ∧
    (AtomicAccess l (.lrW 7 2 false false) .load (l.getX 2) ∧ PlainParts l .load [(l.getX 2, 4)] ∧
      ¬ EccTraps l .load (l.getX 2, 4) ∧ ¬ EccTraps l .store (l.getX 2, 4) ∧
      ∃ m : Memory, m.wf = true ∧ ∀ c, ByteArrives l (EccMet l .load [(l.getX 2, 4)]) m c) := by
  refine ⟨⟨.lw .., ?_, ?_, ?_, exists_arrives (by decide) ..⟩, ⟨.sb .., ?_, by decide, exists_arrives (by decide) ..⟩,
    .lrW .., ?_, ?_, ?_, exists_arrives (by decide) ..⟩ <;>
    (try unfold EccTraps EccMeets) <;> (try unfold Unaligned) <;> (try unfold PlainParts) <;> decide

/-- An AMO whose load meets a 2-bit error which raises nothing: its word holds the wrong bits, the other bytes none. -/
theorem test_witness_EccErrors_amo :
    let s := passErr ⟨.load, .dlm, .data, 0x90000000, true, 3⟩
    ∃ m : Memory, m.wf = true ∧ ∀ b, if (b - s.getX 2).toNat < 4 then ByteArrives s (EccMet s .load [(s.getX 2, 4)]) m b
      else ByteArrives s (EccMet s .store [(s.getX 2, 4)]) m b := by
  intro s
  have hw : s.mem.wf = true := by decide
  have hx : s.getX 2 = 0x90000000 := by decide
  have hl : (eccMet s .load ([(s.getX 2, 4)].map partOf)).filter (·.spoils s.csr) = s.eccHits := by decide
  have hs : (eccMet s .store ([(s.getX 2, 4)].map partOf)).filter (·.spoils s.csr) = [] := by decide
  have hh : s.eccHits = [⟨.load, .dlm, .data, 0x90000000, true, 3⟩] := rfl
  refine ⟨(s.spoilUnits s.eccHits).mem, (spoilUnits_does hw _).2.1, fun b => ?_⟩
  rw [byteArrives_iff, byteArrives_iff, hl, hs, (spoilUnits_does hw _).2.2 b, hx]
  split
  · rfl
  · next hb =>
    rw [hh, wrongByte_cons, EccHit.flips_unit,
      if_neg (show ¬ (b - EccUnit.base .dlm 0x90000000).toNat < EccUnit.bytes .dlm from hb)]
    simp [wrongByte]

/-- The load gets the wrong bits; the byte store into the unit writes them back (60_exceptions.md R605). -/
theorem test_wrong_bits :
    nextIs (exec (.lw 7 2 0) (passErr ⟨.load, .dlm, .data, 0x90000000, true, 3⟩)) (fun t =>
      t.getX 7 == 3 && t.csr.mecc.ramid == 0b10000) = true ∧
    nextIs (exec (.sb 7 2 3) (passErr ⟨.store, .dlm, .data, 0x90000000, true, 3⟩)) (fun t =>
      t.mem.read 0x90000000 == 3 && t.mem.read 0x90000003 == 0 && t.csr.mecc.ramid == 0b10000) = true := by
  decide

/-- An error in data of the ILM is met by the fetch of both words of its unit. -/
theorem wordArrives_ilm {s : State} {h : EccHit} (he : s.eccHits = [h]) (hw : s.mem.wf = true) (hu : h.unit = .ilm)
    (hm : ∀ k < 8, EccMeets s .fetch ((h.unit.base h.addr + BitVec.ofNat 32 k) &&& 0xFFFFFFFC#32, 4) h) {a : Word}
    (ha : alignedAddr a = a) (hr : region s.cfg a = .ilm) :
    WordArrives s Config.freeFetchPort (s.spoilUnits (s.eccHits.filter (·.spoils s.csr))).mem a := by
  refine wordArrives_spoilt hw (fun x hx b hb => ?_) ha (by simp [hr])
  rw [he] at hx
  obtain rfl := List.mem_singleton.1 hx
  rw [hu] at hb
  have := hm _ hb
  rwa [hu, show EccUnit.base .ilm x.addr + BitVec.ofNat 32 (b - EccUnit.base .ilm x.addr).toNat = b by bv_omega] at this

/-- The memory a fetch of `s` sees. -/
def arrives (s : State) : Memory := (s.spoilUnits (s.eccHits.filter (·.spoils s.csr))).mem

/-- An error of 1 bit in the first word of a 16-bit instruction, and one of 2 bits with the exception off, which makes of the
word 0x0403FF80 an instruction of 32 bits. -/
theorem test_witness_EccErrors_fetch :
    let one := (eccErr ⟨.fetch, .ilm, .data, 0x80000204, false, 3⟩).withPc 0x80000200
    let two := (passErr ⟨.fetch, .ilm, .data, 0x80000204, true, 3⟩).withPc 0x80000200
    (Quiet one ∧ one.asleep = false ∧ NoTrapDue one ∧ FetchAllowed one one.priv 0x80000200 ∧
      ¬ EccTraps one .fetch (0x80000200, 4) ∧ one.stale = [] ∧ WordArrives one Config.freeFetchPort (arrives one) 0x80000200 ∧
      ((arrives one).read one.pc).extractLsb' 0 2 ≠ 3#2) ∧
    (Quiet two ∧ two.asleep = false ∧ NoTrapDue two ∧ FetchAllowed two two.priv 0x80000200 ∧
      ¬ EccTraps two .fetch (0x80000200, 4) ∧ two.stale = [] ∧ WordArrives two Config.freeFetchPort (arrives two) 0x80000200 ∧
      ((arrives two).read two.pc).extractLsb' 0 2 = 3#2 ∧ two.pc.getLsbD 1 = false) := by
  unfold FetchAllowed
  refine ⟨⟨rfl, by decide, no_trap _ rfl rfl (by decide), by decide, ?_, by decide,
      wordArrives_ilm rfl (by decide) rfl (by unfold EccMeets; decide) (by decide) (by decide), by decide⟩,
    ⟨rfl, by decide, no_trap _ rfl rfl (by decide), by decide, ?_, by decide,
      wordArrives_ilm rfl (by decide) rfl (by unfold EccMeets; decide) (by decide) (by decide), by decide, by decide⟩⟩ <;>
    unfold EccTraps EccMeets <;> decide

/-- The same in the second word of an instruction that crosses a word, with the exception off and on. -/
theorem test_witness_EccErrors_straddle :
    let off := (withWord (passErr ⟨.fetch, .ilm, .data, 0x80000208, true, 3⟩) 0x80000204 0x00030000).withPc 0x80000206
    let on := (withWord (eccErr ⟨.fetch, .ilm, .data, 0x80000208, true, 3⟩) 0x80000204 0x00030000).withPc 0x80000206
    (NoTrapDue off ∧ FetchAllowed off off.priv 0x80000204 ∧ ¬ EccTraps off .fetch (0x80000204, 4) ∧ off.stale = [] ∧
      WordArrives off Config.freeFetchPort (arrives off) 0x80000204 ∧
      WordArrives off Config.freeFetchPort (arrives off) 0x80000208 ∧ ((arrives off).read off.pc).extractLsb' 0 2 = 3#2 ∧ off.pc.getLsbD 1 = true ∧
      FetchAllowed off off.priv 0x80000208 ∧ ¬ EccTraps off .fetch (0x80000208, 4)) ∧
    (NoTrapDue on ∧ FetchAllowed on on.priv 0x80000204 ∧ ¬ EccTraps on .fetch (0x80000204, 4) ∧ on.stale = [] ∧
      WordArrives on Config.freeFetchPort (arrives on) 0x80000204 ∧ ((arrives on).read on.pc).extractLsb' 0 2 = 3#2 ∧ on.pc.getLsbD 1 = true ∧
      FetchAllowed on on.priv 0x80000208 ∧ EccTraps on .fetch (0x80000208, 4)) := by
  unfold FetchAllowed
  refine ⟨⟨no_trap _ rfl rfl (by decide), by decide, ?_, by decide,
      wordArrives_ilm rfl (by decide) rfl (by unfold EccMeets; decide) (by decide) (by decide),
      wordArrives_ilm rfl (by decide) rfl (by unfold EccMeets; decide) (by decide) (by decide), by decide, by decide, by decide, ?_⟩,
    ⟨no_trap _ rfl rfl (by decide), by decide, ?_, by decide,
      wordArrives_ilm rfl (by decide) rfl (by unfold EccMeets; decide) (by decide) (by decide), by decide, by decide, by decide, ?_⟩⟩ <;>
    unfold EccTraps EccMeets <;> decide

/-- The second word of the instruction is one that the PMP refuses, the first has an error of 1 bit. -/
theorem test_witness_EccErrors_refused :
    let s := denied ((eccErr ⟨.fetch, .ilm, .data, 0x80000200, false, 1⟩).withPc 0x80000202) 0x80000204
    NoTrapDue s ∧ FetchAllowed s s.priv 0x80000200 ∧ ¬ EccTraps s .fetch (0x80000200, 4) ∧ s.stale = [] ∧
      WordArrives s Config.freeFetchPort (arrives s) 0x80000200 ∧ ((arrives s).read s.pc).extractLsb' 0 2 = 3#2 ∧ s.pc.getLsbD 1 = true ∧
      FetchRefused s s.priv 0x80000204 1 := by
  refine ⟨no_trap _ rfl rfl (by decide), ?_, ?_, by decide,
    wordArrives_ilm rfl (by decide) rfl (by unfold EccMeets; decide) (by decide) (by decide), by decide, by decide, ?_⟩ <;>
    (try unfold FetchAllowed) <;> (try unfold EccTraps EccMeets) <;> (try unfold FetchRefused) <;> decide

/-- The step whose second word traps enters code 1 with mtval that word (60_exceptions.md R605). -/
theorem test_straddling_error :
    nextIs (step ((withWord (eccErr ⟨.fetch, .ilm, .data, 0x80000208, true, 3⟩) 0x80000204 0x00030000).withPc 0x80000206))
      (fun t => t.csr.mcause.exccode == 1 && t.csr.mtval == 0x80000208 && t.csr.mepc == 0x80000206 &&
        t.csr.mecc.ramid == 0b01000) = true := by
  decide

/-- A core with imprecise faults, one of them waiting, with an NMI due; accesses that fail on it, an SC.W among them. -/
theorem test_witness_ImpreciseFaults :
    let b := busFails (withCfg fun c => { c with preciseAccessFaults := false }) 0x80000200
    let w := (b.withPendingFault (some ⟨.loadAccessFault, some 0x80000200, .bus⟩)).withNmiPending true
    b.cfg.preciseAccessFaults = false ∧ b.pendingFault = none ∧
    DataAccess b (.sb 7 5 3) 4 .store (b.getX 5 + sext 3#12) 1 ∧ ¬ Unaligned b (b.getX 5 + sext 3#12) 1 ∧
    FirstFailure b .store (busAccesses (b.getX 5 + sext 3#12) 1) 0x80000203 false ∧
    b.cfg.hasA = true ∧ AtomicAccess b (.scW 7 5 6 false false) .store (b.getX 5) ∧ 4 ∣ (b.getX 5).toNat ∧
    FirstFailure b .store [(b.getX 5, 4)] 0x80000200 false ∧
    w.pendingFault = some ⟨.loadAccessFault, some 0x80000200, .bus⟩ ∧ w.priv = .machine ∧ Quiet w ∧ w.asleep = false ∧
    NmiReady w := by
  refine ⟨by decide, by decide, .sb .., by unfold Unaligned; decide,
    ⟨[], (0x80000203, 1), [], by decide, rfl, by decide, by decide⟩, by decide, .scW .., by decide,
    ⟨[], (0x80000200, 4), [], by decide, rfl, by decide, by decide⟩, by decide, by decide, rfl, by decide, ?_⟩
  unfold NmiReady; decide

theorem test_witness_NmiEntry :
    let s := plain.withNmiPending true
    Quiet s ∧ s.asleep = false ∧ s.pendingFault = none ∧ NmiReady s := by
  unfold NmiReady Quiet; decide

/-- A request that is not vectored, a vectored one, and vectored ones whose table word cannot be read. -/
theorem test_witness_InterruptEntry :
    let n := mieOn (withIrq plain false)
    let v := mieOn (withIrq plain true)
    let p := denied v 0x8000044C
    let b := busFails v 0x8000044C
    (Quiet n ∧ n.asleep = false ∧ n.pendingFault = none ∧ ¬ NmiReady n ∧ IrqReady n (irq19 false) ∧
      n.csr.mtvec.extractLsb' 0 6 = 3#6) ∧
    (IrqReady v (irq19 true) ∧ plainFetch v .machine (tableWord v 19) = true) ∧
    (IrqReady p (irq19 true) ∧ pmpCheck p .machine .fetch (tableWord p 19) = false) ∧
    (IrqReady b (irq19 true) ∧ pmpCheck b .machine .fetch (tableWord b 19) = true ∧
      busError b.cfg .fetch (tableWord b 19) 4 = true) := by
  unfold IrqReady NmiReady Quiet; decide

theorem test_witness_InterruptEntry_ecc :
    let e := tableErr true true
    let n := tableErr true false
    (Quiet e ∧ e.asleep = false ∧ e.pendingFault = none ∧ ¬ NmiReady e ∧ IrqReady e (irq19 true) ∧
      e.csr.mtvec.extractLsb' 0 6 = 3#6 ∧ FetchAllowed e .machine (tableWord e 19) ∧ EccTraps e .fetch (tableWord e 19, 4)) ∧
    (Quiet n ∧ ¬ NmiReady n ∧ IrqReady n (irq19 true) ∧ FetchAllowed n .machine (tableWord n 19) ∧
      ¬ EccTraps n .fetch (tableWord n 19, 4)) ∧
    ∃ m : Memory, m.wf = true ∧ WordArrives n Config.freeTablePort m (tableWord n 19) := by
  refine ⟨?_, ?_, ?_⟩
  · unfold IrqReady NmiReady Quiet FetchAllowed EccTraps EccMeets; decide
  · unfold IrqReady NmiReady Quiet FetchAllowed EccTraps EccMeets; decide
  · obtain ⟨m, hw, hm⟩ := exists_arrives (s := tableErr true false) (by decide) .fetch [(0x8000044C, 4)]
    exact ⟨m, hw, wordArrives_mem (by decide) fun k _ => hm _⟩

/-- The words of the sources 19, 31 (the last one) and 4095 (which does not exist), cliccfg and clicinfo, and as bytes or
half-words mth, a register of a source and a reserved offset. -/
theorem test_witness_EclicRegisters :
    (∀ off, off = 0x104C ∨ off = 0x107C ∨ off = 0x4FFC ∨ off = 0 ∨ off = 4 →
      region plain.cfg (0x0C000000#32 + BitVec.ofNat 32 off) = .eclic ∧
      (0x0C000000#32 + BitVec.ofNat 32 off).toNat = plain.cfg.eclicBase.toNat + off ∧
      4 ∣ (0x0C000000#32 + BitVec.ofNat 32 off).toNat) ∧
    (∀ off, off = 0xB ∨ off = 0x104E ∨ off = 0x5000 →
      region plain.cfg (0x0C000000#32 + BitVec.ofNat 32 off) = .eclic ∧
      (0x0C000000#32 + BitVec.ofNat 32 off).toNat = plain.cfg.eclicBase.toNat + off) ∧
    2 ∣ (0x0C00104E#32).toNat ∧ pmpCheck plain plain.priv .load 0x0C00104C = true ∧
    pmpCheck plain plain.priv .store 0x0C00104C = true ∧
    0x0C00104C#32 = (plain.setX 5 0x0C00184C).getX 5 + sext 0x800#12 ∧
    plain.eclic.srcs[19]? = some .zero ∧ plain.eclic.srcs[31]? = some .zero ∧ plain.eclic.srcs[4095]? = none ∧
    0x104C = 0x1000 + 4 * 19 + 0 ∧ 0x4FFC = 0x1000 + 4 * 4095 + 0 ∧ (19 : Nat) < 4096 := by
  refine ⟨fun off h => ?_, fun off h => ?_, by decide, by decide, by decide, by decide, by decide, by decide, by decide,
    by decide, by decide, by decide⟩
  · rcases h with rfl | rfl | rfl | rfl | rfl <;> decide
  · rcases h with rfl | rfl | rfl <;> decide

/-- The source 19 level-triggered, its line low, with the value 1 that a change of trig left it; x5 points to its clicintip. -/
def heldIp : State :=
  (plain.setX 5 0x0C00104C).withEclic { plain.eclic with
    srcs := plain.eclic.srcs.set 19 { EclicSrc.zero with held := some true } }

theorem test_witness_EclicRegisters_held :
    region heldIp.cfg (heldIp.getX 5 + sext 0#12) = .eclic ∧
    (heldIp.getX 5 + sext 0#12).toNat = heldIp.cfg.eclicBase.toNat + (0x1000 + 4 * 19 + 0) ∧
    pmpCheck heldIp heldIp.priv .store (heldIp.getX 5 + sext 0#12) = true ∧
    (heldIp.eclic.srcs[19]?.map fun src => (src.trig.getLsbD 0, src.line, src.held, src.pending)) =
      some (false, false, some true, true) := by
  decide

/-- A store to clicintip of a level-triggered source sets no IP and ends that value (60_exceptions.md R577, log 15); one to
clicintattr that leaves trig as it is keeps it. -/
theorem test_held_ip :
    nextIs (exec (.sb 7 5 0) (heldIp.setX 7 1)) (fun t => (t.eclic.srcs[19]?.map (·.pending)) == some false) = true ∧
    nextIs (exec (.sb 7 5 2) (heldIp.setX 7 1)) (fun t => (t.eclic.srcs[19]?.map (·.pending)) == some true) = true := by
  decide

/-- mth keeps all 8 bits (60_exceptions.md R573, log 17). -/
theorem test_mth :
    nextIs (exec (.sb 7 5 0) ((plain.setX 5 0x0C00000B).setX 7 0x52)) (fun t =>
      nextIs (exec (.lbu 8 5 0) t) fun u => u.getX 8 == 0x52) = true := by
  decide

/-- A winner of level 63 is presented with mth = 62 and not with mth = 63 where CLICINTCTLBITS is 4: the low bits of mth
count (95_test_vectors.md section 2.10, the rows "winner above mth" and "winner not above mth"). -/
theorem test_mth_low_bits :
    let e := fun mth : Byte => { plain.eclic with
      mth := mth, nlbits := 4, srcs := plain.eclic.srcs.set 19 { EclicSrc.zero with ip := true, ie := true, trig := 1, ctl := 0x3F } }
    plain.cfg.clicIntCtlBits = 4 ∧
    (presented plain.cfg (e 62)).map (fun r => (r.id, r.level)) = some (19, 63) ∧
    presented plain.cfg (e 63) = none := by
  decide

theorem test_witness_TimerRegisters :
    (∀ off, off = 0 ∨ off = 12 ∨ off = 0x10 ∨ off = 0xFF0 ∨ off = 0xFFC →
      region plain.cfg (0x02000000#32 + BitVec.ofNat 32 off) = .timer ∧
      (0x02000000#32 + BitVec.ofNat 32 off).toNat = plain.cfg.timerBase.toNat + off ∧
      4 ∣ (0x02000000#32 + BitVec.ofNat 32 off).toNat) ∧
    pmpCheck plain plain.priv .load 0x02000FFC = true ∧ pmpCheck plain plain.priv .store 0x02000FFC = true ∧
    0x02000FFC#32 = (plain.setX 5 0x020007FD).getX 5 + sext 0x7FF#12 ∧ plain.timer.timestop = false ∧
    ({ plain.timer with timestop := true } : Timer).timestop = true := by
  refine ⟨fun off h => ?_, by decide, by decide, by decide, by decide, by decide⟩
  rcases h with rfl | rfl | rfl | rfl | rfl <;> decide

/-- With CMPCLREN the tick that reaches mtimecmp clears mtime, and an edge-triggered source 7 is pending after the pulse while
a level-triggered one is not (60_exceptions.md R592, log 21). -/
theorem test_compare_pulse :
    let s := fun trig : BitVec 2 => { plain with
      timer := { plain.timer with cmpclren := true, mtime := 9, mtimecmp := 10 }
      eclic := { plain.eclic with srcs := plain.eclic.srcs.set 7 { EclicSrc.zero with trig := trig } } }
    (s 0).timer.timestop = false ∧ ((s 0).input .tick).timer.mtime = 0 ∧
    (((s 1).input .tick).eclic.srcs[7]?.map (·.pending)) = some true ∧
    (((s 0).input .tick).eclic.srcs[7]?.map (·.pending)) = some false := by
  decide

/-- Entries of each mode, the smallest and the largest NAPOT region, and a state for each decision. -/
theorem test_witness_PmpProtection :
    let e8 : PmpEntry := ⟨false, .napot, false, true, true, 0x08000000⟩
    let all : PmpEntry := ⟨true, .napot, true, false, true, 0x3FFFFFFF⟩
    let s := withCsrs plain fun c => { c with pmp := [e8, all] }
    e8.mode = .napot ∧ e8.addr.getLsbD 0 = false ∧ (∀ j < 30, all.addr.getLsbD j = true) ∧
    all.addr.getLsbD 30 = false ∧ PmpEntry.zero.mode = .off ∧ s.cfg.hasPmp = true ∧
    (withCfg fun c => { c with hasPmp := false }).cfg.hasPmp = false ∧
    (∀ e ∈ plain.csr.pmp, e.covers 0x20000010 = false) ∧ s.csr.pmp = [e8] ++ all :: [] ∧
    (∀ b ∈ [e8], b.covers 0x20000010 = false) ∧ all.covers 0x20000010 = true ∧ all.lock = true ∧
    e8.covers 0x20000007 = true ∧ e8.lock = false := by
  decide

/-- A group of events; source numbers around both ends; NMI state and not; a bus write to memory and to the TIMER. -/
theorem test_witness_EnvironmentEvents :
    (plain.withInputs [[.tick, .irq 19 true], []]).inputs = [.tick, .irq 19 true] :: [[]] ∧
    ((18 : Nat) < 19 ∧ plain.cfg.numInterrupt ≤ 32) ∧ (19 ≤ 31 ∧ 31 < plain.cfg.numInterrupt) ∧
    plain.eclic.srcs[31]? = some .zero ∧ plain.csr.msubm.typ ≠ 3#2 ∧
    (withCsrs plain fun c => { c with msubm := { ptyp := 0, typ := 3 } }).csr.msubm.typ = 3#2 ∧ plain.mem.wf = true ∧
    (region plain.cfg 0xFFFFFFFF ≠ .timer ∧ region plain.cfg 0xFFFFFFFF ≠ .eclic) ∧
    region plain.cfg 0x02000000 = .timer ∧ plain.cfg.hasIlm = true ∧ plain.csr.scpdIsIlm = true ∧
    ((plain.input (.reset true)).eclic.srcs[3]?).isSome = true := by
  decide

theorem test_witness_ResetValues :
    Config.default.numInterrupt = 32 ∧ (31 : Nat) < Config.default.numInterrupt ∧ (0xFFC : Nat) ≠ 8 ∧ (0xFFC : Nat) ≠ 12 ∧
    (3 : Nat) < 4 ∧ 3 + { Config.default with clicIntCtlBits := 4 }.clicIntCtlBits < 8 ∧ plain.cfg = Config.default := by
  decide

theorem test_witness_ResetMeetsInvariant : ({ Config.default with resetVector := 0xFFFFFFFE } : Config).resetVector.getLsbD 0 = false := by
  decide

/-- The step runs into a next state that satisfies `p`. -/
theorem next_of (o : Out) (p : State → Bool) (h : nextIs o p = true) : ∃ t, o = .next t ∧ p t = true := by
  cases o with
  | next t => exact ⟨t, rfl, h⟩
  | fault f => cases h
  | refused r => cases h

/-- A 2-bit error at a copy-back of the D-cache sets RAMID[1] and leaves an exception waiting (60_exceptions.md R607). -/
theorem test_copy_back_error :
    let on : CacheCtl := { rwdecc := false, rwtecc := false, excpEn := true, eccEn := true, en := true }
    let t := (plain.withCsr { plain.csr with dcache := on }).input .eccEvict
    t.csr.mecc.ramid = 0b00010 ∧ t.csr.mecc.sramid = 0 ∧ t.pendingFault.isSome = true := by decide

/-- A state that is not the reset state meets the invariant, and its step is a next state. -/
theorem test_witness_StepKeepsInvariant :
    (plain.withFetchWord 32 0x30200073).Inv ∧ ∃ t, run plain 0x30200073 = .next t ∧ (t.priv == .user) = true := by
  refine ⟨⟨by unfold State.memOk; decide, ⟨by decide, by decide, by decide, by decide, by decide⟩,
    ⟨by decide, by decide⟩, ⟨by decide, by decide⟩, ?_, ?_, ?_, ⟨by decide⟩, ?_, ?_⟩, next_of _ _ (by decide)⟩
  · intro h; exact absurd h (by decide)
  · intro a h; cases h
  · intro _ e h; cases h
  · intro d h; cases h
  · constructor
    · intro src h
      rw [show (plain.withFetchWord 32 0x30200073).eclic.srcs[3]? = some EclicSrc.zero by decide] at h
      cases h
      decide
    · intro src h
      rw [show (plain.withFetchWord 32 0x30200073).eclic.srcs[7]? = some EclicSrc.zero by decide] at h
      cases h
      decide

theorem test_witness_DecodeEncode :
    (Instr.cLui 31 32).wellFormed = true ∧ (Instr.lui 0 0).wellFormed = true ∧ (Instr.cAddi4spn 0 255).wellFormed = true ∧
    (Instr.csrrci 31 0xFFF 31).wellFormed = true := by
  decide

/-- Codes that decode; one for each item of the illegal encodings. -/
theorem test_witness_OnlyEncodingsDecode :
    decode (.half 0x9002) = some .cEbreak ∧ decode (.word 0x30200073) = some .mret ∧
    (0x0003#16).extractLsb' 0 2 = 3#2 ∧ (0x0000007F#32).extractLsb' 0 7 ∉ majorOpcodes := by
  decide

theorem test_witness_OnlyEncodingsDecode_half :
    Illegal16 0x0000 ∧ Illegal16 0x8000 ∧ Illegal16 0x6081 ∧ Illegal16 0x9001 ∧ Illegal16 0x1002 ∧ Illegal16 0x9C01 ∧
    Illegal16 0x4002 ∧ Illegal16 0x8002 :=
  ⟨.inl (by decide), .inr (.inl (by decide)), .inr (.inr (.inl (by decide))), .inr (.inr (.inr (.inl (by decide)))),
    .inr (.inr (.inr (.inr (.inl (by decide))))), .inr (.inr (.inr (.inr (.inr (.inl (by decide)))))),
    .inr (.inr (.inr (.inr (.inr (.inr (.inl (by decide))))))), .inr (.inr (.inr (.inr (.inr (.inr (.inr rfl))))))⟩

theorem test_witness_OnlyEncodingsDecode_word :
    Illegal32 0x02001013 ∧ Illegal32 0x4200D013 ∧ Illegal32 0x1010A02F ∧ Illegal32 0x10200073 :=
  ⟨.inl (by decide), .inl (by decide), .inr (.inl (by decide)), .inr (.inr (by decide))⟩

/-- A 32-bit instruction at an aligned address, one that crosses a word, and a 16-bit one. -/
theorem test_witness_StepRunsInstruction :
    let w := plain.withFetchWord 32 0x00500093
    let u := (plain.withPc 0x80000102).withFetchWord 32 0x00500093
    let h := plain.withFetchWord 16 0x9002
    (Quiet w ∧ w.asleep = false ∧ NoTrapDue w ∧ w.stale = [] ∧ w.pc.getLsbD 0 = false ∧
      (Instr.addi 1 0 5).wellFormed = true ∧ plainFetch w w.priv (w.pc &&& 0xFFFFFFFC#32) = true ∧
      encode (.addi 1 0 5) = .word 0x00500093 ∧ w.pc.getLsbD 1 = false ∧ codeWord w w.pc = 0x00500093) ∧
    (NoTrapDue u ∧ u.cfg.hasC = true ∧ plainFetch u u.priv (u.pc &&& 0xFFFFFFFC#32) = true ∧
      plainFetch u u.priv ((u.pc &&& 0xFFFFFFFC#32) + 4) = true ∧ codeWord u u.pc = 0x00500093) ∧
    (NoTrapDue h ∧ encode .cEbreak = .half 0x9002 ∧ h.cfg.hasC = true ∧ codeHalf h h.pc = 0x9002) := by
  refine ⟨⟨rfl, by decide, no_trap _ rfl rfl (by decide), by decide, by decide, by decide, by decide, by decide, by decide,
    by decide⟩, ⟨no_trap _ rfl rfl (by decide), by decide, by decide, by decide, by decide⟩,
    no_trap _ rfl rfl (by decide), by decide, by decide, by decide⟩

/-- The word of ADDI in the DLM and in mtimecmp, and that of source 19 in the ECLIC, whose low half is C.NOP. -/
def codeAt (a : Word) : State :=
  ((withWord plain 0x90000000 0x00500093).withEclic { plain.eclic with
    srcs := plain.eclic.srcs.set 19 { EclicSrc.zero with trig := 1, ip := true } }).withPc a
  |>.withTimer { plain.timer with mtimecmp := 0xFFFFFFFF00500093 }

theorem test_witness_StepRunsInstruction_regions :
    ∀ a, a = 0x90000000 ∨ a = 0x02000008 →
      NoTrapDue (codeAt a) ∧ plainFetch (codeAt a) (codeAt a).priv ((codeAt a).pc &&& 0xFFFFFFFC#32) = true ∧
      codeWord (codeAt a) (codeAt a).pc = 0x00500093 := by
  rintro a (rfl | rfl) <;> exact ⟨no_trap _ rfl rfl (by decide), by decide, by decide⟩

/-- They run (30_encoding.md R221, log 26), unless the bus answers the fetch with an error (20_memory.md R174, log 28). -/
theorem test_fetch_regions :
    nextIs (step (codeAt 0x90000000)) (fun t => t.getX 1 == 5 && t.pc == 0x90000004) = true ∧
    nextIs (step (codeAt 0x02000008)) (fun t => t.getX 1 == 5 && t.pc == 0x0200000C) = true ∧
    nextIs (step (codeAt 0x0C00104C)) (fun t => t.getX 1 == 0 && t.pc == 0x0C00104E) = true ∧
    nextIs (step (busFails (codeAt 0x02000008) 0x02000008)) (fun t =>
      t.csr.mcause.exccode == 1 && t.csr.mdcause == 2 && t.csr.mtval == 0x02000008) = true := by
  decide

/-- A store to mtimecmp leaves its old word for the fetch to see (20_memory.md R204, log 12). -/
theorem test_device_store_old :
    nextIs (exec (.sw 7 5 0) ((codeAt 0x02000008).setX 5 0x02000008)) (fun t =>
      t.timer.mtimecmp == 0xFFFFFFFF80000000 && t.stale == [(0x02000008, 0x00500093)]) = true := by
  decide

/-- MRET to User Mode, and ECALL out of it. -/
theorem test_witness_ModeChanges :
    (plain.priv = .machine ∧ ∃ t, run plain 0x30200073 = .next t ∧ (t.priv == .user) = true) ∧
    ((inUser plain).priv = .user ∧ ∃ t, run (inUser plain) 0x00000073 = .next t ∧ (t.priv == .machine) = true) ∧
    (∀ g rest, (plain.withInputs [[.tick]]).inputs = g :: rest → ∀ k, Input.reset k ∉ g) := by
  refine ⟨⟨by decide, next_of _ _ (by decide)⟩, ⟨by decide, next_of _ _ (by decide)⟩, fun g rest h k => ?_⟩
  have hg : g = [.tick] := by
    have : ([[Input.tick]] : List (List Input)) = g :: rest := h
    cases this; rfl
  rw [hg]; simp

theorem test_witness_UserModeIsolation :
    let s := withCsrs (inUser plain) fun c => { c with mcountinhibit := { cy := true, ir := false } }
    s.priv = .user ∧ s.csr.mcountinhibit.cy = true ∧ ∃ t, run s 0x00131073 = .next t ∧ (t.priv == .user) = true :=
  ⟨by decide, by decide, next_of _ _ (by decide)⟩

theorem test_witness_OnlyResetUndoes :
    let s := denied plain 0x80000200
    let m := withCsrs s fun c => { c with meccLock := true }
    let t := { m with timer := { m.timer with msftrst := true } }
    (∃ u, run t 0x3A001073 = .next u ∧ (u.pc == 0x1004) = true) ∧
    t.csr.pmp[0]? = some ⟨true, .na4, false, false, false, 0x20000080⟩ ∧ t.csr.meccLock = true ∧ t.timer.msftrst = true :=
  ⟨next_of _ _ (by decide), by decide, by decide, by decide⟩

end Sys2Proof.Tests
end

/-! PROOFS. The statements of 00_scope.md: a step runs the instruction at the pc (O57), and what the environment's
events do (O50). -/

namespace Sys2Proof.Laws

/-! ### Decoding what was encoded -/

@[simp] theorem decode_joinWord (f7 : BitVec 7) (rs2 rs1 : Reg) (f3 : BitVec 3) (rd : Reg) (op : BitVec 7) :
    decode (.word (joinWord f7 rs2 rs1 f3 rd op)) = decodeFields f7 rs2 rs1 f3 rd op := by
  simp [decode, decodeWord]

@[simp] theorem decode_joinHalf (f3 : BitVec 3) (b : BitVec 1) (hi lo : BitVec 5) (op : BitVec 2) :
    decode (.half (joinHalf f3 b hi lo op)) = decodeHalfFields f3 b hi lo op := by
  simp [decode, decodeHalf]

/-- Decoding undoes encoding, opcode by opcode and quadrant by quadrant (30_encoding.md R227, R245). -/
theorem decode_encode {i : Instr} (h : i.wellFormed = true) : decode (encode i) = some i := by
  cases i with
  | lui | auipc => simp [encode, encU, decodeFields]
  | jal => simp [encode, encJ, decodeFields]
  | jalr => simp [encode, encI, decodeFields]
  | beq | bne | blt | bge | bltu | bgeu => simp [encode, encB, decodeFields, decodeBranch]
  | lb | lh | lw | lbu | lhu => simp [encode, encI, decodeFields, decodeLoad]
  | sb | sh | sw => simp [encode, encS, decodeFields, decodeStore]
  | addi | slti | sltiu | xori | ori | andi => simp [encode, encI, decodeFields, decodeOpImm]
  | slli | srli | srai => simp [encode, encR, decodeFields, decodeOpImm]
  | add | sub | sll | slt | sltu | xor | srl | sra | or | and | mul | mulh | mulhsu | mulhu | div | divu | rem | remu =>
    simp [encode, encR, decodeFields, decodeOp]
  | fence => simp [encode, decodeFields, decodeMiscMem]
  | fenceI => simp [encode, encI, decodeFields, decodeMiscMem]
  | lrW | scW | amoswapW | amoaddW | amoxorW | amoandW | amoorW | amominW | amomaxW | amominuW | amomaxuW =>
    simp [encode, encAmo, decodeFields, decodeAmo]
  | flw | fld => simp [encode, encI, decodeFields, decodeLoadFp]
  | fsw | fsd => simp [encode, encS, decodeFields, decodeStoreFp]
  | fmaddS | fmsubS | fnmsubS | fnmaddS | fmaddD | fmsubD | fnmsubD | fnmaddD =>
    simp [encode, encR4, decodeFields, decodeFma]
  | csrrw | csrrs | csrrc | csrrwi | csrrsi | csrrci => simp [encode, encI, decodeFields, decodeSystem]
  | ebreak | ecall | mret | wfi => decide
  | cAddi4spn => simpa [encode, encCiw, decodeHalfFields, decodeQ0, Instr.wellFormed] using h
  | cLw | cFlw | cSw | cFsw => simp [encode, encClw, decodeHalfFields, decodeQ0]
  | cFld | cFsd => simp [encode, encCld, decodeHalfFields, decodeQ0]
  | cNop | cLi => simp [encode, encCi, decodeHalfFields, decodeQ1]
  | cAddi => simpa [encode, encCi, decodeHalfFields, decodeQ1, Instr.wellFormed] using h
  | cLui => simpa [encode, encCi, decodeHalfFields, decodeQ1, Instr.wellFormed, and_comm] using h
  | cAddi16sp => simpa [encode, encC16sp, decodeHalfFields, decodeQ1, Instr.wellFormed] using h
  | cJal | cJ => simp [encode, encCj, decodeHalfFields, decodeQ1]
  | cSrli | cSrai | cAndi | cSub | cXor | cOr | cAnd => simp [encode, encCalu, decodeHalfFields, decodeQ1, decodeQ1Alu]
  | cBeqz | cBnez => simp [encode, encCb, decodeHalfFields, decodeQ1]
  | cSlli => simp [encode, decodeHalfFields, decodeQ2]
  | cLwsp => simpa [encode, encClwsp, decodeHalfFields, decodeQ2, Instr.wellFormed] using h
  | cFlwsp => simp [encode, encClwsp, decodeHalfFields, decodeQ2]
  | cFldsp => simp [encode, encCldsp, decodeHalfFields, decodeQ2]
  | cFsdsp => simp [encode, encCsdsp, decodeHalfFields, decodeQ2]
  | cSwsp | cFswsp => simp [encode, encCswsp, decodeHalfFields, decodeQ2]
  | cEbreak => simp [encode, decodeHalfFields, decodeQ2, decodeQ2Jump]
  | cJr | cMv | cJalr | cAdd => simp_all [encode, decodeHalfFields, decodeQ2, decodeQ2Jump, Instr.wellFormed]
  | _ => simp [encode, encR, decodeFields, decodeOpFp]

/-- Every instruction says by its own bits how long it is (30_encoding.md R221). -/
theorem length_of_encode : ∀ i, Length.Statement i
  | .lui .. => Length.lui | .auipc .. => Length.auipc | .jal .. => Length.jal | .jalr .. => Length.jalr
  | .beq .. => Length.beq | .bne .. => Length.bne | .blt .. => Length.blt | .bge .. => Length.bge
  | .bltu .. => Length.bltu | .bgeu .. => Length.bgeu | .lb .. => Length.lb | .lh .. => Length.lh | .lw .. => Length.lw
  | .lbu .. => Length.lbu | .lhu .. => Length.lhu | .sb .. => Length.sb | .sh .. => Length.sh | .sw .. => Length.sw
  | .addi .. => Length.addi | .slti .. => Length.slti | .sltiu .. => Length.sltiu | .xori .. => Length.xori
  | .ori .. => Length.ori | .andi .. => Length.andi | .slli .. => Length.slli | .srli .. => Length.srli
  | .srai .. => Length.srai | .add .. => Length.add | .sub .. => Length.sub | .sll .. => Length.sll
  | .slt .. => Length.slt | .sltu .. => Length.sltu | .xor .. => Length.xor | .srl .. => Length.srl
  | .sra .. => Length.sra | .or .. => Length.or | .and .. => Length.and | .fence .. => Length.fence
  | .fenceI .. => Length.fenceI | .mul .. => Length.mul | .mulh .. => Length.mulh | .mulhsu .. => Length.mulhsu
  | .mulhu .. => Length.mulhu | .div .. => Length.div | .divu .. => Length.divu | .rem .. => Length.rem
  | .remu .. => Length.remu | .cAddi4spn .. => Length.cAddi4spn | .cFld .. => Length.cFld | .cLw .. => Length.cLw
  | .cFlw .. => Length.cFlw | .cFsd .. => Length.cFsd | .cSw .. => Length.cSw | .cFsw .. => Length.cFsw
  | .cNop .. => Length.cNop | .cAddi .. => Length.cAddi | .cJal .. => Length.cJal | .cLi .. => Length.cLi
  | .cAddi16sp .. => Length.cAddi16sp | .cLui .. => Length.cLui | .cSrli .. => Length.cSrli | .cSrai .. => Length.cSrai
  | .cAndi .. => Length.cAndi | .cSub .. => Length.cSub | .cXor .. => Length.cXor | .cOr .. => Length.cOr
  | .cAnd .. => Length.cAnd | .cJ .. => Length.cJ | .cBeqz .. => Length.cBeqz | .cBnez .. => Length.cBnez
  | .cSlli .. => Length.cSlli | .cFldsp .. => Length.cFldsp | .cLwsp .. => Length.cLwsp | .cFlwsp .. => Length.cFlwsp
  | .cJr .. => Length.cJr | .cMv .. => Length.cMv | .cEbreak .. => Length.cEbreak | .cJalr .. => Length.cJalr
  | .cAdd .. => Length.cAdd | .cFsdsp .. => Length.cFsdsp | .cSwsp .. => Length.cSwsp | .cFswsp .. => Length.cFswsp
  | .lrW .. => Length.lrW | .scW .. => Length.scW | .amoswapW .. => Length.amoswapW | .amoaddW .. => Length.amoaddW
  | .amoxorW .. => Length.amoxorW | .amoandW .. => Length.amoandW | .amoorW .. => Length.amoorW
  | .amominW .. => Length.amominW | .amomaxW .. => Length.amomaxW | .amominuW .. => Length.amominuW
  | .amomaxuW .. => Length.amomaxuW | .flw .. => Length.flw | .fsw .. => Length.fsw | .fmaddS .. => Length.fmaddS
  | .fmsubS .. => Length.fmsubS | .fnmsubS .. => Length.fnmsubS | .fnmaddS .. => Length.fnmaddS
  | .faddS .. => Length.faddS | .fsubS .. => Length.fsubS | .fmulS .. => Length.fmulS | .fdivS .. => Length.fdivS
  | .fsqrtS .. => Length.fsqrtS | .fsgnjS .. => Length.fsgnjS | .fsgnjnS .. => Length.fsgnjnS
  | .fsgnjxS .. => Length.fsgnjxS | .fminS .. => Length.fminS | .fmaxS .. => Length.fmaxS | .fcvtWS .. => Length.fcvtWS
  | .fcvtWuS .. => Length.fcvtWuS | .fmvXW .. => Length.fmvXW | .feqS .. => Length.feqS | .fltS .. => Length.fltS
  | .fleS .. => Length.fleS | .fclassS .. => Length.fclassS | .fcvtSW .. => Length.fcvtSW
  | .fcvtSWu .. => Length.fcvtSWu | .fmvWX .. => Length.fmvWX | .fld .. => Length.fld | .fsd .. => Length.fsd
  | .fmaddD .. => Length.fmaddD | .fmsubD .. => Length.fmsubD | .fnmsubD .. => Length.fnmsubD
  | .fnmaddD .. => Length.fnmaddD | .faddD .. => Length.faddD | .fsubD .. => Length.fsubD | .fmulD .. => Length.fmulD
  | .fdivD .. => Length.fdivD | .fsqrtD .. => Length.fsqrtD | .fsgnjD .. => Length.fsgnjD
  | .fsgnjnD .. => Length.fsgnjnD | .fsgnjxD .. => Length.fsgnjxD | .fminD .. => Length.fminD
  | .fmaxD .. => Length.fmaxD | .fcvtSD .. => Length.fcvtSD | .fcvtDS .. => Length.fcvtDS | .feqD .. => Length.feqD
  | .fltD .. => Length.fltD | .fleD .. => Length.fleD | .fclassD .. => Length.fclassD | .fcvtWD .. => Length.fcvtWD
  | .fcvtWuD .. => Length.fcvtWuD | .fcvtDW .. => Length.fcvtDW | .fcvtDWu .. => Length.fcvtDWu
  | .csrrw .. => Length.csrrw | .csrrs .. => Length.csrrs | .csrrc .. => Length.csrrc | .csrrwi .. => Length.csrrwi
  | .csrrsi .. => Length.csrrsi | .csrrci .. => Length.csrrci | .ebreak .. => Length.ebreak | .ecall .. => Length.ecall
  | .mret .. => Length.mret | .wfi .. => Length.wfi

end Sys2Proof.Laws

namespace Sys2Proof.Machine

/-! ### A step that runs an instruction -/

theorem boundaryTrap_none {s : State} (h : NoTrapDue s) : boundaryTrap s = none := by
  obtain ⟨hf, hn, hi⟩ := h
  have hn : nmiTaken s = false := by rw [← Bool.not_eq_true, nmiTaken_iff]; exact hn
  have hi : irqAllowed s = none := Option.eq_none_iff_forall_ne_some.2 fun r hr => hi r ((irqAllowed_iff s r).1 hr)
  simp [boundaryTrap, hf, hn, hi]

/-- A hart that is awake, with nothing from outside and no trap due, fetches and executes (00_scope.md R14). -/
theorem step_runs {s : State} (hq : Quiet s) (ha : s.asleep = false) (ht : NoTrapDue s) :
    step s = thenSettle (runInstr s.afterPulses) := by
  have ha : s.endPulses.asleep = false := ha
  have ht : NoTrapDue s.endPulses := ht
  rw [step_quiet hq, actStep_awake ha, boundaryTrap_none ht]; rfl

theorem runInstr_fetched {s u : State} {c : Code} {i : Instr} (hf : fetch s = .ok c u) (hd : decode c = some i) :
    runInstr s = exec i u := by
  simp only [runInstr, hf, runCode, hd]

/-- The end of a step leaves mcycle alone where it is inhibited (10_state.md R61). -/
theorem settle_mcycle_inhibited {s : State} (h : s.csr.mcountinhibit.cy = true) : (settle s).mcycle = s.mcycle := by
  simp [settle, State.countCycles, h]

/-- The end of a step, of an outcome that has a next state. -/
theorem thenSettle_next (s : State) : ∃ t, thenSettle (.next s) = .next t ∧
    t = { s with mcycle := t.mcycle, eccHits := [], free := s.free + 1 } ∧
    (s.csr.mcountinhibit.cy = true → t.mcycle = s.mcycle) := by
  obtain ⟨m, hm⟩ := settle_frame s
  exact ⟨settle s, rfl, by rw [hm], settle_mcycle_inhibited⟩

/-- Settles O57: the fetch finds the words of `i`, which decode to `i`, and no trap comes before it. -/
theorem stepRunsInstruction : Obligations.StepRunsInstruction := by
  unfold Obligations.StepRunsInstruction
  rintro s i _ hq ha ht hs h0 hw rfl hp
  have hd := Laws.decode_encode hw
  obtain ⟨hhalf, hword⟩ := Laws.length_of_encode i
  refine ⟨fun h he hc hb => ?_, fun w he h1 hb => ?_, thenSettle_next, fun _ => rfl, fun _ => rfl⟩
  · have hf : fetch s.afterPulses = .ok (.half h) s.afterPulses := fetch_half hs h0 hc hp hb (hhalf h he)
    rw [step_runs hq ha ht, runInstr_fetched hf (he ▸ hd)]
  · obtain ⟨hl, hv⟩ := hword w he
    have hf : fetch s.afterPulses = .ok (.word w) s.afterPulses := fetch_word hs h0 hp h1 hb hl hv
    rw [step_runs hq ha ht, runInstr_fetched hf (he ▸ hd)]

/-! ### The events -/

/-- The events of a group, one after the other (00_scope.md R16). -/
theorem inputsInOrder_eq_foldl (g : List Input) (s : State) : s.inputsInOrder g = g.foldl State.input s := by
  induction g generalizing s with
  | nil => rfl
  | cons i rest ih => exact ih _

theorem arrive_of_inputs {s : State} {g : List Input} {rest : List (List Input)} (h : s.inputs = g :: rest) :
    arrive s = g.foldl State.input { s.afterPulses with inputs := rest } := by
  rw [← inputsInOrder_eq_foldl, arrive, h]; rfl

theorem input_irq_absent {s : State} {id : Nat} (level : Bool) (h : id < 19 ∨ s.cfg.numInterrupt ≤ id) :
    s.input (.irq id level) = s := if_neg (by omega)

theorem setLine_eq_set {e : Eclic} {id : Nat} {src : EclicSrc} (level : Bool) (h : e.srcs[id]? = some src) :
    e.setLine id level = { e with srcs := e.srcs.set id (src.setLine level) } := by
  simp [Eclic.setLine, List.modify_eq_set_getElem?, h]

theorem input_irq {s : State} {id : Nat} {src : EclicSrc} (level : Bool) (h19 : 19 ≤ id)
    (hn : id < s.cfg.numInterrupt) (h : s.eclic.srcs[id]? = some src) :
    s.input (.irq id level) = s.withEclic { s.eclic with srcs := s.eclic.srcs.set id (src.setLine level) } := by
  rw [← setLine_eq_set level h]; exact if_pos ⟨h19, hn⟩

/-! ### A byte another bus master writes (43_rv32a.md R381) -/

theorem busWrite_device {s : State} {a : Word} (b : Byte) (h : region s.cfg a = .timer ∨ region s.cfg a = .eclic) :
    s.busWrite a b = s := by
  rcases h with h | h <;> simp only [State.busWrite, h]

theorem busWrite_memory {s : State} {a : Word} (b : Byte) (ht : region s.cfg a ≠ .timer)
    (he : region s.cfg a ≠ .eclic) :
    s.busWrite a b =
      (s.storeMem a [b]).withResv (if s.resv = some (a &&& 0xFFFFFFFC#32) then none else s.resv) := by
  rw [← alignedAddr_eq]
  unfold State.busWrite
  cases h : region s.cfg a <;> simp only [h, ne_eq, not_true] at ht he ⊢
  all_goals split <;> rfl

/-! ### The reset (70_reset_and_hazards.md R620 to R623) -/

theorem memKept_of_no_switch {s : State} (h : s.cfg.hasIlm = false ∨ s.csr.scpdIsIlm = true) : s.memKept = s.mem :=
  if_neg (by rcases h with h | h <;> simp [h])

/-- Where a source comes from after a reset: its line is kept, but for the two the TIMER drives (log 24). -/
theorem resetEvent_src {s : State} {keep : Bool} {id : Nat} {src : EclicSrc}
    (h : (s.resetEvent keep).eclic.srcs[id]? = some src) :
    ∃ old, s.eclic.srcs[id]? = some old ∧
      src = if id = 3 ∨ id = 7 then old.afterReset.setLine false else old.afterReset := by
  simp only [State.resetEvent, setLine_getElem, List.getElem?_map] at h
  cases ho : s.eclic.srcs[id]? with
  | none => simp [ho] at h
  | some old =>
    refine ⟨old, rfl, ?_⟩
    by_cases h3 : id = 3
    · subst h3; simpa [ho] using h.symm
    · by_cases h7 : id = 7
      · subst h7; simpa [ho] using h.symm
      · simpa [ho, h3, h7, Ne.symm h3, Ne.symm h7] using h.symm

theorem resetEvent_src_registers {s : State} {keep : Bool} {id : Nat} {src : EclicSrc}
    (h : (s.resetEvent keep).eclic.srcs[id]? = some src) :
    src.ie = false ∧ src.trig = 0 ∧ src.shv = false ∧ (id = 3 ∨ id = 7 → src.pending = false) := by
  obtain ⟨old, -, rfl⟩ := resetEvent_src h
  split
  · next hid =>
    obtain ⟨-, level_pending, -, -⟩ := setLine_driven old.afterReset false
    exact ⟨rfl, rfl, rfl, fun _ => level_pending (by simp [EclicSrc.afterReset, EclicSrc.zero]) (.inl rfl)⟩
  · next hid => exact ⟨rfl, rfl, rfl, fun h => absurd h hid⟩

theorem resetEvent_srcs_length (s : State) (keep : Bool) :
    (s.resetEvent keep).eclic.srcs.length = s.eclic.srcs.length := by
  simp [State.resetEvent, Eclic.setLine]

/-- A reset leaves the reset state, but for memory, the lines, rx_evt and the model's own queue and counter (log 24). -/
theorem resetEvent_frame (s : State) (keep : Bool) : s.resetEvent keep =
    { State.resetWith s.cfg with mem := (s.resetEvent keep).mem, eclic := (s.resetEvent keep).eclic, rxEvt := s.rxEvt,
                                 inputs := s.inputs, free := s.free } := rfl

/-- Settles O50, event by event. -/
theorem environmentEvents : Obligations.EnvironmentEvents := by
  unfold Obligations.EnvironmentEvents
  intro s
  refine ⟨fun g rest h => ?_, fun id level h => input_irq_absent level h, fun id level src h19 hn h => ?_,
    fun h => if_pos h, fun h => if_neg h, fun _ => rfl, fun a b hw ht he => ?_, fun a b h => busWrite_device b h,
    fun keep => ?_, rfl, rfl⟩
  · rw [step, arrive_of_inputs h]
  · exact ⟨src.setLine level, setLine_driven src level, input_irq level h19 hn h⟩
  · exact ⟨_, busWrite_memory b ht he, fun c => Memory.read_write hw a c b, rfl⟩
  · refine ⟨_, rfl, resetEvent_frame s keep, ?_, ?_, rfl, resetEvent_srcs_length s keep,
      fun id src => resetEvent_src_registers⟩
    · rintro rfl; rfl
    · rintro rfl h; exact memKept_of_no_switch h

end Sys2Proof.Machine

/-! PROOFS. The statements of 10_state.md: every step keeps the invariant (O53), what User Mode cannot change (O59), who
may access a CSR (O31), the layouts (O34) and the reset values (O51). -/

namespace Sys2Proof.Machine

/-! ### The invariant, part by part

`State.Inv` speaks of whole states, so an update of one field touches every one of its clauses. The two structures below
say the same field by field: what an update does not write carries over as it stands. -/

/-- The clauses of the invariant that speak of the CSRs. -/
structure Csrs.Inv (cfg : Config) (c : Csrs) : Prop where
  mepc : c.mepc.getLsbD 0 = false
  epc1 : c.save1.epc.getLsbD 0 = false
  epc2 : c.save2.epc.getLsbD 0 = false
  mpp : cfg.hasUmode = false → c.mstatus.mpp = .machine
  pmp : c.pmp.length = cfg.pmpEntries
  fsOff : cfg.hasF = false → cfg.hasD = false → c.mstatus.fs = 0#2
  mtvt : c.mtvt = clearLow (mtvtZeros cfg.numInterrupt) c.mtvt

/-- The clauses of the invariant that speak of memory. -/
structure Memory.Inv (cfg : Config) (m : Memory) : Prop where
  wf : m.wf = true
  draw : ∀ d, m.draw = some d → d.base = baseOf cfg.ilmBpa ∧ d.size = localMemSize cfg.ilmSize

/-- The invariant, one clause for each field of the state. -/
structure State.FieldInv (s : State) : Prop where
  pc : s.pc.getLsbD 0 = false
  resetVector : s.cfg.resetVector.getLsbD 0 = false
  priv : s.cfg.hasUmode = false → s.priv = .machine
  csr : s.csr.Inv s.cfg
  mem : s.mem.Inv s.cfg
  srcs : s.eclic.srcs.length = s.cfg.numInterrupt
  software : ∀ src, s.eclic.srcs[3]? = some src → src.line = s.timer.msip
  compare : ∀ src, s.eclic.srcs[7]? = some src → (src.line = true ↔ s.timer.mtimecmp.toNat ≤ s.timer.mtime.toNat)
  resv : ∀ a, s.resv = some a → a.extractLsb' 0 2 = 0#2
  faults : s.cfg.preciseAccessFaults = true → ∀ e, s.pendingFault = some e → e.detail = .keep

theorem inv_iff_fieldInv (s : State) : s.Inv ↔ s.FieldInv := by
  constructor
  · rintro ⟨mem, even, modes, sized, fsOff, resv, faults, warl, draw, lines⟩
    exact { pc := even.pc, resetVector := even.resetVector, priv := modes.priv
            csr := ⟨even.mepc, even.epc1, even.epc2, modes.mpp, sized.pmp, fsOff, warl.mtvt⟩
            mem := ⟨mem, draw⟩
            srcs := sized.srcs, software := lines.1, compare := lines.2, resv, faults }
  · intro h
    exact { mem := h.mem.wf
            even := ⟨h.pc, h.csr.mepc, h.csr.epc1, h.csr.epc2, h.resetVector⟩
            modes := ⟨h.priv, h.csr.mpp⟩, sized := ⟨h.csr.pmp, h.srcs⟩, fsOff := h.csr.fsOff, resv := h.resv
            faults := h.faults, warl := ⟨h.csr.mtvt⟩, draw := h.mem.draw, lines := ⟨h.software, h.compare⟩ }

/-! ### Even addresses -/

theorem even_alignedAddr (a : Word) : (alignedAddr a).getLsbD 0 = false := by
  simp [alignedAddr]

theorem even_append_zeros (v : BitVec 30) : (v ++ 0#2 : Word).getLsbD 0 = false := by
  rw [getLsbD_append_cases]
  rfl

/-! ### Memory -/

@[simp] theorem Memory.draw_writeBytes (m : Memory) (a : Word) (bytes : List Byte) :
    (m.writeBytes a bytes).draw = m.draw := by
  induction bytes generalizing m a with
  | nil => rfl
  | cons b rest ih => exact ih (m.write a b) (a + 1)

theorem Memory.Inv.writeBytes {cfg : Config} {m : Memory} (h : m.Inv cfg) (a : Word) (bytes : List Byte) :
    (m.writeBytes a bytes).Inv cfg :=
  ⟨Memory.wf_writeBytes h.wf a bytes, by simpa using h.draw⟩

theorem Memory.Inv.redraw {cfg : Config} {m : Memory} (h : m.Inv cfg) (n : Nat) :
    (m.redraw { index := n, base := baseOf cfg.ilmBpa, size := localMemSize cfg.ilmSize }).Inv cfg :=
  ⟨Memory.wf_redraw h.wf _, fun d e => by cases e; exact ⟨rfl, rfl⟩⟩

theorem writeCache_mem {s : State} (h : s.mem.Inv s.cfg) (v : Word) : (s.writeCache v).mem.Inv s.cfg := by
  unfold State.writeCache
  simp only
  split
  · exact h.redraw _
  · exact h

theorem memKept_inv {s : State} (h : s.mem.Inv s.cfg) : s.memKept.Inv s.cfg := by
  unfold State.memKept
  split
  · exact h.redraw _
  · exact h

/-! ### The CSRs -/

/-- The low bits of mtvt are clear already once they are cleared. -/
theorem clearLow_idem (n : Nat) (v : Word) : clearLow n (clearLow n v) = clearLow n v := by
  apply BitVec.eq_of_toNat_eq
  simp only [clearLow_toNat]
  rw [Nat.mul_div_cancel _ (Nat.pow_pos (by decide))]

/-- On a core without User Mode no value stored in MPP makes it User (10_state.md R43). -/
theorem storeMpp_machine {cfg : Config} (h : cfg.hasUmode = false) (free : Nat) (b : BitVec 2) :
    storeMpp cfg free b = .machine := by
  simp [storeMpp, h]

section
variable {cfg : Config} {c : Csrs} (h : c.Inv cfg)
include h

theorem Csrs.Inv.counted : c.counted.Inv cfg := { h with }

theorem Csrs.Inv.fpDone (hf : cfg.hasF = true ∨ cfg.hasD = true) (fl : BitVec 5) : ((c.accrue fl).dirtyFs).Inv cfg :=
  { h with fsOff := fun f d => by simp [f, d] at hf }

theorem Csrs.Inv.noteEcc (u : EccUnit) (double : Bool) : (c.noteEcc u double).Inv cfg := by
  unfold Csrs.noteEcc
  split
  · exact { h with }
  · exact { h with }

theorem Csrs.Inv.writeCache (v : Word) : (c.writeCache v).Inv cfg := { h with }

/-- What each CSR stores meets the invariant. The floating-point CSRs, whose write makes FS Dirty, exist only on a core
with floating-point registers. -/
theorem Csrs.Inv.write (free : Nat) {r : Csr} (v : Word) (he : r.existsIn cfg = true) :
    (c.write cfg free r v).Inv cfg := by
  cases r with
  | fflags | frm | fcsr =>
    exact { h with fsOff := fun f d => by simp [Csr.existsIn, f, d] at he }
  | mstatus =>
    exact { h with
      mpp := fun hu => storeMpp_machine hu _ _
      fsOff := fun f d => by simpa [Csrs.write, Mstatus.write, f, d] using h.fsOff f d }
  | mcause => exact { h with mpp := fun hu => storeMpp_machine hu _ _ }
  | mtvt => exact { h with mtvt := (clearLow_idem _ _).symm }
  | mepc => exact { h with mepc := even_evenAddr _ }
  | msaveepc1 => exact { h with epc1 := even_evenAddr _ }
  | msaveepc2 => exact { h with epc2 := even_evenAddr _ }
  | pmpcfg k => exact { h with pmp := (writePmpcfg_len _ _ _).trans h.pmp }
  | pmpaddr n => exact { h with pmp := (List.length_modify _ _ _).trans h.pmp }
  | _ => exact { h with }

/-- The push of the state stack moves even addresses. -/
theorem Csrs.Inv.pushIf (hasStack : Bool) : (c.pushIf hasStack).Inv cfg := by
  cases hasStack
  · exact h
  · exact { h with epc1 := h.mepc, epc2 := h.epc1 }

theorem Csrs.Inv.enterException (e : Exc) (epc : Word) {p : Priv} (hp : cfg.hasUmode = false → p = .machine)
    (hasStack : Bool) (free : Nat) : (c.enterException e epc p hasStack free).Inv cfg :=
  { h.pushIf hasStack with mepc := even_evenAddr epc, mpp := hp, fsOff := h.fsOff }

theorem Csrs.Inv.enterNmi (pc : Word) {p : Priv} (hp : cfg.hasUmode = false → p = .machine) (hasStack : Bool) :
    (c.enterNmi pc p hasStack).Inv cfg :=
  { h.pushIf hasStack with mepc := even_evenAddr pc, mpp := hp, fsOff := h.fsOff }

theorem Csrs.Inv.enterIrq (r : Request) (pc : Word) {p : Priv} (hp : cfg.hasUmode = false → p = .machine)
    (minhv : Bool) : (c.enterIrq r pc p minhv).Inv cfg :=
  { h with mepc := even_evenAddr pc, mpp := hp }

/-- MRET with the pop takes mepc and MPP from the stack, where the address is even; without it MPP is the least mode. -/
theorem Csrs.Inv.afterMret (free : Nat) : (c.afterMret cfg free).Inv cfg := by
  unfold Csrs.afterMret
  split
  · exact { h with mepc := h.epc1, epc1 := h.epc2, mpp := fun hu => storeMpp_machine hu _ _ }
  · exact { h with mpp := fun hu => if_neg (by simp [hu]) }

end

theorem reset_csrs_inv (cfg : Config) : (Csrs.reset cfg).Inv cfg where
  mepc := by simp [Csrs.reset]
  epc1 := by simp [Csrs.reset, SaveLevel.zero]
  epc2 := by simp [Csrs.reset, SaveLevel.zero]
  mpp hu := by simp [Csrs.reset, hu]
  pmp := by simp [Csrs.reset]
  fsOff _ _ := rfl
  mtvt := by simp [Csrs.reset, clearLow]

/-! ### One lemma for each update of the state -/

section
variable {s : State} (h : s.FieldInv)
include h

theorem State.FieldInv.withCsr {c : Csrs} (hc : c.Inv s.cfg) : (s.withCsr c).FieldInv := { h with csr := hc }

theorem State.FieldInv.withPc {p : Word} (hp : p.getLsbD 0 = false) : (s.withPc p).FieldInv := { h with pc := hp }

theorem State.FieldInv.withMem {m : Memory} (hm : m.Inv s.cfg) : (s.withMem m).FieldInv := { h with mem := hm }

theorem State.FieldInv.withPriv {p : Priv} (hp : s.cfg.hasUmode = false → p = .machine) : (s.withPriv p).FieldInv :=
  { h with priv := hp }

theorem State.FieldInv.withResv {r : Option Word} (hr : ∀ a, r = some a → a.extractLsb' 0 2 = 0#2) :
    (s.withResv r).FieldInv := { h with resv := hr }

theorem State.FieldInv.withResv_none : (s.withResv none).FieldInv := h.withResv nofun

theorem State.FieldInv.withPendingFault {p : Option Exc}
    (hp : s.cfg.preciseAccessFaults = true → ∀ e, p = some e → e.detail = .keep) : (s.withPendingFault p).FieldInv :=
  { h with faults := hp }

theorem State.FieldInv.withPendingFault_none : (s.withPendingFault none).FieldInv := h.withPendingFault nofun

theorem State.FieldInv.setX (r : Reg) (v : Word) : (s.setX r v).FieldInv := by
  unfold State.setX
  split
  · exact h
  · exact { h with }

/-- The ECLIC may change as long as the two lines the TIMER drives stay. -/
theorem State.FieldInv.withEclic {e : Eclic} (hl : e.srcs.length = s.eclic.srcs.length)
    (h3 : (e.srcs[3]?).map (·.line) = (s.eclic.srcs[3]?).map (·.line))
    (h7 : (e.srcs[7]?).map (·.line) = (s.eclic.srcs[7]?).map (·.line)) : (s.withEclic e).FieldInv := by
  have line_kept : ∀ {i : Nat} {src : EclicSrc}, (e.srcs[i]?).map (·.line) = (s.eclic.srcs[i]?).map (·.line) →
      e.srcs[i]? = some src → ∃ old, s.eclic.srcs[i]? = some old ∧ old.line = src.line := fun hi hs => by
    rw [hs] at hi
    exact Option.map_eq_some_iff.1 hi.symm
  refine { h with srcs := hl.trans h.srcs, software := fun src hs => ?_, compare := fun src hs => ?_ }
  · obtain ⟨old, ho, hline⟩ := line_kept h3 hs
    exact hline ▸ h.software old ho
  · obtain ⟨old, ho, hline⟩ := line_kept h7 hs
    exact hline ▸ h.compare old ho

theorem State.FieldInv.withEclic_lines {e : Eclic} (hl : e.lines = s.eclic.lines) : (s.withEclic e).FieldInv := by
  have at_i : ∀ i : Nat, (e.srcs[i]?).map (·.line) = (s.eclic.srcs[i]?).map (·.line) := fun i => by
    simpa [Eclic.lines] using congrArg (·[i]?) hl
  exact h.withEclic (by simpa [Eclic.lines] using congrArg List.length hl) (at_i 3) (at_i 7)

/-- The lines follow the TIMER whatever values its registers take (60_exceptions.md R591). -/
theorem State.FieldInv.setTimer (t : Timer) : (s.setTimer t).FieldInv := by
  obtain ⟨-, hlen, -⟩ := setTimer_driven s t
  obtain ⟨hsoftware, hcompare⟩ := setTimer_lines s t
  rw [setTimer_shape]
  exact { h with srcs := hlen.trans h.srcs, software := hsoftware, compare := hcompare }

theorem State.FieldInv.noteEcc (u : EccUnit) (double : Bool) : (s.noteEcc u double).FieldInv :=
  { h with csr := h.csr.noteEcc u double }

theorem State.FieldInv.noteFault {e : Exc} (he : s.cfg.preciseAccessFaults = true → e.detail = .keep) :
    (s.noteFault e).FieldInv := by
  obtain ⟨p, hp, hq⟩ := noteFault_eq s e
  rw [hp]
  refine h.withPendingFault fun hprecise x hx => ?_
  rcases hq with rfl | ⟨-, rfl⟩
  · cases hx
    exact he hprecise
  · exact h.faults hprecise x hx

theorem State.FieldInv.storeMem (a : Word) (bytes : List Byte) : (s.storeMem a bytes).FieldInv :=
  { h with mem := h.mem.writeBytes a bytes }

theorem State.FieldInv.csrWrite {c : Csr} (v : Word) (he : c.existsIn s.cfg = true) :
    (csrWrite s c v).FieldInv := by
  cases c with
  | mcacheCtl =>
    show (s.writeCache v).FieldInv
    rw [writeCache_shape]
    exact { h with csr := h.csr.writeCache v, mem := writeCache_mem h.mem v }
  | txevt =>
    unfold Machine.csrWrite
    simp only
    split
    · exact { h with }
    · exact h
  | mcycle | mcycleh => exact { h with }
  | _ => exact h.withCsr (h.csr.write s.free v he)

theorem State.FieldInv.claimIrq (r : Request) : (s.claimIrq r).FieldInv := by
  have hclaimed : (s.withCsr { s.csr with
      mcause := { s.csr.mcause with exccode := BitVec.ofNat 12 r.id }
      mintstatus := { s.csr.mintstatus with mil := r.level } }).FieldInv := h.withCsr { h.csr with }
  exact hclaimed.withEclic_lines (claim_lines _ _)

/-! ### Traps and returns -/

theorem State.FieldInv.takeException (e : Exc) (epc : Word) : (takeException e epc s).FieldInv :=
  { h with
    pc := even_alignedAddr _
    priv := fun _ => rfl
    csr := h.csr.enterException e epc h.priv _ _
    resv := nofun }

theorem State.FieldInv.takeNmi : (takeNmi s).FieldInv := by
  have hentry : (nmiEntry s).getLsbD 0 = false := by
    unfold nmiEntry
    split
    · exact even_alignedAddr _
    · exact h.resetVector
  exact { h with
    pc := hentry
    priv := fun _ => rfl
    csr := h.csr.enterNmi s.pc h.priv _
    resv := nofun }

theorem State.FieldInv.enterIrq (r : Request) (minhv : Bool) : (s.enterIrq r minhv).FieldInv :=
  { h with
    priv := fun _ => rfl
    csr := h.csr.enterIrq r s.pc h.priv minhv
    resv := nofun }

theorem State.FieldInv.afterMret : s.afterMret.FieldInv :=
  { h with
    pc := h.csr.mepc
    priv := h.csr.mpp
    csr := (h.csr.afterMret s.free).counted
    resv := nofun }

end

/-! ### Everything an instruction and a step can do -/

/-- The working changes of an instruction keep the invariant, one primitive change at a time. -/
theorem Work.fieldInv {s t : State} (h : Work s t) (hs : s.FieldInv) : t.FieldInv := by
  induction h with
  | refl => exact hs
  | setX _ r v ih => exact ih.setX r v
  | setF _ r v ih => exact { ih with }
  | goTo _ p hp ih => exact ih.withPc (hp ih.pc)
  | count _ ih => exact ih.withCsr ih.csr.counted
  | fp _ fl hf ih => exact ih.withCsr (ih.csr.fpDone hf fl)
  | mem _ a bytes ih => exact ih.withMem (ih.mem.writeBytes a bytes)
  | stale _ l ih => exact { ih with }
  | timer _ u _ ih => exact ih.setTimer u
  | eclic _ e he ih => exact ih.withEclic_lines he
  | resv _ r hr ih => exact ih.withResv hr
  | noteEcc _ u double ih => exact ih.noteEcc u double
  | sleep _ ih => exact { ih with }
  | noteFault _ e hp ih => exact ih.noteFault fun hprecise => by simp [hp] at hprecise
  | csr _ c v hp ih =>
    simp only [Csr.permitted, Bool.and_eq_true] at hp
    exact ih.csrWrite v hp.1.1
  | claim _ r _ ih => exact ih.claimIrq r
  | enable _ _ ih => exact ih.withCsr { ih.csr with }

theorem Ran.fieldInv {i : Instr} {s t : State} (h : Ran i s t) (hs : s.FieldInv) : t.FieldInv := by
  cases h with
  | done hw => exact hw.fieldInv hs
  | trap hw e epc => exact (hw.fieldInv hs).withPendingFault_none.takeException e epc
  | mret _ _ _ => exact hs.afterMret

/-- Interrupt entry, with or without the read of the vector table, which may fail (60_exceptions.md R560, R564). -/
theorem takeIrq_fieldInv {s t : State} {r : Request} (ht : takeIrq r s = .next t) (h : s.FieldInv) : t.FieldInv := by
  unfold takeIrq at ht
  split at ht
  · have hentered := h.enterIrq r true
    have hwork := vectorTableRead_works (s.enterIrq r true) r.id
    split at ht
    · next w e hread =>
      rw [hread] at hwork
      have he := Work.fieldInv hwork hentered
      have hcleared : e.clearMinhv.FieldInv := he.withCsr { he.csr with }
      cases ht
      exact (hcleared.withEclic_lines (claim_lines _ _)).withPc (even_evenAddr w)
    · next x e hread =>
      rw [hread] at hwork
      cases ht
      exact (Work.fieldInv hwork hentered).takeException x _
    · cases ht
  · cases ht
    refine (h.enterIrq r _).withPc ?_
    unfold nonVectoredEntry
    split
    · exact even_append_zeros _
    · exact even_alignedAddr _

theorem Acted.fieldInv {s t : State} (h : Acted s t) (hs : s.FieldInv) : t.FieldInv := by
  cases h with
  | sleep _ =>
    unfold sleepStep
    split
    · exact { hs with }
    · exact hs
  | fault e _ => exact hs.withPendingFault_none.takeException e _
  | nmi _ => exact hs.takeNmi
  | irq r _ _ ht => exact takeIrq_fieldInv ht hs
  | ran i hw hr _ => exact hr.fieldInv (hw.fieldInv hs)

/-! ### The environment's events -/

section
variable {s : State} (h : s.FieldInv)
include h

/-- An external line is none of the two the TIMER drives. -/
theorem State.FieldInv.setLine {id : Nat} (hid : 19 ≤ id) (level : Bool) :
    (s.withEclic (s.eclic.setLine id level)).FieldInv :=
  h.withEclic (by simp [Eclic.setLine]) (by rw [setLine_getElem, if_neg (by omega)])
    (by rw [setLine_getElem, if_neg (by omega)])

theorem State.FieldInv.tick : s.tick.FieldInv := by
  unfold State.tick
  split
  · exact h
  · exact h.setTimer _

theorem State.FieldInv.busWrite (a : Word) (b : Byte) : (s.busWrite a b).FieldInv := by
  unfold State.busWrite
  split
  · exact h
  · exact h
  · have hstored := h.storeMem a [b]
    simp only
    split
    · exact hstored.withResv_none
    · exact hstored

theorem State.FieldInv.eccElsewhere (origin : EccOrigin) (u : EccUnit) (double : Bool) :
    (s.eccElsewhere origin u double).FieldInv := by
  unfold State.eccElsewhere
  have hnoted := h.noteEcc u double
  split
  · simp only
    split
    · exact { hnoted with }
    · exact hnoted
  · exact h

/-- The fault of a copy-back is the one that may wait with precise faults: it keeps mdcause (60_exceptions.md R607). -/
theorem State.FieldInv.eccEvict : s.eccEvict.FieldInv := by
  unfold State.eccEvict
  have hnoted := h.noteEcc .dcache true
  split
  · simp only
    split
    · exact hnoted.noteFault fun _ => rfl
    · exact hnoted
  · exact h

/-- A reset leaves both lines of the TIMER low, as mtime 0 is below mtimecmp and MSIP is clear. -/
theorem State.FieldInv.resetEvent (keep : Bool) : (s.resetEvent keep).FieldInv := by
  have hlow : ∀ {id : Nat} {src : EclicSrc}, (s.resetEvent keep).eclic.srcs[id]? = some src → id = 3 ∨ id = 7 →
      src.line = false := fun hs hid => by
    obtain ⟨old, -, rfl⟩ := resetEvent_src hs
    rw [if_pos hid]
    rfl
  exact { pc := h.resetVector, resetVector := h.resetVector, priv := fun _ => rfl
          csr := reset_csrs_inv s.cfg
          mem := by
            cases keep
            · exact ⟨Memory.wf_empty, nofun⟩
            · exact memKept_inv h.mem
          srcs := (resetEvent_srcs_length s keep).trans h.srcs
          software := fun src hs => hlow hs (.inl rfl)
          compare := fun src hs => by
            rw [hlow hs (.inr rfl)]
            exact iff_of_false (by decide) (by decide : ¬ (0xFFFFFFFFFFFFFFFF#64).toNat ≤ (0#64).toNat)
          resv := nofun, faults := nofun }

theorem State.FieldInv.input (i : Input) : (s.input i).FieldInv := by
  cases i with
  | tick => exact h.tick
  | irq id level =>
    unfold State.input
    simp only
    split
    · next hid => exact h.setLine hid.1 level
    · exact h
  | nmiEdge =>
    unfold State.input
    simp only
    split
    · exact h
    · exact { h with }
  | rxEvt level => exact { h with }
  | reset keep => exact h.resetEvent keep
  | busWrite a b => exact h.busWrite a b
  | eccHit hit => exact { h with }
  | eccOther origin u double => exact h.eccElsewhere origin u double
  | eccEvict => exact h.eccEvict

theorem State.FieldInv.arrive : (arrive s).FieldInv :=
  arrive_rel (fun s t => s.FieldInv → t.FieldInv) (fun _ h => h) (fun _ _ _ h k hs => k (h hs))
    (fun _ h => { h with }) (fun _ _ h => { h with }) (fun _ => True) (fun _ i _ h => h.input i) s
    (fun _ _ _ _ _ => trivial) h

theorem State.FieldInv.settle : (settle s).FieldInv := by
  obtain ⟨m, hm⟩ := settle_frame s
  rw [hm]
  exact { h with }

end

/-- Settles O53: the events, the middle of the step and its end each keep every clause. -/
theorem stepKeepsInvariant : Obligations.StepKeepsInvariant := by
  unfold Obligations.StepKeepsInvariant
  intro s t hs ht
  obtain ⟨u, hu, rfl⟩ := step_acts ht
  rw [inv_iff_fieldInv] at hs ⊢
  exact (hu.fieldInv hs.arrive).settle

/-! ### What User Mode cannot change (10_state.md R33, R34) -/

/-- The CSRs with everything blanked that a step within User Mode may change. -/
def Csrs.beyondUser (c : Csrs) : Csrs :=
  { c with
    fcsr := { frm := 0, fflags := 0 }
    mstatus := { c.mstatus with fs := 0 }
    wfe := false
    sleepvalue := false
    ucodeOv := false
    minstret := 0
    mecc := { sramid := 0, ramid := 0, code := c.mecc.code } }

/-- `c` with what User Mode may change taken from `d`. -/
def Csrs.withUserPart (c d : Csrs) : Csrs :=
  { c with
    fcsr := d.fcsr
    mstatus := { c.mstatus with fs := d.mstatus.fs }
    wfe := d.wfe
    sleepvalue := d.sleepvalue
    ucodeOv := d.ucodeOv
    minstret := d.minstret
    mecc := { d.mecc with code := c.mecc.code } }

theorem Csrs.eq_withUserPart {c d : Csrs} (h : d.beyondUser = c.beyondUser) : d = c.withUserPart d :=
  calc d = d.beyondUser.withUserPart d := rfl
    _ = c.beyondUser.withUserPart d := by rw [h]
    _ = c.withUserPart d := rfl

@[simp] theorem Csrs.beyondUser_mcountinhibit (c : Csrs) : c.beyondUser.mcountinhibit = c.mcountinhibit := rfl

/-- The mode, mcycle and the CSRs beyond User Mode are as they were. -/
structure UserKept (s t : State) : Prop where
  priv : t.priv = s.priv
  mcycle : t.mcycle = s.mcycle
  csr : t.csr.beyondUser = s.csr.beyondUser

theorem UserKept.refl (s : State) : UserKept s s := ⟨rfl, rfl, rfl⟩

theorem UserKept.trans {s t u : State} (h : UserKept s t) (k : UserKept t u) : UserKept s u :=
  ⟨k.priv.trans h.priv, k.mcycle.trans h.mcycle, k.csr.trans h.csr⟩

/-- The CSRs User Mode may write are those whose table class is URW (10_state.md R33). -/
theorem cls_of_permitted_user {s : State} {c : Csr} (hu : s.priv = .user) (hp : c.permitted s true = true) :
    c.cls = .urw := by
  simp only [Csr.permitted, Bool.and_eq_true, hu] at hp
  obtain ⟨⟨-, hcls⟩, -⟩ := hp
  revert hcls
  cases c.cls <;> simp [CsrClass.permits]

theorem cls_urw_cases {c : Csr} (h : c.cls = .urw) :
    c = .fflags ∨ c = .frm ∨ c = .fcsr ∨ c = .ucode ∨ c = .wfe ∨ c = .sleepvalue ∨ c = .txevt := by
  cases c with
  | fflags | frm | fcsr | ucode | wfe | sleepvalue | txevt => simp
  | _ => cases h

theorem userKept_csrWrite {s : State} {c : Csr} (v : Word) (hu : s.priv = .user) (hp : c.permitted s true = true) :
    UserKept s (csrWrite s c v) := by
  rcases cls_urw_cases (cls_of_permitted_user hu hp) with rfl | rfl | rfl | rfl | rfl | rfl | rfl
  case inr.inr.inr.inr.inr.inr =>
    unfold csrWrite
    simp only
    split <;> exact ⟨rfl, rfl, rfl⟩
  all_goals exact ⟨rfl, rfl, rfl⟩

theorem userKept_setX (s : State) (r : Reg) (v : Word) : UserKept s (s.setX r v) := ⟨by simp, by simp, by simp⟩

theorem userKept_setTimer (s : State) (t : Timer) : UserKept s (s.setTimer t) := by
  rw [setTimer_shape]
  exact ⟨rfl, rfl, rfl⟩

theorem userKept_noteEcc (s : State) (u : EccUnit) (double : Bool) : UserKept s (s.noteEcc u double) := by
  refine ⟨rfl, rfl, ?_⟩
  show (s.csr.noteEcc u double).beyondUser = _
  unfold Csrs.noteEcc
  split <;> rfl

theorem userKept_noteFault (s : State) (e : Exc) : UserKept s (s.noteFault e) := by
  obtain ⟨p, hp⟩ := noteFault_shape s e
  rw [hp]
  exact ⟨rfl, rfl, rfl⟩

/-- The working changes of an instruction in User Mode: a CSR is written only where User Mode may, and the interrupts'
access points are beyond its reach. -/
theorem Work.userKept {s t : State} (h : Work s t) (hu : s.priv = .user) : UserKept s t := by
  have not_machine : ∀ {u : State}, Work s u → u.priv ≠ .machine := fun hw hm => by
    rw [hw.priv, hu] at hm
    cases hm
  induction h with
  | refl => exact .refl s
  | setX _ r v ih => exact ih.trans (userKept_setX _ r v)
  | timer _ t _ ih => exact ih.trans (userKept_setTimer _ t)
  | noteEcc _ u double ih => exact ih.trans (userKept_noteEcc _ u double)
  | noteFault _ e _ ih => exact ih.trans (userKept_noteFault _ e)
  | csr hw c v hp ih => exact ih.trans (userKept_csrWrite v (hw.priv.trans hu) hp)
  | claim hw r hm _ => exact absurd hm (not_machine hw)
  | enable hw hm _ => exact absurd hm (not_machine hw)
  | _ => rename_i ih; exact ⟨ih.priv, ih.mcycle, ih.csr⟩

theorem userKept_input (s : State) (i : Input) (hi : ∀ keep, i ≠ .reset keep) : UserKept s (s.input i) := by
  cases i with
  | tick =>
    show UserKept s s.tick
    unfold State.tick
    split
    · exact .refl s
    · exact userKept_setTimer s _
  | irq id level =>
    unfold State.input
    simp only
    split <;> exact ⟨rfl, rfl, rfl⟩
  | nmiEdge =>
    unfold State.input
    simp only
    split <;> exact ⟨rfl, rfl, rfl⟩
  | rxEvt level => exact ⟨rfl, rfl, rfl⟩
  | reset keep => exact absurd rfl (hi keep)
  | busWrite a b =>
    show UserKept s (s.busWrite a b)
    unfold State.busWrite
    split
    · exact .refl s
    · exact .refl s
    · simp only
      split <;> exact ⟨rfl, rfl, rfl⟩
  | eccHit hit => exact ⟨rfl, rfl, rfl⟩
  | eccOther origin u double =>
    show UserKept s (s.eccElsewhere origin u double)
    have hnoted := userKept_noteEcc s u double
    unfold State.eccElsewhere
    split
    · simp only
      split
      · exact hnoted.trans ⟨rfl, rfl, rfl⟩
      · exact hnoted
    · exact .refl s
  | eccEvict =>
    show UserKept s s.eccEvict
    have hnoted := userKept_noteEcc s .dcache true
    unfold State.eccEvict
    split
    · simp only
      split
      · exact hnoted.trans (userKept_noteFault _ _)
      · exact hnoted
    · exact .refl s

theorem userKept_arrive {s : State} (h : ∀ g rest, s.inputs = g :: rest → ∀ k, Input.reset k ∉ g) :
    UserKept s (arrive s) :=
  arrive_rel UserKept .refl (fun _ _ _ => .trans) (fun _ => ⟨rfl, rfl, rfl⟩) (fun _ _ => ⟨rfl, rfl, rfl⟩)
    (fun i => ∀ keep, i ≠ .reset keep) userKept_input s fun g rest hg _ hi keep he => h g rest hg keep (he ▸ hi)

/-- Interrupt entry is to Machine Mode, also where it ends in the exception of a failed vector-table read. -/
theorem takeIrq_priv {s t : State} {r : Request} (h : takeIrq r s = .next t) : t.priv = .machine := by
  unfold takeIrq at h
  split at h
  · have hwork := vectorTableRead_works (s.enterIrq r true) r.id
    split at h
    · next hread =>
      rw [hread] at hwork
      cases h
      exact Work.priv hwork
    · cases h
      rfl
    · cases h
  · cases h
    rfl

/-- The middle of a step that begins and ends in User Mode is sleep or the working changes of an instruction: every trap
leads to Machine Mode, and MRET is legal only there. -/
theorem Acted.userKept {s t : State} (h : Acted s t) (hs : s.priv = .user) (ht : t.priv = .user) : UserKept s t := by
  cases h with
  | sleep _ =>
    unfold sleepStep
    split <;> exact ⟨rfl, rfl, rfl⟩
  | fault e _ => cases ht
  | nmi _ => cases ht
  | irq r _ _ hi => exact absurd ((takeIrq_priv hi).symm.trans ht) nofun
  | ran i hw hr _ =>
    cases hr with
    | done hd => exact (hw.trans hd).userKept hs
    | trap _ e epc => cases ht
    | mret _ hm _ => exact absurd (hm.symm.trans (hw.priv.trans hs)) nofun

/-- Settles O59: nothing a step within User Mode is made of reaches the CSRs beyond User Mode or mcycle, and the end of
the step counts mcycle only where it is not inhibited. -/
theorem userModeIsolation : Obligations.UserModeIsolation := by
  unfold Obligations.UserModeIsolation
  intro s t ht hreset hs hpriv
  obtain ⟨u, hu, rfl⟩ := step_acts ht
  have harrived := userKept_arrive hreset
  obtain ⟨m, hm⟩ := settle_frame u
  have hcsr : (settle u).csr = u.csr := by rw [hm]
  have hkept := harrived.trans (hu.userKept (harrived.priv.trans hs) (by rw [hm] at hpriv; exact hpriv))
  refine ⟨?_, fun hcy => ?_⟩
  · rw [hcsr]
    exact Csrs.eq_withUserPart hkept.csr
  · have hinhibit : u.csr.mcountinhibit = s.csr.mcountinhibit := by
      simpa using congrArg Csrs.mcountinhibit hkept.csr
    rw [settle_mcycle_inhibited (by rw [hinhibit]; exact hcy)]
    exact hkept.mcycle

/-! ### Which CSRs exist and who may access them (10_state.md R31 to R34) -/

/-- What holds of every row of the table and of the PMP registers at their addresses holds wherever there is a CSR. -/
theorem forall_ofAddr {P : CsrAddr → Csr → Prop} (table : ∀ p ∈ csrTable, P (BitVec.ofNat 12 p.1) p.2)
    (pmpcfg : ∀ k < 16, P (BitVec.ofNat 12 (0x3A0 + k)) (.pmpcfg k))
    (pmpaddr : ∀ n < 64, P (BitVec.ofNat 12 (0x3B0 + n)) (.pmpaddr n)) {a : CsrAddr} {c : Csr}
    (h : Csr.ofAddr a = some c) : P a c := by
  have ha : a = BitVec.ofNat 12 a.toNat := by simp
  rcases ofAddr_cases h with ⟨k, hk, rfl, e⟩ | ⟨n, hn, rfl, e⟩ | hmem
  · rw [ha, e]
    exact pmpcfg k hk
  · rw [ha, e]
    exact pmpaddr n hn
  · rw [ha]
    exact table _ hmem

theorem ofAddr_of_table {a : CsrAddr} {c : Csr} (h : (a.toNat, c) ∈ csrTable) : Csr.ofAddr a = some c := by
  have rows : ∀ p ∈ csrTable, Csr.ofAddr (BitVec.ofNat 12 p.1) = some p.2 := by decide
  simpa using rows _ h

theorem ofAddr_pmpcfg {a : CsrAddr} {k : Nat} (hk : k < 16) (h : a.toNat = 0x3A0 + k) :
    Csr.ofAddr a = some (.pmpcfg k) := by
  simp only [Csr.ofAddr, h]
  rw [if_pos (by omega), Nat.add_sub_cancel_left]

theorem ofAddr_pmpaddr {a : CsrAddr} {n : Nat} (hn : n < 64) (h : a.toNat = 0x3B0 + n) :
    Csr.ofAddr a = some (.pmpaddr n) := by
  simp only [Csr.ofAddr, h]
  rw [if_neg (by omega), if_pos (by omega), Nat.add_sub_cancel_left]

/-- A CSR of the table that the configuration has stands in R31 under the condition it exists by. -/
theorem csrAt_of_table {cfg : Config} {a : CsrAddr} {c : Csr} (h : (a.toNat, c) ∈ csrTable)
    (he : c.existsIn cfg = true) : CsrAt cfg a c := by
  cases c with
  | fflags | frm | fcsr => exact .fp (by simpa [csrTable] using h) (by simpa [Csr.existsIn] using he)
  | mcounteren => exact .counteren (by simpa [csrTable] using h) he
  | pmpcfg | pmpaddr => simp [csrTable] at h
  | milmCtl => exact .ilm (by simpa [csrTable] using h) he
  | mdlmCtl => exact .dlm (by simpa [csrTable] using h) he
  | meccCode | meccLock => exact .ecc (by simpa [csrTable] using h) he
  | mcacheCtl => exact .cache (by simpa [csrTable] using h) he
  | msavestatus | msaveepc1 | msavecause1 | msaveepc2 | msavecause2 | msavedcause1 | msavedcause2 =>
    exact .stack (by simpa [csrTable] using h) he
  | ucode => exact .packed (by simpa [csrTable] using h) he
  | wfe | sleepvalue | txevt | cycle | time | instret | cycleh | timeh | instreth =>
    exact .user (by simpa [csrTable] using h)
  | mppicfgInfo | mfiocfgInfo | mvendorid | marchid | mimpid | mhartid | micfgInfo | mdcfgInfo | mcfgInfo =>
    exact .info (by simpa [csrTable] using h)
  | _ => exact .machine (by simpa [csrTable] using h)

/-- Rows of the table whose CSRs the configuration has are at their addresses. -/
theorem at_of_rows {cfg : Config} {a : CsrAddr} {c : Csr} {rows : List (Nat × Csr)} (h : (a.toNat, c) ∈ rows)
    (table : ∀ p ∈ rows, p ∈ csrTable) (he : ∀ p ∈ rows, p.2.existsIn cfg = true) :
    Csr.ofAddr a = some c ∧ c.existsIn cfg = true :=
  ⟨ofAddr_of_table (table _ h), he _ h⟩

/-- Each CSR is at its address of R31 where the configuration has it, and at no other. -/
theorem csrAt_iff (cfg : Config) (a : CsrAddr) (c : Csr) :
    (Csr.ofAddr a = some c ∧ c.existsIn cfg = true) ↔ CsrAt cfg a c := by
  constructor
  · rintro ⟨ha, he⟩
    rcases ofAddr_cases ha with ⟨k, hk, rfl, e⟩ | ⟨n, hn, rfl, e⟩ | hmem
    · simp only [Csr.existsIn, Bool.and_eq_true, decide_eq_true_eq] at he
      exact .pmpcfg k (by rw [e]) he.1 hk (by omega)
    · simp only [Csr.existsIn, Bool.and_eq_true, decide_eq_true_eq] at he
      exact .pmpaddr n (by rw [e]) he.1 hn he.2
    · exact csrAt_of_table hmem he
  · intro h
    have single : ∀ {row : Nat × Csr}, (a.toNat, c) = row → (a.toNat, c) ∈ [row] := fun e => by simp [e]
    cases h with
    | machine h => exact at_of_rows h (by decide) (by simp [Csr.existsIn])
    | user h => exact at_of_rows h (by decide) (by simp [Csr.existsIn])
    | info h => exact at_of_rows h (by decide) (by simp [Csr.existsIn])
    | fp h hc => exact at_of_rows h (by decide) (by simp [Csr.existsIn, hc])
    | counteren h hc => exact at_of_rows (single h) (by decide) (by simp [Csr.existsIn, hc])
    | pmpcfg k h hc hk hn =>
      obtain ⟨e, rfl⟩ := Prod.mk.inj h
      exact ⟨ofAddr_pmpcfg hk e, by simp [Csr.existsIn, hc]; omega⟩
    | pmpaddr n h hc hn hx =>
      obtain ⟨e, rfl⟩ := Prod.mk.inj h
      exact ⟨ofAddr_pmpaddr hn e, by simp [Csr.existsIn, hc, hx]⟩
    | ilm h hc => exact at_of_rows (single h) (by decide) (by simp [Csr.existsIn, hc])
    | dlm h hc => exact at_of_rows (single h) (by decide) (by simp [Csr.existsIn, hc])
    | ecc h hc => exact at_of_rows h (by decide) (by simp [Csr.existsIn, hc])
    | cache h hc => exact at_of_rows (single h) (by decide) (by simp [Csr.existsIn, hc])
    | stack h hc => exact at_of_rows h (by decide) (by simp [Csr.existsIn, hc])
    | packed h hc => exact at_of_rows (single h) (by decide) (by simp [Csr.existsIn, hc])

/-- What the bits of the address `a` tell of the CSR `c` there (R33, R34): whether it is
read-only or Machine Mode's, and whether it is one of those with an enable of their own. -/
def AddrTells (a : CsrAddr) (c : Csr) : Prop :=
  ((c.cls = .mro ∨ c.cls = .uro) ↔ (a.extractLsb' 10 2 = 3#2 ∨ a = 0x7F0#12 ∨ a = 0x7F1#12)) ∧
  ((c.cls = .mrw ∨ c.cls = .mro) ↔ a.extractLsb' 8 2 = 3#2) ∧
  ((c = .cycle ∨ c = .cycleh) ↔ (a = 0xC00#12 ∨ a = 0xC80#12)) ∧
  ((c = .time ∨ c = .timeh) ↔ (a = 0xC01#12 ∨ a = 0xC81#12)) ∧
  ((c = .instret ∨ c = .instreth) ↔ (a = 0xC02#12 ∨ a = 0xC82#12)) ∧
  ((c = .fflags ∨ c = .frm ∨ c = .fcsr) ↔ (a = 0x001#12 ∨ a = 0x002#12 ∨ a = 0x003#12))

theorem addr_tells {a : CsrAddr} {c : Csr} (h : Csr.ofAddr a = some c) : AddrTells a c := by
  refine forall_ofAddr (P := AddrTells) ?_ ?_ ?_ h <;> unfold AddrTells <;> decide

/-- What the class of a CSR permits: no write of a read-only one, nothing in User Mode of one of Machine Mode. -/
theorem permits_iff (cls : CsrClass) (p : Priv) (wr : Bool) : cls.permits p wr = true ↔
    ¬ (wr = true ∧ (cls = .mro ∨ cls = .uro)) ∧ ¬ (p = .user ∧ (cls = .mrw ∨ cls = .mro)) := by
  cases cls <;> cases p <;> simp [CsrClass.permits]

/-- Which enables a CSR needs besides its class: mcounteren's in User Mode, and FS. -/
theorem enabled_iff (s : State) (c : Csr) : c.enabled s = true ↔
    ¬ (s.priv = .user ∧ (c = .cycle ∨ c = .cycleh) ∧ s.csr.mcounteren.cy = false) ∧
    ¬ (s.priv = .user ∧ (c = .time ∨ c = .timeh) ∧ s.csr.mcounteren.tm = false) ∧
    ¬ (s.priv = .user ∧ (c = .instret ∨ c = .instreth) ∧ s.csr.mcounteren.ir = false) ∧
    ¬ ((c = .fflags ∨ c = .frm ∨ c = .fcsr) ∧ s.csr.mstatus.fs = 0#2) := by
  cases c with
  | cycle | cycleh | time | timeh | instret | instreth => cases hp : s.priv <;> simp [Csr.enabled, hp]
  | _ => simp [Csr.enabled]

theorem permitted_iff {s : State} {c : Csr} {wr : Bool} :
    c.permitted s wr = true ↔ c.existsIn s.cfg = true ∧ c.cls.permits s.priv wr = true ∧ c.enabled s = true := by
  simp only [Csr.permitted, Bool.and_eq_true, and_assoc]

/-- An access is permitted exactly when none of the reasons of R34 holds. -/
theorem permitted_iff_not_forbidden (s : State) (a : CsrAddr) (wr : Bool) :
    (∃ c, Csr.ofAddr a = some c ∧ c.permitted s wr = true) ↔ ¬ CsrForbidden s a wr := by
  constructor
  · rintro ⟨c, ha, hp⟩ hf
    obtain ⟨readOnly, machineOnly, cycle, time, instret, fp⟩ := addr_tells ha
    obtain ⟨he, hcls, hen⟩ := permitted_iff.1 hp
    obtain ⟨not_readOnly, not_machineOnly⟩ := (permits_iff _ _ _).1 hcls
    obtain ⟨not_cycle, not_time, not_instret, not_fpOff⟩ := (enabled_iff s c).1 hen
    cases hf with
    | absent h => exact h c ((csrAt_iff s.cfg a c).1 ⟨ha, he⟩)
    | readOnly hw h => exact not_readOnly ⟨hw, readOnly.2 h⟩
    | machineOnly hu h => exact not_machineOnly ⟨hu, machineOnly.2 h⟩
    | cycle hu h hc => exact not_cycle ⟨hu, cycle.2 h, hc⟩
    | time hu h hc => exact not_time ⟨hu, time.2 h, hc⟩
    | instret hu h hc => exact not_instret ⟨hu, instret.2 h, hc⟩
    | fpOff h hfs => exact not_fpOff ⟨fp.2 h, hfs⟩
  · intro hf
    obtain ⟨c, hat⟩ : ∃ c, CsrAt s.cfg a c := by
      by_contra hnone
      exact hf (.absent fun c hc => hnone ⟨c, hc⟩)
    obtain ⟨ha, he⟩ := (csrAt_iff s.cfg a c).2 hat
    obtain ⟨readOnly, machineOnly, cycle, time, instret, fp⟩ := addr_tells ha
    refine ⟨c, ha, permitted_iff.2 ⟨he, (permits_iff _ _ _).2 ⟨?_, ?_⟩, (enabled_iff s c).2 ⟨?_, ?_, ?_, ?_⟩⟩⟩
    · exact fun ⟨hw, h⟩ => hf (.readOnly hw (readOnly.1 h))
    · exact fun ⟨hu, h⟩ => hf (.machineOnly hu (machineOnly.1 h))
    · exact fun ⟨hu, h, hc⟩ => hf (.cycle hu (cycle.1 h) hc)
    · exact fun ⟨hu, h, hc⟩ => hf (.time hu (time.1 h) hc)
    · exact fun ⟨hu, h, hc⟩ => hf (.instret hu (instret.1 h) hc)
    · exact fun ⟨h, hfs⟩ => hf (.fpOff (fp.1 h) hfs)

/-- A CSR instruction whose access is forbidden is illegal. -/
theorem csrInstr_forbidden {s : State} {i : Instr} {form : CsrForm} {rd : Reg} {a : CsrAddr} {field : BitVec 5}
    (h : CsrForbidden s a (form.writes field)) : csrInstr i form rd a field s = illegal i s := by
  unfold csrInstr
  split
  · rfl
  · next c ha =>
    exact if_neg fun hp => (permitted_iff_not_forbidden s a _).1 ⟨c, ha, hp⟩ h

theorem csrInstr_forbidden_traps {s : State} {i : Instr} {form : CsrForm} {rd : Reg} {a : CsrAddr} {field : BitVec 5}
    (hexec : exec i s = csrInstr i form rd a field s) (hw : s.pendingFault = none)
    (h : CsrForbidden s a (form.writes field)) : TrapsIllegal i s := by
  unfold TrapsIllegal
  rw [hexec, csrInstr_forbidden h]
  exact illegal_taken i s hw

/-- Settles O31: the addresses by the table, the rights by the class of each CSR and its enables, and the six
instructions by the one access check they share. -/
theorem csrAccessRights : Obligations.CsrAccessRights := by
  unfold Obligations.CsrAccessRights
  intro s a rd field
  exact ⟨csrAt_iff s.cfg a, permitted_iff_not_forbidden s a, fun hw =>
    ⟨fun h => ⟨csrInstr_forbidden_traps (form := .rw) rfl hw h, csrInstr_forbidden_traps (form := .rwi) rfl hw h⟩,
      fun h => ⟨csrInstr_forbidden_traps (form := .rs) rfl hw h, csrInstr_forbidden_traps (form := .rc) rfl hw h,
        csrInstr_forbidden_traps (form := .rsi) rfl hw h, csrInstr_forbidden_traps (form := .rci) rfl hw h⟩⟩⟩

/-! ### Layouts (10_state.md R36 to R73; 11_state_nuclei_csr.md R100 to R131)

A register made of fields is their `++`, so its number is their sum with powers of two. -/

theorem eq_ofNat_of_toNat {v : Word} {n : Nat} (h : v.toNat = n) : v = BitVec.ofNat 32 n := by
  subst h
  simp

theorem setWidth_ofBool (b : Bool) : (BitVec.ofBool b).setWidth 32 = BitVec.ofNat 32 b.toNat := by
  cases b <;> rfl

theorem priv_bits (p : Priv) : p.bits = if p = .machine then 3#2 else 0#2 := by
  cases p <;> rfl

theorem mstatus_zeros (m : Mstatus) : m.word &&& 0x7FF80777#32 = 0 := by
  apply BitVec.eq_of_getLsbD_eq
  intro i hi
  rw [BitVec.getLsbD_and]
  interval_cases i <;> simp only [Mstatus.word, getLsbD_append_cases] <;> simp

theorem causeWord_zeros (interrupt minhv : Bool) (mpp : BitVec 2) (mpie : Bool) (mpil : BitVec 8) (code : BitVec 12) :
    causeWord interrupt minhv mpp mpie mpil code &&& 0x0700F000#32 = 0 := by
  apply BitVec.eq_of_getLsbD_eq
  intro i hi
  rw [BitVec.getLsbD_and]
  interval_cases i <;> simp only [causeWord, getLsbD_append_cases] <;> simp

/-- The fields of mstatus (R40), SD among them (R49). -/
theorem mstatus_layout (m : Mstatus) :
    m.word.getLsbD 3 = m.mie ∧ m.word.getLsbD 7 = m.mpie ∧
    m.word.extractLsb' 11 2 = (if m.mpp = .machine then 3#2 else 0#2) ∧
    m.word.extractLsb' 13 2 = m.fs ∧ m.word.extractLsb' 15 2 = m.xs ∧
    m.word.getLsbD 17 = m.mprv ∧ m.word.getLsbD 18 = m.sum ∧
    m.word.getLsbD 31 = (m.fs == 3#2 || m.xs == 3#2) ∧ m.word &&& 0x7FF80777#32 = 0 := by
  refine ⟨?_, ?_, (mstatus_mpp m).trans (priv_bits _), mstatus_fs m, mstatus_xs m, ?_, ?_, ?_, mstatus_zeros m⟩
  all_goals
    simp only [Mstatus.word, getLsbD_append_cases]
    simp

/-- The fields of mcause (R56). -/
theorem causeWord_layout (interrupt minhv : Bool) (mpp : BitVec 2) (mpie : Bool) (mpil : BitVec 8) (code : BitVec 12) :
    let c := causeWord interrupt minhv mpp mpie mpil code
    c.getLsbD 31 = interrupt ∧ c.getLsbD 30 = minhv ∧ c.extractLsb' 28 2 = mpp ∧ c.getLsbD 27 = mpie ∧
    c.extractLsb' 16 8 = mpil ∧ c.extractLsb' 0 12 = code ∧ c &&& 0x0700F000#32 = 0 := by
  refine ⟨?_, ?_, cause_mpp .., ?_, ?_, ?_, causeWord_zeros ..⟩
  case refine_4 =>
    apply BitVec.eq_of_getLsbD_eq
    intro i hi
    simp only [causeWord, BitVec.getLsbD_extractLsb', getLsbD_append_cases]
    interval_cases i <;> simp
  case refine_5 =>
    apply BitVec.eq_of_getLsbD_eq
    intro i hi
    simp only [causeWord, BitVec.getLsbD_extractLsb', getLsbD_append_cases]
    simp [hi]
  all_goals
    simp only [causeWord, getLsbD_append_cases]
    simp

theorem mcause_layout (c : Csrs) :
    c.causeRead.getLsbD 31 = c.mcause.interrupt ∧ c.causeRead.getLsbD 30 = c.mcause.minhv ∧
    c.causeRead.extractLsb' 28 2 = (if c.mstatus.mpp = .machine then 3#2 else 0#2) ∧
    c.causeRead.getLsbD 27 = c.mstatus.mpie ∧ c.causeRead.extractLsb' 16 8 = c.mcause.mpil ∧
    c.causeRead.extractLsb' 0 12 = c.mcause.exccode ∧ c.causeRead &&& 0x0700F000#32 = 0 := by
  rw [← priv_bits]
  exact causeWord_layout ..

theorem savedCause_word (c : SavedCause) : c.word = BitVec.ofNat 32
    (c.interrupt.toNat * 2 ^ 31 + c.minhv.toNat * 2 ^ 30 + c.mpp.toNat * 2 ^ 28 + c.mpie.toNat * 2 ^ 27 +
      c.mpil.toNat * 2 ^ 16 + c.exccode.toNat) := by
  apply eq_ofNat_of_toNat
  simp only [SavedCause.word, causeWord, append_toNat, BitVec.toNat_ofBool, BitVec.toNat_ofNat]
  omega

theorem msubm_word (m : Msubm) : m.word = BitVec.ofNat 32
    (m.ptyp.toNat * 2 ^ 8 + m.typ.toNat * 2 ^ 6) := by
  apply eq_ofNat_of_toNat
  simp only [Msubm.word, append_toNat, BitVec.toNat_ofNat]
  omega

theorem localMemCtl_word (bpa : BitVec 22) (m : LocalMemCtl) : m.word bpa = BitVec.ofNat 32
    (bpa.toNat * 2 ^ 10 + m.rwecc.toNat * 2 ^ 3 + m.excpEn.toNat * 2 ^ 2 + m.eccEn.toNat * 2 ^ 1 + 1) := by
  apply eq_ofNat_of_toNat
  simp only [LocalMemCtl.word, append_toNat, BitVec.toNat_ofBool, BitVec.toNat_ofNat]
  omega

theorem cacheWord_eq (d i : CacheCtl) (scpd : Bool) : cacheWord d i scpd = BitVec.ofNat 32
    (d.rwdecc.toNat * 2 ^ 20 + d.rwtecc.toNat * 2 ^ 19 + d.excpEn.toNat * 2 ^ 18 + d.eccEn.toNat * 2 ^ 17 +
      d.en.toNat * 2 ^ 16 + i.rwdecc.toNat * 2 ^ 5 + i.rwtecc.toNat * 2 ^ 4 + i.excpEn.toNat * 2 ^ 3 +
      i.eccEn.toNat * 2 ^ 2 + scpd.toNat * 2 ^ 1 + i.en.toNat) := by
  apply eq_ofNat_of_toNat
  simp only [cacheWord, append_toNat, BitVec.toNat_ofBool, BitVec.toNat_ofNat]
  omega

theorem mmiscCtl_word (m : MmiscCtl) : m.word = BitVec.ofNat 32
    (m.nmiCauseFff.toNat * 2 ^ 9 + m.misalign.toNat * 2 ^ 6 + m.bpu.toNat * 2 ^ 3) := by
  apply eq_ofNat_of_toNat
  simp only [MmiscCtl.word, append_toNat, BitVec.toNat_ofBool, BitVec.toNat_ofNat]
  omega

theorem saveStatusWord_eq (l1 l2 : SaveLevel) : saveStatusWord l1 l2 = BitVec.ofNat 32
    (l2.ptyp.toNat * 2 ^ 14 + l2.mpp.toNat * 2 ^ 9 + l2.mpie.toNat * 2 ^ 8 +
      l1.ptyp.toNat * 2 ^ 6 + l1.mpp.toNat * 2 ^ 1 + l1.mpie.toNat) := by
  apply eq_ofNat_of_toNat
  simp only [saveStatusWord, append_toNat, BitVec.toNat_ofBool, BitVec.toNat_ofNat]
  omega

theorem meccCode_word (m : MeccCode) : m.word = BitVec.ofNat 32
    (m.sramid.toNat * 2 ^ 24 + m.ramid.toNat * 2 ^ 16 + m.code.toNat) := by
  apply eq_ofNat_of_toNat
  simp only [MeccCode.word, append_toNat, BitVec.toNat_ofNat]
  omega

theorem misaWord_eq (cfg : Config) : misaWord cfg = BitVec.ofNat 32
    (2 ^ 30 + cfg.misaX.toNat * 2 ^ 23 + cfg.hasUmode.toNat * 2 ^ 20 + cfg.misaP.toNat * 2 ^ 15 +
      cfg.misaN.toNat * 2 ^ 13 + cfg.hasM.toNat * 2 ^ 12 + 2 ^ 8 + cfg.hasF.toNat * 2 ^ 5 +
      cfg.hasD.toNat * 2 ^ 3 + cfg.hasC.toNat * 2 ^ 2 + cfg.hasA.toNat) := by
  apply eq_ofNat_of_toNat
  simp only [misaWord, append_toNat, BitVec.toNat_ofBool, BitVec.toNat_ofNat]
  omega

theorem mcfgWord_eq (cfg : Config) : mcfgWord cfg = BitVec.ofNat 32
    (cfg.hasDcache.toNat * 2 ^ 10 + cfg.hasIcache.toNat * 2 ^ 9 + cfg.hasDlm.toNat * 2 ^ 8 +
      cfg.hasIlm.toNat * 2 ^ 7 + cfg.hasNice.toNat * 2 ^ 6 + cfg.hasPpi.toNat * 2 ^ 5 +
      cfg.hasFio.toNat * 2 ^ 4 + cfg.hasPlic.toNat * 2 ^ 3 + cfg.hasClic.toNat * 2 ^ 2 +
      cfg.hasEcc.toNat * 2 ^ 1 + cfg.hasTee.toNat) := by
  apply eq_ofNat_of_toNat
  simp only [mcfgWord, append_toNat, BitVec.toNat_ofBool, BitVec.toNat_ofNat]
  omega

theorem micfgWord_eq (cfg : Config) : micfgWord cfg = BitVec.ofNat 32
    (cfg.ilmEcc.toNat * 2 ^ 22 + cfg.ilmXonly.toNat * 2 ^ 21 + cfg.ilmSize.toNat * 2 ^ 16 +
      cfg.icEcc.toNat * 2 ^ 10 + cfg.icLsize.toNat * 2 ^ 7 + cfg.icWay.toNat * 2 ^ 4 + cfg.icSet.toNat) := by
  apply eq_ofNat_of_toNat
  simp only [micfgWord, append_toNat, BitVec.toNat_ofBool, BitVec.toNat_ofNat]
  omega

theorem mdcfgWord_eq (cfg : Config) : mdcfgWord cfg = BitVec.ofNat 32
    (cfg.dlmEcc.toNat * 2 ^ 21 + cfg.dlmSize.toNat * 2 ^ 16 + cfg.dcEcc.toNat * 2 ^ 10 +
      cfg.dcLsize.toNat * 2 ^ 7 + cfg.dcWay.toNat * 2 ^ 4 + cfg.dcSet.toNat) := by
  apply eq_ofNat_of_toNat
  simp only [mdcfgWord, append_toNat, BitVec.toNat_ofBool, BitVec.toNat_ofNat]
  omega

theorem portWord_eq (bpa : BitVec 22) (size : BitVec 5) : portWord bpa size = BitVec.ofNat 32
    (bpa.toNat * 2 ^ 10 + size.toNat * 2 ^ 1 + 1) := by
  apply eq_ofNat_of_toNat
  simp only [portWord, append_toNat, BitVec.toNat_ofNat]
  omega

theorem csrRead_mintstatus (s : State) : csrRead s .mintstatus = BitVec.ofNat 32
    (s.csr.mintstatus.mil.toNat * 2 ^ 24 + s.csr.mintstatus.uil.toNat) := by
  apply eq_ofNat_of_toNat
  simp only [csrRead, append_toNat, BitVec.toNat_ofNat]
  omega

theorem csrRead_fcsr (s : State) : csrRead s .fcsr = BitVec.ofNat 32
    (s.csr.fcsr.frm.toNat * 2 ^ 5 + s.csr.fcsr.fflags.toNat) := by
  apply eq_ofNat_of_toNat
  simp only [csrRead, append_toNat, BitVec.toNat_ofNat]
  omega

theorem csrRead_mcounteren (s : State) : csrRead s .mcounteren = BitVec.ofNat 32
    (s.csr.mcounteren.ir.toNat * 2 ^ 2 + s.csr.mcounteren.tm.toNat * 2 ^ 1 + s.csr.mcounteren.cy.toNat) := by
  apply eq_ofNat_of_toNat
  simp only [csrRead, append_toNat, BitVec.toNat_ofBool, BitVec.toNat_ofNat]
  omega

theorem csrRead_mcountinhibit (s : State) : csrRead s .mcountinhibit = BitVec.ofNat 32
    (s.csr.mcountinhibit.ir.toNat * 2 ^ 2 + s.csr.mcountinhibit.cy.toNat) := by
  apply eq_ofNat_of_toNat
  simp only [csrRead, append_toNat, BitVec.toNat_ofBool, BitVec.toNat_ofNat]
  omega

theorem csrRead_mtvt2 (s : State) : csrRead s .mtvt2 = BitVec.ofNat 32
    (s.csr.mtvt2.entry.toNat * 2 ^ 2 + s.csr.mtvt2.en.toNat) := by
  apply eq_ofNat_of_toNat
  simp only [csrRead, append_toNat, BitVec.toNat_ofBool, BitVec.toNat_ofNat]
  omega

theorem pmpcfg_byte {s : State} {k j : Nat} {e : PmpEntry} (hj : j < 4) (he : s.csr.pmp[4 * k + j]? = some e) :
    (csrRead s (.pmpcfg k)).extractLsb' (8 * j) 8 = e.cfgByte := by
  show (pmpcfgWord s.csr.pmp k).extractLsb' (8 * j) 8 = _
  rw [pmpcfgWord_byte _ _ _ hj, pmpByte, he]

theorem csrRead_pmpaddr {s : State} {n : Nat} {e : PmpEntry} (he : s.csr.pmp[n]? = some e) :
    csrRead s (.pmpaddr n) = BitVec.ofNat 32 e.addr.toNat := by
  simp [csrRead, he]

/-- Settles O34, register by register. -/
theorem csrLayouts : Obligations.CsrLayouts := by
  unfold Obligations.CsrLayouts
  intro s
  refine ⟨mstatus_layout s.csr.mstatus, mcause_layout s.csr, csrRead_mintstatus s, csrRead_fcsr s, msubm_word _, rfl,
    rfl, rfl, (double_halves _).1, (double_halves _).2, (double_halves _).1, (double_halves _).2,
    fun k j e hj he => ?_, fun n e he => csrRead_pmpaddr he, (BitVec.ofNat_toNat _ _).symm,
    (BitVec.ofNat_toNat _ _).symm, csrRead_mcounteren s, csrRead_mcountinhibit s, misaWord_eq _, localMemCtl_word _ _,
    localMemCtl_word _ _, cacheWord_eq _ _ _, mmiscCtl_word _, saveStatusWord_eq _ _, savedCause_word _,
    savedCause_word _, (BitVec.ofNat_toNat _ _).symm, (BitVec.ofNat_toNat _ _).symm, (BitVec.ofNat_toNat _ _).symm,
    csrRead_mtvt2 s, meccCode_word _, setWidth_ofBool _, setWidth_ofBool _, setWidth_ofBool _, setWidth_ofBool _,
    mcfgWord_eq _, micfgWord_eq _, mdcfgWord_eq _, portWord_eq _ _, portWord_eq _ _, rfl, rfl, rfl, rfl, rfl, rfl, rfl,
    rfl, rfl, rfl, rfl, rfl, rfl, rfl, rfl, rfl, (double_halves _).1, (double_halves _).2⟩
  rw [pmpcfg_byte hj he]
  cases hm : e.mode <;> simp [PmpEntry.cfgByte, PmpMode.bits, hm]

/-! ### The reset state (10_state.md R80, 70_reset_and_hazards.md R621, R622) -/

/-- A register byte of a source. -/
theorem eclic_readByte_src {cfg : Config} {e : Eclic} {i k : Nat} {src : EclicSrc} (hs : e.srcs[i]? = some src)
    (hi : i < 4096) (hk : k < 4) : e.readByte cfg (0x1000 + k + 4 * i) = src.readByte cfg.clicIntCtlBits k := by
  unfold Eclic.readByte
  rw [if_neg (by omega), if_neg (by omega), if_neg (by omega), if_pos (by omega),
    show (0x1000 + k + 4 * i - 0x1000) / 4 = i by omega, show (0x1000 + k + 4 * i - 0x1000) % 4 = k by omega, hs]

/-- cliccfg with NLBITS 0: only its constant bit is 1 (60_exceptions.md R571). -/
theorem eclic_readByte_cfg (cfg : Config) (e : Eclic) (h : e.nlbits = 0) : e.readByte cfg 0 = 1 := by
  rw [Eclic.readByte, if_pos rfl, h]
  rfl

/-- The bytes of clicinfo (60_exceptions.md R572). -/
theorem eclic_readByte_info (cfg : Config) (e : Eclic) {k : Nat} (hk : k < 4) :
    e.readByte cfg (4 + k) = BitVec.ofNat 8 (clicinfoNat cfg / 2 ^ (8 * k)) := by
  rw [eclic_readByte]
  unfold eclicByte
  rw [if_neg (by omega), if_pos (by omega), Nat.add_sub_cancel_left]

/-- The low bits of clicintctl that are not implemented read 1 (60_exceptions.md R578). -/
theorem ctlOnes_bit {n j : Nat} (h : j + n < 8) : (ctlOnes n).getLsbD j = true := by
  unfold ctlOnes
  rw [BitVec.getLsbD_ushiftRight, show (0xFF#8) = BitVec.allOnes 8 from rfl, BitVec.getLsbD_allOnes]
  simpa [Nat.add_comm] using h

/-- Every register of the TIMER but mtimecmp is 0 (60_exceptions.md R588). -/
theorem timer_reset_readWord {off : Nat} (h8 : off ≠ 8) (h12 : off ≠ 12) : Timer.reset.readWord off = 0 := by
  rw [timer_readWord]
  simp [timerWord, Timer.reset, h8, h12]

/-- Every PMP configuration byte is 0, also of an entry the core does not have. -/
theorem pmpByte_reset (entries n : Nat) : pmpByte (List.replicate entries .zero) n = 0 := by
  unfold pmpByte
  rw [List.getElem?_replicate]
  split
  · next e h =>
    split at h
    · cases h
      rfl
    · cases h
  · rfl

theorem csrRead_pmpcfg_reset (cfg : Config) (k : Nat) : csrRead (State.resetWith cfg) (.pmpcfg k) = 0 := by
  show pmpcfgWord (List.replicate cfg.pmpEntries .zero) k = 0
  simp only [pmpcfgWord, pmpByte_reset]
  rfl

/-- MPP is the least mode the core has. -/
theorem csrRead_mstatus_reset (cfg : Config) :
    csrRead (State.resetWith cfg) .mstatus = if cfg.hasUmode then 0 else 0x00001800 := by
  show Mstatus.word { mie := false, mpie := false, mpp := if cfg.hasUmode then .user else .machine, fs := 0, xs := 0,
                      mprv := false, sum := false } = _
  cases cfg.hasUmode <;> rfl

theorem csrRead_mcause_reset (cfg : Config) :
    (csrRead (State.resetWith cfg) .mcause).extractLsb' 27 3 = if cfg.hasUmode then 0 else 6 := by
  show (causeWord false false (if cfg.hasUmode then Priv.user else .machine).bits false 0 0).extractLsb' 27 3 = _
  cases cfg.hasUmode <;> rfl

theorem csrRead_mintstatus_reset (cfg : Config) : csrRead (State.resetWith cfg) .mintstatus = 0 := by
  show (0#8 ++ 0#16 ++ 0#8 : Word) = 0
  rfl

theorem csrRead_mcounteren_reset (cfg : Config) : csrRead (State.resetWith cfg) .mcounteren = 0 := by
  show (0#29 ++ BitVec.ofBool false ++ BitVec.ofBool false ++ BitVec.ofBool false : Word) = 0
  rfl

theorem csrRead_meccCode_reset (cfg : Config) : csrRead (State.resetWith cfg) .meccCode = 0 := by
  show MeccCode.word { sramid := 0, ramid := 0, code := 0 } = 0
  rfl

/-- The base address in milm_ctl and mdlm_ctl. -/
theorem localMemCtl_base (bpa : BitVec 22) (m : LocalMemCtl) : (m.word bpa).extractLsb' 10 22 = bpa := by
  apply BitVec.eq_of_getLsbD_eq
  intro i hi
  simp only [LocalMemCtl.word, BitVec.getLsbD_extractLsb', getLsbD_append_cases]
  simp [hi]

/-- The low bits of milm_ctl and mdlm_ctl with ECC off: the enable of the memory is constant 1. -/
theorem localMemCtl_low {bpa : BitVec 22} {m : LocalMemCtl} (h : m.eccEn = false) :
    (m.word bpa).extractLsb' 0 2 = 1 := by
  apply BitVec.eq_of_getLsbD_eq
  intro i hi
  simp only [LocalMemCtl.word, BitVec.getLsbD_extractLsb', getLsbD_append_cases]
  interval_cases i <;> simp [h]

/-- The constants of the implementation read the same in every state of a configuration. -/
theorem csrRead_constant {s t : State} (h : t.cfg = s.cfg) {c : Csr}
    (hc : c ∈ [Csr.misa, .mvendorid, .marchid, .mimpid, .mhartid, .mcfgInfo, .micfgInfo, .mdcfgInfo, .mppicfgInfo,
      .mfiocfgInfo]) : csrRead s c = csrRead t c := by
  simp only [List.mem_cons, List.not_mem_nil, or_false] at hc
  rcases hc with rfl | rfl | rfl | rfl | rfl | rfl | rfl | rfl | rfl | rfl <;> simp only [csrRead, h]

/-- Settles O51, value by value. -/
theorem resetValues : Obligations.ResetValues := by
  unfold Obligations.ResetValues
  rintro cfg s rfl
  refine ⟨rfl, rfl, fun r hr => hr ▸ State.getX_zero _, csrRead_mstatus_reset cfg, rfl, csrRead_mintstatus_reset cfg,
    csrRead_mcounteren_reset cfg, csrRead_pmpcfg_reset cfg, rfl, rfl, rfl, rfl, rfl, rfl, rfl, rfl, rfl, rfl, rfl, rfl,
    rfl, rfl, csrRead_meccCode_reset cfg, rfl, rfl, rfl, rfl, rfl, csrRead_mcause_reset cfg, localMemCtl_low rfl,
    localMemCtl_base _ _, localMemCtl_low rfl, localMemCtl_base _ _, fun t ht c hc => csrRead_constant ht hc, rfl, rfl,
    fun off h8 h12 => timer_reset_readWord h8 h12, eclic_readByte_cfg cfg _ rfl,
    fun k hk => eclic_readByte_info cfg _ hk, fun i hi h4096 => ?_, rfl, rfl, rfl, rfl⟩
  have hsrc : (State.resetWith cfg).eclic.srcs[i]? = some .zero := by simp [State.resetWith, Eclic.reset, hi]
  refine ⟨eclic_readByte_src (k := 0) hsrc h4096 (by decide), eclic_readByte_src (k := 1) hsrc h4096 (by decide),
    eclic_readByte_src (k := 2) hsrc h4096 (by decide), fun j hj => ?_⟩
  rw [eclic_readByte_src (k := 3) hsrc h4096 (by decide)]
  show (0#8 ||| ctlOnes cfg.clicIntCtlBits).getLsbD j = true
  rw [BitVec.zero_or, ctlOnes_bit hj]

end Sys2Proof.Machine

/-! PROOFS. The statements of 20_memory.md: what a PMP entry covers and allows (O49), accesses to the devices of the platform
(O39), and ECC errors (O43). -/

namespace Sys2Proof.Machine

/-! ### Physical memory protection (20_memory.md R180 to R187) -/

/-- The number of low 1 bits is the place of the lowest 0 bit, or all the bits looked at (R181). -/
theorem trailingOnes_eq (bits k p : Nat) (hk : k ≤ bits) (ones : ∀ j < k, p.testBit j = true)
    (zero : k < bits → p.testBit k = false) : trailingOnes bits p = k := by
  induction bits generalizing k p with
  | zero => simp [trailingOnes]; omega
  | succ bits ih =>
    rw [trailingOnes]
    cases k with
    | zero =>
      have h0 := zero (Nat.succ_pos bits)
      rw [Nat.testBit_zero] at h0
      exact if_neg (by simpa using h0)
    | succ k =>
      have h0 := ones 0 (Nat.succ_pos k)
      rw [Nat.testBit_zero] at h0
      rw [if_pos (by simpa using h0), ih k (p / 2) (by omega) (fun j hj => ?_) (fun h => ?_)]
      · rw [← Nat.testBit_succ]; exact ones (j + 1) (by omega)
      · rw [← Nat.testBit_succ]; exact zero (by omega)

theorem covers_iff (e : PmpEntry) (a : Word) : e.covers a = true ↔ e.base ≤ a.toNat ∧ a.toNat < e.base + e.size := by
  simp [PmpEntry.covers, within]

theorem not_covers_off {e : PmpEntry} (a : Word) (h : e.mode = .off) : e.covers a = false := by
  rw [← Bool.not_eq_true, covers_iff, PmpEntry.base, PmpEntry.size, h]
  simp

theorem covers_na4_iff {e : PmpEntry} (a : Word) (h : e.mode = .na4) :
    e.covers a = true ↔ a.toNat / 4 = e.addr.toNat := by
  rw [covers_iff, PmpEntry.base, PmpEntry.size, h]
  simp only
  omega

/-- The size of a NAPOT entry, by the lowest 0 bit of its address; with no 0 bit that is bit 30, beyond the register. -/
theorem size_napot {e : PmpEntry} {k : Nat} (h : e.mode = .napot) (ones : ∀ j < k, e.addr.getLsbD j = true)
    (zero : e.addr.getLsbD k = false) : e.size = 2 ^ (k + 3) := by
  have hk : k ≤ 30 := by
    by_contra hk
    have := ones 30 (by omega)
    rw [BitVec.getLsbD_of_ge _ _ (le_refl 30)] at this
    cases this
  rw [PmpEntry.size, h]
  simp only
  rw [trailingOnes_eq 30 k e.addr.toNat hk ones fun _ => zero]

theorem covers_napot_iff {e : PmpEntry} (a : Word) {k : Nat} (h : e.mode = .napot)
    (ones : ∀ j < k, e.addr.getLsbD j = true) (zero : e.addr.getLsbD k = false) :
    e.covers a = true ↔ a.toNat / 2 ^ (k + 3) = 4 * e.addr.toNat / 2 ^ (k + 3) := by
  have hs := size_napot h ones zero
  have hb : e.base = 4 * e.addr.toNat / 2 ^ (k + 3) * 2 ^ (k + 3) := by rw [PmpEntry.base, h, hs]
  rw [covers_iff, hs, hb, Nat.div_eq_iff (Nat.two_pow_pos _)]
  have := Nat.two_pow_pos (k + 3)
  omega

/-- The first entry that covers the address decides (R182). -/
theorem decidingEntry_eq_some {before after : List PmpEntry} {e : PmpEntry} {a : Word}
    (hb : ∀ b ∈ before, b.covers a = false) (he : e.covers a = true) :
    decidingEntry (before ++ e :: after) a = some e :=
  List.find?_eq_some_iff_append.2 ⟨he, before, after, rfl, fun b h => by simp [hb b h]⟩

theorem decidingEntry_eq_none {l : List PmpEntry} {a : Word} (h : ∀ e ∈ l, e.covers a = false) :
    decidingEntry l a = none :=
  List.find?_eq_none.2 fun e he => by simp [h e he]

/-- With no entry that covers the address only Machine Mode passes (R185). -/
theorem pmpCheck_uncovered {s : State} {a : Word} (p : Priv) (k : AccessKind) (hp : s.cfg.hasPmp = true)
    (h : decidingEntry s.csr.pmp a = none) : pmpCheck s p k a = true ↔ p = .machine := by
  cases p <;> simp [pmpCheck, hp, h]

/-- The deciding entry holds for User Mode, for data accesses made in its place, and in Machine Mode where it is locked
(R185). -/
theorem pmpCheck_covered {s : State} {a : Word} {e : PmpEntry} (p : Priv) (k : AccessKind) (hp : s.cfg.hasPmp = true)
    (h : decidingEntry s.csr.pmp a = some e) :
    pmpCheck s p k a =
      if p = .user ∨ e.lock = true ∨ (s.csr.mstatus.mprv = true ∧ s.csr.mstatus.mpp = .user ∧ k ≠ .fetch) then e.allows k
      else true := by
  cases p with
  | user => simp [pmpCheck, hp, h]
  | machine =>
    by_cases hu : s.csr.mstatus.mprv = true ∧ s.csr.mstatus.mpp = .user ∧ k ≠ .fetch
    · simp [pmpCheck, hp, h, hu]
    · cases hl : e.lock <;> simp [pmpCheck, hp, h, hu, hl]

/-- Settles O49: what an entry covers by its mode, and what the deciding entry, if any, allows. -/
theorem pmpProtection : Obligations.PmpProtection := by
  unfold Obligations.PmpProtection
  refine ⟨fun e a => ⟨not_covers_off a, covers_na4_iff a, fun h k => covers_napot_iff a h⟩, fun s p k a =>
    ⟨fun h => by simp [pmpCheck, h], fun hp h => pmpCheck_uncovered p k hp (decidingEntry_eq_none h), ?_⟩⟩
  intro hp before e after allowed hl hb he ha
  have hd : decidingEntry s.csr.pmp a = some e := hl ▸ decidingEntry_eq_some hb he
  have hallow : e.allows k = allowed := by rw [ha]; cases k <;> rfl
  rw [pmpCheck_covered p k hp hd, hallow]
  refine ⟨fun h => if_pos h, ?_⟩
  rintro rfl hl hu
  exact if_neg (by simpa [hl] using hu)

/-! ### What an instruction with a data access does -/

/-- A load of `n` bytes, what is done with the value it gets, and with none if the access fails (40_rv32i.md R303). -/
def loadThen (len ea : Word) (n : Nat) (done : DWord → State → State) (failed : State → State) (s : State) : Out :=
  match dataLoad s ea n with
  | .ok v s' => retire len (done v s')
  | .exc e s' => failAccess len failed e s'
  | .refuse r => .refused r

/-- A store of the low `n` bytes of `v`, and what is done after it, or if it fails (40_rv32i.md R304). -/
def storeThen (len ea : Word) (n : Nat) (v : DWord) (done failed : State → State) (s : State) : Out :=
  match dataStore s ea n v with
  | .ok _ s' => retire len (done s')
  | .exc e s' => failAccess len failed e s'
  | .refuse r => .refused r

/-- What is done with the value of a load: it is written to a register (40_rv32i.md R303, 44_rv32f.md R405,
45_rv32d.md R441). -/
inductive LoadEffect : (DWord → State → State) → Prop
  | intReg (rd : Reg) (ext : DWord → Word) : LoadEffect fun v t => t.setX rd (ext v)
  | single (rd : Reg) : LoadEffect fun v t => (t.setS rd (v.setWidth 32)).fpDone 0
  | double (rd : Reg) : LoadEffect fun v t => (t.setF rd v).fpDone 0

/-- What is done after a store: nothing, or FS becomes Dirty. -/
inductive StoreEffect : (State → State) → Prop
  | intReg : StoreEffect id
  | fpReg : StoreEffect fun t => t.fpDone 0

/-- In `s` the instruction `i` is executed as `f`, whatever memory holds and whatever errors there are. -/
def RunsAs (s : State) (i : Instr) (f : State → Out) : Prop :=
  ∀ m l, exec i { s with eccHits := l, mem := m } = f { s with eccHits := l, mem := m }

/-- The memory and the errors of `s` itself are among those. -/
theorem exec_here {s : State} {i : Instr} {f : State → Out} (run : RunsAs s i f) : exec i s = f s :=
  run s.mem s.eccHits

/-- How the instruction `i` is executed in `s`: as a load or as a store. -/
inductive AccessRuns (s : State) (i : Instr) (len ea : Word) (n : Nat) : AccessKind → Prop
  | load {done : DWord → State → State} {failed : State → State} (hn : n ≤ 8) (hd : LoadEffect done)
      (hf : FailEffect i failed) (run : RunsAs s i (loadThen len ea n done failed)) : AccessRuns s i len ea n .load
  | store {v : DWord} {done failed : State → State} (hn : n ≤ 8) (hd : StoreEffect done) (hf : FailEffect i failed)
      (run : RunsAs s i (storeThen len ea n v done failed)) : AccessRuns s i len ea n .store

theorem loadX_eq (len : Word) (rd : Reg) (ea : Word) (n : Nat) (ext : DWord → Word) (s : State) :
    loadX len rd ea n ext s = loadThen len ea n (fun v t => t.setX rd (ext v))
      (fun t => t.setX rd ((Config.freeLoad t.free).setWidth 32)) s := rfl

theorem loadS_eq (len : Word) (rd : Reg) (ea : Word) (s : State) :
    loadS len rd ea s = loadThen len ea 4 (fun v t => (t.setS rd (v.setWidth 32)).fpDone 0)
      (fun t => (t.setF rd (freeF t.cfg.hasD t.free)).fpDone 0) s := rfl

theorem loadD_eq (len : Word) (rd : Reg) (ea : Word) (s : State) :
    loadD len rd ea s = loadThen len ea 8 (fun v t => (t.setF rd v).fpDone 0)
      (fun t => (t.setF rd (freeF t.cfg.hasD t.free)).fpDone 0) s := rfl

theorem storeX_eq (len ea : Word) (n : Nat) (v : DWord) (s : State) :
    storeX len ea n v s = storeThen len ea n v id id s := rfl

theorem storeF_eq (len : Word) (rs2 : Reg) (ea : Word) (n : Nat) (s : State) :
    storeF len rs2 ea n s = storeThen len ea n (s.getF rs2) (fun t => t.fpDone 0) (fun t => t.fpDone 0) s := rfl

/-! The five operations an instruction with a data access can be. -/

section
variable {s : State} {i : Instr} {len ea : Word} {n : Nat}

theorem accessRuns_loadX {rd : Reg} (ext : DWord → Word) (hn : n ≤ 8) (hx : LoadsX i rd) (hf : ¬ AccessesF i)
    (hs : ¬ IsScW i) (run : RunsAs s i (loadX len rd ea n ext)) : AccessRuns s i len ea n .load :=
  .load hn (.intReg rd ext) (.load _ hx hf hs) fun m l => (run m l).trans (loadX_eq ..)

theorem accessRuns_loadS {rd : Reg} (hx : LoadsF i rd) (hs : ¬ IsScW i) (run : RunsAs s i (loadS len rd ea)) :
    AccessRuns s i len ea 4 .load :=
  .load (by decide) (.single rd) (.loadF _ hx hs) fun m l => (run m l).trans (loadS_eq ..)

theorem accessRuns_loadD {rd : Reg} (hx : LoadsF i rd) (hs : ¬ IsScW i) (run : RunsAs s i (loadD len rd ea)) :
    AccessRuns s i len ea 8 .load :=
  .load (by decide) (.double rd) (.loadF _ hx hs) fun m l => (run m l).trans (loadD_eq ..)

theorem accessRuns_storeX (v : DWord) (hn : n ≤ 8) (hf : ¬ AccessesF i) (hs : ¬ IsScW i)
    (run : RunsAs s i (storeX len ea n v)) : AccessRuns s i len ea n .store :=
  .store hn .intReg (.store hf hs) fun m l => (run m l).trans (storeX_eq ..)

theorem accessRuns_storeF {rs2 : Reg} (hn : n ≤ 8) (hf : StoresF i) (hs : ¬ IsScW i)
    (run : RunsAs s i (storeF len rs2 ea n)) : AccessRuns s i len ea n .store :=
  .store (v := s.getF rs2) hn .fpReg (.storeF hf hs) fun m l => (run m l).trans (storeF_eq ..)

end

theorem not_accessesF {i : Instr} (hl : ∀ r, ¬ LoadsF i r) (hs : ¬ StoresF i) : ¬ AccessesF i := by
  rintro (⟨r, h⟩ | h)
  · exact hl r h
  · exact hs h

theorem whenLegal_of {ok : Bool} (h : ok = true) (i : Instr) (s : State) (run : State → Out) :
    whenLegal ok i s run = run s := by rw [h, whenLegal_true]

/-- A compressed floating-point instruction needs C beside its own subset. -/
theorem FpReady.withC {s : State} {has : Bool} (h : FpReady s has) (hc : s.cfg.hasC = true) :
    FpReady s (s.cfg.hasC && has) := ⟨by rw [hc, h.1]; rfl, h.2⟩

/-- A push stores its value at `x[2] + 4 * uimm` (46_system.md R499). -/
theorem exec_push {s : State} {a : CsrAddr} {c : Csr} (u : BitVec 5) (v : Word) (hm : s.priv = .machine)
    (ha : Csr.ofAddr a = some c) (he : c.existsIn s.cfg = true) (hc : c.cls = .mrw) (hn : c.enabled s = true)
    (hv : csrDispatch .rwi 0 c u s = pushOp v u s) :
    exec (.csrrwi 0 a u) s = storeX 4 (s.getX 2 + BitVec.ofNat 32 (4 * u.toNat)) 4 (v.setWidth 64) s := by
  have h4 : 4 * u.setWidth 32 = BitVec.ofNat 32 (4 * u.toNat) := by bv_omega
  rw [← h4]
  exact (csrInstr_permitted ha (permitted_mrw hm he hc hn)).trans hv

/-- Every instruction that makes a data access is a load or a store. -/
theorem dataAccess_runs {s : State} {i : Instr} {len ea : Word} {k : AccessKind} {n : Nat}
    (h : DataAccess s i len k ea n) : AccessRuns s i len ea n k := by
  have by4 {w : Nat} (imm : BitVec w) : BitVec.ofNat 32 (4 * imm.toNat) = (imm ++ 0#2).zeroExtend 32 :=
    (zeroExtend_append_zeros imm 2).symm
  have by8 {w : Nat} (imm : BitVec w) : BitVec.ofNat 32 (8 * imm.toNat) = (imm ++ 0#3).zeroExtend 32 :=
    (zeroExtend_append_zeros imm 3).symm
  have fp {m : Memory} {l : List EccHit} {has : Bool} (hr : FpReady s has) (j : Instr) (run : State → Out) :
      fpLegal has j { s with eccHits := l, mem := m } run = run { s with eccHits := l, mem := m } :=
    fpLegal_ready (s := { s with eccHits := l, mem := m }) hr j run
  cases h with
  | lb rd rs1 imm =>
    rw [← sext12_eq_sext]
    exact accessRuns_loadX extByte (by decide) (.lb ..) (not_accessesF nofun nofun) nofun fun _ _ => rfl
  | lh rd rs1 imm =>
    rw [← sext12_eq_sext]
    exact accessRuns_loadX extHalf (by decide) (.lh ..) (not_accessesF nofun nofun) nofun fun _ _ => rfl
  | lw rd rs1 imm =>
    rw [← sext12_eq_sext]
    exact accessRuns_loadX lowWord (by decide) (.lw ..) (not_accessesF nofun nofun) nofun fun _ _ => rfl
  | lbu rd rs1 imm =>
    rw [← sext12_eq_sext]
    exact accessRuns_loadX zextByte (by decide) (.lbu ..) (not_accessesF nofun nofun) nofun fun _ _ => rfl
  | lhu rd rs1 imm =>
    rw [← sext12_eq_sext]
    exact accessRuns_loadX zextHalf (by decide) (.lhu ..) (not_accessesF nofun nofun) nofun fun _ _ => rfl
  | sb rs2 rs1 imm | sh rs2 rs1 imm | sw rs2 rs1 imm =>
    rw [← sext12_eq_sext]
    exact accessRuns_storeX ((s.getX rs2).setWidth 64) (by decide) (not_accessesF nofun nofun) nofun fun _ _ => rfl
  | cLw rd rs1 imm hc =>
    rw [by4]
    exact accessRuns_loadX lowWord (by decide) (.cLw ..) (not_accessesF nofun nofun) nofun fun _ _ => whenLegal_of hc ..
  | cLwsp rd imm hc =>
    rw [by4]
    exact accessRuns_loadX lowWord (by decide) (.cLwsp ..) (not_accessesF nofun nofun) nofun fun _ _ => whenLegal_of hc ..
  | cSw rs2 rs1 imm hc | cSwsp rs2 imm hc =>
    rw [by4]
    exact accessRuns_storeX ((s.getX _).setWidth 64) (by decide) (not_accessesF nofun nofun) nofun fun _ _ => whenLegal_of hc ..
  | flw rd rs1 imm hf =>
    rw [← sext12_eq_sext]
    exact accessRuns_loadS (.flw ..) nofun fun _ _ => fp hf ..
  | fld rd rs1 imm hf =>
    rw [← sext12_eq_sext]
    exact accessRuns_loadD (.fld ..) nofun fun _ _ => fp hf ..
  | fsw rs2 rs1 imm hf =>
    rw [← sext12_eq_sext]
    exact accessRuns_storeF (by decide) (.fsw ..) nofun fun _ _ => fp hf ..
  | fsd rs2 rs1 imm hf =>
    rw [← sext12_eq_sext]
    exact accessRuns_storeF (by decide) (.fsd ..) nofun fun _ _ => fp hf ..
  | cFlw rd rs1 imm hc hf =>
    rw [by4]
    exact accessRuns_loadS (.cFlw ..) nofun fun _ _ => fp (hf.withC hc) ..
  | cFlwsp rd imm hc hf =>
    rw [by4]
    exact accessRuns_loadS (.cFlwsp ..) nofun fun _ _ => fp (hf.withC hc) ..
  | cFld rd rs1 imm hc hf =>
    rw [by8]
    exact accessRuns_loadD (.cFld ..) nofun fun _ _ => fp (hf.withC hc) ..
  | cFldsp rd imm hc hf =>
    rw [by8]
    exact accessRuns_loadD (.cFldsp ..) nofun fun _ _ => fp (hf.withC hc) ..
  | cFsw rs2 rs1 imm hc hf =>
    rw [by4]
    exact accessRuns_storeF (by decide) (.cFsw ..) nofun fun _ _ => fp (hf.withC hc) ..
  | cFswsp rs2 imm hc hf =>
    rw [by4]
    exact accessRuns_storeF (by decide) (.cFswsp ..) nofun fun _ _ => fp (hf.withC hc) ..
  | cFsd rs2 rs1 imm hc hf =>
    rw [by8]
    exact accessRuns_storeF (by decide) (.cFsd ..) nofun fun _ _ => fp (hf.withC hc) ..
  | cFsdsp rs2 imm hc hf =>
    rw [by8]
    exact accessRuns_storeF (by decide) (.cFsdsp ..) nofun fun _ _ => fp (hf.withC hc) ..
  | pushmsubm u hm =>
    exact accessRuns_storeX _ (by decide) (not_accessesF nofun nofun) nofun fun _ _ =>
      exec_push (c := .pushmsubm) u s.csr.msubm.word hm rfl rfl rfl rfl rfl
  | pushmcause u hm =>
    exact accessRuns_storeX _ (by decide) (not_accessesF nofun nofun) nofun fun _ _ =>
      exec_push (c := .pushmcause) u s.csr.causeRead hm rfl rfl rfl rfl rfl
  | pushmepc u hm =>
    exact accessRuns_storeX _ (by decide) (not_accessesF nofun nofun) nofun fun _ _ =>
      exec_push (c := .pushmepc) u s.csr.mepc hm rfl rfl rfl rfl rfl

/-- How the atomic `i` is executed in `s`, whatever memory holds and whatever errors there are. -/
inductive AtomicRuns (s : State) (i : Instr) : AccessKind → Word → Prop
  | load {rd rs1 : Reg} (hf : FailEffect i fun t => t.setX rd ((Config.freeLoad t.free).setWidth 32))
      (run : RunsAs s i (loadReserved rd rs1)) : AtomicRuns s i .load (s.getX rs1)
  | store {rd rs1 rs2 : Reg}
      (hf : FailEffect i fun t => (t.setX rd ((Config.freeLoad t.free).setWidth 32)).withResv none)
      (run : RunsAs s i (storeConditional rd rs1 rs2)) : AtomicRuns s i .store (s.getX rs1)
  | amo {op : Word → Word → Word} {rd rs1 rs2 : Reg}
      (hf : FailEffect i fun t => t.setX rd ((Config.freeLoad t.free).setWidth 32))
      (run : RunsAs s i (atomicOp op rd rs1 rs2)) : AtomicRuns s i .amo (s.getX rs1)

/-- Every atomic is LR.W, SC.W or an AMO with its operation. -/
theorem atomicAccess_runs {s : State} {i : Instr} {k : AccessKind} {ea : Word} (ha : s.cfg.hasA = true)
    (h : AtomicAccess s i k ea) : AtomicRuns s i k ea := by
  cases h with
  | lrW rd rs1 aq rl => exact .load (.load _ (.lrW ..) (not_accessesF nofun nofun) nofun) fun _ _ => whenLegal_of ha ..
  | scW rd rs1 rs2 aq rl => exact .store (.scW _ (.scW ..) (not_accessesF nofun nofun) (.scW ..)) fun _ _ => whenLegal_of ha ..
  | swap => exact .amo (.load _ (.swap ..) (not_accessesF nofun nofun) nofun) fun _ _ => whenLegal_of ha ..
  | add => exact .amo (.load _ (.add ..) (not_accessesF nofun nofun) nofun) fun _ _ => whenLegal_of ha ..
  | xor => exact .amo (.load _ (.xor ..) (not_accessesF nofun nofun) nofun) fun _ _ => whenLegal_of ha ..
  | and => exact .amo (.load _ (.and ..) (not_accessesF nofun nofun) nofun) fun _ _ => whenLegal_of ha ..
  | or => exact .amo (.load _ (.or ..) (not_accessesF nofun nofun) nofun) fun _ _ => whenLegal_of ha ..
  | min => exact .amo (.load _ (.min ..) (not_accessesF nofun nofun) nofun) fun _ _ => whenLegal_of ha ..
  | max => exact .amo (.load _ (.max ..) (not_accessesF nofun nofun) nofun) fun _ _ => whenLegal_of ha ..
  | minu => exact .amo (.load _ (.minu ..) (not_accessesF nofun nofun) nofun) fun _ _ => whenLegal_of ha ..
  | maxu => exact .amo (.load _ (.maxu ..) (not_accessesF nofun nofun) nofun) fun _ _ => whenLegal_of ha ..

/-! ### Devices of the platform (20_memory.md R162, R173) -/

/-- The part of an access is in the PPI or the FIO. -/
def InPort (s : State) (p : Part) : Prop := region s.cfg p.addr = .ppi ∨ region s.cfg p.addr = .fio

theorem partRefusal_port {s : State} {p : Part} (n : Nat) (h : InPort s p) : partRefusal s.cfg n p = none := by
  rcases h with h | h <;> simp only [partRefusal, h]

theorem partRead_port {s : State} {p : Part} (h : InPort s p) :
    partRead s p = (List.range p.size).map fun k => Config.freePort s.free (p.addr.toNat + k) := by
  rcases h with h | h <;> simp only [partRead, h]

/-- A store to a device leaves no trace (log 26). -/
theorem partWrite_port {s : State} {p : Part} (h : InPort s p) (bytes : List Byte) : partWrite s p bytes = s := by
  rcases h with h | h <;> simp only [partWrite, h]

theorem writeParts_port {s : State} (l : List Part) (h : ∀ p ∈ l, InPort s p) (bytes : List Byte) :
    writeParts s l bytes = s := by
  induction l generalizing bytes with
  | nil => rfl
  | cons p l ih =>
    rw [writeParts, partWrite_port (h p List.mem_cons_self), ih fun q hq => h q (List.mem_cons_of_mem _ hq)]

theorem eccEffect_port {s : State} {l : List Part} (h : ∀ p ∈ l, InPort s p) (path : AccessPath) (code : ExcCode) :
    eccEffect s path l code = .ok [] s :=
  eccEffect_none code (eccMet_device fun p hp => .inr (.inr (h p hp)))

/-- An access to devices that the PMP and the bus allow goes on. -/
theorem checkData_port {s : State} {k : AccessKind} {a : Word} {n : Nat} (hu : ¬ Unaligned s a n)
    (hp : AllowedIn s k (busAccesses a n) [.ppi, .fio]) :
    checkData s k a n = .ok (parts a n) s ∧ ∀ p ∈ parts a n, InPort s p := by
  have hq : ∀ p ∈ parts a n, pmpCheck s s.priv k p.addr = true ∧ busError s.cfg k p.addr p.size = false ∧
      InPort s p := by
    intro p h
    rw [parts_eq] at h
    obtain ⟨q, hq, rfl⟩ := List.mem_map.1 h
    obtain ⟨hpmp, hbus, hreg⟩ := hp q hq
    exact ⟨hpmp, hbus, by simpa [InPort, partOf] using hreg⟩
  have hf : (parts a n).findSome? (partFault s k) = none :=
    List.findSome?_eq_none_iff.2 fun p h => by
      obtain ⟨hpmp, hbus, -⟩ := hq p h
      simp [partFault, hpmp, hbus]
  have hr : (parts a n).findSome? (partRefusal s.cfg n) = none :=
    List.findSome?_eq_none_iff.2 fun p h => partRefusal_port n (hq p h).2.2
  have hm : misaligned s a n = false := by rw [unaligned_iff_misaligned] at hu; simpa using hu
  refine ⟨?_, fun p h => (hq p h).2.2⟩
  rw [checkData, hm, hf, hr]
  rfl

/-- A load from devices gets their bytes and changes nothing. -/
theorem dataLoad_port {s : State} {a : Word} {n : Nat} (hu : ¬ Unaligned s a n)
    (hp : AllowedIn s .load (busAccesses a n) [.ppi, .fio]) :
    dataLoad s a n = .ok (joinBytes ((parts a n).flatMap (partRead s))) s := by
  obtain ⟨hc, hq⟩ := checkData_port hu hp
  simp only [dataLoad, hc, eccEffect_port hq, spoilBytes_nil]

theorem dataStore_port {s : State} {a : Word} {n : Nat} (v : DWord) (hu : ¬ Unaligned s a n)
    (hp : AllowedIn s .store (busAccesses a n) [.ppi, .fio]) : dataStore s a n v = .ok () s := by
  obtain ⟨hc, hq⟩ := checkData_port hu hp
  simp only [dataStore, hc, eccEffect_port hq, spoilUnits_nil, writeParts_port _ hq]

theorem joinBytes_word (b0 b1 b2 b3 : Byte) : (joinBytes [b0, b1, b2, b3]).setWidth 32 = b3 ++ b2 ++ b1 ++ b0 := by
  have l0 := b0.isLt
  have l1 := b1.isLt
  have l2 := b2.isLt
  have l3 := b3.isLt
  have h3 : (joinBytes [b3]).toNat = b3.toNat := by simp [joinBytes]; omega
  have h2 : (joinBytes [b2, b3]).toNat = 256 * b3.toNat + b2.toNat := by
    rw [joinBytes_cons_toNat _ _ (by omega), h3]
  have h1 : (joinBytes [b1, b2, b3]).toNat = 256 * (256 * b3.toNat + b2.toNat) + b1.toNat := by
    rw [joinBytes_cons_toNat _ _ (by omega), h2]
  apply BitVec.eq_of_toNat_eq
  rw [BitVec.toNat_setWidth, joinBytes_cons_toNat _ _ (by omega), h1]
  simp only [Machine.append_toNat]
  omega

/-- The four bytes of a word from devices, read at once or one by one. -/
theorem partRead_word_port {s : State} {a : Word} (h : ∀ p ∈ parts a 4, InPort s p) :
    (joinBytes ((parts a 4).flatMap (partRead s))).setWidth 32 = portData s a := by
  have hb : (parts a 4).flatMap (partRead s) = [Config.freePort s.free a.toNat, Config.freePort s.free (a + 1).toNat,
      Config.freePort s.free (a + 2).toNat, Config.freePort s.free (a + 3).toNat] := by
    by_cases ha : a.toNat % 4 = 0
    · have hp : parts a 4 = [⟨a, 4⟩] := parts_aligned (Nat.dvd_of_mod_eq_zero ha) (by decide)
      have e1 : (a + 1).toNat = a.toNat + 1 := by bv_omega
      have e2 : (a + 2).toNat = a.toNat + 2 := by bv_omega
      have e3 : (a + 3).toNat = a.toNat + 3 := by bv_omega
      rw [hp] at h ⊢
      rw [List.flatMap_singleton, partRead_port (h _ List.mem_cons_self), e1, e2, e3]
      rfl
    · have hp : parts a 4 = [⟨a, 1⟩, ⟨a + 1, 1⟩, ⟨a + 2, 1⟩, ⟨a + 3, 1⟩] := by
        simp [parts, smallParts, ha, byteParts, BitVec.add_assoc]
      rw [hp] at h ⊢
      simp only [List.mem_cons, forall_eq_or_imp, List.not_mem_nil, false_implies, implies_true, and_true] at h
      obtain ⟨h0, h1, h2, h3⟩ := h
      simp only [List.flatMap_cons, List.flatMap_nil, partRead_port h0, partRead_port h1, partRead_port h2,
        partRead_port h3]
      rfl
  rw [hb, joinBytes_word, portData]

/-- `t` is `s` but for its registers and its CSRs. -/
structure OnlyRegs (s t : State) : Prop where
  pc : t.pc = s.pc
  mem : SameMem s t
  resv : t.resv = s.resv
  rest : SameRest s t

theorem OnlyRegs.setX {s t : State} (h : OnlyRegs s t) (rd : Reg) (v : Word) : OnlyRegs s (t.setX rd v) :=
  ⟨by simp [h.pc], ⟨fun a => by simp [h.mem.1 a], by simp [h.mem.2]⟩, by simp [h.resv],
    h.rest.trans (by constructor <;> simp)⟩

theorem LoadEffect.onlyRegs {done : DWord → State → State} (h : LoadEffect done) (v : DWord) (s : State) :
    OnlyRegs s (done v s) := by
  cases h with
  | intReg rd ext => exact OnlyRegs.setX ⟨rfl, ⟨fun _ => rfl, rfl⟩, rfl, SameRest.refl s⟩ rd _
  | single rd => exact ⟨rfl, ⟨fun _ => rfl, rfl⟩, rfl, by constructor <;> rfl⟩
  | double rd => exact ⟨rfl, ⟨fun _ => rfl, rfl⟩, rfl, by constructor <;> rfl⟩

theorem StoreEffect.onlyRegs {done : State → State} (h : StoreEffect done) (s : State) :
    OnlyRegs s (done s) ∧ SameX s (done s) ∧ SameF s (done s) := by
  cases h <;> exact ⟨⟨rfl, ⟨fun _ => rfl, rfl⟩, rfl, by constructor <;> rfl⟩, fun _ => rfl, fun _ => rfl⟩

/-- An instruction that completes after it has changed registers. -/
theorem OnlyRegs.retired {s t : State} (h : OnlyRegs s t) (len : Word) :
    ∃ u, retire len t = .next u ∧ u.pc = s.pc + len ∧ SameMem s u ∧ u.resv = s.resv ∧ SameRest s u ∧
      (SameX s t → SameX s u) ∧ (SameF s t → SameF s u) :=
  ⟨_, retire_eq len t, by rw [← h.pc]; rfl, h.mem, h.resv, h.rest.trans (by constructor <;> rfl), id, id⟩

/-- A data access to devices completes. -/
theorem dataAccess_port {s : State} {i : Instr} {len ea : Word} {k : AccessKind} {n : Nat}
    (h : DataAccess s i len k ea n) (hu : ¬ Unaligned s ea n) (hp : AllowedIn s k (busAccesses ea n) [.ppi, .fio]) :
    ∃ t, exec i s = .next t ∧ t.pc = s.pc + len ∧ SameMem s t ∧ t.resv = s.resv ∧ SameRest s t ∧
      (k = .store → SameX s t ∧ SameF s t) := by
  cases dataAccess_runs h with
  | load hn hd hf run =>
    obtain ⟨t, ht, hpc, hmem, hresv, hrest, -, -⟩ :=
      (hd.onlyRegs (joinBytes ((parts ea n).flatMap (partRead s))) s).retired len
    refine ⟨t, ?_, hpc, hmem, hresv, hrest, nofun⟩
    rw [← ht, exec_here run, loadThen, dataLoad_port hu hp]
  | store hn hd hf run =>
    obtain ⟨ho, hx, hF⟩ := hd.onlyRegs s
    obtain ⟨t, ht, hpc, hmem, hresv, hrest, hx', hf'⟩ := ho.retired len
    refine ⟨t, ?_, hpc, hmem, hresv, hrest, fun _ => ⟨hx' hx, hf' hF⟩⟩
    rw [← ht, exec_here run, storeThen, dataStore_port _ hu hp]

/-- LW from devices gets their four bytes. -/
theorem lw_port {s : State} {ea : Word} {rd rs1 : Reg} {imm : BitVec 12} (he : ea = s.getX rs1 + sext imm)
    (hu : ¬ Unaligned s ea 4) (hp : AllowedIn s .load (busAccesses ea 4) [.ppi, .fio]) :
    ∃ t, exec (.lw rd rs1 imm) s = .next t ∧ DoneX s t rd (portData s ea) (s.pc + 4) := by
  obtain ⟨-, hq⟩ := checkData_port hu hp
  have hx : exec (.lw rd rs1 imm) s = writeRd 4 rd (portData s ea) s := by
    rw [← partRead_word_port hq]
    rw [← sext12_eq_sext] at he
    subst he
    show loadX 4 rd (eaI s rs1 imm) 4 lowWord s = _
    rw [loadX, eaI, dataLoad_port hu hp]
    rfl
  exact hx ▸ writeRd_done 4 rd _ s

/-- An atomic on a device meets none of its checks. -/
theorem checkAtomic_port {s : State} {k : AccessKind} {a : Word} (ha : 4 ∣ a.toNat)
    (hp : AllowedIn s k [(a, 4)] [.ppi, .fio]) : checkAtomic s k a = .ok () s ∧ InPort s ⟨a, 4⟩ := by
  obtain ⟨hpmp, hbus, hreg⟩ := hp (a, 4) List.mem_cons_self
  have hi : InPort s ⟨a, 4⟩ := by simpa [InPort] using hreg
  have hf : partFault s k ⟨a, 4⟩ = none := by simp only [partFault, hpmp, hbus]; rfl
  refine ⟨?_, hi⟩
  unfold checkAtomic
  rw [if_neg (by omega), hf, partRefusal_port 4 hi]
  rcases hi with h | h <;> simp only [h]

/-- An atomic that changes one register and the reservation, and completes. -/
theorem retired_atomic (s : State) (rd : Reg) (v : Word) (r : Option Word) :
    ∃ t, retire 4 ((s.setX rd v).withResv r) = .next t ∧ t.pc = s.pc + 4 ∧ SameMem s t ∧ SameF s t ∧
      t.csr = s.csr.counted ∧ SameRest s t ∧ t.resv = r :=
  ⟨_, retire_eq _ _, by simp, ⟨fun _ => by simp, by simp⟩, fun _ => by simp, by simp, by constructor <;> simp, by simp⟩

/-- An atomic on a device completes and leaves memory alone. -/
theorem atomicAccess_port {s : State} {i : Instr} {k : AccessKind} {ea : Word} (hA : s.cfg.hasA = true)
    (h : AtomicAccess s i k ea) (ha : 4 ∣ ea.toNat) (hp : AllowedIn s k [(ea, 4)] [.ppi, .fio]) :
    ∃ t, exec i s = .next t ∧ t.pc = s.pc + 4 ∧ SameMem s t ∧ SameF s t ∧ t.csr = s.csr.counted ∧ SameRest s t ∧
      t.resv = if k = .load then some ea else if k = .store then none else s.resv := by
  obtain ⟨hc, hi⟩ := checkAtomic_port ha hp
  have he : ∀ path code, eccEffect s path [⟨ea, 4⟩] code = .ok [] s := fun path code =>
    eccEffect_port (by simpa using hi) path code
  have hw : ∀ v, wordWrite s ea v [] = s := fun v => partWrite_port hi _
  cases atomicAccess_runs hA h with
  | @load rd rs1 hf run =>
    have hx : ∃ v, exec i s = retire 4 ((s.setX rd v).withResv (some (s.getX rs1))) := by
      refine ⟨wordRead s (s.getX rs1) ^^^ wrongWord [] (s.getX rs1), ?_⟩
      rw [exec_here run, loadReserved]
      simp only [hc, he]
    obtain ⟨v, hx⟩ := hx
    rw [hx]
    exact retired_atomic s ..
  | @store rd rs1 rs2 hf run =>
    have hx : ∃ v, exec i s = retire 4 ((s.setX rd v).withResv none) := by
      rw [exec_here run, storeConditional]
      simp only [hc, he, hw]
      split
      · exact ⟨_, rfl⟩
      · exact ⟨_, rfl⟩
    obtain ⟨v, hx⟩ := hx
    rw [hx]
    exact retired_atomic s ..
  | @amo op rd rs1 rs2 hf run =>
    have hr : ∀ v, (s.setX rd v).withResv s.resv = s.setX rd v := fun v => by rw [← State.setX_resv s rd v]; rfl
    have hx : ∃ v, exec i s = retire 4 ((s.setX rd v).withResv s.resv) := by
      refine ⟨wordRead s (s.getX rs1) ^^^ wrongWord [] (s.getX rs1), ?_⟩
      rw [exec_here run, atomicOp]
      simp only [hc, he, hw, hr]
    obtain ⟨v, hx⟩ := hx
    rw [hx]
    exact retired_atomic s ..

/-- Settles O39: the parts of the access are in the ports, so a store writes nothing and no ECC error is met. -/
theorem portAccesses : Obligations.PortAccesses := by
  unfold Obligations.PortAccesses
  exact fun s => ⟨fun i len k ea n => dataAccess_port, fun rd rs1 imm ea => lw_port, fun i k ea => atomicAccess_port⟩

/-! ### ECC errors that are recorded (60_exceptions.md R606, R609) -/

/-- `s` with other contents of mecc_code, other ECC outputs and other errors in this step. -/
def State.withEcc (s : State) (c : MeccCode) (o : EccOutputs) (l : List EccHit) : State :=
  { s with csr := { s.csr with mecc := c }, eccOut := o, eccHits := l }

/-- Recording errors changes mecc_code and the outputs only. -/
theorem EccNoted.eq_withEcc {s u : State} {met : EccHit → Prop} (h : EccNoted s u met) :
    u = s.withEcc u.csr.mecc u.eccOut s.eccHits := by
  have hm : u.csr.mecc = { s.csr.mecc with sramid := u.csr.mecc.sramid, ramid := u.csr.mecc.ramid } :=
    congrArg (·.csr.mecc) h.rest
  rw [State.withEcc, hm]
  exact h.rest

/-- Errors recorded after others. -/
theorem EccNoted.trans {s u w : State} {p q : EccHit → Prop} (h : EccNoted s u p) (k : EccNoted u w q) :
    EccNoted s w fun x => p x ∨ q x := by
  have on : ∀ e, eccOn u.csr e = eccOn s.csr e := fun e => by rw [h.eq_withEcc]; cases e <;> rfl
  have flags : ∀ {d old mid new}, FlagsNoted s p d old mid → FlagsNoted u q d mid new →
      FlagsNoted s (fun x => p x ∨ q x) d old new := fun h1 h2 n => by
    rw [h2 n, h1 n]
    simp only [on]
    constructor
    · rintro ((h | ⟨x, hx, hr⟩) | ⟨x, hx, hr⟩)
      exacts [.inl h, .inr ⟨x, .inl hx, hr⟩, .inr ⟨x, .inr hx, hr⟩]
    · rintro (h | ⟨x, hx | hx, hr⟩)
      exacts [.inl (.inl h), .inl (.inr ⟨x, hx, hr⟩), .inr ⟨x, hx, hr⟩]
  refine ⟨k.rest.trans ?_, flags h.sramid k.sramid, flags h.ramid k.ramid, flags h.single k.single,
    flags h.double k.double, k.ports.1.trans h.ports.1, k.ports.2.trans h.ports.2⟩
  generalize w.csr.mecc.sramid = a, w.csr.mecc.ramid = b, w.eccOut = o
  rw [h.rest]

/-- What is recorded of errors is which memories had one of 1 or of 2 bits. -/
theorem EccNoted.of_kinds {s u : State} {p q : EccHit → Prop} (h : EccNoted s u p)
    (e : ∀ unit double,
      (∃ x, p x ∧ x.unit = unit ∧ x.double = double) ↔ ∃ x, q x ∧ x.unit = unit ∧ x.double = double) :
    EccNoted s u q := by
  have flags : ∀ {d old new}, FlagsNoted s p d old new → FlagsNoted s q d old new := fun {d old new} hf n => by
    rw [hf n]
    refine or_congr_right ?_
    constructor
    · rintro ⟨x, hx, ho, hd, hk⟩
      obtain ⟨y, hy, hu, hd'⟩ := (e x.unit d).1 ⟨x, hx, rfl, hd⟩
      exact ⟨y, hy, hu ▸ ho, hd', hu ▸ hk⟩
    · rintro ⟨x, hx, ho, hd, hk⟩
      obtain ⟨y, hy, hu, hd'⟩ := (e x.unit d).2 ⟨x, hx, rfl, hd⟩
      exact ⟨y, hy, hu ▸ ho, hd', hu ▸ hk⟩
  exact ⟨h.rest, flags h.sramid, flags h.ramid, flags h.single, flags h.double, h.ports⟩

/-! ### Operations that do not look at errors or memory -/

/-- `f` neither uses nor changes what ECC errors are recorded in, nor memory. -/
structure EccBlind (f : State → State) : Prop where
  ecc : ∀ s c o l, f (s.withEcc c o l) = (f s).withEcc c o l
  mem : ∀ s m, f (s.withMem m) = (f s).withMem m
  stale : ∀ s l, f (s.withStale l) = (f s).withStale l

theorem EccBlind.comp {f g : State → State} (hg : EccBlind g) (hf : EccBlind f) : EccBlind fun s => g (f s) :=
  ⟨fun s c o l => by rw [hf.ecc, hg.ecc], fun s m => by rw [hf.mem, hg.mem], fun s l => by rw [hf.stale, hg.stale]⟩

theorem eccBlind_id : EccBlind id := ⟨fun _ _ _ _ => rfl, fun _ _ => rfl, fun _ _ => rfl⟩

theorem eccBlind_setX (rd : Reg) (v : Word) : EccBlind fun s => s.setX rd v := by
  refine ⟨fun s c o l => ?_, fun s m => ?_, fun s l => ?_⟩ <;> (unfold State.setX; split <;> rfl)

theorem eccBlind_setF (rd : Reg) (v : DWord) : EccBlind fun s => s.setF rd v :=
  ⟨fun _ _ _ _ => rfl, fun _ _ => rfl, fun _ _ => rfl⟩

theorem eccBlind_setS (rd : Reg) (v : Word) : EccBlind fun s => s.setS rd v :=
  ⟨fun _ _ _ _ => rfl, fun _ _ => rfl, fun _ _ => rfl⟩

theorem eccBlind_fpDone (fl : BitVec 5) : EccBlind fun s => s.fpDone fl :=
  ⟨fun _ _ _ _ => rfl, fun _ _ => rfl, fun _ _ => rfl⟩

theorem eccBlind_withResv (r : Option Word) : EccBlind fun s => s.withResv r :=
  ⟨fun _ _ _ _ => rfl, fun _ _ => rfl, fun _ _ => rfl⟩

/-- The state after an instruction of `len` bytes completes. -/
def State.completed (s : State) (len : Word) : State := (s.withCsr s.csr.counted).withPc (s.pc + len)

theorem retire_completed (len : Word) (s : State) : retire len s = .next (s.completed len) := retire_eq len s

theorem eccBlind_completed (len : Word) : EccBlind fun s => s.completed len :=
  ⟨fun _ _ _ _ => rfl, fun _ _ => rfl, fun _ _ => rfl⟩

theorem LoadEffect.blind {done : DWord → State → State} (h : LoadEffect done) (v : DWord) : EccBlind (done v) := by
  cases h with
  | intReg rd ext => exact eccBlind_setX rd (ext v)
  | single rd => exact (eccBlind_fpDone 0).comp (eccBlind_setS rd _)
  | double rd => exact (eccBlind_fpDone 0).comp (eccBlind_setF rd v)

theorem StoreEffect.blind {done : State → State} (h : StoreEffect done) : EccBlind done := by
  cases h with
  | intReg => exact eccBlind_id
  | fpReg => exact eccBlind_fpDone 0

theorem storeMem_withEcc (s : State) (a : Word) (bytes : List Byte) (c : MeccCode) (o : EccOutputs) (l : List EccHit) :
    (s.withEcc c o l).storeMem a bytes = (s.storeMem a bytes).withEcc c o l := rfl

/-- A store to plain memory neither uses nor changes what errors are recorded in. -/
theorem partWrite_withEcc {s : State} {p : Part} (hp : plainForData s.cfg p.addr = true) (bytes : List Byte)
    (c : MeccCode) (o : EccOutputs) (l : List EccHit) :
    partWrite (s.withEcc c o l) p bytes = (partWrite s p bytes).withEcc c o l := by
  rw [partWrite_plain hp, partWrite_plain (s := s.withEcc c o l) hp, storeMem_withEcc]

theorem writeParts_withEcc {s : State} {ps : List Part} (hp : ∀ p ∈ ps, plainForData s.cfg p.addr = true)
    (bytes : List Byte) (c : MeccCode) (o : EccOutputs) (l : List EccHit) :
    writeParts (s.withEcc c o l) ps bytes = (writeParts s ps bytes).withEcc c o l := by
  induction ps generalizing s bytes with
  | nil => rfl
  | cons p ps ih =>
    have hpw := hp p List.mem_cons_self
    rw [writeParts, writeParts, partWrite_withEcc hpw, ih]
    rw [partWrite_plain hpw]
    exact fun q hq => hp q (List.mem_cons_of_mem _ hq)

/-! ### The three ways an instruction that meets errors ends -/

section
variable {i : Instr} {s u : State} {met : EccHit → Prop}

theorem raise_next (e : Exc) (s : State) : ∃ t, raise e s = .next t := by
  unfold raise
  split <;> exact ⟨_, rfl⟩

/-- The error raises, or, where faults are imprecise, waits (60_exceptions.md R526, R605). -/
theorem eccFault_of {len a : Word} {c : ExcCode} {failed : State → State} (hn : EccNoted s u met)
    (hf : FailEffect i failed) (hc : c = .loadAccessFault ∨ c = .storeAmoAccessFault)
    (hx : exec i s = failAccess len failed ⟨c, some a, .keep⟩ u) : EccFault i s len met c.num a := by
  obtain ⟨m, o, rfl⟩ : ∃ m o, u = s.withEcc m o s.eccHits := ⟨_, _, hn.eq_withEcc⟩
  cases hp : s.cfg.preciseAccessFaults with
  | false =>
    have hi : isImprecise (s.withEcc m o s.eccHits) ⟨c, some a, .keep⟩ = true := by
      rcases hc with rfl | rfl <;> simp [isImprecise, State.withEcc, hp]
    obtain ⟨t, ht, hr⟩ := failAccess_imprecise hf hi rfl
    exact ⟨_, t, hn, hx.trans ht, fun h => absurd (hp.symm.trans h) nofun, fun _ => hr⟩
  | true =>
    have hr : exec i s = raise ⟨c, some a, .keep⟩ (s.withEcc m o s.eccHits) := by
      rw [hx, failAccess, if_neg (by simp [isImprecise, State.withEcc, hp])]
    obtain ⟨t, ht⟩ := raise_next ⟨c, some a, .keep⟩ (s.withEcc m o s.eccHits)
    refine ⟨_, t, hn, hr.trans ht, fun _ hw => ?_, fun h => absurd (hp.symm.trans h) nofun⟩
    have htk : t = takeException ⟨c, some a, .keep⟩ s.pc (s.withEcc m o s.eccHits) := by
      rw [raise_eq _ (s.withEcc m o s.eccHits) hw] at ht
      cases ht
      rfl
    subst htk
    exact ⟨takeException_entered _ _ _, rfl, rfl, hw⟩

/-- The errors are corrected, so nothing but what is recorded tells of them (60_exceptions.md R608). -/
theorem eccCorrected_of {f : State → State} (hn : EccNoted s u met)
    (hf : ∀ c o l, f (({ s with eccHits := [] } : State).withEcc c o l) = (f { s with eccHits := [] }).withEcc c o l)
    (hs : exec i s = .next (f u)) (hv : exec i { s with eccHits := [] } = .next (f { s with eccHits := [] })) :
    EccCorrected i s met := by
  obtain ⟨c, o, rfl⟩ : ∃ c o, u = s.withEcc c o s.eccHits := ⟨_, _, hn.eq_withEcc⟩
  exact ⟨_, _, _, hn, hs, hv, hf c o s.eccHits⟩

theorem OnlyMem.eq_withMem {s t : State} (h : OnlyMem s t) : t = (s.withMem t.mem).withStale t.stale := by
  obtain ⟨pc, x, f, csr, resv, rest⟩ := h
  obtain ⟨priv, mcycle, eclic, timer, asleep, nmi, fault, rx, tx, hits, inputs, free, cfg, out⟩ := rest
  cases s
  cases t
  simp_all [State.withMem, State.withStale]

/-- The bytes arrive as the errors leave them (20_memory.md R210): `x` is the state after the access, `y` that of the run
without errors over the memory `m`. -/
theorem eccDelivered_of {k : AccessKind} {m : Memory} {g : State → State} {x y : State} (hg : EccBlind g)
    (hn : EccNoted s u met) (hs : exec i s = .next (g x)) (hv : exec i { s with eccHits := [], mem := m } = .next (g y))
    (hx : OnlyMem u x) (hy : OnlyMem { s with eccHits := [], mem := m } y)
    (hm : if k = .load then SameMem s x else ∀ a, x.mem.read a = y.mem.read a) : EccDelivered i s k met m := by
  obtain ⟨c, o, rfl⟩ : ∃ c o, u = s.withEcc c o s.eccHits := ⟨_, _, hn.eq_withEcc⟩
  obtain ⟨mx, lx, rfl⟩ : ∃ mx lx, x = ((s.withEcc c o s.eccHits).withMem mx).withStale lx := ⟨_, _, hx.eq_withMem⟩
  obtain ⟨my, ly, rfl⟩ : ∃ my ly, y = ((s.withEcc s.csr.mecc s.eccOut []).withMem my).withStale ly :=
    ⟨_, _, hy.eq_withMem⟩
  rw [hg.stale, hg.mem, hg.ecc] at hs hv
  refine ⟨_, _, _, hn, hs, hv, rfl, ?_⟩
  split
  · next hk =>
    rw [if_pos hk] at hm
    exact hm
  · next hk =>
    rw [if_neg hk] at hm
    exact hm

end

/-! ### Loads and stores -/

/-- Errors that ECC corrects do not trap. -/
theorem Correctable.not_traps {s : State} {path : AccessPath} {l : List (Word × Nat)}
    (h : Correctable s (EccMet s path l)) : ∀ q ∈ l, ¬ EccTraps s path q := by
  rintro q hq ⟨x, hx, hm, hd, -, -⟩
  rw [(h x ⟨hx, q, hq, hm⟩).2] at hd
  cases hd

/-- No wrong bits of theirs are used. -/
theorem Correctable.not_spoils {s : State} {path : AccessPath} {l : List (Word × Nat)}
    (h : Correctable s (EccMet s path l)) : (eccMet s path (l.map partOf)).filter (·.spoils s.csr) = [] := by
  rw [List.filter_eq_nil_iff]
  intro x hx
  obtain ⟨hon, hd⟩ := h x ((mem_eccMet s path l x).1 hx)
  simp [EccHit.spoils, EccHit.noticed, hon, hd]

/-- So every byte arrives as it is. -/
theorem Correctable.arrives {s : State} {path : AccessPath} {l : List (Word × Nat)}
    (h : Correctable s (EccMet s path l)) (b : Word) : ByteArrives s (EccMet s path l) s.mem b := by
  rw [byteArrives_iff, h.not_spoils]
  simp [wrongByte]

section
variable {i : Instr} {s : State} {len ea : Word} {n : Nat}

/-- An access that meets an error which traps. -/
theorem accessRuns_fault {k : AccessKind} {path : AccessPath} (hr : AccessRuns s i len ea n k)
    (hpath : path = if k = .load then .load else .store) (hu : ¬ Unaligned s ea n)
    (hp : PlainParts s k (busAccesses ea n))
    {before after : List (Word × Nat)} {p : Word × Nat} (hl : busAccesses ea n = before ++ p :: after)
    (ht : EccTraps s path p) (hb : ∀ q ∈ before, ¬ EccTraps s path q) :
    EccFault i s len (EccMet s path (busAccesses ea n)) (dataFaultCode k) p.1 := by
  obtain ⟨hc, -, -⟩ := checkData_allowed hu hp
  have hN := eccMet_noted s path (busAccesses ea n)
  cases hr with
  | load hn hd hf run =>
    obtain rfl : path = .load := hpath
    refine eccFault_of hN hf (.inl rfl) ?_
    rw [exec_here run, loadThen, dataLoad, hc]
    simp only [parts_eq, hl, eccEffect_traps _ ht hb]
  | store hn hd hf run =>
    obtain rfl : path = .store := hpath
    refine eccFault_of hN hf (.inr rfl) ?_
    rw [exec_here run, storeThen, dataStore, hc]
    simp only [parts_eq, hl, eccEffect_traps _ ht hb]

/-- An access all of whose errors are corrected. -/
theorem accessRuns_corrected {k : AccessKind} {path : AccessPath} (hr : AccessRuns s i len ea n k)
    (hpath : path = if k = .load then .load else .store) (hu : ¬ Unaligned s ea n)
    (hp : PlainParts s k (busAccesses ea n))
    (hcor : Correctable s (EccMet s path (busAccesses ea n))) : EccCorrected i s (EccMet s path (busAccesses ea n)) := by
  have hN := eccMet_noted s path (busAccesses ea n)
  cases hr with
  | @load done failed hn hd hf run =>
    obtain rfl : path = .load := hpath
    obtain ⟨h1, h2⟩ := dataLoad_arrives hu hp hcor.not_traps hcor.arrives
    refine eccCorrected_of (f := fun t => (done (joinBytes (s.mem.readBytes ea n)) t).completed len) hN
      (((eccBlind_completed len).comp (hd.blind _)).ecc _) ?_ ?_
    · rw [exec_here run, loadThen, h1]
      exact retire_completed ..
    · rw [run s.mem [], loadThen, h2]
      exact retire_completed ..
  | @store v done failed hn hd hf run =>
    obtain rfl : path = .store := hpath
    obtain ⟨hc, hma, hq⟩ := checkData_allowed hu hp
    have hst : dataStore s ea n v = .ok () (writeParts (s.noteHits (eccMet s .store ((busAccesses ea n).map partOf)))
        (parts ea n) (splitBytes n v)) := by
      rw [dataStore, hc]
      simp only [parts_eq, eccEffect_ok _ hcor.not_traps, hcor.not_spoils, spoilUnits_nil]
    have hst' : dataStore { s with eccHits := [] } ea n v =
        .ok () (writeParts { s with eccHits := [] } (parts ea n) (splitBytes n v)) := by
      obtain ⟨hc', -, -⟩ := checkData_allowed (s := { s with eccHits := [] }) hu hp
      rw [dataStore, hc']
      simp only [eccEffect_none _ (show (eccMet { s with eccHits := [] } .store (parts ea n)).isEmpty = true from rfl),
        spoilUnits_nil]
    refine eccCorrected_of (f := fun t => (done (writeParts t (parts ea n) (splitBytes n v))).completed len) hN
      (fun c o l => ?_) ?_ ?_
    · rw [writeParts_withEcc (s := { s with eccHits := [] }) fun p h => (hq p h).2.2, hd.blind.ecc,
        (eccBlind_completed len).ecc]
    · rw [exec_here run, storeThen, hst]
      exact retire_completed ..
    · rw [run s.mem [], storeThen, hst']
      exact retire_completed ..

/-- An access whose errors do not trap: the bytes arrive as they are in `m`. -/
theorem accessRuns_delivered {k : AccessKind} {path : AccessPath} (hr : AccessRuns s i len ea n k)
    (hpath : path = if k = .load then .load else .store) (hu : ¬ Unaligned s ea n)
    (hp : PlainParts s k (busAccesses ea n))
    (ht : ∀ q ∈ busAccesses ea n, ¬ EccTraps s path q) (hw : s.mem.wf = true) {m : Memory} (hm : m.wf = true)
    (ha : ∀ b, ByteArrives s (EccMet s path (busAccesses ea n)) m b) :
    EccDelivered i s k (EccMet s path (busAccesses ea n)) m := by
  have hN := eccMet_noted s path (busAccesses ea n)
  cases hr with
  | @load done failed hn hd hf run =>
    obtain rfl : path = .load := hpath
    obtain ⟨h1, h2⟩ := dataLoad_arrives hu hp ht ha
    refine eccDelivered_of ((eccBlind_completed len).comp (hd.blind (joinBytes (m.readBytes ea n)))) hN ?_ ?_
      (OnlyMem.refl _) (OnlyMem.refl _) ?_
    · rw [exec_here run, loadThen, h1]
      exact retire_completed ..
    · rw [run m [], loadThen, h2]
      exact retire_completed ..
    · rw [if_pos rfl, hN.eq_withEcc]
      exact ⟨fun _ => rfl, rfl⟩
  | @store v done failed hn hd hf run =>
    obtain rfl : path = .store := hpath
    obtain ⟨x, y, hx, hox, hy, hoy, hmem⟩ := dataStore_arrives v hn hu hp ht hw hm ha
    refine eccDelivered_of ((eccBlind_completed len).comp hd.blind) hN ?_ ?_ hox hoy ?_
    · rw [exec_here run, storeThen, hx]
      exact retire_completed ..
    · rw [run m [], storeThen, hy]
      exact retire_completed ..
    · rw [if_neg nofun]
      exact hmem

end

/-! ### Accesses to one aligned word: atomics and fetches -/

/-- Of the errors that the access to a word meets on a path those whose wrong bits are used. -/
def usedAt (s : State) (path : AccessPath) (a : Word) : List EccHit :=
  (eccMet s path ([(a, 4)].map partOf)).filter (·.spoils s.csr)

/-- `s` after the errors that the access to a word meets on a path are recorded. -/
def State.notedAt (s : State) (path : AccessPath) (a : Word) : State := s.noteHits (eccMet s path ([(a, 4)].map partOf))

section
variable {s : State} {a : Word} {path : AccessPath}

theorem notedAt_noted (s : State) (path : AccessPath) (a : Word) :
    EccNoted s (s.notedAt path a) (EccMet s path [(a, 4)]) := eccMet_noted s path [(a, 4)]

/-- Where there are no errors, none is met. -/
theorem usedAt_none (h : s.eccHits = []) : usedAt s path a = [] := by simp [usedAt, eccMet, h]

theorem notedAt_none (h : s.eccHits = []) : s.notedAt path a = s := by simp [State.notedAt, eccMet, h, State.noteHits]

theorem not_traps_none (h : s.eccHits = []) (p : Word × Nat) : ¬ EccTraps s path p := by
  rintro ⟨x, hx, -⟩
  rw [h] at hx
  cases hx

theorem eccEffect_word_traps (code : ExcCode) (ht : EccTraps s path (a, 4)) :
    eccEffect s path [⟨a, 4⟩] code = .exc ⟨code, some a, .keep⟩ (s.notedAt path a) :=
  eccEffect_traps (before := []) (p := (a, 4)) (after := []) code ht (by simp)

theorem eccEffect_word_ok (code : ExcCode) (ht : ¬ EccTraps s path (a, 4)) :
    eccEffect s path [⟨a, 4⟩] code = .ok (usedAt s path a) (s.notedAt path a) :=
  eccEffect_ok (l := [(a, 4)]) code (by simpa using ht)

/-! ### Atomics -/

/-- An atomic on plain memory that the PMP and the bus allow goes on, errors or not. -/
theorem checkAtomic_allowed {k : AccessKind} (ha : 4 ∣ a.toNat) (hp : PlainParts s k [(a, 4)]) :
    checkAtomic s k a = .ok () s ∧ plainForData s.cfg a = true := by
  obtain ⟨hpmp, hbus, hpl⟩ := hp (a, 4) List.mem_cons_self
  have hf : partFault s k ⟨a, 4⟩ = none := by simp only [partFault, hpmp, hbus]; rfl
  have hr : partRefusal s.cfg 4 ⟨a, 4⟩ = none := partRefusal_plain hpl
  refine ⟨?_, hpl⟩
  unfold checkAtomic
  rw [if_neg (by omega), hf, hr]
  unfold plainForData at hpl
  cases h : region s.cfg a <;> simp [h] at hpl ⊢

/-- The word an atomic reads, as it arrives. -/
theorem wordRead_arrives {m : Memory} (hpl : plainForData s.cfg a = true)
    (hm : ∀ b, (b - a).toNat < 4 → ByteArrives s (EccMet s .load [(a, 4)]) m b) :
    wordRead s a ^^^ wrongWord (usedAt s .load a) a = memWord m a := by
  have h0 := byteArrives_iff.1 (hm a (by simp))
  have h1 := byteArrives_iff.1 (hm (a + 1) (by bv_omega))
  have h2 := byteArrives_iff.1 (hm (a + 2) (by bv_omega))
  have h3 := byteArrives_iff.1 (hm (a + 3) (by bv_omega))
  rw [wordRead_plain hpl, memWord, memWord, h0, h1, h2, h3]
  exact word_xor ..

/-- The store of an atomic: the wrong bits of the units it reads are written back around its own word. -/
theorem wordWrite_does (hw : s.mem.wf = true) (hpl : plainForData s.cfg a = true) (v : Word) (wrong : List EccHit) :
    OnlyMem s (wordWrite s a v wrong) ∧ ∀ b, (wordWrite s a v wrong).mem.read b =
      if (b - a).toNat < 4 then byteAt (v.setWidth 64) (b - a).toNat else s.mem.read b ^^^ wrongByte wrong b := by
  obtain ⟨ho, hwf, hr⟩ := spoilUnits_does hw wrong
  have hpw : wordWrite s a v wrong = (s.spoilUnits wrong).storeMem a (splitBytes 4 (v.setWidth 64)) :=
    partWrite_plain (p := ⟨a, 4⟩) (by rw [ho.rest.cfg]; exact hpl) _
  rw [hpw]
  refine ⟨ho.trans (storeMem_onlyMem _ _ _), fun b => ?_⟩
  rw [storeMem_mem, Memory.read_writeBytes_splitBytes hwf _ _ _ _ (by decide), hr]

theorem wordWrite_withEcc (hpl : plainForData s.cfg a = true) (v : Word) (c : MeccCode) (o : EccOutputs)
    (l : List EccHit) : wordWrite (s.withEcc c o l) a v [] = (wordWrite s a v []).withEcc c o l :=
  partWrite_withEcc (p := ⟨a, 4⟩) hpl _ c o l

/-! What the three kinds of atomics do when no error traps. -/

theorem loadReserved_runs (rd rs1 : Reg) (ha : 4 ∣ (s.getX rs1).toNat) (hp : PlainParts s .load [(s.getX rs1, 4)])
    (ht : ¬ EccTraps s .load (s.getX rs1, 4)) :
    loadReserved rd rs1 s = .next ((((s.notedAt .load (s.getX rs1)).setX rd
      (wordRead s (s.getX rs1) ^^^ wrongWord (usedAt s .load (s.getX rs1)) (s.getX rs1))).withResv
        (some (s.getX rs1))).completed 4) := by
  obtain ⟨hc, -⟩ := checkAtomic_allowed ha hp
  simp only [loadReserved, hc, eccEffect_word_ok _ ht]
  exact retire_completed ..

theorem storeConditional_runs (rd rs1 rs2 : Reg) (ha : 4 ∣ (s.getX rs1).toNat)
    (hp : PlainParts s .store [(s.getX rs1, 4)]) (hs : scSucceeds s (s.getX rs1) = true)
    (ht : ¬ EccTraps s .store (s.getX rs1, 4)) :
    storeConditional rd rs1 rs2 s = .next ((((wordWrite (s.notedAt .store (s.getX rs1)) (s.getX rs1) (s.getX rs2)
      (usedAt s .store (s.getX rs1))).setX rd 0).withResv none).completed 4) := by
  obtain ⟨hc, -⟩ := checkAtomic_allowed ha hp
  simp only [storeConditional, hc, hs, if_true, eccEffect_word_ok _ ht]
  exact retire_completed ..

theorem loadReserved_clean (rd rs1 : Reg) (h : s.eccHits = []) (ha : 4 ∣ (s.getX rs1).toNat)
    (hp : PlainParts s .load [(s.getX rs1, 4)]) : loadReserved rd rs1 s =
      .next (((s.setX rd (memWord s.mem (s.getX rs1))).withResv (some (s.getX rs1))).completed 4) := by
  rw [loadReserved_runs rd rs1 ha hp (not_traps_none h _), usedAt_none h, notedAt_none h, arrives_right,
    wordRead_plain (checkAtomic_allowed ha hp).2]

theorem storeConditional_clean (rd rs1 rs2 : Reg) (h : s.eccHits = []) (ha : 4 ∣ (s.getX rs1).toNat)
    (hp : PlainParts s .store [(s.getX rs1, 4)]) (hs : scSucceeds s (s.getX rs1) = true) : storeConditional rd rs1 rs2 s =
      .next ((((wordWrite s (s.getX rs1) (s.getX rs2) []).setX rd 0).withResv none).completed 4) := by
  rw [storeConditional_runs rd rs1 rs2 ha hp hs (not_traps_none h _), usedAt_none h, notedAt_none h]

/-- An SC.W that does not store makes no access. -/
theorem storeConditional_fails (rd rs1 rs2 : Reg) (ha : 4 ∣ (s.getX rs1).toNat)
    (hp : PlainParts s .store [(s.getX rs1, 4)]) (hs : scSucceeds s (s.getX rs1) = false) :
    storeConditional rd rs1 rs2 s = .next (((s.setX rd 1).withResv none).completed 4) := by
  obtain ⟨hc, -⟩ := checkAtomic_allowed ha hp
  simp only [storeConditional, hc, hs, Bool.false_eq_true, if_false]
  exact retire_completed ..

end

/-- After the load of an AMO its store meets the same errors as before it. -/
theorem EccNoted.same_met {s u : State} {met : EccHit → Prop} (h : EccNoted s u met) (path : AccessPath) (a : Word) :
    (EccTraps u path (a, 4) ↔ EccTraps s path (a, 4)) ∧ (EccMet u path [(a, 4)] = EccMet s path [(a, 4)]) ∧
      usedAt u path a = usedAt s path a := by
  rw [h.eq_withEcc]
  exact ⟨Iff.rfl, rfl, rfl⟩

/-- `s` after the errors that both accesses of an AMO meet are recorded. -/
def State.amoNoted (s : State) (a : Word) : State := (s.notedAt .load a).notedAt .store a

theorem amoNoted_noted (s : State) (a : Word) : EccNoted s (s.amoNoted a) (AmoMet s a) := by
  have h1 := notedAt_noted s .load a
  have h2 := notedAt_noted (s.notedAt .load a) .store a
  rw [(h1.same_met .store a).2.1] at h2
  exact h1.trans h2

theorem amoNoted_none {s : State} {a : Word} (h : s.eccHits = []) : s.amoNoted a = s := by
  rw [State.amoNoted, notedAt_none (s := s) h, notedAt_none h]

theorem atomicOp_runs {s : State} (op : Word → Word → Word) (rd rs1 rs2 : Reg) (ha : 4 ∣ (s.getX rs1).toNat)
    (hp : PlainParts s .amo [(s.getX rs1, 4)]) (ht : ¬ EccTraps s .load (s.getX rs1, 4))
    (ht' : ¬ EccTraps s .store (s.getX rs1, 4)) {t : Word}
    (hv : wordRead s (s.getX rs1) ^^^ wrongWord (usedAt s .load (s.getX rs1)) (s.getX rs1) = t) :
    atomicOp op rd rs1 rs2 s = .next (((wordWrite (s.amoNoted (s.getX rs1)) (s.getX rs1) (op t (s.getX rs2))
      (usedAt s .store (s.getX rs1))).setX rd t).completed 4) := by
  obtain ⟨hc, -⟩ := checkAtomic_allowed ha hp
  obtain ⟨htr, -, hus⟩ := (notedAt_noted s .load (s.getX rs1)).same_met .store (s.getX rs1)
  simp only [atomicOp, hc, eccEffect_word_ok _ ht, eccEffect_word_ok _ (htr.not.2 ht'), hv, hus]
  exact retire_completed ..

theorem atomicOp_clean {s : State} (op : Word → Word → Word) (rd rs1 rs2 : Reg) (h : s.eccHits = [])
    (ha : 4 ∣ (s.getX rs1).toNat) (hp : PlainParts s .amo [(s.getX rs1, 4)]) : atomicOp op rd rs1 rs2 s =
      .next (((wordWrite s (s.getX rs1) (op (memWord s.mem (s.getX rs1)) (s.getX rs2)) []).setX rd
        (memWord s.mem (s.getX rs1))).completed 4) := by
  rw [atomicOp_runs op rd rs1 rs2 ha hp (not_traps_none h _) (not_traps_none h _) (t := memWord s.mem (s.getX rs1)),
    usedAt_none h, amoNoted_none h]
  rw [usedAt_none h, arrives_right, wordRead_plain (checkAtomic_allowed ha hp).2]

/-! The errors of an atomic that trap. -/

section
variable {s : State} {i : Instr} {k : AccessKind} {ea : Word}

/-- The path on which an atomic meets errors first. -/
theorem atomicRuns_fault {path : AccessPath} (hr : AtomicRuns s i k ea)
    (hpath : path = if k = .store then .store else .load) (ha : 4 ∣ ea.toNat) (hp : PlainParts s k [(ea, 4)])
    (hsc : k = .store → s.resv = some ea ∧ s.cfg.scSpuriousFail = false) (ht : EccTraps s path (ea, 4)) :
    EccFault i s 4 (EccMet s path [(ea, 4)]) (dataFaultCode k) ea := by
  obtain ⟨hc, -⟩ := checkAtomic_allowed ha hp
  have hN := notedAt_noted s path ea
  cases hr with
  | load hf run =>
    obtain rfl : path = .load := hpath
    refine eccFault_of hN hf (.inl rfl) ?_
    rw [exec_here run]
    simp only [loadReserved, hc, eccEffect_word_traps _ ht]
  | @store rd rs1 rs2 hf run =>
    obtain rfl : path = .store := hpath
    obtain ⟨h1, h2⟩ := hsc rfl
    have hs : scSucceeds s (s.getX rs1) = true := by simp [scSucceeds, h1, h2]
    refine eccFault_of hN hf (.inr rfl) ?_
    rw [exec_here run]
    simp only [storeConditional, hc, hs, if_true, eccEffect_word_traps _ ht]
  | amo hf run =>
    obtain rfl : path = .load := hpath
    refine eccFault_of hN hf (.inr rfl) ?_
    rw [exec_here run]
    simp only [atomicOp, hc, eccEffect_word_traps _ ht]

/-- The store of an AMO that meets an error which traps, after a load that meets none. -/
theorem atomicRuns_fault_store (hr : AtomicRuns s i .amo ea) (ha : 4 ∣ ea.toNat) (hp : PlainParts s .amo [(ea, 4)])
    (ht : ¬ EccTraps s .load (ea, 4)) (ht' : EccTraps s .store (ea, 4)) : EccFault i s 4 (AmoMet s ea) 7 ea := by
  obtain ⟨hc, -⟩ := checkAtomic_allowed ha hp
  obtain ⟨htr, -, -⟩ := (notedAt_noted s .load ea).same_met .store ea
  cases hr with
  | amo hf run =>
    refine eccFault_of (c := .storeAmoAccessFault) (amoNoted_noted s _) hf (.inr rfl) ?_
    rw [exec_here run]
    simp only [atomicOp, hc, eccEffect_word_ok _ ht, eccEffect_word_traps _ (htr.2 ht')]
    rfl

theorem Correctable.mono {p q : EccHit → Prop} (h : Correctable s p) (hq : ∀ x, q x → p x) : Correctable s q :=
  fun x hx => h x (hq x hx)

theorem Correctable.usedAt_nil {path : AccessPath} {a : Word} (h : Correctable s (EccMet s path [(a, 4)])) :
    usedAt s path a = [] := h.not_spoils

theorem Correctable.word_not_traps {path : AccessPath} {a : Word} (h : Correctable s (EccMet s path [(a, 4)])) :
    ¬ EccTraps s path (a, 4) := h.not_traps _ List.mem_cons_self

/-- An SC.W that fails meets no error. -/
theorem atomicRuns_sc_fails (hr : AtomicRuns s i .store ea) (ha : 4 ∣ ea.toNat) (hp : PlainParts s .store [(ea, 4)])
    (hs : s.resv ≠ some ea) : EccCorrected i s fun _ => False := by
  have hsc : scSucceeds s ea = false := by simp [scSucceeds, hs]
  have hN : EccNoted s s fun _ => False := (noteHits_noted [] s).congr (by simp)
  cases hr with
  | @store rd rs1 rs2 hf run =>
    refine eccCorrected_of (f := fun t => ((t.setX rd 1).withResv none).completed 4) hN
      (((eccBlind_completed 4).comp ((eccBlind_withResv none).comp (eccBlind_setX rd 1))).ecc _) ?_ ?_
    · rw [exec_here run, storeConditional_fails rd rs1 rs2 ha hp hsc]
    · rw [run s.mem [], storeConditional_fails (s := { s with eccHits := [] }) rd rs1 rs2 ha hp hsc]

/-- LR.W and an SC.W that stores, whose errors are corrected. -/
theorem atomicRuns_corrected {path : AccessPath} (hr : AtomicRuns s i k ea)
    (hpath : path = if k = .store then .store else .load) (ha : 4 ∣ ea.toNat) (hp : PlainParts s k [(ea, 4)])
    (hsc : k = .store → s.resv = some ea ∧ s.cfg.scSpuriousFail = false) (hk : k ≠ .amo)
    (hcor : Correctable s (EccMet s path [(ea, 4)])) : EccCorrected i s (EccMet s path [(ea, 4)]) := by
  have hN := notedAt_noted s path ea
  have hu := hcor.usedAt_nil
  obtain ⟨-, hpl⟩ := checkAtomic_allowed ha hp
  cases hr with
  | @load rd rs1 hf run =>
    obtain rfl : path = .load := hpath
    refine eccCorrected_of
      (f := fun t => ((t.setX rd (memWord s.mem (s.getX rs1))).withResv (some (s.getX rs1))).completed 4) hN
      (((eccBlind_completed 4).comp ((eccBlind_withResv _).comp (eccBlind_setX rd _))).ecc _) ?_ ?_
    · rw [exec_here run, loadReserved_runs rd rs1 ha hp hcor.word_not_traps, hu, arrives_right, wordRead_plain hpl]
    · exact (run s.mem []).trans (loadReserved_clean (s := { s with eccHits := [] }) rd rs1 rfl ha hp)
  | @store rd rs1 rs2 hf run =>
    obtain rfl : path = .store := hpath
    obtain ⟨h1, h2⟩ := hsc rfl
    have hs : scSucceeds s (s.getX rs1) = true := by simp [scSucceeds, h1, h2]
    refine eccCorrected_of
      (f := fun t => (((wordWrite t (s.getX rs1) (s.getX rs2) []).setX rd 0).withResv none).completed 4) hN
      (fun c o l => ?_) ?_ ?_
    · rw [wordWrite_withEcc (s := { s with eccHits := [] }) hpl, (eccBlind_setX rd 0).ecc]
      rfl
    · rw [exec_here run, storeConditional_runs rd rs1 rs2 ha hp hs hcor.word_not_traps, hu]
    · exact (run s.mem []).trans (storeConditional_clean (s := { s with eccHits := [] }) rd rs1 rs2 rfl ha hp hs)
  | amo => exact absurd rfl hk

/-- An AMO whose errors are corrected. -/
theorem atomicRuns_corrected_amo (hr : AtomicRuns s i .amo ea) (ha : 4 ∣ ea.toNat) (hp : PlainParts s .amo [(ea, 4)])
    (hcor : Correctable s (AmoMet s ea)) : EccCorrected i s (AmoMet s ea) := by
  obtain ⟨-, hpl⟩ := checkAtomic_allowed ha hp
  have hl : Correctable s (EccMet s .load [(ea, 4)]) := hcor.mono fun _ => .inl
  have hs : Correctable s (EccMet s .store [(ea, 4)]) := hcor.mono fun _ => .inr
  have hul := hl.usedAt_nil
  have hus := hs.usedAt_nil
  cases hr with
  | @amo op rd rs1 rs2 hf run =>
    refine eccCorrected_of
      (f := fun t => ((wordWrite t (s.getX rs1) (op (memWord s.mem (s.getX rs1)) (s.getX rs2)) []).setX rd
        (memWord s.mem (s.getX rs1))).completed 4) (amoNoted_noted s _) (fun c o l => ?_) ?_ ?_
    · rw [wordWrite_withEcc (s := { s with eccHits := [] }) hpl, (eccBlind_setX rd _).ecc]
      rfl
    · rw [exec_here run, atomicOp_runs op rd rs1 rs2 ha hp hl.word_not_traps hs.word_not_traps
        (by rw [hul, arrives_right, wordRead_plain hpl]), hus]
    · exact (run s.mem []).trans (atomicOp_clean (s := { s with eccHits := [] }) op rd rs1 rs2 rfl ha hp)

/-- LR.W and an SC.W that stores, whose errors do not trap. -/
theorem atomicRuns_delivered {path : AccessPath} (hr : AtomicRuns s i k ea)
    (hpath : path = if k = .store then .store else .load) (ha : 4 ∣ ea.toNat) (hp : PlainParts s k [(ea, 4)])
    (hsc : k = .store → s.resv = some ea ∧ s.cfg.scSpuriousFail = false) (hk : k ≠ .amo)
    (ht : ¬ EccTraps s path (ea, 4)) (hw : s.mem.wf = true) {m : Memory} (hm : m.wf = true)
    (har : ∀ b, ByteArrives s (EccMet s path [(ea, 4)]) m b) : EccDelivered i s k (EccMet s path [(ea, 4)]) m := by
  have hN := notedAt_noted s path ea
  obtain ⟨-, hpl⟩ := checkAtomic_allowed ha hp
  cases hr with
  | @load rd rs1 hf run =>
    obtain rfl : path = .load := hpath
    refine eccDelivered_of
      (g := fun t => ((t.setX rd (memWord m (s.getX rs1))).withResv (some (s.getX rs1))).completed 4)
      ((eccBlind_completed 4).comp ((eccBlind_withResv _).comp (eccBlind_setX rd _))) hN ?_ ?_
      (OnlyMem.refl _) (OnlyMem.refl _) ?_
    · rw [exec_here run, loadReserved_runs rd rs1 ha hp ht, wordRead_arrives hpl fun b _ => har b]
    · exact (run m []).trans (loadReserved_clean (s := { s with eccHits := [], mem := m }) rd rs1 rfl ha hp)
    · rw [if_pos rfl, hN.eq_withEcc]
      exact ⟨fun _ => rfl, rfl⟩
  | @store rd rs1 rs2 hf run =>
    obtain rfl : path = .store := hpath
    obtain ⟨h1, h2⟩ := hsc rfl
    have hs : scSucceeds s (s.getX rs1) = true := by simp [scSucceeds, h1, h2]
    have hmem : (s.notedAt .store (s.getX rs1)).mem = s.mem := by rw [hN.eq_withEcc]; rfl
    have hcfg : (s.notedAt .store (s.getX rs1)).cfg = s.cfg := by rw [hN.eq_withEcc]; rfl
    obtain ⟨hox, hx⟩ := wordWrite_does (by rw [hmem]; exact hw) (by rw [hcfg]; exact hpl) (s.getX rs2)
      (usedAt s .store (s.getX rs1))
    obtain ⟨hoy, hy⟩ := wordWrite_does (s := { s with eccHits := [], mem := m }) hm hpl (s.getX rs2) []
    refine eccDelivered_of (g := fun t => ((t.setX rd 0).withResv none).completed 4)
      ((eccBlind_completed 4).comp ((eccBlind_withResv _).comp (eccBlind_setX rd _))) hN ?_ ?_ hox hoy ?_
    · rw [exec_here run, storeConditional_runs rd rs1 rs2 ha hp hs ht]
    · exact (run m []).trans (storeConditional_clean (s := { s with eccHits := [], mem := m }) rd rs1 rs2 rfl ha hp hs)
    · rw [if_neg nofun]
      intro b
      rw [hx, hy, hmem]
      exact if_congr Iff.rfl rfl ((byteArrives_iff.1 (har b)).symm.trans (by simp [wrongByte]))
  | amo => exact absurd rfl hk

/-- An AMO whose errors do not trap: its word arrives as at a load, the other bytes of the unit as at a store. -/
theorem atomicRuns_delivered_amo (hr : AtomicRuns s i .amo ea) (ha : 4 ∣ ea.toNat) (hp : PlainParts s .amo [(ea, 4)])
    (ht : ¬ EccTraps s .load (ea, 4)) (ht' : ¬ EccTraps s .store (ea, 4)) (hw : s.mem.wf = true) {m : Memory}
    (hm : m.wf = true) (har : ∀ b, if (b - ea).toNat < 4 then ByteArrives s (EccMet s .load [(ea, 4)]) m b
      else ByteArrives s (EccMet s .store [(ea, 4)]) m b) : EccDelivered i s .amo (AmoMet s ea) m := by
  obtain ⟨-, hpl⟩ := checkAtomic_allowed ha hp
  have hN := amoNoted_noted s ea
  have hmem : (s.amoNoted ea).mem = s.mem := by rw [hN.eq_withEcc]; rfl
  have hcfg : (s.amoNoted ea).cfg = s.cfg := by rw [hN.eq_withEcc]; rfl
  have hv := wordRead_arrives hpl fun b hb => ((if_pos hb).mp (har b) : ByteArrives s (EccMet s .load [(ea, 4)]) m b)
  cases hr with
  | @amo op rd rs1 rs2 hf run =>
    obtain ⟨hox, hx⟩ := wordWrite_does (by rw [hmem]; exact hw) (by rw [hcfg]; exact hpl)
      (op (memWord m (s.getX rs1)) (s.getX rs2)) (usedAt s .store (s.getX rs1))
    obtain ⟨hoy, hy⟩ := wordWrite_does (s := { s with eccHits := [], mem := m }) hm hpl
      (op (memWord m (s.getX rs1)) (s.getX rs2)) []
    refine eccDelivered_of (g := fun t => (t.setX rd (memWord m (s.getX rs1))).completed 4)
      ((eccBlind_completed 4).comp (eccBlind_setX rd _)) hN ?_ ?_ hox hoy ?_
    · rw [exec_here run, atomicOp_runs op rd rs1 rs2 ha hp ht ht' hv]
    · exact (run m []).trans (atomicOp_clean (s := { s with eccHits := [], mem := m }) op rd rs1 rs2 rfl ha hp)
    · rw [if_neg nofun]
      intro b
      rw [hx, hy, hmem]
      split
      · rfl
      · next hb => exact (byteArrives_iff.1 ((if_neg hb).mp (har b))).symm.trans (by simp [wrongByte])

end

/-! ### Fetches that meet errors -/

section
variable {s u : State} {met : EccHit → Prop} {p : Priv} {a : Word} {m : Memory}

theorem checkFetch_traps (h : FetchAllowed s p a) (ht : EccTraps s .fetch (a, 4)) :
    checkFetch s p a = .exc ⟨.instrAccessFault, some a, .keep⟩ (s.notedAt .fetch a) := by
  simp only [checkFetch, h.1, h.2, if_true, Bool.false_eq_true, if_false, eccEffect_word_traps _ ht]

theorem checkFetch_arrives (h : FetchAllowed s p a) (ht : ¬ EccTraps s .fetch (a, 4)) :
    checkFetch s p a = .ok (usedAt s .fetch a) (s.notedAt .fetch a) := by
  simp only [checkFetch, h.1, h.2, if_true, Bool.false_eq_true, if_false, eccEffect_word_ok _ ht]

/-- A fetch that the PMP or the bus refuses (60_exceptions.md R523). -/
theorem checkFetch_refused {d : BitVec 2} (h : FetchRefused s p a d) :
    ∃ detail, checkFetch s p a = .exc ⟨.instrAccessFault, some a, detail⟩ s ∧ ∀ old free, detailBits detail old free = d := by
  rcases h with ⟨rfl, hp⟩ | ⟨rfl, hp, hb⟩
  · exact ⟨.pmp, by simp only [checkFetch, hp]; rfl, fun _ _ => rfl⟩
  · exact ⟨.bus, by simp only [checkFetch, hp, hb, if_true], fun _ _ => rfl⟩

/-- What a fetch sees of a word, as it arrives. -/
theorem fetchView_arrives (hs : s.stale = []) (hm : WordArrives s Config.freeFetchPort m a) :
    fetchView s a ^^^ wrongWord (usedAt s .fetch a) a = memWord m a := by
  rw [fetchView_plain hs, ← busWord_found]
  exact busWord_arrives hm

/-- Recording errors leaves alone what a fetch depends on. -/
theorem EccNoted.same_fetch (h : EccNoted s u met) : u.stale = s.stale ∧ u.pc = s.pc ∧
    u.pendingFault = s.pendingFault ∧ u.csr.mdcause = s.csr.mdcause ∧
    (∀ b, FetchAllowed u u.priv b ↔ FetchAllowed s s.priv b) ∧
    (∀ b d, FetchRefused u u.priv b d ↔ FetchRefused s s.priv b d) ∧
    (∀ port m b, WordArrives u port m b ↔ WordArrives s port m b) := by
  rw [h.eq_withEcc]
  exact ⟨rfl, rfl, rfl, rfl, fun _ => Iff.rfl, fun _ _ => Iff.rfl, fun _ _ _ => Iff.rfl⟩

/-- The errors of two words, recorded one after the other. -/
theorem noted_two_words (s : State) (a b : Word) :
    EccNoted s ((s.notedAt .fetch a).notedAt .fetch b) (EccMet s .fetch [(a, 4), (b, 4)]) := by
  have h1 := notedAt_noted s .fetch a
  have h2 := notedAt_noted (s.notedAt .fetch a) .fetch b
  rw [(h1.same_met .fetch b).2.1] at h2
  refine (h1.trans h2).congr fun x => ?_
  simp [EccMet, and_or_left]

theorem fetchUpper_fails {e : Exc} (h : checkFetch s s.priv a = .exc e u) : fetchUpper s a = .exc e u := by
  simp only [fetchUpper, h]

theorem fetchUpper_arrives (hs : s.stale = []) (ha : FetchAllowed s s.priv a) (ht : ¬ EccTraps s .fetch (a, 4))
    (hm : WordArrives s Config.freeFetchPort m a) : fetchUpper s a = .ok (memHalf m a) (s.notedAt .fetch a) := by
  simp only [fetchUpper, checkFetch_arrives ha ht, fetchView_arrives hs hm, memWord_low]

/-- The parcel at the pc, the lower or the upper half of its word. -/
theorem parcel_at_pc (m : Memory) {pc : Word} (h0 : pc.getLsbD 0 = false) :
    (if pc.getLsbD 1 = true then (memWord m (alignedAddr pc)).extractLsb' 16 16
      else (memWord m (alignedAddr pc)).setWidth 16) = memHalf m pc := by
  rcases alignedAddr_cases pc h0 with ⟨h1, ha⟩ | ⟨h1, ha⟩
  · rw [h1, if_neg Bool.false_ne_true, ha, memWord_low]
  · rw [if_pos h1, memWord_high, ← ha]

theorem isLong_memHalf (m : Memory) (a : Word) : isLong (memHalf m a) = true ↔ (m.read a).extractLsb' 0 2 = 3#2 := by
  have : (memHalf m a).extractLsb' 0 2 = (m.read a).extractLsb' 0 2 := by
    apply BitVec.eq_of_getLsbD_eq
    intro i hi
    rw [memHalf, BitVec.getLsbD_extractLsb', BitVec.getLsbD_extractLsb', getLsbD_append_cases, if_pos (by omega)]
  rw [isLong, beq_iff_eq, this]

end

/-! What a fetch answers, by what its first word holds. -/

section
variable {s u w : State} {wrong : List EccHit} {m : Memory}

/-- A pc that the core allows. -/
def FetchablePc (s : State) : Prop := s.pc.getLsbD 0 = false ∧ (s.cfg.hasC = false → s.pc.getLsbD 1 = false)

theorem FetchablePc.not_misaligned (h : FetchablePc s) : ¬ (s.pc.getLsbD 0 || badTarget s s.pc) = true := by
  rw [h.1, badTarget_false h.2]
  exact Bool.false_ne_true

theorem fetch_fails {e : Exc} (hpc : FetchablePc s) (h : checkFetch s s.priv (alignedAddr s.pc) = .exc e u) :
    fetch s = .exc e u := by
  rw [fetch, if_neg hpc.not_misaligned, h]

theorem fetch_short (hpc : FetchablePc s) (h : checkFetch s s.priv (alignedAddr s.pc) = .ok wrong u)
    (hv : fetchView s (alignedAddr s.pc) ^^^ wrongWord wrong (alignedAddr s.pc) = memWord m (alignedAddr s.pc))
    (hl : isLong (memHalf m s.pc) = false) :
    fetch s = if s.cfg.hasC then .ok (.half (memHalf m s.pc)) u
      else .exc ⟨.illegalInstr, some ((memHalf m s.pc).zeroExtend 32), .unstated⟩ u := by
  rw [fetch, if_neg hpc.not_misaligned, h]
  simp only [hv, parcel_at_pc m hpc.1, hl, Bool.false_eq_true, if_false]

theorem fetch_aligned (hpc : FetchablePc s) (h : checkFetch s s.priv (alignedAddr s.pc) = .ok wrong u)
    (hv : fetchView s (alignedAddr s.pc) ^^^ wrongWord wrong (alignedAddr s.pc) = memWord m (alignedAddr s.pc))
    (hl : isLong (memHalf m s.pc) = true) (h1 : s.pc.getLsbD 1 = false) :
    fetch s = fetchLong (memHalf m s.pc) (memHalf m (s.pc + 2)) u := by
  have ha : alignedAddr s.pc = s.pc := by
    rcases alignedAddr_cases s.pc hpc.1 with ⟨-, ha⟩ | ⟨h1', -⟩
    · exact ha
    · rw [h1] at h1'
      cases h1'
  rw [fetch, if_neg hpc.not_misaligned, h]
  simp only [hv, parcel_at_pc m hpc.1, hl, if_true]
  rw [h1, if_neg Bool.false_ne_true, ha, memWord_high]

theorem fetch_straddling_fails {e : Exc} (hpc : FetchablePc s)
    (h : checkFetch s s.priv (alignedAddr s.pc) = .ok wrong u)
    (hv : fetchView s (alignedAddr s.pc) ^^^ wrongWord wrong (alignedAddr s.pc) = memWord m (alignedAddr s.pc))
    (hl : isLong (memHalf m s.pc) = true) (h1 : s.pc.getLsbD 1 = true)
    (h2 : fetchUpper u (alignedAddr s.pc + 4) = .exc e w) : fetch s = .exc e w := by
  rw [fetch, if_neg hpc.not_misaligned, h]
  simp only [hv, parcel_at_pc m hpc.1, hl, if_true]
  simp only [h1, if_true, h2]

theorem fetch_straddling (hpc : FetchablePc s) (h : checkFetch s s.priv (alignedAddr s.pc) = .ok wrong u)
    (hv : fetchView s (alignedAddr s.pc) ^^^ wrongWord wrong (alignedAddr s.pc) = memWord m (alignedAddr s.pc))
    (hl : isLong (memHalf m s.pc) = true) (h1 : s.pc.getLsbD 1 = true)
    (h2 : fetchUpper u (alignedAddr s.pc + 4) = .ok (memHalf m (alignedAddr s.pc + 4)) w) :
    fetch s = fetchLong (memHalf m s.pc) (memHalf m (s.pc + 2)) w := by
  have ha : alignedAddr s.pc + 4 = s.pc + 2 := by
    rcases alignedAddr_cases s.pc hpc.1 with ⟨h1', -⟩ | ⟨-, ha⟩
    · rw [h1] at h1'
      cases h1'
    · rw [show alignedAddr s.pc + 4 = alignedAddr s.pc + 2 + 2 by rw [BitVec.add_assoc]; rfl, ← ha]
  rw [fetch, if_neg hpc.not_misaligned, h]
  simp only [hv, parcel_at_pc m hpc.1, hl, if_true]
  simp only [h1, if_true, h2]
  rw [ha]

end

/-! What the step makes of it. -/

section
variable {s u : State} {met : EccHit → Prop}

/-- A step whose fetch or instruction raises, from the state `u` in which errors are recorded. -/
theorem step_raises {c : ExcCode} {v : Word} {d : Detail} (hN : EccNoted s.afterPulses u met) (hp : s.pendingFault = none)
    (hstep : step s = thenSettle (raise ⟨c, some v, d⟩ u)) :
    ∃ t, step s = thenSettle (.next t) ∧ ExceptionEntered u t c.num s.pc ∧ t.csr.mtval = v ∧
      t.csr.mdcause = detailBits d s.csr.mdcause u.free ∧ t.pendingFault = none := by
  obtain ⟨-, hpc, hpf, hmd, -⟩ := hN.same_fetch
  have hu : u.pendingFault = none := hpf.trans hp
  have hpc : u.pc = s.pc := hpc
  have hmd : u.csr.mdcause = s.csr.mdcause := hmd
  rw [raise_eq _ u hu, hpc] at hstep
  exact ⟨_, hstep, takeException_entered _ _ _, rfl, by rw [← hmd]; rfl, hu⟩

theorem fetchTraps_of {a : Word} {detail : Detail} {d : BitVec 2} (hN : EccNoted s.afterPulses u met)
    (hp : s.pendingFault = none) (hstep : step s = thenSettle (runInstr s.afterPulses))
    (hf : fetch s.afterPulses = .exc ⟨.instrAccessFault, some a, detail⟩ u)
    (hd : ∀ free, detailBits detail s.csr.mdcause free = d) : FetchTraps s u a d := by
  rw [runInstr, hf] at hstep
  obtain ⟨t, ht, he, hv, hm, hpf⟩ := step_raises hN hp hstep
  exact ⟨t, ht, he, hv, hm.trans (hd _), hpf⟩

/-- A code that was fetched runs, or is illegal if it is no instruction (30_encoding.md R230, R231). -/
theorem stepRuns_of_fetched {c : Code} (hN : EccNoted s.afterPulses u met) (hp : s.pendingFault = none)
    (hstep : step s = thenSettle (runInstr s.afterPulses)) (hf : fetch s.afterPulses = .ok c u) : StepRuns s u c true := by
  refine ⟨fun i _ hd => by rw [hstep, runInstr_fetched hf hd], fun h => ?_⟩
  have hd : decode c = none := h.resolve_left nofun
  have hr : step s = thenSettle (raise ⟨.illegalInstr, some c.bits, .unstated⟩ u) := by
    rw [hstep]
    simp only [runInstr, hf, runCode, hd, illegalBits]
  obtain ⟨t, ht, he, hv, -, hpf⟩ := step_raises hN hp hr
  exact ⟨t, ht, he, hv, hpf⟩

/-- So is a code that the fetch itself finds to be none (30_encoding.md R221, R231). -/
theorem stepRuns_of_illegal {c : Code} {has : Bool} (hN : EccNoted s.afterPulses u met) (hp : s.pendingFault = none)
    (hstep : step s = thenSettle (runInstr s.afterPulses))
    (hf : fetch s.afterPulses = .exc ⟨.illegalInstr, some c.bits, .unstated⟩ u) (hc : has = false ∨ decode c = none) :
    StepRuns s u c has := by
  refine ⟨fun i hh hd => ?_, fun _ => ?_⟩
  · rcases hc with hc | hc
    · rw [hh] at hc
      cases hc
    · rw [hd] at hc
      cases hc
  · rw [runInstr, hf] at hstep
    obtain ⟨t, ht, he, hv, -, hpf⟩ := step_raises hN hp hstep
    exact ⟨t, ht, he, hv, hpf⟩

theorem stepRuns_half {h : BitVec 16} (hN : EccNoted s.afterPulses u met) (hp : s.pendingFault = none)
    (hstep : step s = thenSettle (runInstr s.afterPulses))
    (hf : fetch s.afterPulses = if s.cfg.hasC then .ok (.half h) u
      else .exc ⟨.illegalInstr, some (h.zeroExtend 32), .unstated⟩ u) : StepRuns s u (.half h) s.cfg.hasC := by
  cases hc : s.cfg.hasC with
  | true => exact stepRuns_of_fetched hN hp hstep (hf.trans (if_pos hc))
  | false => exact stepRuns_of_illegal hN hp hstep (hf.trans (if_neg (by simp [hc]))) (.inl rfl)

/-- The formats of 48 bits and more encode nothing (30_encoding.md R221). -/
theorem decode_veryLong {w : BitVec 32} (h : isVeryLong (w.setWidth 16) = true) : decode (.word w) = none := by
  have hop : (opField w).extractLsb' 2 3 = 7#3 := by
    have e : (opField w).extractLsb' 2 3 = (w.setWidth 16).extractLsb' 2 3 := by
      apply BitVec.eq_of_getLsbD_eq
      intro i hi
      interval_cases i <;> simp [opField]
    simpa [e, isVeryLong] using h
  show decodeFields _ _ _ _ _ (opField w) = none
  generalize opField w = op at hop
  unfold decodeFields
  split <;> try rfl
  all_goals exact absurd hop (by decide)

theorem stepRuns_word {m : Memory} (hN : EccNoted s.afterPulses u met) (hp : s.pendingFault = none)
    (hstep : step s = thenSettle (runInstr s.afterPulses))
    (hf : fetch s.afterPulses = fetchLong (memHalf m s.pc) (memHalf m (s.pc + 2)) u) :
    StepRuns s u (.word (memWord m s.pc)) true := by
  rw [fetchLong, joinParcels_halves] at hf
  by_cases hv : isVeryLong (memHalf m s.pc) = true
  · rw [if_pos hv] at hf
    exact stepRuns_of_illegal hN hp hstep hf (.inr (decode_veryLong (by rw [memWord_low]; exact hv)))
  · rw [if_neg hv] at hf
    exact stepRuns_of_fetched hN hp hstep hf

end

/-- A step whose fetch meets errors. -/
theorem step_fetch_errors {s : State} {a : Word} {m : Memory} {one both : EccHit → Prop} (hq : Quiet s)
    (hs : s.asleep = false) (hnt : NoTrapDue s) (h0 : s.pc.getLsbD 0 = false)
    (hc : s.cfg.hasC = false → s.pc.getLsbD 1 = false) (ha : a = s.pc &&& 0xFFFFFFFC#32) (hal : FetchAllowed s s.priv a)
    (h1 : one = EccMet s .fetch [(a, 4)]) (h2 : both = EccMet s .fetch [(a, 4), (a + 4, 4)]) :
    (EccTraps s .fetch (a, 4) → ∃ u, EccNoted s.afterPulses u one ∧ FetchTraps s u a s.csr.mdcause) ∧
    (¬ EccTraps s .fetch (a, 4) → s.stale = [] → WordArrives s Config.freeFetchPort m a →
      ((m.read s.pc).extractLsb' 0 2 ≠ 3#2 →
        ∃ u, EccNoted s.afterPulses u one ∧ StepRuns s u (.half (memHalf m s.pc)) s.cfg.hasC) ∧
      ((m.read s.pc).extractLsb' 0 2 = 3#2 → s.pc.getLsbD 1 = false →
        ∃ u, EccNoted s.afterPulses u one ∧ StepRuns s u (.word (memWord m s.pc)) true) ∧
      ((m.read s.pc).extractLsb' 0 2 = 3#2 → s.pc.getLsbD 1 = true →
        (∀ d, FetchRefused s s.priv (a + 4) d → ∃ u, EccNoted s.afterPulses u one ∧ FetchTraps s u (a + 4) d) ∧
        (FetchAllowed s s.priv (a + 4) →
          (EccTraps s .fetch (a + 4, 4) → ∃ u, EccNoted s.afterPulses u both ∧ FetchTraps s u (a + 4) s.csr.mdcause) ∧
          (¬ EccTraps s .fetch (a + 4, 4) → WordArrives s Config.freeFetchPort m (a + 4) →
            ∃ u, EccNoted s.afterPulses u both ∧ StepRuns s u (.word (memWord m s.pc)) true)))) := by
  obtain ⟨hp, -, -⟩ := id hnt
  have hstep := step_runs hq hs hnt
  have hpc : FetchablePc s.afterPulses := ⟨h0, hc⟩
  rw [← alignedAddr_eq] at ha
  subst ha h1 h2
  have hN : EccNoted s.afterPulses (s.afterPulses.notedAt .fetch (alignedAddr s.pc))
      (EccMet s .fetch [(alignedAddr s.pc, 4)]) := notedAt_noted s.afterPulses .fetch _
  have hNN := noted_two_words s.afterPulses (alignedAddr s.pc) (alignedAddr s.pc + 4)
  refine ⟨fun ht => ⟨_, hN, fetchTraps_of hN hp hstep (fetch_fails hpc (checkFetch_traps hal ht)) fun _ => rfl⟩, ?_⟩
  intro ht hst hm
  have hck := checkFetch_arrives (s := s.afterPulses) (p := s.priv) hal ht
  have hv := fetchView_arrives (s := s.afterPulses) hst hm
  obtain ⟨hst', -, -, -, hal', href', hm'⟩ := hN.same_fetch
  obtain ⟨htr', -, -⟩ := hN.same_met .fetch (alignedAddr s.pc + 4)
  refine ⟨fun hl => ?_, fun hl hb => ?_, fun hl hb => ⟨fun d hr => ?_, fun hal4 => ⟨fun ht4 => ?_, fun ht4 hm4 => ?_⟩⟩⟩
  · have hl : isLong (memHalf m s.pc) = false := by rw [← Bool.not_eq_true, isLong_memHalf]; exact hl
    exact ⟨_, hN, stepRuns_half hN hp hstep (fetch_short hpc hck hv hl)⟩
  · exact ⟨_, hN, stepRuns_word hN hp hstep (fetch_aligned hpc hck hv ((isLong_memHalf m _).2 hl) hb)⟩
  · obtain ⟨detail, hx, hd⟩ := checkFetch_refused ((href' _ d).2 hr)
    exact ⟨_, hN, fetchTraps_of hN hp hstep (fetch_straddling_fails hpc hck hv ((isLong_memHalf m _).2 hl) hb
      (fetchUpper_fails hx)) fun _ => hd _ _⟩
  · have hx := checkFetch_traps ((hal' _).2 hal4) (htr'.2 ht4)
    exact ⟨_, hNN, fetchTraps_of hNN hp hstep (fetch_straddling_fails hpc hck hv ((isLong_memHalf m _).2 hl) hb
      (fetchUpper_fails hx)) fun _ => rfl⟩
  · have hx := fetchUpper_arrives (hst'.trans hst) ((hal' _).2 hal4) (htr'.not.2 ht4) ((hm' _ m _).2 hm4)
    exact ⟨_, hNN, stepRuns_word hNN hp hstep (fetch_straddling hpc hck hv ((isLong_memHalf m _).2 hl) hb hx)⟩

/-! ### Errors that the environment makes happen -/

/-- One error of this kind is recorded. -/
theorem noteEcc_noted {s : State} {unit : EccUnit} {double : Bool} (hon : eccOn s.csr unit = true) :
    EccNoted s (s.noteEcc unit double) fun h => h.unit = unit ∧ h.double = double := by
  have h := noteHits_noted [⟨.load, unit, .data, 0, double, 0⟩] s
  have e : s.noteHits [⟨.load, unit, .data, 0, double, 0⟩] = s.noteEcc unit double := by
    simp only [State.noteHits, EccHit.noticed, hon, if_true]
  rw [e] at h
  refine h.of_kinds fun u d => ⟨?_, ?_⟩
  · rintro ⟨x, hx, rfl, rfl⟩
    obtain rfl := List.mem_singleton.1 hx
    exact ⟨_, ⟨rfl, rfl⟩, rfl, rfl⟩
  · rintro ⟨x, ⟨rfl, rfl⟩, rfl, rfl⟩
    exact ⟨_, List.mem_cons_self, rfl, rfl⟩

/-- What is reported of a 2-bit error, and where. -/
theorem report_eq (o : EccOutputs) (origin : EccOrigin) : o.report origin =
    { o with slaveError := o.slaveError || origin == .slavePort, sbaError := o.sbaError || origin == .sba } := by
  cases o
  cases origin <;> simp [EccOutputs.report]

/-- An error of another origin is recorded, and a 2-bit one is reported to the slave port or the SBA
(60_exceptions.md R606, R609). -/
theorem input_eccOther (s : State) (origin : EccOrigin) (unit : EccUnit) (double : Bool) :
    if eccOn s.csr unit = true then
      ∃ u, EccNoted s u (fun h => h.unit = unit ∧ h.double = double) ∧
        s.input (.eccOther origin unit double) = { u with eccOut := { u.eccOut with
          slaveError := s.eccOut.slaveError || (double && origin == .slavePort)
          sbaError := s.eccOut.sbaError || (double && origin == .sba) } }
    else s.input (.eccOther origin unit double) = s := by
  split
  · next hon =>
    have hN := noteEcc_noted (double := double) hon
    refine ⟨_, hN, ?_⟩
    rw [← hN.ports.1, ← hN.ports.2]
    simp only [State.input, State.eccElsewhere, hon, if_true]
    cases double with
    | false => simp only [Bool.false_and, Bool.or_false, Bool.false_eq_true, if_false]
    | true => simp only [Bool.true_and, if_true, report_eq, State.withEccOut]
  · next hon => exact if_neg hon

/-- A D-cache line that is copied back with a 2-bit error (60_exceptions.md R607). -/
theorem input_eccEvict (s : State) {t : State} (ht : t = s.input .eccEvict) :
    if s.csr.dcache.en = true ∧ s.csr.dcache.eccEn = true ∧ s.asleep = false then
      ∃ u, EccNoted s u DcacheDouble ∧
        (s.csr.dcache.excpEn = false → t = u) ∧
        (s.csr.dcache.excpEn = true →
          (t = u ∧ s.pendingFault ≠ none) ∨ ∃ e, t = { u with pendingFault := some e } ∧ e.tval = none ∧
            e.detail = .keep ∧ (e.code = .loadAccessFault ∨ e.code = .storeAmoAccessFault))
    else t = s := by
  have hin : s.input .eccEvict = s.eccEvict := rfl
  rw [ht, hin, State.eccEvict]
  split
  · next h =>
    obtain ⟨hen, hecc, hawake⟩ := h
    have hon : eccOn s.csr .dcache = true := hecc
    rw [if_pos (by rw [hen, hon, hawake]; rfl)]
    refine ⟨_, noteEcc_noted hon, fun hx => ?_, fun hx => ?_⟩
    · exact if_neg (by rw [show eccExcpOn s.csr .dcache = false from hx]; nofun)
    rw [if_pos (show eccExcpOn s.csr .dcache = true from hx)]
    obtain ⟨p, hp, hw⟩ := noteFault_eq (s.noteEcc .dcache true)
      ⟨if Config.freeEvictIsStore s.free then .storeAmoAccessFault else .loadAccessFault, none, .keep⟩
    rw [hp]
    rcases hw with rfl | ⟨hne, rfl⟩
    · refine .inr ⟨_, rfl, rfl, rfl, ?_⟩
      show (if _ then _ else _ : ExcCode) = _ ∨ (if _ then _ else _ : ExcCode) = _
      split
      · exact .inr rfl
      · exact .inl rfl
    · exact .inl ⟨rfl, hne⟩
  · next h =>
    refine if_neg fun hx => h ?_
    simp only [Bool.and_eq_true, Bool.not_eq_true'] at hx
    obtain ⟨⟨hen, hecc⟩, hawake⟩ := hx
    exact ⟨hen, hecc, hawake⟩

/-- Settles O43: data accesses, atomics, the fetch of an instruction, and the errors of other origins. -/
theorem eccErrors : Obligations.EccErrors := by
  unfold Obligations.EccErrors
  intro s
  refine ⟨fun i len k ea n path hd hpath hu hp => ?_, fun i k ea path hA hat ha hp hpath => ?_,
    fun a m one both => step_fetch_errors, fun _ => rfl, input_eccOther s, fun t => input_eccEvict s⟩
  · have hr := dataAccess_runs hd
    exact ⟨fun before p after => accessRuns_fault hr hpath hu hp, accessRuns_corrected hr hpath hu hp,
      fun ht hw m hm => accessRuns_delivered hr hpath hu hp ht hw hm⟩
  · have hr := atomicAccess_runs hA hat
    refine ⟨?_, fun hsc => ⟨atomicRuns_fault hr hpath ha hp hsc, ?_, atomicRuns_corrected hr hpath ha hp hsc, ?_,
      fun hk ht hw m hm => atomicRuns_delivered hr hpath ha hp hsc hk ht hw hm, ?_⟩⟩
    · rintro rfl
      exact atomicRuns_sc_fails hr ha hp
    · rintro rfl
      exact atomicRuns_fault_store hr ha hp
    · rintro rfl
      exact atomicRuns_corrected_amo hr ha hp
    · rintro rfl ht ht' hw m hm
      exact atomicRuns_delivered_amo hr ha hp ht ht' hw hm

end Sys2Proof.Machine

/-! PROOFS. The statements of 30_encoding.md: decoding undoes encoding (O54), only encodings decode (O55), instructions that
are illegal (O27), and fetches that raise (O40). -/

namespace Sys2Proof.Laws

open Machine (getLsbD_append_cases Illegal16 Illegal32 majorOpcodes)

/-! ### Encoding what was decoded

Each format gives back the fields from which its immediate was put together (30_encoding.md R225, R226, R240, R244). Where
an immediate is a permutation of bits, that is seen bit by bit. -/

section
variable (f7 : BitVec 7) (rs2 rs1 : Reg) (f3 : BitVec 3) (rd : Reg) (op : BitVec 7)

theorem joinWord_fields (w : BitVec 32) :
    joinWord (f7Field w) (rs2Field w) (rs1Field w) (f3Field w) (rdField w) (opField w) = w := by
  refine BitVec.eq_of_getLsbD_eq fun i hlt => ?_
  simp only [joinWord, f7Field, rs2Field, rs1Field, f3Field, rdField, opField]
  interval_cases i
  all_goals simp only [getLsbD_append_cases, BitVec.getLsbD_extractLsb']; simp

theorem encI_immI : encI f3 op rd rs1 (immI f7 rs2) = .word (joinWord f7 rs2 rs1 f3 rd op) := by
  rw [encI, immI, BitVec.extractLsb'_append_eq_left, BitVec.extractLsb'_append_eq_right]

theorem encS_immS : encS f3 op rs2 rs1 (immS f7 rd) = .word (joinWord f7 rs2 rs1 f3 rd op) := by
  rw [encS, immS, BitVec.extractLsb'_append_eq_left, BitVec.extractLsb'_append_eq_right]

theorem encB_immB : encB f3 rs1 rs2 (immB f7 rd) = .word (joinWord f7 rs2 rs1 f3 rd 0x63#7) := by
  refine congrArg Code.word (BitVec.eq_of_getLsbD_eq fun i hlt => ?_)
  simp only [joinWord, immB]
  interval_cases i
  all_goals simp only [getLsbD_append_cases, BitVec.getLsbD_extractLsb']; simp

theorem encU_immU : encU op rd (immU f7 rs2 rs1 f3) = .word (joinWord f7 rs2 rs1 f3 rd op) := by
  refine congrArg Code.word (BitVec.eq_of_getLsbD_eq fun i hlt => ?_)
  simp only [joinWord, immU]
  interval_cases i
  all_goals simp only [getLsbD_append_cases, BitVec.getLsbD_extractLsb']; simp

theorem encJ_immJ : encJ rd (immJ f7 rs2 rs1 f3) = .word (joinWord f7 rs2 rs1 f3 rd 0x6F#7) := by
  refine congrArg Code.word (BitVec.eq_of_getLsbD_eq fun i hlt => ?_)
  simp only [joinWord, immJ]
  interval_cases i
  all_goals simp only [getLsbD_append_cases, BitVec.getLsbD_extractLsb']; simp

variable {f7}

theorem encAmo_fields {f5 : BitVec 5} (h : f7.extractLsb' 2 5 = f5) :
    encAmo f5 rd rs1 rs2 (f7.getLsbD 1) (f7.getLsbD 0) = .word (joinWord f7 rs2 rs1 2#3 rd 0x2F#7) := by
  have hf7 : (f7.extractLsb' 2 5 ++ BitVec.ofBool (f7.getLsbD 1) ++ BitVec.ofBool (f7.getLsbD 0) : BitVec 7) = f7 := by
    clear h; revert f7; decide
  rw [encAmo, ← h, hf7]

theorem encR4_fields {fmt : BitVec 2} (h : f7.extractLsb' 0 2 = fmt) :
    encR4 fmt op rd rs1 rs2 (f7.extractLsb' 2 5) f3 = .word (joinWord f7 rs2 rs1 f3 rd op) := by
  have hf7 : (f7.extractLsb' 2 5 ++ f7.extractLsb' 0 2 : BitVec 7) = f7 := by clear h; revert f7; decide
  rw [encR4, ← h, hf7]

theorem encode_fence_fields :
    encode (.fence (f7.extractLsb' 3 4) (f7.extractLsb' 0 3 ++ rs2.extractLsb' 4 1) (rs2.extractLsb' 0 4) rs1 rd) =
      .word (joinWord f7 rs2 rs1 0#3 rd 0x0F#7) := by
  refine congrArg Code.word (BitVec.eq_of_getLsbD_eq fun i hlt => ?_)
  simp only [joinWord]
  interval_cases i
  all_goals simp only [getLsbD_append_cases, BitVec.getLsbD_extractLsb']; simp

end

section
variable (f3 : BitVec 3) (b : BitVec 1) (hi lo : BitVec 5) (rd : Reg) (op : BitVec 2)

theorem joinHalf_fields (c : BitVec 16) :
    joinHalf (cF3Field c) (cBitField c) (cHiField c) (cLoField c) (cOpField c) = c := by
  refine BitVec.eq_of_getLsbD_eq fun i hlt => ?_
  simp only [joinHalf, cF3Field, cBitField, cHiField, cLoField, cOpField]
  interval_cases i
  all_goals simp only [getLsbD_append_cases, BitVec.getLsbD_extractLsb']; simp

theorem cTop_append_cReg (f : BitVec 5) : cTop f ++ cReg f = f := by revert f; decide

theorem encCiw_immCiw : encCiw (cReg lo) (immCiw b hi lo) = .half (joinHalf 0#3 b hi lo 0#2) := by
  refine congrArg Code.half (BitVec.eq_of_getLsbD_eq fun i hlt => ?_)
  simp only [joinHalf, immCiw, cReg]
  interval_cases i
  all_goals simp only [getLsbD_append_cases, BitVec.getLsbD_extractLsb']; simp

theorem encClw_immClw : encClw f3 (cReg lo) (cReg hi) (immClw b hi lo) = .half (joinHalf f3 b hi lo 0#2) := by
  refine congrArg Code.half (BitVec.eq_of_getLsbD_eq fun i hlt => ?_)
  simp only [joinHalf, immClw, cReg, cTop]
  interval_cases i
  all_goals simp only [getLsbD_append_cases, BitVec.getLsbD_extractLsb']; simp

theorem encCld_immCld : encCld f3 (cReg lo) (cReg hi) (immCld b hi lo) = .half (joinHalf f3 b hi lo 0#2) := by
  refine congrArg Code.half (BitVec.eq_of_getLsbD_eq fun i hlt => ?_)
  simp only [joinHalf, immCld, cReg, cTop]
  interval_cases i
  all_goals simp only [getLsbD_append_cases, BitVec.getLsbD_extractLsb']; simp

theorem encCi_immCi : encCi f3 op rd (immCi b lo) = .half (joinHalf f3 b rd lo op) := by
  rw [encCi, immCi, BitVec.extractLsb'_append_eq_left, BitVec.extractLsb'_append_eq_right]

theorem encCj_immCj : encCj f3 (immCj b hi lo) = .half (joinHalf f3 b hi lo 1#2) := by
  refine congrArg Code.half (BitVec.eq_of_getLsbD_eq fun i hlt => ?_)
  simp only [joinHalf, immCj]
  interval_cases i
  all_goals simp only [getLsbD_append_cases, BitVec.getLsbD_extractLsb']; simp

theorem encC16sp_immC16sp : encC16sp (immC16sp b lo) = .half (joinHalf 3#3 b 2#5 lo 1#2) := by
  refine congrArg Code.half (BitVec.eq_of_getLsbD_eq fun i hlt => ?_)
  simp only [joinHalf, immC16sp]
  interval_cases i
  all_goals simp only [getLsbD_append_cases, BitVec.getLsbD_extractLsb']; simp

theorem encCb_immCb : encCb f3 (cReg hi) (immCb b hi lo) = .half (joinHalf f3 b hi lo 1#2) := by
  refine congrArg Code.half (BitVec.eq_of_getLsbD_eq fun i hlt => ?_)
  simp only [joinHalf, immCb, cReg, cTop]
  interval_cases i
  all_goals simp only [getLsbD_append_cases, BitVec.getLsbD_extractLsb']; simp

theorem encClwsp_immClwsp : encClwsp f3 rd (immClwsp b lo) = .half (joinHalf f3 b rd lo 2#2) := by
  refine congrArg Code.half (BitVec.eq_of_getLsbD_eq fun i hlt => ?_)
  simp only [joinHalf, immClwsp]
  interval_cases i
  all_goals simp only [getLsbD_append_cases, BitVec.getLsbD_extractLsb']; simp

theorem encCldsp_immCldsp : encCldsp f3 rd (immCldsp b lo) = .half (joinHalf f3 b rd lo 2#2) := by
  refine congrArg Code.half (BitVec.eq_of_getLsbD_eq fun i hlt => ?_)
  simp only [joinHalf, immCldsp]
  interval_cases i
  all_goals simp only [getLsbD_append_cases, BitVec.getLsbD_extractLsb']; simp

theorem encCswsp_immCswsp : encCswsp f3 lo (immCswsp b hi) = .half (joinHalf f3 b hi lo 2#2) := by
  refine congrArg Code.half (BitVec.eq_of_getLsbD_eq fun i hlt => ?_)
  simp only [joinHalf, immCswsp]
  interval_cases i
  all_goals simp only [getLsbD_append_cases, BitVec.getLsbD_extractLsb']; simp

theorem encCsdsp_immCsdsp : encCsdsp f3 lo (immCsdsp b hi) = .half (joinHalf f3 b hi lo 2#2) := by
  refine congrArg Code.half (BitVec.eq_of_getLsbD_eq fun i hlt => ?_)
  simp only [joinHalf, immCsdsp]
  interval_cases i
  all_goals simp only [getLsbD_append_cases, BitVec.getLsbD_extractLsb']; simp

theorem encCalu_fields {top : BitVec 2} (h : cTop hi = top) :
    encCalu b top (cReg hi) lo = .half (joinHalf 4#3 b hi lo 1#2) := by
  rw [encCalu, ← h, cTop_append_cReg]

theorem encCalu_registers {top : BitVec 2} (h : cTop lo = top) :
    encCalu b 3#2 (cReg hi) (top ++ cReg lo) = encCalu b 3#2 (cReg hi) lo := by
  rw [← h, cTop_append_cReg]

end

/-! ### A code that decodes is the encoding of what it decodes to, opcode by opcode -/

/-- The code is that of a well-formed instruction. -/
def Encodes (c : Code) (i : Instr) : Prop := i.wellFormed = true ∧ encode i = c

theorem eq_five_of_ne {x : BitVec 3} (h0 : x ≠ 0#3) (h1 : x ≠ 1#3) (h2 : x ≠ 2#3) (h3 : x ≠ 3#3) (h4 : x ≠ 4#3)
    (h6 : x ≠ 6#3) (h7 : x ≠ 7#3) : x = 5#3 := by bv_omega

theorem eq_seven_of_ne {x : BitVec 3} (h0 : x ≠ 0#3) (h1 : x ≠ 1#3) (h2 : x ≠ 2#3) (h3 : x ≠ 3#3) (h4 : x ≠ 4#3)
    (h5 : x ≠ 5#3) (h6 : x ≠ 6#3) : x = 7#3 := by bv_omega

theorem eq_three_of_ne {x : BitVec 2} : x ≠ 0#2 → x ≠ 1#2 → x ≠ 2#2 → x = 3#2 := by revert x; decide

theorem eq_one_of_ne {b : BitVec 1} : b ≠ 0#1 → b = 1#1 := by revert b; decide

section
variable {f7 : BitVec 7} {rs2 rs1 : Reg} {f3 : BitVec 3} {rd : Reg} {i : Instr}

theorem encodes_of_decodeBranch (h : decodeBranch f7 rs2 rs1 f3 rd = some i) :
    Encodes (.word (joinWord f7 rs2 rs1 f3 rd 0x63#7)) i := by
  unfold decodeBranch at h
  split at h <;> cases h
  all_goals exact ⟨rfl, encB_immB ..⟩

theorem encodes_of_decodeLoad (h : decodeLoad f7 rs2 rs1 f3 rd = some i) :
    Encodes (.word (joinWord f7 rs2 rs1 f3 rd 0x03#7)) i := by
  unfold decodeLoad at h
  split at h <;> cases h
  all_goals exact ⟨rfl, encI_immI ..⟩

theorem encodes_of_decodeStore (h : decodeStore f7 rs2 rs1 f3 rd = some i) :
    Encodes (.word (joinWord f7 rs2 rs1 f3 rd 0x23#7)) i := by
  unfold decodeStore at h
  split at h <;> cases h
  all_goals exact ⟨rfl, encS_immS ..⟩

theorem encodes_of_decodeOpImm (h : decodeOpImm f7 rs2 rs1 f3 rd = some i) :
    Encodes (.word (joinWord f7 rs2 rs1 f3 rd 0x13#7)) i := by
  unfold decodeOpImm at h
  split at h
  case h_7 =>
    split at h <;> cases h
    exact ⟨rfl, rfl⟩
  case h_8 h0 h2 h3 h4 h6 h7 h1 =>
    obtain rfl := eq_five_of_ne h0 h1 h2 h3 h4 h6 h7
    split at h <;> cases h
    all_goals exact ⟨rfl, rfl⟩
  all_goals
    cases h
    exact ⟨rfl, encI_immI ..⟩

theorem encodes_of_decodeOp (h : decodeOp f7 rs2 rs1 f3 rd = some i) :
    Encodes (.word (joinWord f7 rs2 rs1 f3 rd 0x33#7)) i := by
  unfold decodeOp at h
  split at h
  · split at h <;> cases h
    case h_8 h0 h1 h2 h3 h4 h5 h6 =>
      obtain rfl := eq_seven_of_ne h0 h1 h2 h3 h4 h5 h6
      exact ⟨rfl, rfl⟩
    all_goals exact ⟨rfl, rfl⟩
  · split at h <;> cases h
    all_goals exact ⟨rfl, rfl⟩
  · split at h <;> cases h
    case h_8 h0 h1 h2 h3 h4 h5 h6 =>
      obtain rfl := eq_seven_of_ne h0 h1 h2 h3 h4 h5 h6
      exact ⟨rfl, rfl⟩
    all_goals exact ⟨rfl, rfl⟩
  · cases h

theorem encodes_of_decodeMiscMem (h : decodeMiscMem f7 rs2 rs1 f3 rd = some i) :
    Encodes (.word (joinWord f7 rs2 rs1 f3 rd 0x0F#7)) i := by
  unfold decodeMiscMem at h
  split at h <;> cases h
  · exact ⟨rfl, encode_fence_fields ..⟩
  · exact ⟨rfl, encI_immI ..⟩

/-- funct7 of the atomics is funct5, aq and rl (43_rv32a.md R393). -/
theorem encodes_of_decodeAmo (h : decodeAmo f7 rs2 rs1 f3 rd = some i) :
    Encodes (.word (joinWord f7 rs2 rs1 f3 rd 0x2F#7)) i := by
  unfold decodeAmo at h
  split at h
  · split at h
    case h_1 h5 =>
      split at h <;> cases h
      next h0 =>
      subst h0
      exact ⟨rfl, encAmo_fields _ _ _ h5⟩
    case h_12 => cases h
    all_goals
      next h5 =>
      cases h
      exact ⟨rfl, encAmo_fields _ _ _ h5⟩
  · cases h

theorem encodes_of_decodeLoadFp (h : decodeLoadFp f7 rs2 rs1 f3 rd = some i) :
    Encodes (.word (joinWord f7 rs2 rs1 f3 rd 0x07#7)) i := by
  unfold decodeLoadFp at h
  split at h <;> cases h
  all_goals exact ⟨rfl, encI_immI ..⟩

theorem encodes_of_decodeStoreFp (h : decodeStoreFp f7 rs2 rs1 f3 rd = some i) :
    Encodes (.word (joinWord f7 rs2 rs1 f3 rd 0x27#7)) i := by
  unfold decodeStoreFp at h
  split at h <;> cases h
  all_goals exact ⟨rfl, encS_immS ..⟩

/-- The four opcodes differ in the two instructions that the format field names. -/
theorem encodes_of_decodeFma {single double : Reg → Reg → Reg → Reg → BitVec 3 → Instr} {op : BitVec 7}
    (hs : ∀ rd rs1 rs2 rs3 rm, Encodes (encR4 0#2 op rd rs1 rs2 rs3 rm) (single rd rs1 rs2 rs3 rm))
    (hd : ∀ rd rs1 rs2 rs3 rm, Encodes (encR4 1#2 op rd rs1 rs2 rs3 rm) (double rd rs1 rs2 rs3 rm))
    (h : decodeFma single double f7 rs2 rs1 f3 rd = some i) : Encodes (.word (joinWord f7 rs2 rs1 f3 rd op)) i := by
  unfold decodeFma at h
  split at h <;> cases h
  · next hf => exact encR4_fields rs2 rs1 f3 rd op hf ▸ hs ..
  · next hf => exact encR4_fields rs2 rs1 f3 rd op hf ▸ hd ..

/-- OP-FP has no immediates: a row of its table gives the fields themselves. -/
theorem encodes_of_decodeOpFp (h : decodeOpFp f7 rs2 rs1 f3 rd = some i) :
    Encodes (.word (joinWord f7 rs2 rs1 f3 rd 0x53#7)) i := by
  unfold decodeOpFp at h
  repeat' split at h
  all_goals cases h
  all_goals
    subst_vars
    exact ⟨rfl, rfl⟩

theorem encodes_of_decodeSystem (h : decodeSystem f7 rs2 rs1 f3 rd = some i) :
    Encodes (.word (joinWord f7 rs2 rs1 f3 rd 0x73#7)) i := by
  unfold decodeSystem at h
  split at h
  case h_1 =>
    split at h
    · next h0 =>
      obtain ⟨rfl, rfl⟩ := h0
      split at h <;> cases h
      all_goals
        next himm =>
        exact ⟨rfl, by rw [← encI_immI, himm]; rfl⟩
    · cases h
  case h_8 => cases h
  all_goals
    cases h
    exact ⟨rfl, encI_immI ..⟩

theorem encodes_of_decodeFields {op : BitVec 7} (h : decodeFields f7 rs2 rs1 f3 rd op = some i) :
    Encodes (.word (joinWord f7 rs2 rs1 f3 rd op)) i := by
  unfold decodeFields at h
  split at h
  case h_14 | h_15 | h_16 | h_17 =>
    exact encodes_of_decodeFma (fun _ _ _ _ _ => ⟨rfl, rfl⟩) (fun _ _ _ _ _ => ⟨rfl, rfl⟩) h
  · cases h; exact ⟨rfl, encU_immU ..⟩
  · cases h; exact ⟨rfl, encU_immU ..⟩
  · cases h; exact ⟨rfl, encJ_immJ ..⟩
  · split at h <;> cases h
    exact ⟨rfl, encI_immI ..⟩
  · exact encodes_of_decodeBranch h
  · exact encodes_of_decodeLoad h
  · exact encodes_of_decodeStore h
  · exact encodes_of_decodeOpImm h
  · exact encodes_of_decodeOp h
  · exact encodes_of_decodeMiscMem h
  · exact encodes_of_decodeAmo h
  · exact encodes_of_decodeLoadFp h
  · exact encodes_of_decodeStoreFp h
  · exact encodes_of_decodeOpFp h
  · exact encodes_of_decodeSystem h
  · cases h

end

/-! ### The same, quadrant by quadrant (R245) -/

section
variable {f3 : BitVec 3} {b : BitVec 1} {hi lo : BitVec 5} {i : Instr}

theorem encodes_of_decodeQ0 (h : decodeQ0 f3 b hi lo = some i) : Encodes (.half (joinHalf f3 b hi lo 0#2)) i := by
  unfold decodeQ0 at h
  split at h
  case h_1 =>
    split at h <;> cases h
    next h0 => exact ⟨bne_iff_ne.2 h0, encCiw_immCiw ..⟩
  case h_2 | h_5 => cases h; exact ⟨rfl, encCld_immCld ..⟩
  case h_8 => cases h
  all_goals cases h; exact ⟨rfl, encClw_immClw ..⟩

theorem encodes_of_decodeQ1Alu (h : decodeQ1Alu b hi lo = some i) : Encodes (.half (joinHalf 4#3 b hi lo 1#2)) i := by
  unfold decodeQ1Alu at h
  split at h
  case h_3 ht =>
    cases h
    refine ⟨rfl, ?_⟩
    rw [← encCalu_fields b hi lo ht, encode, immCi, BitVec.extractLsb'_append_eq_left, BitVec.extractLsb'_append_eq_right]
    rfl
  case h_4 h0 h1 h2 =>
    have ht := eq_three_of_ne h0 h1 h2
    split at h
    · next hb =>
      subst hb
      rw [← encCalu_fields _ hi lo ht]
      split at h <;> cases h
      case h_4 l0 l1 l2 => exact ⟨rfl, encCalu_registers _ hi lo (eq_three_of_ne l0 l1 l2)⟩
      all_goals next hl => exact ⟨rfl, encCalu_registers _ hi lo hl⟩
    · cases h
  all_goals
    next ht =>
    split at h <;> cases h
    next hb =>
    subst hb
    exact ⟨rfl, encCalu_fields _ hi lo ht⟩

theorem immC16sp_eq_zero_iff (b : BitVec 1) (lo : BitVec 5) : immC16sp b lo = 0#6 ↔ immCi b lo = 0#6 := by
  revert b lo; decide

theorem encodes_of_decodeQ1 (h : decodeQ1 f3 b hi lo = some i) : Encodes (.half (joinHalf f3 b hi lo 1#2)) i := by
  unfold decodeQ1 at h
  split at h
  case h_1 =>
    split at h <;> cases h
    · next h0 => subst h0; exact ⟨rfl, encCi_immCi ..⟩
    · next h0 => exact ⟨bne_iff_ne.2 h0, encCi_immCi ..⟩
  case h_2 => cases h; exact ⟨rfl, encCj_immCj ..⟩
  case h_3 => cases h; exact ⟨rfl, encCi_immCi ..⟩
  case h_4 =>
    split at h
    · cases h
    next h0 =>
    split at h <;> cases h
    · next h2 => subst h2; exact ⟨bne_iff_ne.2 ((immC16sp_eq_zero_iff b lo).not.2 h0), encC16sp_immC16sp ..⟩
    · next h2 => exact ⟨Bool.and_eq_true_iff.2 ⟨bne_iff_ne.2 h2, bne_iff_ne.2 h0⟩, encCi_immCi ..⟩
  case h_5 => exact encodes_of_decodeQ1Alu h
  case h_6 => cases h; exact ⟨rfl, encCj_immCj ..⟩
  case h_7 => cases h; exact ⟨rfl, encCb_immCb ..⟩
  case h_8 h0 h1 h2 h3 h4 h5 h6 =>
    cases h
    obtain rfl := eq_seven_of_ne h0 h1 h2 h3 h4 h5 h6
    exact ⟨rfl, encCb_immCb ..⟩

theorem encodes_of_decodeQ2Jump (h : decodeQ2Jump b hi lo = some i) : Encodes (.half (joinHalf 4#3 b hi lo 2#2)) i := by
  unfold decodeQ2Jump at h
  split at h
  · next hb =>
    subst hb
    split at h
    · next hl =>
      subst hl
      split at h <;> cases h
      next hh => exact ⟨bne_iff_ne.2 hh, rfl⟩
    · next hl => cases h; exact ⟨bne_iff_ne.2 hl, rfl⟩
  · next hb =>
    obtain rfl := eq_one_of_ne hb
    split at h
    · next hl =>
      subst hl
      split at h <;> cases h
      · next hh => subst hh; exact ⟨rfl, rfl⟩
      · next hh => exact ⟨bne_iff_ne.2 hh, rfl⟩
    · next hl => cases h; exact ⟨bne_iff_ne.2 hl, rfl⟩

theorem encodes_of_decodeQ2 (h : decodeQ2 f3 b hi lo = some i) : Encodes (.half (joinHalf f3 b hi lo 2#2)) i := by
  unfold decodeQ2 at h
  split at h
  case h_1 =>
    split at h <;> cases h
    next hb => subst hb; exact ⟨rfl, rfl⟩
  case h_2 => cases h; exact ⟨rfl, encCldsp_immCldsp ..⟩
  case h_3 =>
    split at h <;> cases h
    next h0 => exact ⟨bne_iff_ne.2 h0, encClwsp_immClwsp ..⟩
  case h_4 => cases h; exact ⟨rfl, encClwsp_immClwsp ..⟩
  case h_5 => exact encodes_of_decodeQ2Jump h
  case h_6 => cases h; exact ⟨rfl, encCsdsp_immCsdsp ..⟩
  case h_7 => cases h; exact ⟨rfl, encCswsp_immCswsp ..⟩
  case h_8 h0 h1 h2 h3 h4 h5 h6 =>
    cases h
    obtain rfl := eq_seven_of_ne h0 h1 h2 h3 h4 h5 h6
    exact ⟨rfl, encCswsp_immCswsp ..⟩

theorem encodes_of_decodeHalfFields {op : BitVec 2} (h : decodeHalfFields f3 b hi lo op = some i) :
    Encodes (.half (joinHalf f3 b hi lo op)) i := by
  unfold decodeHalfFields at h
  split at h
  · exact encodes_of_decodeQ0 h
  · exact encodes_of_decodeQ1 h
  · exact encodes_of_decodeQ2 h
  · cases h

end

/-- Encoding undoes decoding: a code that decodes is the encoding of a well-formed instruction (30_encoding.md R227, R245,
R250). -/
theorem encodes_of_decode {c : Code} {i : Instr} (h : decode c = some i) : Encodes c i := by
  cases c with
  | half c =>
    rw [← joinHalf_fields c]
    exact encodes_of_decodeHalfFields h
  | word w =>
    rw [← joinWord_fields w]
    exact encodes_of_decodeFields h

/-! ### What decodes to nothing -/

/-- No instruction of 16 bits ends in 11 (R221). -/
theorem decodeHalfFields_long (f3 : BitVec 3) (b : BitVec 1) (hi lo : BitVec 5) : decodeHalfFields f3 b hi lo 3#2 = none :=
  rfl

theorem cBitField_of_getLsbD {c : BitVec 16} {x : Bool} (h : c.getLsbD 12 = x) : cBitField c = BitVec.ofBool x := by
  subst h
  ext i hi
  obtain rfl : i = 0 := by omega
  simp [cBitField]

/-- `c[11]` clear leaves C.SRLI and C.SRAI, which want `c[12]` clear. -/
theorem decodeQ1Alu_shift {hi lo : BitVec 5} (h : hi.getLsbD 4 = false) : decodeQ1Alu 1#1 hi lo = none := by
  have ht : cTop hi = 0#2 ∨ cTop hi = 1#2 := by revert hi; decide
  rcases ht with ht | ht <;> simp [decodeQ1Alu, ht]

theorem decodeQ1Alu_registers {hi lo : BitVec 5} (h : cTop hi = 3#2) : decodeQ1Alu 1#1 hi lo = none := by
  simp [decodeQ1Alu, h]

/-- The immediate of C.ADDI4SPN is a permutation of the bits `c[12:5]` (R244). -/
theorem immCiw_eq_zero {c : BitVec 16} (h : c.extractLsb' 5 8 = 0#8) :
    immCiw (cBitField c) (cHiField c) (cLoField c) = 0#8 := by
  have hperm (u : BitVec 8) (hu : c.extractLsb' 5 8 = u) : immCiw (cBitField c) (cHiField c) (cLoField c) =
      u.extractLsb' 2 4 ++ u.extractLsb' 6 2 ++ u.extractLsb' 0 1 ++ u.extractLsb' 1 1 := by
    refine BitVec.eq_of_getLsbD_eq fun i hlt => ?_
    simp only [← hu, immCiw, cBitField, cHiField, cLoField]
    interval_cases i
    all_goals simp only [getLsbD_append_cases, BitVec.getLsbD_extractLsb']; simp
  rw [hperm _ h]; rfl

theorem cTop_cHiField (c : BitVec 16) : cTop (cHiField c) = c.extractLsb' 10 2 := by
  refine BitVec.eq_of_getLsbD_eq fun i hlt => ?_
  interval_cases i <;> simp [cTop, cHiField]

/-- The illegal encodings of 16 bits (R250), in its order. -/
theorem decode_illegal16 {c : BitVec 16} (h : Illegal16 c) : decode (.half c) = none := by
  obtain ⟨hop, h3, hz⟩ | ⟨hop, h3⟩ | ⟨hop, h3, h12, hlo⟩ | ⟨hop, h3, h11, h12⟩ | ⟨hop, h3, h12⟩ | ⟨hop, h3, htop, h12⟩ |
    ⟨hop, h3, hrd⟩ | rfl := h
  on_goal 8 => decide
  all_goals
    replace hop : cOpField c = _ := hop
    replace h3 : cF3Field c = _ := h3
    rw [decode, decodeHalf, hop, h3]
  · simp [decodeHalfFields, decodeQ0, immCiw_eq_zero hz]
  · rfl
  · have hlo : cLoField c = 0#5 := hlo
    rw [hlo, cBitField_of_getLsbD h12]; rfl
  · have h11 : (cHiField c).getLsbD 4 = false := by simpa [cHiField] using h11
    rw [cBitField_of_getLsbD h12]
    exact decodeQ1Alu_shift h11
  · rw [cBitField_of_getLsbD h12]; rfl
  · rw [cBitField_of_getLsbD h12]
    exact decodeQ1Alu_registers ((cTop_cHiField c).trans htop)
  · have hrd : cHiField c = 0#5 := hrd
    rw [hrd]; rfl

theorem decodeFields_no_opcode {f7 : BitVec 7} {rs2 rs1 : Reg} {f3 : BitVec 3} {rd : Reg} {op : BitVec 7}
    (h : op ∉ majorOpcodes) : decodeFields f7 rs2 rs1 f3 rd op = none := by
  unfold decodeFields
  split
  case h_20 => rfl
  all_goals exact absurd (by decide) h

/-- A shift by an immediate has funct7 0x00 or 0x20, so bit 25 clear (R232). -/
theorem decodeOpImm_bit25 {f7 : BitVec 7} {rs2 rs1 : Reg} {f3 : BitVec 3} {rd : Reg} (h : f7.getLsbD 0 = true)
    (h3 : f3 = 1#3 ∨ f3 = 5#3) : decodeOpImm f7 rs2 rs1 f3 rd = none := by
  have h00 : f7 ≠ 0x00#7 := by rintro rfl; cases h
  have h20 : f7 ≠ 0x20#7 := by rintro rfl; cases h
  -- both discharge the side conditions of the last arm of the match on funct7
  rcases h3 with rfl | rfl <;> simp [decodeOpImm]

/-- LR.W has no second register (R232). -/
theorem decodeAmo_lr {f7 : BitVec 7} {rs2 rs1 : Reg} {f3 : BitVec 3} {rd : Reg} (h : f7.extractLsb' 2 5 = 2#5)
    (h2 : rs2 ≠ 0#5) : decodeAmo f7 rs2 rs1 f3 rd = none := by
  unfold decodeAmo
  simp only [h, if_neg h2]
  split <;> rfl

/-- SYSTEM with funct3 0 is ECALL, EBREAK, MRET or WFI (R233). -/
theorem decodeSystem_zero {f7 : BitVec 7} {rs2 rs1 : Reg} {rd : Reg} {i : Instr}
    (h : decodeSystem f7 rs2 rs1 0#3 rd = some i) : i ∈ [Instr.ecall, .ebreak, .mret, .wfi] := by
  simp only [decodeSystem] at h
  split at h
  · split at h <;> cases h
    all_goals decide
  · cases h

/-- The illegal encodings of 32 bits that R232 and R233 name. -/
theorem decode_illegal32 {w : BitVec 32} (h : Illegal32 w) : decode (.word w) = none := by
  obtain ⟨hop, h3, h25⟩ | ⟨hop, h5, h2⟩ | ⟨hop, h3, hecall, hebreak, hmret, hwfi⟩ := h
  all_goals replace hop : opField w = _ := hop
  · have h25 : (f7Field w).getLsbD 0 = true := by simpa [f7Field] using h25
    rw [decode, decodeWord, hop]
    exact decodeOpImm_bit25 h25 h3
  · have h5 : (f7Field w).extractLsb' 2 5 = 2#5 := by
      rw [← h5, f7Field]
      refine BitVec.eq_of_getLsbD_eq fun i hlt => ?_
      interval_cases i <;> simp
    rw [decode, decodeWord, hop]
    exact decodeAmo_lr h5 h2
  · refine Option.eq_none_iff_forall_ne_some.2 fun i hi => ?_
    obtain ⟨-, hw⟩ := encodes_of_decode hi
    replace h3 : f3Field w = _ := h3
    rw [decode, decodeWord, hop, h3] at hi
    have hmem := decodeSystem_zero hi
    simp only [List.mem_cons, List.not_mem_nil, or_false] at hmem
    obtain rfl | rfl | rfl | rfl := hmem
    · exact hecall (Code.word.inj hw).symm
    · exact hebreak (Code.word.inj hw).symm
    · exact hmret (Code.word.inj hw).symm
    · exact hwfi (Code.word.inj hw).symm

end Sys2Proof.Laws

namespace Sys2Proof.Machine

/-- Settles O54: each opcode and each quadrant of the decoder reads its own words back. -/
theorem decodeEncode : Obligations.DecodeEncode := by
  unfold Obligations.DecodeEncode
  exact fun _ => Laws.decode_encode

/-- Settles O55: both decoders are read backwards, and the illegal encodings are looked up in them. -/
theorem onlyEncodingsDecode : Obligations.OnlyEncodingsDecode := by
  unfold Obligations.OnlyEncodingsDecode
  refine ⟨fun c i => Laws.encodes_of_decode, fun c h => ?_, fun w h => ?_⟩
  · rcases h with hop | h
    · replace hop : cOpField c = _ := hop
      rw [decode, decodeHalf, hop]
      exact Laws.decodeHalfFields_long ..
    · exact Laws.decode_illegal16 h
  · rcases h with hop | h
    · exact Laws.decodeFields_no_opcode hop
    · exact Laws.decode_illegal32 h

/-! ### Illegal instructions (30_encoding.md R230 to R232) -/

/-- The instructions of the subset may execute: it is configured, and FS is not Off where they need it. -/
def Subset.admitted (s : State) : Subset → Bool
  | .base => true
  | .m => s.cfg.hasM
  | .a => s.cfg.hasA
  | .c => s.cfg.hasC
  | .f => s.cfg.hasF && s.csr.mstatus.fs != 0#2
  | .d => s.cfg.hasD && s.csr.mstatus.fs != 0#2
  | .cf => (s.cfg.hasC && s.cfg.hasF) && s.csr.mstatus.fs != 0#2
  | .cd => (s.cfg.hasC && s.cfg.hasD) && s.csr.mstatus.fs != 0#2

theorem not_admitted_iff (s : State) (u : Subset) :
    ¬ u.admitted s = true ↔ u.present s.cfg = false ∨ (u.needsFs = true ∧ s.csr.mstatus.fs = 0#2) := by
  cases u <;> simp [Subset.admitted, Subset.present, Subset.needsFs, imp_iff_not_or, or_assoc]

/-- Every instruction outside the base set is a choice between the illegal-instruction exception and what it does, made by
the check of its subset, and of FS where it needs that (44_rv32f.md R400, 45_rv32d.md R440). -/
theorem exec_not_admitted {i : Instr} {s : State} (h : ¬ (subsetOf i).admitted s = true) : exec i s = illegal i s := by
  cases i with
  | lui | auipc | jal | jalr | beq | bne | blt | bge | bltu | bgeu | lb | lh | lw | lbu | lhu | sb | sh | sw | addi
  | slti | sltiu | xori | ori | andi | slli | srli | srai | add | sub | sll | slt | sltu | xor | srl | sra | or | and
  | fence | fenceI | csrrw | csrrs | csrrc | csrrwi | csrrsi | csrrci | ebreak | ecall | mret | wfi => exact absurd rfl h
  | _ => exact if_neg h

/-- Settles O27: the check of the subset and of FS fails, and what is behind it is not executed. -/
theorem illegalInstructions : Obligations.IllegalInstructions := by
  unfold Obligations.IllegalInstructions
  intro s i hp h
  unfold TrapsIllegal
  rw [exec_not_admitted ((not_admitted_iff s _).2 h)]
  exact illegal_taken i s hp

/-! ### Fetches that raise (30_encoding.md R221, R231) -/

section
variable {s : State}

/-- Nothing is recorded where no error is met. -/
theorem noted_nothing (s : State) : EccNoted s s fun _ => False := (noteHits_noted [] s).congr (by simp)

/-- The parcel at the pc, in the aligned word it is in. -/
theorem foundWord_parcel (h0 : s.pc.getLsbD 0 = false) :
    (if s.pc.getLsbD 1 = true then (foundWord s Config.freeFetchPort (alignedAddr s.pc)).extractLsb' 16 16
      else (foundWord s Config.freeFetchPort (alignedAddr s.pc)).setWidth 16) = codeHalf s s.pc := by
  rcases alignedAddr_cases s.pc h0 with ⟨h1, ha⟩ | ⟨h1, ha⟩
  · rw [h1, if_neg Bool.false_ne_true, foundWord_low (alignedAddr_idem _), ha]
  · rw [if_pos h1, foundWord_high (alignedAddr_idem _), ← ha]

theorem fetch_of_short (hs : s.stale = []) (hpc : FetchablePc s) (hp : plainFetch s s.priv (alignedAddr s.pc) = true)
    (hl : isLong (codeHalf s s.pc) = false) :
    fetch s = if s.cfg.hasC then .ok (.half (codeHalf s s.pc)) s
      else .exc ⟨.illegalInstr, some ((codeHalf s s.pc).zeroExtend 32), .unstated⟩ s := by
  rw [fetch, if_neg hpc.not_misaligned, checkFetch_plain hp]
  simp only [fetchView_plain hs, arrives_right, foundWord_parcel hpc.1, hl, Bool.false_eq_true, if_false]

/-- The other parcel of an instruction that crosses a word is in the next word. -/
theorem fetch_of_crossing {e : Exc} (hs : s.stale = []) (hpc : FetchablePc s)
    (hp : plainFetch s s.priv (alignedAddr s.pc) = true) (hl : isLong (codeHalf s s.pc) = true)
    (h1 : s.pc.getLsbD 1 = true) (h2 : checkFetch s s.priv (alignedAddr s.pc + 4) = .exc e s) : fetch s = .exc e s := by
  rw [fetch, if_neg hpc.not_misaligned, checkFetch_plain hp]
  simp only [fetchView_plain hs, arrives_right, foundWord_parcel hpc.1, hl, if_true]
  simp only [h1, if_true, fetchUpper_fails h2]

theorem fetch_of_long (hs : s.stale = []) (hpc : FetchablePc s) (hp : plainFetch s s.priv (alignedAddr s.pc) = true)
    (hl : isLong (codeHalf s s.pc) = true)
    (h4 : s.pc.getLsbD 1 = true → plainFetch s s.priv (alignedAddr s.pc + 4) = true) :
    fetch s = fetchLong (codeHalf s s.pc) (codeHalf s (s.pc + 2)) s := by
  rw [fetch, if_neg hpc.not_misaligned, checkFetch_plain hp]
  simp only [fetchView_plain hs, arrives_right, foundWord_parcel hpc.1, hl, if_true]
  rcases alignedAddr_cases s.pc hpc.1 with ⟨h1, ha⟩ | ⟨h1, ha⟩
  · rw [h1, if_neg Bool.false_ne_true, foundWord_high (alignedAddr_idem _), ha]
  · have hnext : alignedAddr s.pc + 4 = s.pc + 2 := by
      rw [show alignedAddr s.pc + 4 = alignedAddr s.pc + 2 + 2 by rw [BitVec.add_assoc]; rfl, ← ha]
    have haligned : alignedAddr (s.pc + 2) = s.pc + 2 := by
      rw [← hnext]
      apply BitVec.eq_of_toNat_eq
      have := alignedAddr_toNat s.pc
      rw [alignedAddr_toNat]
      bv_omega
    have hupper : fetchUpper s (s.pc + 2) = .ok (codeHalf s (s.pc + 2)) s := by
      simp only [fetchUpper, checkFetch_plain (hnext ▸ h4 h1), fetchView_plain hs, arrives_right, foundWord_low haligned]
    simp only [h1, if_true, hnext, hupper]

theorem isLong_codeHalf (s : State) (pc : Word) :
    isLong (codeHalf s pc) = true ↔ (codeByte s pc).extractLsb' 0 2 = 3#2 := by
  rw [isLong, beq_iff_eq, codeHalf, Laws.extract_low _ _ (by decide)]

/-- A parcel that is no whole instruction, or none of this core, is in mtval with zeros above it. -/
theorem stepTraps_short {h : BitVec 16} (hp : s.pendingFault = none) (hstep : step s = thenSettle (runInstr s.afterPulses))
    (hf : fetch s.afterPulses = if s.cfg.hasC then .ok (.half h) s.afterPulses
      else .exc ⟨.illegalInstr, some (h.zeroExtend 32), .unstated⟩ s.afterPulses)
    (hd : s.cfg.hasC = false ∨ decode (.half h) = none) : StepTraps s 2 (h.zeroExtend 32) none := by
  obtain ⟨-, htraps⟩ := stepRuns_half (noted_nothing _) hp hstep hf
  obtain ⟨t, ht, he, hv, hpf⟩ := htraps hd
  exact ⟨t, ht, he, hv, nofun, hpf⟩

/-- A long parcel begins a word of 32 bits, or a format of 48 bits or more, which is none (30_encoding.md R221). -/
theorem stepTraps_long {lo hi : BitVec 16} (hp : s.pendingFault = none)
    (hstep : step s = thenSettle (runInstr s.afterPulses)) (hf : fetch s.afterPulses = fetchLong lo hi s.afterPulses)
    (hd : decode (.word (joinParcels lo hi)) = none) : StepTraps s 2 (joinParcels lo hi) none := by
  have hruns : StepRuns s s.afterPulses (.word (joinParcels lo hi)) true := by
    rw [fetchLong] at hf
    split at hf
    · exact stepRuns_of_illegal (noted_nothing _) hp hstep hf (.inr hd)
    · exact stepRuns_of_fetched (noted_nothing _) hp hstep hf
  obtain ⟨-, htraps⟩ := hruns
  obtain ⟨t, ht, he, hv, hpf⟩ := htraps (.inr hd)
  exact ⟨t, ht, he, hv, nofun, hpf⟩

/-- A refused fetch is in mtval and mdcause (60_exceptions.md R523, R524). -/
theorem stepTraps_refused {a : Word} {detail : Detail} {d : BitVec 2} (hp : s.pendingFault = none)
    (hstep : step s = thenSettle (runInstr s.afterPulses))
    (hf : fetch s.afterPulses = .exc ⟨.instrAccessFault, some a, detail⟩ s.afterPulses)
    (hd : ∀ old free, detailBits detail old free = d) : StepTraps s 1 a (some d) := by
  obtain ⟨t, ht, he, hv, hm, hpf⟩ := fetchTraps_of (noted_nothing _) hp hstep hf (hd _)
  exact ⟨t, ht, he, hv, fun k hk => hm.trans (Option.some.inj hk), hpf⟩

end

/-- Settles O40: the first word is refused, or the second, or the bits that both hold are no instruction. -/
theorem fetchFaults : Obligations.FetchFaults := by
  unfold Obligations.FetchFaults
  intro s a hq ha hnt h0 hc hal
  obtain ⟨hp, -, -⟩ := id hnt
  have hstep := step_runs hq ha hnt
  have hpc : FetchablePc s.afterPulses := ⟨h0, hc⟩
  rw [← alignedAddr_eq] at hal
  subst hal
  refine ⟨fun d hr => ?_, fun hs hpl => ⟨fun d h1 hl hr => ?_, fun h hh hl hd => ?_, fun w hw hl h4 hd => ?_⟩⟩
  · obtain ⟨detail, hx, hdet⟩ := checkFetch_refused (s := s.afterPulses) hr
    exact stepTraps_refused hp hstep (fetch_fails hpc hx) hdet
  · obtain ⟨detail, hx, hdet⟩ := checkFetch_refused (s := s.afterPulses) hr
    exact stepTraps_refused hp hstep (fetch_of_crossing hs hpc hpl ((isLong_codeHalf s _).2 hl) h1 hx) hdet
  · subst hh
    have hshort : isLong (codeHalf s s.pc) = false := beq_eq_false_iff_ne.2 hl
    exact stepTraps_short hp hstep (fetch_of_short hs hpc hpl hshort) hd
  · subst hw
    have hlo (i n : Nat) (hi : i + n ≤ 16) : (codeHalf s s.pc).extractLsb' i n = (codeWord s s.pc).extractLsb' i n :=
      (Laws.extract_low _ _ hi).symm
    have hlong : isLong (codeHalf s s.pc) = true := by rw [isLong, hlo 0 2 (by decide), hl]; rfl
    have hnone : decode (.word (codeWord s s.pc)) = none := hd.elim (fun hv => decode_veryLong (by
      rw [codeWord_low, isVeryLong, hlo 2 3 (by decide), hv]; rfl)) id
    exact stepTraps_long hp hstep (fetch_of_long hs hpc hpl hlong h4) hnone

end Sys2Proof.Machine

/-! PROOFS. The statements of 40_rv32i.md: the computational instructions (O1, O2), the jumps and branches (O3 to O5), loads
and stores of plain memory (O6, O7), data accesses that fail (O41), and the fences (O8). -/

namespace Sys2Proof.Machine

/-! ### Computational instructions (40_rv32i.md sections 2, 7 and 8) -/

/-- An instruction that writes one register, its value in the words of the statements. -/
theorem done_of_writeRd {i : Instr} {s : State} {rd : Reg} {v w : Word} (run : exec i s = writeRd 4 rd v s)
    (value : v = w) : ∃ t, exec i s = .next t ∧ DoneX s t rd w (s.pc + 4) := by
  rw [run, ← value]
  exact writeRd_done 4 rd v s

/-- Subtracting words is subtracting the integers modulo 2^32. -/
theorem sub_eq_ofInt (a b : Word) : a - b = BitVec.ofInt 32 (a.toInt - b.toInt) :=
  BitVec.eq_of_toInt_eq (by rw [BitVec.toInt_sub, BitVec.toInt_ofInt])

/-- SLTI compares the field itself: extending it keeps its value (R282). -/
theorem flagWord_ltSigned_sext (a : Word) (imm : BitVec 12) :
    flagWord (ltSigned a (sext12 imm)) = if a.toInt < imm.toInt then 1 else 0 := by
  rw [flagWord_ltSigned, sext12_eq_sext, sext_toInt]

/-- Settles O1: each is one register write, of a value that arithmetic on numbers gives. -/
theorem immediateResults : Obligations.ImmediateResults := by
  unfold Obligations.ImmediateResults
  intro s rd rs1 upper imm shamt
  have hi := sext12_eq_sext imm
  refine ⟨?lui, ?auipc, ?addi, ?slti, ?sltiu, ?xori, ?ori, ?andi, ?slli, ?srli, ?srai⟩
  case lui => exact done_of_writeRd rfl rfl
  case auipc => exact done_of_writeRd rfl rfl
  case addi => exact done_of_writeRd rfl (by rw [hi])
  case slti => exact done_of_writeRd rfl (flagWord_ltSigned_sext _ imm)
  case sltiu => exact done_of_writeRd rfl (by rw [flagWord_ltUnsigned, hi])
  case xori => exact done_of_writeRd rfl (by rw [hi])
  case ori => exact done_of_writeRd rfl (by rw [hi])
  case andi => exact done_of_writeRd rfl (by rw [hi])
  case slli => exact done_of_writeRd rfl (shiftLeft_eq_ofNat _ shamt.toNat)
  case srli => exact done_of_writeRd rfl (ushiftRight_eq_ofNat _ shamt.toNat)
  case srai => exact done_of_writeRd rfl (sshiftRight_eq_ofInt _ _)

/-- Settles O2: the same for two registers; a shift counts by the low five bits. -/
theorem registerResults : Obligations.RegisterResults := by
  unfold Obligations.RegisterResults
  intro s rd rs1 rs2
  have hc := shiftBy_toNat (s.getX rs2)
  refine ⟨?add, ?sub, ?slt, ?sltu, ?xor, ?or, ?and, ?sll, ?srl, ?sra⟩
  case add => exact done_of_writeRd rfl (BitVec.add_def _ _)
  case sub => exact done_of_writeRd rfl (sub_eq_ofInt _ _)
  case slt => exact done_of_writeRd rfl (flagWord_ltSigned _ _)
  case sltu => exact done_of_writeRd rfl (flagWord_ltUnsigned _ _)
  case xor => exact done_of_writeRd rfl rfl
  case or => exact done_of_writeRd rfl rfl
  case and => exact done_of_writeRd rfl rfl
  case sll => exact done_of_writeRd rfl (hc ▸ shiftLeft_eq_ofNat _ _)
  case srl => exact done_of_writeRd rfl (hc ▸ ushiftRight_eq_ofNat _ _)
  case sra => exact done_of_writeRd rfl (hc ▸ sshiftRight_eq_ofInt _ _)

/-! ### Jumps and branches (40_rv32i.md sections 1, 3 and 4) -/

theorem offJ_eq (off : BitVec 20) : offJ off = BitVec.ofInt 32 (2 * off.toInt) :=
  signExtend_append_zero off (by decide)

theorem offB_eq (off : BitVec 12) : offB off = BitVec.ofInt 32 (2 * off.toInt) :=
  signExtend_append_zero off (by decide)

/-- Clearing bit 0 of a target leaves bit 1 alone. -/
theorem evenAddr_bit1 (a : Word) : (evenAddr a).getLsbD 1 = a.getLsbD 1 := by simp [evenAddr]

/-- JAL is a jump with link (R265). -/
theorem exec_jal (rd : Reg) (off : BitVec 20) (s : State) :
    exec (.jal rd off) s = jumpLink 4 rd (s.pc + BitVec.ofInt 32 (2 * off.toInt)) s := by
  rw [← offJ_eq]; rfl

/-- JALR is a jump with link to an even target (R266). -/
theorem exec_jalr (rd rs1 : Reg) (imm : BitVec 12) (s : State) :
    exec (.jalr rd rs1 imm) s = jumpLink 4 rd (evenAddr (s.getX rs1 + sext imm)) s := by
  rw [← sext12_eq_sext]; rfl

/-- In `s` the instruction, `len` bytes long, is a conditional branch by `off` with this condition (R302). -/
def BranchesIf (i : Instr) (s : State) (len : Word) (taken : Prop) (off : Word) : Prop :=
  ∃ c : Bool, exec i s = branchIf len c off s ∧ (c = true ↔ taken)

/-- The six conditional branches and their conditions (R267 to R272). -/
theorem exec_branches (s : State) (rs1 rs2 : Reg) (off : BitVec 12) {o : Word} (ho : o = BitVec.ofInt 32 (2 * off.toInt)) :
    BranchesIf (.beq rs1 rs2 off) s 4 (s.getX rs1 = s.getX rs2) o ∧
    BranchesIf (.bne rs1 rs2 off) s 4 (s.getX rs1 ≠ s.getX rs2) o ∧
    BranchesIf (.blt rs1 rs2 off) s 4 ((s.getX rs1).toInt < (s.getX rs2).toInt) o ∧
    BranchesIf (.bge rs1 rs2 off) s 4 ((s.getX rs2).toInt ≤ (s.getX rs1).toInt) o ∧
    BranchesIf (.bltu rs1 rs2 off) s 4 ((s.getX rs1).toNat < (s.getX rs2).toNat) o ∧
    BranchesIf (.bgeu rs1 rs2 off) s 4 ((s.getX rs2).toNat ≤ (s.getX rs1).toNat) o := by
  obtain rfl : o = offB off := ho.trans (offB_eq off).symm
  refine ⟨⟨_, rfl, ?beq⟩, ⟨_, rfl, ?bne⟩, ⟨_, rfl, ?blt⟩, ⟨_, rfl, ?bge⟩, ⟨_, rfl, ?bltu⟩, ⟨_, rfl, ?bgeu⟩⟩
  case beq => exact beq_iff_eq
  case bne => exact bne_iff_ne
  case blt => exact BitVec.slt_iff_toInt_lt
  case bge => simp [ltSigned, BitVec.slt]
  case bltu => exact BitVec.ult_iff_toNat_lt
  case bgeu => simp [ltUnsigned, BitVec.ult]

theorem BranchesIf.done {i : Instr} {s : State} {len off : Word} {taken : Prop} (h : BranchesIf i s len taken off) :
    BranchDone i s len taken off := by
  obtain ⟨c, run, hc⟩ := h
  rw [BranchDone, run]
  refine ⟨fun ht hb => ?_, fun hn => ?_⟩
  · simpa [hc.2 ht] using branchIf_done len c off s fun _ => badTarget_false hb
  · have hf : c = false := by simpa using hn ∘ hc.1
    simpa [hf] using branchIf_done len c off s (by simp [hf])

/-- Settles O3: a target the core allows is no bad one, and JALR's even target has the bit 1 of the sum. -/
theorem jumpResults : Obligations.JumpResults := by
  unfold Obligations.JumpResults
  refine fun s rd rs1 => ⟨fun off h => ?jal, fun imm h => ?jalr⟩
  case jal =>
    rw [exec_jal]
    exact jumpLink_done 4 rd _ s (badTarget_false h)
  case jalr =>
    rw [exec_jalr]
    exact jumpLink_done 4 rd _ s (badTarget_false fun hc => (evenAddr_bit1 _).trans (h hc))

/-- Settles O4: each branch goes by its condition. -/
theorem branchResults : Obligations.BranchResults := by
  unfold Obligations.BranchResults
  intro s rs1 rs2 off
  obtain ⟨beq, bne, blt, bge, bltu, bgeu⟩ := exec_branches s rs1 rs2 off rfl
  exact ⟨beq.done, bne.done, blt.done, bge.done, bltu.done, bgeu.done⟩

/-! Targets with bit 1 set (R262). -/

section
variable {i : Instr} {s : State} {p : Word}

theorem badTarget_true (hc : s.cfg.hasC = false) (hp : p.getLsbD 1 = true) : badTarget s p = true := by
  simp [badTarget, hc, hp]

/-- A transfer that raises code 0 of its target enters it at the instruction. -/
theorem targetTraps_of {taken : Prop} (hw : s.pendingFault = none)
    (run : taken → p.getLsbD 1 = true → exec i s = raise ⟨.instrAddrMisaligned, some p, .unstated⟩ s) :
    TargetTraps i s taken p := fun ht hp =>
  ⟨_, (run ht hp).trans (raise_eq _ s hw), takeException_entered _ _ _, rfl, rfl⟩

theorem targetTraps_jump {len : Word} {rd : Reg} (hc : s.cfg.hasC = false) (hw : s.pendingFault = none)
    (run : exec i s = jumpLink len rd p s) : TargetTraps i s True p :=
  targetTraps_of hw fun _ hp => by rw [run, jumpLink, if_pos (badTarget_true hc hp)]

theorem BranchesIf.traps {len off : Word} {taken : Prop} (h : BranchesIf i s len taken off)
    (hc : s.cfg.hasC = false) (hw : s.pendingFault = none) : TargetTraps i s taken (s.pc + off) := by
  obtain ⟨c, run, ht⟩ := h
  exact targetTraps_of hw fun htaken hp => by
    rw [run, branchIf, if_pos (ht.2 htaken), if_pos (badTarget_true hc hp)]

end

/-- Settles O5: the jumps and the taken branches raise before they write. -/
theorem misalignedTargets : Obligations.MisalignedTargets := by
  unfold Obligations.MisalignedTargets
  intro s rd rs1 rs2 hc hw
  refine ⟨fun off => targetTraps_jump hc hw (exec_jal rd off s),
    fun imm => targetTraps_jump hc hw (exec_jalr rd rs1 imm s), ?_⟩
  rintro off p rfl
  obtain ⟨beq, bne, blt, bge, bltu, bgeu⟩ := exec_branches s rs1 rs2 off rfl
  exact ⟨beq.traps hc hw, bne.traps hc hw, blt.traps hc hw, bge.traps hc hw, bltu.traps hc hw, bgeu.traps hc hw⟩

/-! ### Loads and stores of plain memory (40_rv32i.md sections 5 and 6) -/

theorem eaI_eq (s : State) (rs1 : Reg) (imm : BitVec 12) : eaI s rs1 imm = s.getX rs1 + sext imm := by
  rw [eaI, sext12_eq_sext]

/-- An integer load from plain memory, its value in the words of the statements. -/
theorem done_of_loadX {i : Instr} {s : State} {rd : Reg} {ea v : Word} {n : Nat} {ext : DWord → Word}
    (run : exec i s = loadX 4 rd ea n ext s) (h : plainLoad s ea n = true)
    (value : ext (joinBytes (s.mem.readBytes ea n)) = v) :
    ∃ t, exec i s = .next t ∧ DoneX s t rd v (s.pc + 4) := by
  rw [run, ← value]
  exact loadX_done 4 rd ext h

section
variable (m : Memory) (a : Word)

theorem extByte_read : extByte (joinBytes (m.readBytes a 1)) = sext (m.read a) := by
  simp [extByte, sext_eq_signExtend]

theorem zextByte_read : zextByte (joinBytes (m.readBytes a 1)) = (m.read a).zeroExtend 32 := by simp [zextByte]

theorem extHalf_read : extHalf (joinBytes (m.readBytes a 2)) = sext (memHalf m a) := by
  simp [extHalf, sext_eq_signExtend]

theorem zextHalf_read : zextHalf (joinBytes (m.readBytes a 2)) = (memHalf m a).zeroExtend 32 := by simp [zextHalf]

theorem lowWord_read : lowWord (joinBytes (m.readBytes a 4)) = memWord m a := by simp [lowWord]

end

/-- Settles O6: a load extends the bytes of plain memory it reads. -/
theorem loadResults : Obligations.LoadResults := by
  unfold Obligations.LoadResults
  intro s rd rs1 imm ea hea
  obtain rfl : ea = eaI s rs1 imm := hea.trans (eaI_eq s rs1 imm).symm
  refine ⟨fun h => ⟨?lb, ?lbu⟩, fun h => ⟨?lh, ?lhu⟩, fun h => ?lw⟩
  case lb => exact done_of_loadX rfl h (extByte_read _ _)
  case lbu => exact done_of_loadX rfl h (zextByte_read _ _)
  case lh => exact done_of_loadX rfl h (extHalf_read _ _)
  case lhu => exact done_of_loadX rfl h (zextHalf_read _ _)
  case lw => exact done_of_loadX rfl h (lowWord_read _ _)

/-- Settles O7: a store writes its bytes over plain memory. -/
theorem storeResults : Obligations.StoreResults := by
  unfold Obligations.StoreResults
  intro s rs2 rs1 imm ea hea hm
  obtain rfl : ea = eaI s rs1 imm := hea.trans (eaI_eq s rs1 imm).symm
  refine ⟨fun h => ?sb, fun h => ?sh, fun h => ?sw⟩
  case sb => exact storeX_done 4 _ hm (by decide) h
  case sh => exact storeX_done 4 _ hm (by decide) h
  case sw => exact storeX_done 4 _ hm (by decide) h

/-! ### Data accesses that fail (40_rv32i.md R261, 43_rv32a.md R380) -/

theorem misalignCode_num (k : AccessKind) : (misalignCode k).num = misalignedCode k := by cases k <;> rfl

theorem faultCode_num {k : AccessKind} (h : k ≠ .fetch) : (faultCode k).num = dataFaultCode k := by
  cases k <;> trivial

/-- What the first failing access raises (60_exceptions.md R521, R523). -/
def accessFault (k : AccessKind) (b : Word) (pmp : Bool) : Exc :=
  ⟨faultCode k, some b, if pmp then .pmp else .bus⟩

section
variable {s : State} {k : AccessKind} {a : Word} {n : Nat}

theorem checkData_unaligned (h : Unaligned s a n) : checkData s k a n = .exc ⟨misalignCode k, some a, .unstated⟩ s := by
  rw [checkData, if_pos ((unaligned_iff_misaligned s a n).1 h)]

/-- The parts before the first failure pass, and that one does not. -/
theorem findSome_partFault {l : List (Word × Nat)} {b : Word} {pmp : Bool} (h : FirstFailure s k l b pmp) :
    (l.map partOf).findSome? (partFault s k) = some (accessFault k b pmp) := by
  obtain ⟨before, p, after, rfl, rfl, hok, hfail⟩ := h
  have hnone : (before.map partOf).findSome? (partFault s k) = none := by
    rw [List.findSome?_eq_none_iff]
    intro _ hpart
    obtain ⟨q, hq, rfl⟩ := List.mem_map.1 hpart
    obtain ⟨hpmp, hbus⟩ := hok q hq
    simp [partFault, partOf, hpmp, hbus]
  have hsome : partFault s k (partOf p) = some (accessFault k p.1 pmp) := by
    cases pmp <;> simp_all [partFault, partOf, accessFault]
  rw [List.map_append, List.map_cons, List.findSome?_append, hnone, Option.none_or, List.findSome?_cons, hsome]

theorem checkData_fails {b : Word} {pmp : Bool} (hu : ¬ Unaligned s a n)
    (h : FirstFailure s k (busAccesses a n) b pmp) : checkData s k a n = .exc (accessFault k b pmp) s := by
  rw [checkData, if_neg (mt (unaligned_iff_misaligned s a n).2 hu), parts_eq, findSome_partFault h]

theorem checkAtomic_unaligned (h : ¬ 4 ∣ a.toNat) : checkAtomic s k a = .exc ⟨misalignCode k, some a, .unstated⟩ s := by
  rw [checkAtomic, if_pos (by omega)]

theorem checkAtomic_fails {b : Word} {pmp : Bool} (ha : 4 ∣ a.toNat) (h : FirstFailure s k [(a, 4)] b pmp) :
    checkAtomic s k a = .exc (accessFault k b pmp) s := by
  have hf : partFault s k ⟨a, 4⟩ = some (accessFault k b pmp) := by
    have := findSome_partFault h
    rwa [List.map_singleton, List.findSome?_singleton] at this
  rw [checkAtomic, if_neg (by omega), hf]

end

section
variable {s : State} {i : Instr} {k : AccessKind} {ea : Word} {e : Exc}

/-- A load or store that fails its checks ends as a failing access. -/
theorem AccessRuns.fails {len : Word} {n : Nat} (h : AccessRuns s i len ea n k) (hx : checkData s k ea n = .exc e s) :
    ∃ failed, FailEffect i failed ∧ exec i s = failAccess len failed e s := by
  cases h with
  | load _ _ hf run => exact ⟨_, hf, by rw [exec_here run, loadThen, dataLoad, hx]⟩
  | store _ _ hf run => exact ⟨_, hf, by rw [exec_here run, storeThen, dataStore, hx]⟩

/-- So does an atomic. -/
theorem AtomicRuns.fails (h : AtomicRuns s i k ea) (hx : checkAtomic s k ea = .exc e s) :
    ∃ failed, FailEffect i failed ∧ exec i s = failAccess 4 failed e s := by
  cases h with
  | load hf run => exact ⟨_, hf, by rw [exec_here run]; simp only [loadReserved, hx]⟩
  | store hf run => exact ⟨_, hf, by rw [exec_here run]; simp only [storeConditional, hx]⟩
  | amo hf run => exact ⟨_, hf, by rw [exec_here run]; simp only [atomicOp, hx]⟩

theorem DataAccess.not_fetch {len : Word} {n : Nat} (h : DataAccess s i len k ea n) : k ≠ .fetch := by
  cases dataAccess_runs h <;> exact nofun

theorem AtomicAccess.not_fetch (h : AtomicAccess s i k ea) : k ≠ .fetch := by cases h <;> exact nofun

/-- A misaligned access raises, also where access faults are imprecise (60_exceptions.md R526). -/
theorem misaligned_entered {len : Word} {failed : State → State} (hw : s.pendingFault = none)
    (run : exec i s = failAccess len failed ⟨misalignCode k, some ea, .unstated⟩ s) :
    ∃ t, exec i s = .next t ∧ ExceptionEntered s t (misalignedCode k) s.pc ∧ t.csr.mtval = ea ∧
      t.pendingFault = none := by
  have hi : isImprecise s ⟨misalignCode k, some ea, .unstated⟩ = false := by cases k <;> simp [isImprecise, misalignCode]
  rw [failAccess, hi, if_neg Bool.false_ne_true, raise_eq _ s hw] at run
  exact ⟨_, run, misalignCode_num k ▸ takeException_entered _ _ _, rfl, hw⟩

/-- A refused access raises where access faults are precise. -/
theorem accessFault_entered {len b : Word} {pmp : Bool} {failed : State → State} (hk : k ≠ .fetch)
    (hw : s.pendingFault = none) (hp : s.cfg.preciseAccessFaults = true)
    (run : exec i s = failAccess len failed (accessFault k b pmp) s) :
    ∃ t, exec i s = .next t ∧ ExceptionEntered s t (dataFaultCode k) s.pc ∧ t.csr.mtval = b ∧
      t.csr.mdcause = (if pmp then 1 else 2) ∧ t.pendingFault = none := by
  rw [failAccess_precise len failed _ hp hw] at run
  exact ⟨_, run, faultCode_num hk ▸ takeException_entered _ _ _, rfl, by cases pmp <;> rfl, hw⟩

end

/-- Settles O41: the checks of the access fail, at its address or at the first part that is refused. -/
theorem dataAccessFaults : Obligations.DataAccessFaults := by
  unfold Obligations.DataAccessFaults
  refine fun s i len k ea n hw => ⟨fun h => ⟨fun hu => ?_, fun hu hp b pmp hb => ?_⟩,
    fun hA h => ⟨fun hu => ?_, fun hu hp b pmp hb => ?_⟩⟩
  · obtain ⟨_, -, run⟩ := (dataAccess_runs h).fails (checkData_unaligned hu)
    exact misaligned_entered hw run
  · obtain ⟨_, -, run⟩ := (dataAccess_runs h).fails (checkData_fails hu hb)
    exact accessFault_entered h.not_fetch hw hp run
  · obtain ⟨_, -, run⟩ := (atomicAccess_runs hA h).fails (checkAtomic_unaligned hu)
    exact misaligned_entered hw run
  · obtain ⟨_, -, run⟩ := (atomicAccess_runs hA h).fails (checkAtomic_fails hu hb)
    exact accessFault_entered h.not_fetch hw hp run

/-! ### Fences (40_rv32i.md section 9) -/

/-- Settles O8: FENCE only completes; FENCE.I forgets the older words a fetch could still see. -/
theorem fenceResults : Obligations.FenceResults := by
  unfold Obligations.FenceResults
  refine fun s fm pred succ imm rs1 rd => ⟨?fence, ?fenceI⟩
  case fence => exact retireAt_done (s.pc + 4) s 0
  case fenceI =>
    refine ⟨_, retire_eq 4 (s.withStale []), fun _ => rfl, fun _ => rfl, rfl, rfl, rfl, by constructor <;> rfl,
      fun _ => rfl, fun a => ?_⟩
    exact fetchView_plain rfl a

end Sys2Proof.Machine

/-! PROOFS. The statement of 41_rv32m.md: multiplications and divisions (O9). -/

namespace Sys2Proof.Machine

/-- An instruction of the M subset that writes one register, its value in the words of the statement (R320). -/
theorem done_of_hasM {i : Instr} {s : State} {rd : Reg} {v w : Word} (hM : s.cfg.hasM = true)
    (run : exec i s = whenLegal s.cfg.hasM i s (writeRd 4 rd v)) (value : v = w) :
    ∃ t, exec i s = .next t ∧ DoneX s t rd w (s.pc + 4) :=
  done_of_writeRd (run.trans (whenLegal_of hM i s _)) value

/-! ### Products (41_rv32m.md R321 to R324) -/

/-- The low half is the same for signed and unsigned operands (R321). -/
theorem mul_eq_ofInt (a b : Word) : a * b = BitVec.ofInt 32 (a.toInt * b.toInt) := by
  rw [BitVec.ofInt_mul, BitVec.ofInt_toInt, BitVec.ofInt_toInt]

theorem signExtend_eq_ofInt (a : Word) : a.signExtend 64 = BitVec.ofInt 64 a.toInt := rfl

theorem zeroExtend_eq_ofInt (a : Word) : a.zeroExtend 64 = BitVec.ofInt 64 a.toNat := by
  rw [BitVec.ofInt_natCast, BitVec.ofNat_toNat]

/-- The high half of a product, each operand extended from the integer it stands for. -/
theorem highHalf_mul {x y : DWord} {m n : Int} (hx : x = BitVec.ofInt 64 m) (hy : y = BitVec.ofInt 64 n) :
    highHalf (x * y) = BitVec.ofInt 32 (m * n / 2 ^ 32) :=
  highHalf_ofInt _ _ (by rw [hx, hy, BitVec.ofInt_mul])

theorem highHalf_mul_unsigned (a b : Word) :
    highHalf (a.zeroExtend 64 * b.zeroExtend 64) = BitVec.ofNat 32 (a.toNat * b.toNat / 2 ^ 32) := by
  rw [highHalf_mul (zeroExtend_eq_ofInt a) (zeroExtend_eq_ofInt b), ← BitVec.ofInt_natCast]
  norm_cast

/-! ### Quotients and remainders (41_rv32m.md R325 to R328) -/

/-- In the overflow the exact quotient 2^31 wraps to the dividend. -/
theorem divSigned_eq (a b : Word) :
    divSigned a b = if b = 0#32 then 0xFFFFFFFF#32 else BitVec.ofInt 32 (a.toInt.tdiv b.toInt) := by
  have hquot : a.sdiv b = BitVec.ofInt 32 (a.toInt.tdiv b.toInt) :=
    BitVec.eq_of_toInt_eq (by rw [BitVec.toInt_sdiv, BitVec.toInt_ofInt])
  rw [divSigned, hquot]; rfl

theorem divUnsigned_eq (a b : Word) :
    divUnsigned a b = if b = 0#32 then 0xFFFFFFFF#32 else BitVec.ofNat 32 (a.toNat / b.toNat) := by
  rw [divUnsigned, BitVec.udiv_def]; rfl

theorem remSigned_eq (a b : Word) :
    remSigned a b = if b = 0#32 then a else BitVec.ofInt 32 (a.toInt.tmod b.toInt) := by
  rw [remSigned, ← BitVec.toInt_srem, BitVec.ofInt_toInt]

theorem remUnsigned_eq (a b : Word) :
    remUnsigned a b = if b = 0#32 then a else BitVec.ofNat 32 (a.toNat % b.toNat) := by
  rw [remUnsigned, BitVec.umod_def]

/-- Settles O9: with M each is one register write, of a half of the exact product or of the quotient or remainder. -/
theorem multiplyDivideResults : Obligations.MultiplyDivideResults := by
  unfold Obligations.MultiplyDivideResults
  rintro s rd rs1 rs2 a b rfl rfl hM
  refine ⟨?mul, ?mulh, ?mulhsu, ?mulhu, ?div, ?divu, ?rem, ?remu⟩
  case mul => exact done_of_hasM hM rfl (mul_eq_ofInt _ _)
  case mulh => exact done_of_hasM hM rfl (highHalf_mul (signExtend_eq_ofInt _) (signExtend_eq_ofInt _))
  case mulhsu => exact done_of_hasM hM rfl (highHalf_mul (signExtend_eq_ofInt _) (zeroExtend_eq_ofInt _))
  case mulhu => exact done_of_hasM hM rfl (highHalf_mul_unsigned _ _)
  case div => exact done_of_hasM hM rfl (divSigned_eq _ _)
  case divu => exact done_of_hasM hM rfl (divUnsigned_eq _ _)
  case rem => exact done_of_hasM hM rfl (remSigned_eq _ _)
  case remu => exact done_of_hasM hM rfl (remUnsigned_eq _ _)

end Sys2Proof.Machine

/-! PROOFS. The statements of 42_rv32c.md: the 16-bit computational instructions (O10), jumps and branches (O11), and loads
and stores of plain memory (O12). -/

namespace Sys2Proof.Machine

/-- With the C subset a 16-bit instruction does what stands behind its check (R330). -/
theorem exec_of_hasC {i : Instr} {s : State} {run : State → Out} (hC : s.cfg.hasC = true)
    (guarded : exec i s = whenLegal s.cfg.hasC i s run) : exec i s = run s :=
  guarded.trans (whenLegal_of hC i s run)

/-! ### Compressed immediates (30_encoding.md R244) -/

theorem sext6_eq_sext (imm : BitVec 6) : sext6 imm = sext imm := (sext_eq_signExtend imm).symm

theorem immSp16_eq (imm : BitVec 6) : immSp16 imm = BitVec.ofInt 32 (16 * imm.toInt) :=
  signExtend_append_zeros imm 4 (by decide) (by decide)

theorem immClui_eq (imm : BitVec 6) : immClui imm = BitVec.ofInt 32 (4096 * imm.toInt) :=
  signExtend_append_zeros imm 12 (by decide) (by decide)

theorem offCj_eq (off : BitVec 11) : offCj off = BitVec.ofInt 32 (2 * off.toInt) :=
  signExtend_append_zero off (by decide)

theorem offCb_eq (off : BitVec 8) : offCb off = BitVec.ofInt 32 (2 * off.toInt) :=
  signExtend_append_zero off (by decide)

theorem offCiw_eq (imm : BitVec 8) : offCiw imm = BitVec.ofNat 32 (4 * imm.toNat) := zeroExtend_append_zeros imm 2

theorem offClw_eq (imm : BitVec 5) : offClw imm = BitVec.ofNat 32 (4 * imm.toNat) := zeroExtend_append_zeros imm 2

theorem offCwsp_eq (imm : BitVec 6) : offCwsp imm = BitVec.ofNat 32 (4 * imm.toNat) := zeroExtend_append_zeros imm 2

/-! ### Computational instructions (R331, R338, R339, R341 to R350, R354, R359, R362) -/

/-- A 16-bit instruction that writes one register, its value in the words of the statement. -/
theorem done_of_hasC {i : Instr} {s : State} {rd : Reg} {v w : Word} (hC : s.cfg.hasC = true)
    (guarded : exec i s = whenLegal s.cfg.hasC i s (writeRd 2 rd v)) (value : v = w) :
    ∃ t, exec i s = .next t ∧ DoneX s t rd w (s.pc + 2) := by
  rw [exec_of_hasC hC guarded, ← value]
  exact writeRd_done 2 rd v s

/-- Settles O10: but for C.NOP, which only completes, each is one register write of what its 32-bit expansion computes. -/
theorem compressedAluResults : Obligations.CompressedAluResults := by
  unfold Obligations.CompressedAluResults
  intro s rd rs2 rd' rs2' imm uimm shamt hC
  have hi := sext6_eq_sext imm
  refine ⟨?addi4spn, ?nop, ?addi, ?li, ?addi16sp, ?lui, ?srli, ?srai, ?andi, ?sub, ?xor, ?or, ?and, ?slli, ?mv, ?add⟩
  case addi4spn => exact done_of_hasC hC rfl (by rw [offCiw_eq])
  case nop =>
    rw [exec_of_hasC (run := retire 2) hC rfl]
    exact retireAt_done (s.pc + 2) s 0
  case addi => exact done_of_hasC hC rfl (by rw [hi])
  case li => exact done_of_hasC hC rfl hi
  case addi16sp => exact done_of_hasC hC rfl (by rw [immSp16_eq])
  case lui => exact done_of_hasC hC rfl (immClui_eq imm)
  case srli => exact done_of_hasC hC rfl (ushiftRight_eq_ofNat _ shamt.toNat)
  case srai => exact done_of_hasC hC rfl (sshiftRight_eq_ofInt _ _)
  case andi => exact done_of_hasC hC rfl (by rw [hi]; rfl)
  case sub => exact done_of_hasC hC rfl rfl
  case xor => exact done_of_hasC hC rfl rfl
  case or => exact done_of_hasC hC rfl rfl
  case and => exact done_of_hasC hC rfl rfl
  case slli => exact done_of_hasC hC rfl (shiftLeft_eq_ofNat _ shamt.toNat)
  case mv => exact done_of_hasC hC rfl rfl
  case add => exact done_of_hasC hC rfl rfl

/-! ### Jumps and branches (R340, R351 to R353, R358, R361) -/

/-- With the C subset every even target is allowed (40_rv32i.md R262). -/
theorem badTarget_of_hasC {s : State} (hC : s.cfg.hasC = true) (p : Word) : badTarget s p = false :=
  badTarget_false fun hn => absurd (hC.symm.trans hn) nofun

/-- A 16-bit jump with link to `rd`, its target in the words of the statement. -/
theorem jump_done_of_hasC {i : Instr} {s : State} {rd : Reg} {p q : Word} (hC : s.cfg.hasC = true)
    (guarded : exec i s = whenLegal s.cfg.hasC i s (jumpLink 2 rd p)) (target : p = q) :
    ∃ t, exec i s = .next t ∧ DoneX s t rd (s.pc + 2) q := by
  rw [exec_of_hasC hC guarded, ← target]
  exact jumpLink_done 2 rd p s (badTarget_of_hasC hC p)

/-- A value written to `x[0]` is lost. -/
theorem DoneX.of_zero {s t : State} {v p : Word} (h : DoneX s t 0 v p) (w : Word) : DoneX s t 0 w p :=
  { h with x := fun r => by rw [h.x r]; by_cases hr : r = 0#5 <;> simp [hr] }

/-- A 16-bit jump without link. -/
theorem plainJump_done_of_hasC {i : Instr} {s : State} {p q : Word} (hC : s.cfg.hasC = true)
    (guarded : exec i s = whenLegal s.cfg.hasC i s (jumpLink 2 0 p)) (target : p = q) :
    ∃ t, exec i s = .next t ∧ DoneX s t 0 0 q := by
  obtain ⟨t, ht, hdone⟩ := jump_done_of_hasC hC guarded target
  exact ⟨t, ht, hdone.of_zero 0⟩

/-- The two 16-bit branches and their conditions (R352, R353). -/
theorem exec_compressed_branches {s : State} (rs1' : CReg) (boff : BitVec 8) (hC : s.cfg.hasC = true) :
    BranchesIf (.cBeqz rs1' boff) s 2 (s.getX (1#2 ++ rs1') = 0) (BitVec.ofInt 32 (2 * boff.toInt)) ∧
    BranchesIf (.cBnez rs1' boff) s 2 (s.getX (1#2 ++ rs1') ≠ 0) (BitVec.ofInt 32 (2 * boff.toInt)) := by
  rw [← offCb_eq]
  exact ⟨⟨_, exec_of_hasC hC rfl, beq_iff_eq⟩, ⟨_, exec_of_hasC hC rfl, bne_iff_ne⟩⟩

/-- Settles O11: no target is misaligned, so each jump goes to its target and each branch by its condition. -/
theorem compressedControlResults : Obligations.CompressedControlResults := by
  unfold Obligations.CompressedControlResults
  intro s rs1 rs1' off boff hC
  have hoff : s.pc + offCj off = s.pc + BitVec.ofInt 32 (2 * off.toInt) := by rw [offCj_eq]
  obtain ⟨beqz, bnez⟩ := exec_compressed_branches rs1' boff hC
  refine ⟨?j, ?jal, ?jr, ?jalr, beqz.done, bnez.done⟩
  case j => exact plainJump_done_of_hasC hC rfl hoff
  case jal => exact jump_done_of_hasC hC rfl hoff
  case jr => exact plainJump_done_of_hasC hC rfl (evenAddr_eq _)
  case jalr => exact jump_done_of_hasC hC rfl (evenAddr_eq _)

/-! ### Loads and stores of plain memory (R333, R336, R356, R364) -/

/-- A 16-bit load of a word from plain memory. -/
theorem loadWord_done_of_hasC {i : Instr} {s : State} {rd : Reg} {ea : Word} (hC : s.cfg.hasC = true)
    (guarded : exec i s = whenLegal s.cfg.hasC i s (loadX 2 rd ea 4 lowWord)) (h : plainLoad s ea 4 = true) :
    ∃ t, exec i s = .next t ∧ DoneX s t rd (memWord s.mem ea) (s.pc + 2) := by
  rw [exec_of_hasC hC guarded, ← lowWord_read]
  exact loadX_done 2 rd lowWord h

/-- A 16-bit store of a word to plain memory. -/
theorem storeWord_done_of_hasC {i : Instr} {s : State} {ea : Word} {v : DWord} (hC : s.cfg.hasC = true)
    (guarded : exec i s = whenLegal s.cfg.hasC i s (storeX 2 ea 4 v)) (hm : s.mem.wf = true)
    (h : plainStore s ea 4 = true) : ∃ t, exec i s = .next t ∧ DoneStore s t ea 4 v (s.pc + 2) := by
  rw [exec_of_hasC hC guarded]
  exact storeX_done 2 v hm (by decide) h

/-- Settles O12: each is the load or store of a word at the base plus four times the field. -/
theorem compressedLoadStoreResults : Obligations.CompressedLoadStoreResults := by
  unfold Obligations.CompressedLoadStoreResults
  intro s rd rs2 rd' rs1' rs2' off spOff ea sp hC hea hsp
  rw [← offClw_eq] at hea
  rw [← offCwsp_eq] at hsp
  subst hea hsp
  refine ⟨fun h => ?lw, fun h => ?lwsp, fun hm h => ?sw, fun hm h => ?swsp⟩
  case lw => exact loadWord_done_of_hasC hC rfl h
  case lwsp => exact loadWord_done_of_hasC hC rfl h
  case sw => exact storeWord_done_of_hasC hC rfl hm h
  case swsp => exact storeWord_done_of_hasC hC rfl hm h

end Sys2Proof.Machine

/-! PROOFS. The statements of 43_rv32a.md: LR.W and SC.W (O13), the AMOs (O14), and the accesses a model is to stop on
(O38). -/

namespace Sys2Proof.Machine

/-! ### Atomics on plain memory (43_rv32a.md R380) -/

section
variable {s : State} {a : Word} {path : AccessPath}

/-! An access to a word that meets none of the ECC errors there are. -/

theorem usedAt_unmet (h : eccMet s path [⟨a, 4⟩] = []) : usedAt s path a = [] := by
  show (eccMet s path [⟨a, 4⟩]).filter (·.spoils s.csr) = []
  rw [h, List.filter_nil]

theorem notedAt_unmet (h : eccMet s path [⟨a, 4⟩] = []) : s.notedAt path a = s := congrArg s.noteHits h

theorem not_traps_unmet (h : eccMet s path [⟨a, 4⟩] = []) : ¬ EccTraps s path (a, 4) := by
  rintro ⟨e, hmem, hmeets, -⟩
  have hmet : e ∈ eccMet s path [⟨a, 4⟩] := (mem_eccMet s path [(a, 4)] e).2 ⟨hmem, (a, 4), List.mem_cons_self, hmeets⟩
  rw [h] at hmet
  cases hmet

/-- An atomic on plain memory is aligned, the PMP and the bus allow it, and it meets no ECC error. -/
theorem plainAtomic_cases {k : AccessKind} (h : plainAtomic s k path a = true) :
    4 ∣ a.toNat ∧ PlainParts s k [(a, 4)] ∧ eccMet s path [⟨a, 4⟩] = [] ∧ (k = .amo → eccMet s .store [⟨a, 4⟩] = []) := by
  simp only [plainAtomic, Bool.and_eq_true, Bool.or_eq_true, beq_iff_eq, bne_iff_ne, List.isEmpty_iff] at h
  obtain ⟨⟨hlow, hacc⟩, hstore⟩ := h
  have ha : 4 ∣ a.toNat := by
    have hmod := congrArg BitVec.toNat hlow
    rw [BitVec.extractLsb'_toNat] at hmod
    exact Nat.dvd_of_mod_eq_zero hmod
  obtain ⟨-, hparts, hmet⟩ := plainAccess_iff.1 hacc
  rw [parts_aligned ha (by decide)] at hparts hmet
  exact ⟨ha, by simpa [PlainParts] using hparts, List.isEmpty_iff.1 hmet, fun hk => hstore.resolve_left fun h => h hk⟩

theorem plainAtomic_plainForData {k : AccessKind} (h : plainAtomic s k path a = true) : plainForData s.cfg a = true := by
  obtain ⟨ha, hp, -⟩ := plainAtomic_cases h
  exact (checkAtomic_allowed ha hp).2

/-- The store of an atomic that meets no error. -/
theorem wordWrite_wroteMem (hm : s.mem.wf = true) (hpl : plainForData s.cfg a = true) (v : Word) :
    OnlyMem s (wordWrite s a v []) ∧ WroteMem s (wordWrite s a v []) a 4 (v.zeroExtend 64) := by
  obtain ⟨honly, hread⟩ := wordWrite_does hm hpl v []
  exact ⟨honly, fun b => by rw [hread]; simp [wrongByte]⟩

end

/-- `t` is `s` after an atomic that wrote `v` to `x[rd]` and left the reservation `r`; its memory is that of `u`. -/
structure AtomicEnds (s u t : State) (rd : Reg) (v : Word) (r : Option Word) : Prop where
  x : WroteX s t rd v
  f : SameF s t
  mem : t.mem = u.mem
  stale : t.stale = u.stale
  pc : t.pc = s.pc + 4
  csr : t.csr = s.csr.counted
  resv : t.resv = r
  rest : SameRest s t

theorem completed_atomicEnds {s u : State} (h : OnlyMem s u) (rd : Reg) (v : Word) (r : Option Word) :
    AtomicEnds s u (((u.setX rd v).withResv r).completed 4) rd v r where
  x q := (wroteX_setX u rd v q).trans (by rw [State.getX, State.getX, h.x])
  f q := by simp [State.completed, State.getF, h.f]
  mem := by simp [State.completed]
  stale := by simp [State.completed]
  pc := by simp [State.completed, h.pc]
  csr := by simp [State.completed, h.csr]
  resv := by simp [State.completed]
  rest := h.rest.trans (by constructor <;> simp [State.completed])

/-- An AMO leaves the reservation as it was (R381). -/
theorem completed_atomicEnds_resv {s u : State} (h : OnlyMem s u) (rd : Reg) (v : Word) :
    AtomicEnds s u ((u.setX rd v).completed 4) rd v s.resv := by
  have hr : (u.setX rd v).withResv s.resv = u.setX rd v := by rw [← h.resv, ← State.setX_resv u rd v]; rfl
  exact hr ▸ completed_atomicEnds h rd v s.resv

section
variable {s u t : State} {rd : Reg} {v : Word} {r : Option Word}

/-- An atomic that stored nothing. -/
theorem AtomicEnds.sameMem (h : AtomicEnds s s t rd v r) : SameMem s t := ⟨fun _ => by rw [h.mem], h.stale⟩

/-- An atomic that stored. -/
theorem AtomicEnds.wroteMem {a : Word} {n : Nat} {w : DWord} (h : AtomicEnds s u t rd v r) (hu : WroteMem s u a n w) :
    WroteMem s t a n w := fun b => by rw [h.mem]; exact hu b

end

/-! ### LR.W and SC.W (43_rv32a.md R382, R383) -/

theorem scSucceeds_iff (s : State) (a : Word) : scSucceeds s a = true ↔
    s.resv = some a ∧ (s.cfg.scSpuriousFail = true → Config.freeScFails s.free = false) := by
  simp only [scSucceeds, Bool.and_eq_true, beq_iff_eq, Bool.not_eq_true', Bool.and_eq_false_imp]

section
variable {s : State} (rd rs1 rs2 : Reg) (aq rl : Bool) (hA : s.cfg.hasA = true)
include hA

theorem lrW_ends (h : plainAtomic s .load .load (s.getX rs1) = true) :
    ∃ t, exec (.lrW rd rs1 aq rl) s = .next t ∧
      AtomicEnds s s t rd (memWord s.mem (s.getX rs1)) (some (s.getX rs1)) := by
  obtain ⟨ha, hp, hmet, -⟩ := plainAtomic_cases h
  refine ⟨_, (whenLegal_of hA ..).trans ?_, completed_atomicEnds (OnlyMem.refl s) ..⟩
  rw [loadReserved_runs rd rs1 ha hp (not_traps_unmet hmet), usedAt_unmet hmet, notedAt_unmet hmet, arrives_right,
    wordRead_plain (plainAtomic_plainForData h)]

theorem scW_stores (h : plainAtomic s .store .store (s.getX rs1) = true) (hm : s.mem.wf = true)
    (hs : scSucceeds s (s.getX rs1) = true) : ∃ t, exec (.scW rd rs1 rs2 aq rl) s = .next t ∧
      AtomicEnds s (wordWrite s (s.getX rs1) (s.getX rs2) []) t rd 0 none := by
  obtain ⟨ha, hp, hmet, -⟩ := plainAtomic_cases h
  obtain ⟨honly, -⟩ := wordWrite_wroteMem hm (plainAtomic_plainForData h) (s.getX rs2)
  refine ⟨_, (whenLegal_of hA ..).trans ?_, completed_atomicEnds honly ..⟩
  rw [storeConditional_runs rd rs1 rs2 ha hp hs (not_traps_unmet hmet), usedAt_unmet hmet, notedAt_unmet hmet]

theorem scW_fails (h : plainAtomic s .store .store (s.getX rs1) = true) (hs : scSucceeds s (s.getX rs1) = false) :
    ∃ t, exec (.scW rd rs1 rs2 aq rl) s = .next t ∧ AtomicEnds s s t rd 1 none := by
  obtain ⟨ha, hp, -⟩ := plainAtomic_cases h
  exact ⟨_, (whenLegal_of hA ..).trans (storeConditional_fails rd rs1 rs2 ha hp hs),
    completed_atomicEnds (OnlyMem.refl s) ..⟩

end

/-- Settles O13: SC.W stores just when `scSucceeds` holds, which `scSucceeds_iff` reads off the reservation. -/
theorem reservationResults : Obligations.ReservationResults := by
  unfold Obligations.ReservationResults
  rintro s rd rs1 rs2 aq rl _ hA rfl
  refine ⟨fun h => ?_, fun h hm => ?_⟩
  · obtain ⟨t, ht, e⟩ := lrW_ends rd rs1 aq rl hA h
    exact ⟨t, ht, e.x, e.f, e.sameMem, e.pc, e.csr, e.resv, e.rest⟩
  · cases hs : scSucceeds s (s.getX rs1) with
    | true =>
      obtain ⟨t, ht, e⟩ := scW_stores rd rs1 rs2 aq rl hA h hm hs
      obtain ⟨hr, -⟩ := (scSucceeds_iff ..).1 hs
      obtain ⟨-, hmem⟩ := wordWrite_wroteMem hm (plainAtomic_plainForData h) (s.getX rs2)
      exact ⟨t, ht, e.f, e.pc, e.csr, e.resv, e.rest, .inl ⟨hr, e.x, e.wroteMem hmem⟩, fun _ _ => ⟨e.x, e.wroteMem hmem⟩,
        fun hn => absurd hr hn⟩
    | false =>
      obtain ⟨t, ht, e⟩ := scW_fails rd rs1 rs2 aq rl hA h hs
      have hno : s.resv = some (s.getX rs1) → s.cfg.scSpuriousFail ≠ false := fun hr hf => by
        rw [(scSucceeds_iff ..).2 ⟨hr, fun hc => absurd (hf.symm.trans hc) nofun⟩] at hs
        cases hs
      exact ⟨t, ht, e.f, e.pc, e.csr, e.resv, e.rest, .inr ⟨e.x, e.sameMem⟩, fun hr hf => absurd hf (hno hr),
        fun _ => ⟨e.x, e.sameMem⟩⟩

/-! ### AMOs (43_rv32a.md R384 to R392) -/

theorem amoMin_eq (a b : Word) : amoMin a b = BitVec.ofInt 32 (min a.toInt b.toInt) := by
  simp [amoMin, ltSigned, BitVec.slt, min_def_lt, apply_ite (BitVec.ofInt 32)]

theorem amoMax_eq (a b : Word) : amoMax a b = BitVec.ofInt 32 (max a.toInt b.toInt) := by
  simp [amoMax, ltSigned, BitVec.slt, max_def_lt, apply_ite (BitVec.ofInt 32)]

theorem amoMinu_eq (a b : Word) : amoMinu a b = BitVec.ofNat 32 (min a.toNat b.toNat) := by
  simp [amoMinu, ltUnsigned, BitVec.ult, min_def_lt, apply_ite (BitVec.ofNat 32)]

theorem amoMaxu_eq (a b : Word) : amoMaxu a b = BitVec.ofNat 32 (max a.toNat b.toNat) := by
  simp [amoMaxu, ltUnsigned, BitVec.ult, max_def_lt, apply_ite (BitVec.ofNat 32)]

/-- An AMO on plain memory, its result in the words of the statement. -/
theorem amo_done {i : Instr} {s : State} {op : Word → Word → Word} {rd rs1 rs2 : Reg} {v : Word} (hA : s.cfg.hasA = true)
    (guarded : exec i s = whenLegal s.cfg.hasA i s (atomicOp op rd rs1 rs2)) (hm : s.mem.wf = true)
    (h : plainAtomic s .amo .load (s.getX rs1) = true) (value : op (memWord s.mem (s.getX rs1)) (s.getX rs2) = v) :
    AtomicDone i s rd (s.getX rs1) v := by
  subst value
  obtain ⟨ha, hp, hload, hstore⟩ := plainAtomic_cases h
  have hstore := hstore rfl
  have hpl := plainAtomic_plainForData h
  obtain ⟨honly, hmem⟩ := wordWrite_wroteMem hm hpl (op (memWord s.mem (s.getX rs1)) (s.getX rs2))
  have hval : wordRead s (s.getX rs1) ^^^ wrongWord (usedAt s .load (s.getX rs1)) (s.getX rs1) =
      memWord s.mem (s.getX rs1) := by
    rw [usedAt_unmet hload, arrives_right, wordRead_plain hpl]
  have run := guarded.trans (whenLegal_of hA ..)
  rw [atomicOp_runs op rd rs1 rs2 ha hp (not_traps_unmet hload) (not_traps_unmet hstore) hval, usedAt_unmet hstore,
    State.amoNoted, notedAt_unmet hload, notedAt_unmet hstore] at run
  have e := completed_atomicEnds_resv honly rd (memWord s.mem (s.getX rs1))
  exact ⟨_, run, e.x, e.f, e.wroteMem hmem, e.pc, e.csr, e.resv, e.rest⟩

/-- Settles O14: each is a read and a store of one word, with its operation between them. -/
theorem atomicResults : Obligations.AtomicResults := by
  unfold Obligations.AtomicResults
  rintro s rd rs1 rs2 aq rl _ _ _ hA hm rfl rfl rfl h
  refine ⟨?swap, ?add, ?xor, ?and, ?or, ?min, ?max, ?minu, ?maxu⟩
  case swap => exact amo_done hA rfl hm h rfl
  case add => exact amo_done hA rfl hm h rfl
  case xor => exact amo_done hA rfl hm h rfl
  case and => exact amo_done hA rfl hm h rfl
  case or => exact amo_done hA rfl hm h rfl
  case min => exact amo_done hA rfl hm h (amoMin_eq _ _)
  case max => exact amo_done hA rfl hm h (amoMax_eq _ _)
  case minu => exact amo_done hA rfl hm h (amoMinu_eq _ _)
  case maxu => exact amo_done hA rfl hm h (amoMaxu_eq _ _)


/-! ### Accesses the model stops on (20_memory.md R163, 43_rv32a.md R394, 60_exceptions.md R583, R589) -/

theorem DataAccess.size {s : State} {i : Instr} {len ea : Word} {k : AccessKind} {n : Nat}
    (h : DataAccess s i len k ea n) : n = 1 ∨ n = 2 ∨ n = 4 ∨ n = 8 := by
  cases h <;> decide

theorem mem_smallParts {a : Word} {n : Nat} {p : Part} (h : p ∈ smallParts a n) :
    p.size = 1 ∨ n ∣ a.toNat ∧ p.size = n := by
  unfold smallParts at h
  split at h
  · next ha => exact .inr ⟨Nat.dvd_of_mod_eq_zero ha, by rw [List.mem_singleton.1 h]⟩
  · rw [byteParts_eq, List.map_map, List.mem_map] at h
    obtain ⟨_, -, rfl⟩ := h
    exact .inl rfl

/-- A part of the size of the whole access is all of it, and is aligned (20_memory.md R167, R168). -/
theorem aligned_of_whole {a : Word} {n : Nat} {p : Part} (hp : p ∈ parts a n) (hn : p.size = n) :
    n ≠ 8 ∧ n ∣ a.toNat := by
  unfold parts at hp
  split at hp
  · rcases List.mem_append.1 hp with h | h <;> have := mem_smallParts h <;> omega
  · next h8 =>
    rcases mem_smallParts hp with h | ⟨h, -⟩
    · exact ⟨h8, by rw [← hn, h]; exact one_dvd _⟩
    · exact ⟨h8, h⟩

theorem parts_ne_nil {a : Word} {n : Nat} (hn : 0 < n) : parts a n ≠ [] := by
  have small : ∀ {m}, 0 < m → smallParts a m ≠ [] := by
    intro m hm
    unfold smallParts
    split
    · exact List.cons_ne_nil _ _
    · obtain ⟨m, rfl⟩ := Nat.exists_eq_succ_of_ne_zero hm.ne'
      exact List.cons_ne_nil _ _
  unfold parts
  split
  · exact List.append_ne_nil_of_left_ne_nil (small (by decide)) _
  · exact small hn

/-- What holds of every bus access holds of every part, in the words of the model. -/
theorem forall_parts {a : Word} {n : Nat} {P : Part → Prop} (h : ∀ q ∈ busAccesses a n, P (partOf q)) :
    ∀ p ∈ parts a n, P p := by
  rw [parts_eq]
  exact List.forall_mem_map.2 h

/-! What a part of an access is refused for, by its region. -/

section
variable {cfg : Config} {n : Nat} {p : Part}

theorem partRefusal_ilm (h : region cfg p.addr = .ilm) (hx : cfg.ilmXonly = true) :
    partRefusal cfg n p = some .ilmExecuteOnly := by
  simp only [partRefusal, h, hx, if_true]

theorem partRefusal_timer (h : region cfg p.addr = .timer) (hn : ¬ (n = 4 ∧ p.size = 4)) :
    partRefusal cfg n p = some .deviceAccess := by
  simp only [partRefusal, h, if_neg hn]

theorem partRefusal_eclic (h : region cfg p.addr = .eclic) (hn : p.size ≠ n) :
    partRefusal cfg n p = some .deviceAccess := by
  simp only [partRefusal, h, if_neg hn]

end

section
variable {s : State} {k : AccessKind} {a : Word} {n : Nat} {r : Refusal}

theorem partFault_allowed {p : Part} (hpmp : pmpCheck s s.priv k p.addr = true)
    (hbus : busError s.cfg k p.addr p.size = false) : partFault s k p = none := by
  rw [partFault, if_pos hpmp, hbus, if_neg Bool.false_ne_true]

/-- An access of which the model can carry out no part, where nothing raises first. -/
theorem checkData_refuse (hn : 0 < n) (hu : ¬ Unaligned s a n) (hf : ∀ p ∈ parts a n, partFault s k p = none)
    (hr : ∀ p ∈ parts a n, partRefusal s.cfg n p = some r) : checkData s k a n = .refuse r := by
  obtain ⟨p, ps, hps⟩ := List.exists_cons_of_ne_nil (parts_ne_nil (a := a) hn)
  have hfirst : (parts a n).findSome? (partRefusal s.cfg n) = some r := by
    rw [hps, List.findSome?_cons, hr p (hps ▸ List.mem_cons_self)]
  rw [checkData, if_neg (mt (unaligned_iff_misaligned s a n).2 hu), List.findSome?_eq_none_iff.2 hf, hfirst]

theorem checkAtomic_device (ha : 4 ∣ a.toNat) (hf : partFault s k ⟨a, 4⟩ = none)
    (h : region s.cfg a = .timer ∨ region s.cfg a = .eclic) : checkAtomic s k a = .refuse .deviceAtomic := by
  rw [checkAtomic, if_neg (by omega), hf]
  rcases h with h | h <;> simp only [h]

theorem checkAtomic_ilm (ha : 4 ∣ a.toNat) (hf : partFault s k ⟨a, 4⟩ = none) (h : region s.cfg a = .ilm)
    (hx : s.cfg.ilmXonly = true) : checkAtomic s k a = .refuse .ilmExecuteOnly := by
  rw [checkAtomic, if_neg (by omega), hf]
  simp only [h, partRefusal_ilm (p := ⟨a, 4⟩) h hx]

end

section
variable {s : State} {i : Instr} {k : AccessKind} {ea : Word} {r : Refusal}

theorem AccessRuns.refused {len : Word} {n : Nat} (h : AccessRuns s i len ea n k) (hx : checkData s k ea n = .refuse r) :
    exec i s = .refused r := by
  cases h with
  | load _ _ _ run => rw [exec_here run, loadThen, dataLoad, hx]
  | store _ _ _ run => rw [exec_here run, storeThen, dataStore, hx]

theorem AtomicRuns.refused (h : AtomicRuns s i k ea) (hx : checkAtomic s k ea = .refuse r) : exec i s = .refused r := by
  cases h with
  | load _ run => rw [exec_here run]; simp only [loadReserved, hx]
  | store _ run => rw [exec_here run]; simp only [storeConditional, hx]
  | amo _ run => rw [exec_here run]; simp only [atomicOp, hx]

/-- A load or store that passes its checks and of which every part is refused. -/
theorem DataAccess.refused {len : Word} {n : Nat} (h : DataAccess s i len k ea n) (hu : ¬ Unaligned s ea n)
    (hp : ∀ q ∈ busAccesses ea n, pmpCheck s s.priv k q.1 = true ∧ busError s.cfg k q.1 q.2 = false)
    (hr : ∀ p ∈ parts ea n, partRefusal s.cfg n p = some r) : exec i s = .refused r := by
  have hn : 0 < n := by have := h.size; omega
  have hf : ∀ p ∈ parts ea n, partFault s k p = none :=
    forall_parts fun q hq => by
      obtain ⟨hpmp, hbus⟩ := hp q hq
      exact partFault_allowed hpmp hbus
  exact (dataAccess_runs h).refused (checkData_refuse hn hu hf hr)

end

/-- An interrupt that is due outside the ECLIC interrupt mode (60_exceptions.md R559). -/
theorem step_defaultMode {s : State} {r : Request} (hq : Quiet s) (ha : s.asleep = false) (hf : s.pendingFault = none)
    (hn : ¬ NmiReady s) (hi : IrqReady s r) (hm : s.csr.mtvec.extractLsb' 0 6 ≠ 3#6) :
    step s = .refused .defaultInterruptMode := by
  have hf' : s.endPulses.pendingFault = none := hf
  have hn' : nmiTaken s.endPulses = false := by rw [← Bool.not_eq_true, nmiTaken_iff]; exact hn
  have hi' : irqAllowed s.endPulses = some r := (irqAllowed_iff s.endPulses r).2 hi
  have hm' : eclicMode s.endPulses = false := beq_eq_false_iff_ne.2 hm
  have hb : boundaryTrap s.endPulses = some (.refused .defaultInterruptMode) := by
    simp [boundaryTrap, hf', hn', hi', hm']
  rw [step_quiet hq, actStep_awake (s := s.endPulses) ha, hb]
  rfl

/-- Settles O38: every part of the access is refused by its region, after the checks that raise; the interrupt is refused
at the step boundary. -/
theorem refusedAccesses : Obligations.RefusedAccesses := by
  unfold Obligations.RefusedAccesses
  refine fun s => ⟨fun i len k ea n h hu hp => ⟨fun hr hx => ?ilm, fun hr hn => ?timer, fun hr hn => ?eclic⟩,
    fun i k ea hA h ha hpmp hbus => ⟨fun hr => ?device, fun hr hx => ?ilmAtomic⟩, fun r => step_defaultMode⟩
  case ilm => exact h.refused hu hp (forall_parts fun q hq => partRefusal_ilm (hr q hq) hx)
  case timer =>
    have hreg : ∀ p ∈ parts ea n, region s.cfg p.addr = .timer := forall_parts hr
    refine h.refused hu hp fun p hpart => partRefusal_timer (hreg p hpart) ?_
    rintro ⟨rfl, hsize⟩
    exact hn ⟨rfl, (aligned_of_whole hpart hsize).2⟩
  case eclic =>
    have hreg : ∀ p ∈ parts ea n, region s.cfg p.addr = .eclic := forall_parts hr
    refine h.refused hu hp fun p hpart => partRefusal_eclic (hreg p hpart) fun hsize => ?_
    obtain ⟨h8, hdvd⟩ := aligned_of_whole hpart hsize
    have hn4 : n ≤ 4 := by have := h.size; omega
    exact hn ⟨hn4, hdvd⟩
  case device => exact (atomicAccess_runs hA h).refused (checkAtomic_device ha (partFault_allowed hpmp hbus) hr)
  case ilmAtomic => exact (atomicAccess_runs hA h).refused (checkAtomic_ilm ha (partFault_allowed hpmp hbus) hr hx)

end Sys2Proof.Machine

/-! PROOFS. The statements of 44_rv32f.md and 45_rv32d.md about loads and stores (O15, O16), arithmetic instructions (O17),
sign injection and moves (O21). -/

namespace Sys2Proof.Machine

/-! ### Running floating-point instructions (44_rv32f.md R400 to R402) -/

/-- A floating-point instruction that is ready does what stands behind its check (R400). -/
theorem exec_fpLegal {i : Instr} {s : State} {has : Bool} {run : State → Out} (hr : FpReady s has)
    (guarded : exec i s = fpLegal has i s run) : exec i s = run s :=
  guarded.trans (fpLegal_ready hr i run)

/-- One with a rounding mode that resolves does what stands behind both checks (R402). -/
theorem exec_fpRounded {i : Instr} {s : State} {has : Bool} {rm : BitVec 3} {mode : RMode} {run : RMode → State → Out}
    (hr : FpReady s has) (hm : resolveRm rm s.csr.fcsr.frm = some mode)
    (guarded : exec i s = fpRounded has i rm s run) : exec i s = run mode s :=
  guarded.trans (fpRounded_ready hr hm i run)

/-! ### Loads and stores of plain memory (R332, R334, R335, R337, R355, R357, R363, R365, R405, R406, R441, R442) -/

theorem offCld_eq (imm : BitVec 5) : offCld imm = BitVec.ofNat 32 (8 * imm.toNat) := zeroExtend_append_zeros imm 3

theorem offCdsp_eq (imm : BitVec 6) : offCdsp imm = BitVec.ofNat 32 (8 * imm.toNat) := zeroExtend_append_zeros imm 3

section
variable {i : Instr} {s : State} {has : Bool} {len ea : Word} {r : Reg}

theorem loadSingle_done (hr : FpReady s has) (guarded : exec i s = fpLegal has i s (loadS len r ea))
    (h : plainLoad s ea 4 = true) :
    ∃ t, exec i s = .next t ∧ DoneF s t r (boxS s.cfg.hasD (memWord s.mem ea)) 0 (s.pc + len) := by
  rw [exec_fpLegal hr guarded]
  exact loadS_done len r h

theorem loadDouble_done (hr : FpReady s has) (guarded : exec i s = fpLegal has i s (loadD len r ea))
    (h : plainLoad s ea 8 = true) :
    ∃ t, exec i s = .next t ∧ DoneF s t r (memDouble s.mem ea) 0 (s.pc + len) := by
  rw [exec_fpLegal hr guarded]
  exact loadD_done len r h

theorem storeFloat_done {n : Nat} (hr : FpReady s has) (guarded : exec i s = fpLegal has i s (storeF len r ea n))
    (hm : s.mem.wf = true) (hn : n ≤ 8) (h : plainStore s ea n = true) :
    ∃ t, exec i s = .next t ∧ DoneFStore s t ea n (s.getF r) (s.pc + len) := by
  rw [exec_fpLegal hr guarded]
  exact storeF_done len r hm hn h

end

/-- Settles O15: each is the load of 4 or 8 bytes at its address, behind the check of its subsets. -/
theorem fpLoadResults : Obligations.FpLoadResults := by
  unfold Obligations.FpLoadResults
  intro s rd rs1 rd' rs1' imm off spOff
  rw [← eaI_eq, ← offClw_eq, ← offCwsp_eq, ← offCld_eq, ← offCdsp_eq]
  refine ⟨fun hr h => ?flw, fun hr h => ?fld, fun hC hr => ⟨fun h => ?cFlw, fun h => ?cFlwsp⟩,
    fun hC hr => ⟨fun h => ?cFld, fun h => ?cFldsp⟩⟩
  case flw => exact loadSingle_done hr rfl h
  case fld => exact loadDouble_done hr rfl h
  case cFlw => exact loadSingle_done (hr.withC hC) rfl h
  case cFlwsp => exact loadSingle_done (hr.withC hC) rfl h
  case cFld => exact loadDouble_done (hr.withC hC) rfl h
  case cFldsp => exact loadDouble_done (hr.withC hC) rfl h

/-- Settles O16: each is the store of 4 or 8 bytes at its address, behind the check of its subsets. -/
theorem fpStoreResults : Obligations.FpStoreResults := by
  unfold Obligations.FpStoreResults
  intro s rs2 rs1 rs2' rs1' imm off spOff hm
  rw [← eaI_eq, ← offClw_eq, ← offCwsp_eq, ← offCld_eq, ← offCdsp_eq]
  refine ⟨fun hr h => ?fsw, fun hr h => ?fsd, fun hC hr => ⟨fun h => ?cFsw, fun h => ?cFswsp⟩,
    fun hC hr => ⟨fun h => ?cFsd, fun h => ?cFsdsp⟩⟩
  case fsw => exact storeFloat_done hr rfl hm (by decide) h
  case fsd => exact storeFloat_done hr rfl hm (by decide) h
  case cFsw => exact storeFloat_done (hr.withC hC) rfl hm (by decide) h
  case cFswsp => exact storeFloat_done (hr.withC hC) rfl hm (by decide) h
  case cFsd => exact storeFloat_done (hr.withC hC) rfl hm (by decide) h
  case cFsdsp => exact storeFloat_done (hr.withC hC) rfl hm (by decide) h

/-! ### Results (R400, R401) -/

section
variable {i : Instr} {s : State} {has : Bool} {rd : Reg}

/-- An instruction that rounds and writes a single-precision result. -/
theorem singleDone_of_rounded {rm : BitVec 3} {mode : RMode} (op : RMode → State → FOut) (hr : FpReady s has)
    (hm : resolveRm rm s.csr.fcsr.frm = some mode)
    (guarded : exec i s = fpRounded has i rm s fun mode s => finishS rd (op mode s) s) :
    SingleDone i s rd (op mode s) := by
  rw [SingleDone, exec_fpRounded hr hm guarded]
  exact finishS_done s rd _

/-- An instruction that rounds and writes a double-precision result. -/
theorem doubleDone_of_rounded {rm : BitVec 3} {mode : RMode} (op : RMode → State → FOut) (hr : FpReady s has)
    (hm : resolveRm rm s.csr.fcsr.frm = some mode)
    (guarded : exec i s = fpRounded has i rm s fun mode s => finishD rd (op mode s) s) :
    DoubleDone i s rd (op mode s) := by
  rw [DoubleDone, exec_fpRounded hr hm guarded]
  exact finishD_done s rd _

end

/-- Settles O17: each writes its operation's result; subtracting is adding the negated operand. -/
theorem fpArithmeticResults : Obligations.FpArithmeticResults := by
  unfold Obligations.FpArithmeticResults
  intro s rd rs1 rs2 rs3 rm mode hm
  refine ⟨fun hr => ⟨?addS, ?subS, ?mulS, ?divS, ?sqrtS, ?maddS, ?msubS, ?nmsubS, ?nmaddS⟩,
    fun hr => ⟨?addD, ?subD, ?mulD, ?divD, ?sqrtD, ?maddD, ?msubD, ?nmsubD, ?nmaddD⟩⟩
  case addS => exact singleDone_of_rounded (fun m t => fAdd fmtS m (t.valS rs1) (t.valS rs2)) hr hm rfl
  case subS => exact singleDone_of_rounded (fun m t => fSub fmtS m (t.valS rs1) (t.valS rs2)) hr hm rfl
  case mulS => exact singleDone_of_rounded (fun m t => fMul fmtS m (t.valS rs1) (t.valS rs2)) hr hm rfl
  case divS => exact singleDone_of_rounded (fun m t => fDiv fmtS m (t.valS rs1) (t.valS rs2)) hr hm rfl
  case sqrtS => exact singleDone_of_rounded (fun m t => fSqrt fmtS m (t.valS rs1)) hr hm rfl
  case maddS =>
    exact singleDone_of_rounded (fun m t => fFma fmtS m (t.valS rs1) (t.valS rs2) (t.valS rs3)) hr hm rfl
  case msubS =>
    exact singleDone_of_rounded (fun m t => fFma fmtS m (t.valS rs1) (t.valS rs2) (t.valS rs3).negate) hr hm rfl
  case nmsubS =>
    exact singleDone_of_rounded (fun m t => fFma fmtS m (t.valS rs1).negate (t.valS rs2) (t.valS rs3)) hr hm rfl
  case nmaddS =>
    exact singleDone_of_rounded (fun m t => fFma fmtS m (t.valS rs1).negate (t.valS rs2) (t.valS rs3).negate) hr hm rfl
  case addD => exact doubleDone_of_rounded (fun m t => fAdd fmtD m (t.valD rs1) (t.valD rs2)) hr hm rfl
  case subD => exact doubleDone_of_rounded (fun m t => fSub fmtD m (t.valD rs1) (t.valD rs2)) hr hm rfl
  case mulD => exact doubleDone_of_rounded (fun m t => fMul fmtD m (t.valD rs1) (t.valD rs2)) hr hm rfl
  case divD => exact doubleDone_of_rounded (fun m t => fDiv fmtD m (t.valD rs1) (t.valD rs2)) hr hm rfl
  case sqrtD => exact doubleDone_of_rounded (fun m t => fSqrt fmtD m (t.valD rs1)) hr hm rfl
  case maddD =>
    exact doubleDone_of_rounded (fun m t => fFma fmtD m (t.valD rs1) (t.valD rs2) (t.valD rs3)) hr hm rfl
  case msubD =>
    exact doubleDone_of_rounded (fun m t => fFma fmtD m (t.valD rs1) (t.valD rs2) (t.valD rs3).negate) hr hm rfl
  case nmsubD =>
    exact doubleDone_of_rounded (fun m t => fFma fmtD m (t.valD rs1).negate (t.valD rs2) (t.valD rs3)) hr hm rfl
  case nmaddD =>
    exact doubleDone_of_rounded (fun m t => fFma fmtD m (t.valD rs1).negate (t.valD rs2) (t.valD rs3).negate) hr hm rfl

/-! ### Sign injection and moves (R416 to R418, R423, R430, R452 to R454) -/

/-- One bit of a word, as a field. -/
theorem extractLsb_bit {w : Nat} (v : BitVec w) (k : Nat) : v.extractLsb' k 1 = BitVec.ofBool (v.getLsbD k) := by
  apply BitVec.eq_of_getLsbD_eq
  intro j hj
  obtain rfl : j = 0 := by omega
  simp

theorem withSignS_eq (neg : Bool) (a : Word) : withSignS neg a = BitVec.ofBool neg ++ a.extractLsb' 0 31 := by
  rw [withSignS, BitVec.setWidth_eq_extractLsb' (by decide)]

theorem withSignD_eq (neg : Bool) (a : DWord) : withSignD neg a = BitVec.ofBool neg ++ a.extractLsb' 0 63 := by
  rw [withSignD, BitVec.setWidth_eq_extractLsb' (by decide)]

theorem ofBool_bne (a b : Bool) : BitVec.ofBool (a != b) = BitVec.ofBool a ^^^ BitVec.ofBool b := by
  cases a <;> cases b <;> decide

section
variable {i : Instr} {s : State} {has : Bool} {rd : Reg}

/-- An instruction that writes a single-precision pattern of bits and raises no flag. -/
theorem singleDone_bits (v : State → Word) {w : Word} (hr : FpReady s has)
    (guarded : exec i s = fpLegal has i s fun s => retire 4 ((s.setS rd (v s)).fpDone 0)) (value : v s = w) :
    SingleDone i s rd ⟨w.toNat, 0⟩ := by
  rw [SingleDone, exec_fpLegal hr guarded, ← value, BitVec.ofNat_toNat, BitVec.setWidth_eq]
  exact retire_setF_done s rd _ 0 4

/-- An instruction that writes a double-precision pattern of bits and raises no flag. -/
theorem doubleDone_bits (v : State → DWord) {w : DWord} (hr : FpReady s has)
    (guarded : exec i s = fpLegal has i s fun s => retire 4 ((s.setF rd (v s)).fpDone 0)) (value : v s = w) :
    DoubleDone i s rd ⟨w.toNat, 0⟩ := by
  rw [DoubleDone, exec_fpLegal hr guarded, ← value, BitVec.ofNat_toNat, BitVec.setWidth_eq]
  exact retire_setF_done s rd _ 0 4

/-- An instruction that writes an integer register and raises no flag. -/
theorem fxDone_bits (v : State → Word) {w : Word} (hr : FpReady s has)
    (guarded : exec i s = fpLegal has i s fun s => finishX rd (v s) 0 s) (value : v s = w) :
    ∃ t, exec i s = .next t ∧ DoneFx s t rd w 0 (s.pc + 4) := by
  rw [exec_fpLegal hr guarded, ← value]
  exact finishX_done s rd _ 0

end

/-- Settles O21: each writes a pattern of bits and no flag. -/
theorem signAndMoveResults : Obligations.SignAndMoveResults := by
  unfold Obligations.SignAndMoveResults
  intro s rd rs1 rs2
  simp only [extractLsb_bit]
  refine ⟨fun hr => ⟨?sgnjS, ?sgnjnS, ?sgnjxS, ?mvXW, ?mvWX⟩, fun hr => ⟨?sgnjD, ?sgnjnD, ?sgnjxD⟩⟩
  case sgnjS =>
    exact singleDone_bits (fun t => withSignS ((t.getS rs2).getLsbD 31) (t.getS rs1)) hr rfl (withSignS_eq _ _)
  case sgnjnS =>
    exact singleDone_bits (fun t => withSignS (!(t.getS rs2).getLsbD 31) (t.getS rs1)) hr rfl
      (by rw [withSignS_eq, BitVec.not_ofBool])
  case sgnjxS =>
    exact singleDone_bits (fun t => withSignS ((t.getS rs1).getLsbD 31 != (t.getS rs2).getLsbD 31) (t.getS rs1)) hr rfl
      (by rw [withSignS_eq, ofBool_bne])
  case mvXW => exact fxDone_bits (fun t => (t.getF rs1).setWidth 32) hr rfl (BitVec.setWidth_eq_extractLsb' (by decide))
  case mvWX =>
    rw [exec_fpLegal (i := .fmvWX rd rs1) (run := fun s => retire 4 ((s.setS rd (s.getX rs1)).fpDone 0)) hr rfl]
    exact retire_setF_done s rd _ 0 4
  case sgnjD =>
    exact doubleDone_bits (fun t => withSignD ((t.getF rs2).getLsbD 63) (t.getF rs1)) hr rfl (withSignD_eq _ _)
  case sgnjnD =>
    exact doubleDone_bits (fun t => withSignD (!(t.getF rs2).getLsbD 63) (t.getF rs1)) hr rfl
      (by rw [withSignD_eq, BitVec.not_ofBool])
  case sgnjxD =>
    exact doubleDone_bits (fun t => withSignD ((t.getF rs1).getLsbD 63 != (t.getF rs2).getLsbD 63) (t.getF rs1)) hr rfl
      (by rw [withSignD_eq, ofBool_bne])

end Sys2Proof.Machine

/-! PROOFS. The statements of 44_rv32f.md and 45_rv32d.md about minimum and maximum (O22), comparisons (O23), classes (O24)
and illegal rounding modes (O26). -/

namespace Sys2Proof.Machine

/-! ### Minimum and maximum (R419, R420, R455, R456) -/

theorem isSignaling_of_not_nan {v : FVal} (h : v.isNan = false) : v.isSignaling = false := by
  cases v with
  | nan b => cases h
  | inf b => rfl
  | fin b m e => rfl

section
variable (f : FFmt) (variant : FminmaxVariant) (pick : Nat → Nat → Nat) {a b : Nat}

theorem fMinMax_nans (ha : (f.unpack a).isNan = true) (hb : (f.unpack b).isNan = true) :
    fMinMax f variant pick a b = .nan f ((f.unpack a).isSignaling || (f.unpack b).isSignaling) := by
  simp [fMinMax, ha, hb]

/-- A signaling NaN, in the older variant. -/
theorem fMinMax_signaling (h : ((f.unpack a).isSignaling || (f.unpack b).isSignaling) = true) :
    fMinMax f .v20 pick a b = .nan f true := by
  simp [fMinMax, h]

/-- A NaN and a number, but for a signaling one in the older variant. -/
theorem fMinMax_nan_left (ha : (f.unpack a).isNan = true) (hb : (f.unpack b).isNan = false)
    (h : (f.unpack a).isSignaling = false ∨ variant = .v22) :
    fMinMax f variant pick a b = ⟨b, flagIf (f.unpack a).isSignaling flagNV⟩ := by
  have hs := isSignaling_of_not_nan hb
  rcases h with h | rfl <;> simp [fMinMax, *]

theorem fMinMax_nan_right (ha : (f.unpack a).isNan = false) (hb : (f.unpack b).isNan = true)
    (h : (f.unpack b).isSignaling = false ∨ variant = .v22) :
    fMinMax f variant pick a b = ⟨a, flagIf (f.unpack b).isSignaling flagNV⟩ := by
  have hs := isSignaling_of_not_nan ha
  rcases h with h | rfl <;> simp [fMinMax, *]

/-- Two numbers: one of them, bit for bit, and no flag. -/
theorem fMinMax_numbers (ha : (f.unpack a).isNan = false) (hb : (f.unpack b).isNan = false) :
    fMinMax f variant pick a b = ⟨pick a b, 0⟩ := by
  simp [fMinMax, ha, hb, isSignaling_of_not_nan]

/-- NV is raised for a signaling NaN and for nothing else. -/
theorem fMinMax_flags :
    (fMinMax f variant pick a b).flags = flagIf ((f.unpack a).isSignaling || (f.unpack b).isSignaling) flagNV := by
  cases ha : (f.unpack a).isNan <;> cases hb : (f.unpack b).isNan
  case false.false => simp [fMinMax_numbers f variant pick ha hb, isSignaling_of_not_nan, ha, hb, flagIf]
  case true.true => rw [fMinMax_nans f variant pick ha hb, FOut.nan]
  all_goals
    cases variant
    case v22 => simp [fMinMax_nan_left, fMinMax_nan_right, ha, hb, isSignaling_of_not_nan]
    case v20 =>
      cases h : ((f.unpack a).isSignaling || (f.unpack b).isSignaling)
      case true => rw [fMinMax_signaling f pick h, FOut.nan]
      case false =>
        obtain ⟨h1, h2⟩ := Bool.or_eq_false_iff.1 h
        simp [fMinMax_nan_left, fMinMax_nan_right, ha, hb, h1, h2]

/-- With a NaN the choice between two numbers plays no part. -/
theorem fMinMax_nan : MinMaxNan f variant a b (fMinMax f variant pick a b) := by
  refine ⟨fun ha hb => ?both, fun h => ⟨?raised, ?older⟩, fun ha hb => ?quiet, fun ha hb h => ?left, fun hb ha h => ?right⟩
  case both => rw [fMinMax_nans f variant pick ha hb, FOut.nan]
  case raised => rw [fMinMax_flags, Bool.or_eq_true_iff.2 h, flagIf, if_pos rfl]
  case older =>
    rintro rfl
    rw [fMinMax_signaling f pick (Bool.or_eq_true_iff.2 h), FOut.nan]
  case quiet => rw [fMinMax_flags, ha, hb]; rfl
  case left => rw [fMinMax_nan_left f variant pick ha hb h]
  case right => rw [fMinMax_nan_right f variant pick ha hb h]

end

section
variable {f : FFmt} (hE : 1 ≤ f.expBits) (variant : FminmaxVariant) (a b : Nat)
include hE

/-- The smaller in the order of the encodings is the smaller number. -/
theorem fMinMax_isMin : IsMin f variant a b (fMinMax f variant f.smaller a b) := by
  refine ⟨fMinMax_nan f variant _, fun ha hb => ?_⟩
  rw [fMinMax_numbers f variant _ ha hb, place_lt_iff f hE a b ha hb, place_lt_iff f hE b a hb ha,
    place_eq_iff f hE a b ha hb, isNeg_unpack f a ha]
  refine ⟨fun h => ?_, fun h => ?_, fun h => ?_⟩ <;> simp [FFmt.smaller, h, h.not_gt]

/-- The larger in the order of the encodings is the larger number. -/
theorem fMinMax_isMax : IsMax f variant a b (fMinMax f variant f.larger a b) := by
  refine ⟨fMinMax_nan f variant _, fun ha hb => ?_⟩
  rw [fMinMax_numbers f variant _ ha hb, place_lt_iff f hE a b ha hb, place_lt_iff f hE b a hb ha,
    place_eq_iff f hE a b ha hb, isNeg_unpack f a ha]
  refine ⟨fun h => ?_, fun h => ?_, fun h => ?_⟩ <;> simp [FFmt.larger, h, h.not_gt]

end

section
variable {i : Instr} {s : State} {has : Bool} {rd : Reg}

/-- An instruction that writes a single-precision result. -/
theorem singleDone_of_ready (op : State → FOut) (hr : FpReady s has)
    (guarded : exec i s = fpLegal has i s fun s => finishS rd (op s) s) : SingleDone i s rd (op s) := by
  rw [SingleDone, exec_fpLegal hr guarded]
  exact finishS_done s rd _

/-- An instruction that writes a double-precision result. -/
theorem doubleDone_of_ready (op : State → FOut) (hr : FpReady s has)
    (guarded : exec i s = fpLegal has i s fun s => finishD rd (op s) s) : DoubleDone i s rd (op s) := by
  rw [DoubleDone, exec_fpLegal hr guarded]
  exact finishD_done s rd _

end

/-- FMIN.S or FMAX.S, by the choice between two numbers. -/
def State.minMaxS (s : State) (rs1 rs2 : Reg) (pick : Nat → Nat → Nat) : FOut :=
  fMinMax fmtS s.cfg.fminmaxVariant pick (s.getS rs1).toNat (s.getS rs2).toNat

/-- FMIN.D or FMAX.D, by the choice between two numbers. -/
def State.minMaxD (s : State) (rs1 rs2 : Reg) (pick : Nat → Nat → Nat) : FOut :=
  fMinMax fmtD s.cfg.fminmaxVariant pick (s.getF rs1).toNat (s.getF rs2).toNat

/-- Settles O22: the results are those of the operation, which chooses by the order of the encodings. -/
theorem minMaxResults : Obligations.MinMaxResults := by
  unfold Obligations.MinMaxResults
  refine fun s rd rs1 rs2 =>
    ⟨fun hr => ⟨s.minMaxS rs1 rs2 fmtS.smaller, s.minMaxS rs1 rs2 fmtS.larger, ?minS, ?maxS, ?isMinS, ?isMaxS⟩,
      fun hr => ⟨s.minMaxD rs1 rs2 fmtD.smaller, s.minMaxD rs1 rs2 fmtD.larger, ?minD, ?maxD, ?isMinD, ?isMaxD⟩⟩
  case minS => exact singleDone_of_ready (fun t => t.minMaxS rs1 rs2 fmtS.smaller) hr rfl
  case maxS => exact singleDone_of_ready (fun t => t.minMaxS rs1 rs2 fmtS.larger) hr rfl
  case isMinS => exact fMinMax_isMin (by decide) _ _ _
  case isMaxS => exact fMinMax_isMax (by decide) _ _ _
  case minD => exact doubleDone_of_ready (fun t => t.minMaxD rs1 rs2 fmtD.smaller) hr rfl
  case maxD => exact doubleDone_of_ready (fun t => t.minMaxD rs1 rs2 fmtD.larger) hr rfl
  case isMinD => exact fMinMax_isMin (by decide) _ _ _
  case isMaxD => exact fMinMax_isMax (by decide) _ _ _

/-! ### Comparisons (R424 to R426, R435, R459 to R461) -/

section
variable (f : FFmt) (signals : Bool) (cmp : Int → Int → Bool) {a b : Nat}

theorem fCompare_nan (h : (f.unpack a).isNan = true ∨ (f.unpack b).isNan = true) :
    fCompare f signals cmp a b =
      (false, flagIf (signals || (f.unpack a).isSignaling || (f.unpack b).isSignaling) flagNV) := by
  rw [fCompare, if_pos (Bool.or_eq_true_iff.2 h)]

theorem fCompare_numbers (ha : (f.unpack a).isNan = false) (hb : (f.unpack b).isNan = false) :
    fCompare f signals cmp a b = (cmp (f.order a) (f.order b), 0) := by
  simp [fCompare, ha, hb]

theorem fCompare_flags_quiet :
    (fCompare f false cmp a b).2 = flagIf ((f.unpack a).isSignaling || (f.unpack b).isSignaling) flagNV := by
  by_cases h : (f.unpack a).isNan = true ∨ (f.unpack b).isNan = true
  · rw [fCompare_nan f false cmp h, Bool.false_or]
  · simp only [not_or, Bool.not_eq_true] at h
    obtain ⟨ha, hb⟩ := h
    rw [fCompare_numbers f false cmp ha hb, isSignaling_of_not_nan ha, isSignaling_of_not_nan hb]
    rfl

theorem fCompare_flags_signals :
    (fCompare f true cmp a b).2 = flagIf ((f.unpack a).isNan || (f.unpack b).isNan) flagNV := by
  by_cases h : (f.unpack a).isNan = true ∨ (f.unpack b).isNan = true
  · rw [fCompare_nan f true cmp h, Bool.or_eq_true_iff.2 h, Bool.true_or, Bool.true_or]
  · simp only [not_or, Bool.not_eq_true] at h
    obtain ⟨ha, hb⟩ := h
    rw [fCompare_numbers f true cmp ha hb, ha, hb]
    rfl

end

/-- What a comparison instruction writes, by the comparison of the encodings. -/
theorem compareDone_of_run {i : Instr} {s : State} {rd : Reg} {f : FFmt} {signals invalid : Bool}
    {cmp : Int → Int → Bool} {holds : Prop} {a b : Nat}
    (run : exec i s = finishX rd (flagWord (fCompare f signals cmp a b).1) (fCompare f signals cmp a b).2 s)
    (flags : (fCompare f signals cmp a b).2 = flagIf invalid flagNV)
    (number : (f.unpack a).isNan = false → (f.unpack b).isNan = false →
      (cmp (f.order a) (f.order b) = true ↔ holds)) :
    CompareDone i s rd (f.unpack a) (f.unpack b) holds invalid := by
  obtain ⟨t, ht, hdone⟩ := finishX_done s rd (flagWord (fCompare f signals cmp a b).1) (fCompare f signals cmp a b).2
  rw [flags] at hdone
  refine ⟨t, _, run.trans ht, hdone, fun h => ?nan, fun ha hb => ?numbers⟩
  case nan => rw [fCompare_nan f signals cmp h]; rfl
  case numbers =>
    rw [fCompare_numbers f signals cmp ha hb, ← number ha hb]
    cases cmp (f.order a) (f.order b) <;> simp [flagWord]

section
variable {f : FFmt} {i : Instr} {s : State} {rd : Reg} {a b : Nat} (hE : 1 ≤ f.expBits)
include hE

/-- Equality raises NV for a signaling NaN only (R424, R459). -/
theorem compareDone_eq
    (run : exec i s = finishX rd (flagWord (fCompare f false cmpEq a b).1) (fCompare f false cmpEq a b).2 s) :
    CompareDone i s rd (f.unpack a) (f.unpack b) ((f.unpack a).place = (f.unpack b).place)
      ((f.unpack a).isSignaling || (f.unpack b).isSignaling) :=
  compareDone_of_run run (fCompare_flags_quiet f cmpEq) fun ha hb => by
    rw [place_eq_iff f hE a b ha hb, cmpEq, decide_eq_true_iff]

/-- An order raises NV for every NaN (R425, R460). -/
theorem compareDone_lt
    (run : exec i s = finishX rd (flagWord (fCompare f true cmpLt a b).1) (fCompare f true cmpLt a b).2 s) :
    CompareDone i s rd (f.unpack a) (f.unpack b) ((f.unpack a).place < (f.unpack b).place)
      ((f.unpack a).isNan || (f.unpack b).isNan) :=
  compareDone_of_run run (fCompare_flags_signals f cmpLt) fun ha hb => by
    rw [place_lt_iff f hE a b ha hb, cmpLt, decide_eq_true_iff]

theorem compareDone_le
    (run : exec i s = finishX rd (flagWord (fCompare f true cmpLe a b).1) (fCompare f true cmpLe a b).2 s) :
    CompareDone i s rd (f.unpack a) (f.unpack b) ((f.unpack a).place ≤ (f.unpack b).place)
      ((f.unpack a).isNan || (f.unpack b).isNan) :=
  compareDone_of_run run (fCompare_flags_signals f cmpLe) fun ha hb => by
    rw [order_le f hE a b ha hb, cmpLe, decide_eq_true_iff]

end

/-- Settles O23: the order of the encodings is the order of the numbers. -/
theorem compareResults : Obligations.CompareResults := by
  unfold Obligations.CompareResults
  intro s rd rs1 rs2
  refine ⟨?single, ?double⟩
  case single =>
    rintro hr _ _ rfl rfl
    exact ⟨compareDone_eq (by decide) (exec_fpLegal (run := compareS false cmpEq rd rs1 rs2) hr rfl),
      compareDone_lt (by decide) (exec_fpLegal (run := compareS true cmpLt rd rs1 rs2) hr rfl),
      compareDone_le (by decide) (exec_fpLegal (run := compareS true cmpLe rd rs1 rs2) hr rfl)⟩
  case double =>
    rintro hr _ _ rfl rfl
    exact ⟨compareDone_eq (by decide) (exec_fpLegal (run := compareD false cmpEq rd rs1 rs2) hr rfl),
      compareDone_lt (by decide) (exec_fpLegal (run := compareD true cmpLt rd rs1 rs2) hr rfl),
      compareDone_le (by decide) (exec_fpLegal (run := compareD true cmpLe rd rs1 rs2) hr rfl)⟩

/-! ### Classes (R427, R462) -/

/-- Settles O24: the class is read from the fields of the encoding. -/
theorem classResults : Obligations.ClassResults := by
  unfold Obligations.ClassResults
  refine fun s rd rs1 => ⟨fun hr => ?single, fun hr => ?double⟩
  case single =>
    obtain ⟨k, hk, hclass⟩ := fClass_isClass fmtS (s.getS rs1).toNat ((s.getS rs1).extractLsb' 31 1)
      ((s.getS rs1).extractLsb' 23 8) ((s.getS rs1).extractLsb' 0 23) (extractLsb_bit _ _)
      (BitVec.extractLsb'_toNat ..) (by simp [fmtS])
    obtain ⟨t, ht, hdone⟩ :=
      fxDone_bits (i := .fclassS rd rs1) (rd := rd) (fun t => fClass fmtS (t.getS rs1).toNat) hr rfl hk
    exact ⟨t, k, ht, hdone, hclass⟩
  case double =>
    obtain ⟨k, hk, hclass⟩ := fClass_isClass fmtD (s.getF rs1).toNat ((s.getF rs1).extractLsb' 63 1)
      ((s.getF rs1).extractLsb' 52 11) ((s.getF rs1).extractLsb' 0 52) (extractLsb_bit _ _)
      (BitVec.extractLsb'_toNat ..) (by simp [fmtD])
    obtain ⟨t, ht, hdone⟩ :=
      fxDone_bits (i := .fclassD rd rs1) (rd := rd) (fun t => fClass fmtD (t.getF rs1).toNat) hr rfl hk
    exact ⟨t, k, ht, hdone, hclass⟩

/-! ### Illegal rounding modes (R402) -/

theorem resolveRm_none {rm frm : BitVec 3}
    (h : rm = 5#3 ∨ rm = 6#3 ∨ (rm = 7#3 ∧ (frm = 5#3 ∨ frm = 6#3 ∨ frm = 7#3))) : resolveRm rm frm = none := by
  rcases h with rfl | rfl | ⟨rfl, rfl | rfl | rfl⟩ <;> rfl

/-- With a rounding mode that is none the instruction is illegal, whatever it computes. -/
theorem fpRounded_none {has : Bool} {s : State} {rm : BitVec 3} (hr : FpReady s has)
    (hm : resolveRm rm s.csr.fcsr.frm = none) (i : Instr) (run : RMode → State → Out) :
    fpRounded has i rm s run = illegal i s := by
  rw [fpRounded, fpLegal_ready hr, hm]

/-- Every instruction with a rounding-mode field checks it before it does anything. -/
theorem RoundingField.exec_illegal {s : State} {i : Instr} {rm : BitVec 3} {has : Bool}
    (h : RoundingField s.cfg i rm has) (hr : FpReady s has) (hm : resolveRm rm s.csr.fcsr.frm = none) :
    exec i s = illegal i s := by
  cases h <;> (delta exec; exact fpRounded_none hr hm ..)

/-- Settles O26: the check of the field comes before the operation. -/
theorem illegalRoundingModes : Obligations.IllegalRoundingModes := by
  unfold Obligations.IllegalRoundingModes
  intro s i rm has hfield hr hp hm
  rw [hfield.exec_illegal hr (resolveRm_none hm)]
  exact illegal_taken i s hp

end Sys2Proof.Machine

/-! PROOFS. The statement of 44_rv32f.md about NaNs, infinities, zeros and results that are exactly zero (O20). -/

namespace Sys2Proof.Machine

/-! ### Finite values -/

theorem exists_fin_of_isFin {v : FVal} (h : v.isFin = true) : ∃ n m e, v = .fin n m e := by
  cases v with
  | nan b => cases h
  | inf b => cases h
  | fin n m e => exact ⟨n, m, e, rfl⟩

theorem num_eq_zero_iff {n : Bool} {m : Nat} {e : Int} : (FVal.fin n m e).num = 0 ↔ m = 0 := by
  cases n <;> simp [FVal.num, zpow_ne_zero]

theorem sign_of_num_pos {n : Bool} {m : Nat} {e : Int} (h : 0 < (FVal.fin n m e).num) : n = false := by
  cases n with
  | false => rfl
  | true =>
    have hm : (0 : ℚ) ≤ m * 2 ^ e := by positivity
    simp only [FVal.num, if_true] at h
    linarith

theorem num_negate (v : FVal) : v.negate.num = -v.num := by
  rcases v with b | b | ⟨_ | _, m, e⟩ <;> simp [FVal.negate, FVal.num]

theorem isNan_negate (v : FVal) : v.negate.isNan = v.isNan := by cases v <;> rfl

theorem isSignaling_negate (v : FVal) : v.negate.isSignaling = v.isSignaling := by cases v <;> rfl

/-! ### Sums and products of finite operands (R403, R407 to R413) -/

/-- A signed magnitude in units of `2^q`, where `q` is not above its exponent. -/
def unitsOf (n : Bool) (m : Nat) (e q : Int) : Int :=
  if n then -((m <<< (e - q).toNat : Nat) : Int) else (m <<< (e - q).toNat : Nat)

theorem num_eq_unitsOf (n : Bool) (m : Nat) {e q : Int} (h : q ≤ e) :
    (FVal.fin n m e).num = (unitsOf n m e q : ℚ) * 2 ^ q := by
  have hpow : (2 : ℚ) ^ e = 2 ^ (e - q).toNat * 2 ^ q := by
    rw [← zpow_natCast, Int.toNat_of_nonneg (by omega), ← zpow_add₀ (by norm_num), Int.sub_add_cancel]
  cases n <;> simp [FVal.num, unitsOf, Nat.shiftLeft_eq, hpow, mul_assoc]

section
variable (f : FFmt) (rm : RMode) (n1 : Bool) (m1 : Nat) (e1 : Int) (n2 : Bool) (m2 : Nat) (e2 : Int)

/-- The exact sum, in units of the smaller of the two last places. -/
def sumUnits : Int := unitsOf n1 m1 e1 (min e1 e2) + unitsOf n2 m2 e2 (min e1 e2)

theorem num_add_eq_sumUnits :
    (FVal.fin n1 m1 e1).num + (FVal.fin n2 m2 e2).num = (sumUnits n1 m1 e1 n2 m2 e2 : ℚ) * 2 ^ min e1 e2 := by
  rw [num_eq_unitsOf n1 m1 (min_le_left e1 e2), num_eq_unitsOf n2 m2 (min_le_right e1 e2), sumUnits]
  push_cast
  ring

theorem sumUnits_eq_zero_iff :
    sumUnits n1 m1 e1 n2 m2 e2 = 0 ↔ (FVal.fin n1 m1 e1).num + (FVal.fin n2 m2 e2).num = 0 := by
  rw [num_add_eq_sumUnits]
  simp [zpow_ne_zero]

/-- A sum that is not zero is the exact sum, rounded. -/
theorem addFin_nonzero (h : sumUnits n1 m1 e1 n2 m2 e2 ≠ 0) :
    addFin f rm n1 m1 e1 n2 m2 e2 =
      roundTo f rm (decide (sumUnits n1 m1 e1 n2 m2 e2 < 0)) (sumUnits n1 m1 e1 n2 m2 e2).natAbs (min e1 e2) :=
  if_neg h

/-- A sum of two numbers of one sign is zero when both are. -/
theorem addFin_zero (h : (FVal.fin n1 m1 e1).num + (FVal.fin n2 m2 e2).num = 0) :
    addFin f rm n1 m1 e1 n2 m2 e2 = .zero f (if n1 = n2 then n1 else rm == .rdn) := by
  have hsum : sumUnits n1 m1 e1 n2 m2 e2 = 0 := (sumUnits_eq_zero_iff ..).2 h
  have hm : n1 = n2 → m1 = 0 := by
    rintro rfl
    have hshift : m1 <<< (e1 - min e1 e2).toNat = 0 := by
      rw [sumUnits, unitsOf, unitsOf] at hsum
      generalize m1 <<< (e1 - min e1 e2).toNat = a, m2 <<< (e2 - min e1 e2).toNat = b at hsum ⊢
      split at hsum <;> omega
    simpa [Nat.shiftLeft_eq] using hshift
  refine (if_pos hsum).trans (congrArg (FOut.zero f) ?_)
  by_cases hn : n1 = n2
  · rw [if_pos ⟨hn, hm hn⟩, if_pos hn]
  · rw [if_neg fun h => hn h.1, if_neg hn]

theorem num_mul :
    (FVal.fin (n1 != n2) (m1 * m2) (e1 + e2)).num = (FVal.fin n1 m1 e1).num * (FVal.fin n2 m2 e2).num := by
  simp only [FVal.num, zpow_add₀ (two_ne_zero' ℚ), Nat.cast_mul]
  cases n1 <;> cases n2 <;> simp <;> ring

end

theorem roundTo_zero (f : FFmt) (rm : RMode) (neg : Bool) (e : Int) : roundTo f rm neg 0 e = .zero f neg := if_pos rfl

/-! ### NaN operands (R401, R403) -/

section
variable (f : FFmt) (rm : RMode) {x y z : FVal}

theorem fAdd_nan (h : x.isNan = true ∨ y.isNan = true) : fAdd f rm x y = .nan f (x.isSignaling || y.isSignaling) :=
  if_pos (Bool.or_eq_true_iff.2 h)

theorem fSub_nan (h : x.isNan = true ∨ y.isNan = true) : fSub f rm x y = .nan f (x.isSignaling || y.isSignaling) := by
  rw [fSub, fAdd_nan f rm (by rwa [isNan_negate]), isSignaling_negate]

theorem fMul_nan (h : x.isNan = true ∨ y.isNan = true) : fMul f rm x y = .nan f (x.isSignaling || y.isSignaling) :=
  if_pos (Bool.or_eq_true_iff.2 h)

theorem fDiv_nan (h : x.isNan = true ∨ y.isNan = true) : fDiv f rm x y = .nan f (x.isSignaling || y.isSignaling) := by
  cases x <;> cases y <;> simp_all [fDiv, FVal.isNan, FVal.isSignaling]

theorem fFma_nan (h : x.isNan = true ∨ y.isNan = true) :
    fFma f rm x y z = .nan f (x.isSignaling || y.isSignaling || z.isSignaling) :=
  if_pos (Bool.or_eq_true_iff.2 h)

/-- A multiply-add of numbers whose product is defined: the product first, then the sum. -/
theorem fFma_of_product {p : FVal} (hx : x.isNan = false) (hy : y.isNan = false) (hp : mulVals x y = some p) :
    fFma f rm x y z = if z.isNan then .nan f z.isSignaling else addVals f rm p z := by
  have hsx : x.isSignaling = false := by cases x <;> first | rfl | cases hx
  have hsy : y.isSignaling = false := by cases y <;> first | rfl | cases hy
  simp only [fFma, hx, hy, hp, hsx, hsy, Bool.or_self, Bool.false_or, Bool.false_eq_true, if_false]

/-- An infinite product has the sign of its factors. -/
theorem InfProduct.mulVals (h : InfProduct x y) :
    x.isNan = false ∧ y.isNan = false ∧ mulVals x y = some (.inf (x.isNeg != y.isNeg)) := by
  cases h with
  | both a b => exact ⟨rfl, rfl, rfl⟩
  | left a b m e h => exact ⟨rfl, rfl, if_neg h⟩
  | right a b m e h => exact ⟨rfl, rfl, if_neg h⟩

theorem fFma_infProduct (h : InfProduct x y) :
    (z.isFin = true ∨ z = .inf (x.isNeg != y.isNeg) →
      fFma f rm x y z = ⟨f.signBits (x.isNeg != y.isNeg) + f.infBits, 0⟩) ∧
    (z = .inf (!(x.isNeg != y.isNeg)) → fFma f rm x y z = .nan f true) ∧
    (z.isNan = true → fFma f rm x y z = .nan f z.isSignaling) := by
  obtain ⟨hx, hy, hp⟩ := h.mulVals
  rw [fFma_of_product f rm hx hy hp]
  generalize (x.isNeg != y.isNeg) = neg
  refine ⟨?_, ?_, fun hz => if_pos hz⟩
  · rintro (hz | rfl)
    · obtain ⟨n, m, e, rfl⟩ := exists_fin_of_isFin hz
      rfl
    · exact if_pos rfl
  · rintro rfl
    cases neg <;> rfl

end

/-- Settles O20: each operation asks for NaNs first, then for infinities, and rounds what is left. -/
theorem specialOperands : Obligations.SpecialOperands := by
  unfold Obligations.SpecialOperands
  refine ⟨by decide, by decide, fun f rm x y z a b m e e' => ?_⟩
  refine ⟨fun h => ⟨fAdd_nan f rm h, fSub_nan f rm h, fMul_nan f rm h, fDiv_nan f rm h, fFma_nan f rm h⟩, ?fmaNan,
    ?sqrtNan, ?opposed, ?same, rfl, rfl, fun _ _ => rfl, ?sum, rfl, rfl, ?infTimes, rfl, ?zeroTimes, ?timesZero, rfl, rfl,
    fFma_infProduct f rm, ?infAddend, ?fmaZero, rfl, rfl, ?byZero, rfl, rfl, ?zeroBy, rfl, ?sqrtNeg, ?sqrtInf, rfl⟩
  case fmaNan =>
    intro hx hy hz
    obtain ⟨n1, m1, e1, rfl⟩ := exists_fin_of_isFin hx
    obtain ⟨n2, m2, e2, rfl⟩ := exists_fin_of_isFin hy
    rw [fFma_of_product f rm rfl rfl rfl, if_pos hz]
  case sqrtNan =>
    intro hx
    cases x with
    | nan s => rfl
    | inf _ | fin _ _ _ => cases hx
  case opposed => cases a <;> rfl
  case same => exact if_pos rfl
  case sum =>
    intro hx hy h
    obtain ⟨n1, m1, e1, rfl⟩ := exists_fin_of_isFin hx
    obtain ⟨n2, m2, e2, rfl⟩ := exists_fin_of_isFin hy
    exact addFin_zero f rm n1 m1 e1 n2 m2 e2 h
  case infTimes =>
    intro hm
    simp only [fMul, mulVals, if_neg hm]
    exact ⟨rfl, rfl⟩
  case zeroTimes =>
    show roundTo f rm (a != b) (0 * m) (e + e') = _
    rw [Nat.zero_mul, roundTo_zero]
    rfl
  case timesZero => rfl
  case infAddend =>
    intro hx hy
    obtain ⟨n1, m1, e1, rfl⟩ := exists_fin_of_isFin hx
    obtain ⟨n2, m2, e2, rfl⟩ := exists_fin_of_isFin hy
    rfl
  case fmaZero =>
    intro hx hy hz h
    obtain ⟨n1, m1, e1, rfl⟩ := exists_fin_of_isFin hx
    obtain ⟨n2, m2, e2, rfl⟩ := exists_fin_of_isFin hy
    obtain ⟨n3, m3, e3, rfl⟩ := exists_fin_of_isFin hz
    rw [← num_mul] at h
    refine (addFin_zero f rm _ _ _ n3 m3 e3 h).trans (congrArg (FOut.zero f) ?_)
    show (if (n1 != n2) = n3 then n1 != n2 else rm == .rdn) = if (n1 != n2) = n3 then n3 else rm == .rdn
    split_ifs with hn
    · exact hn
    · rfl
  case byZero => exact fun hm => if_neg hm
  case zeroBy =>
    intro hm
    refine (if_neg hm).trans ?_
    rw [Nat.zero_shiftLeft, Nat.zero_div, Nat.zero_mod]
    rfl
  case sqrtNeg => exact fun hm => if_neg hm
  case sqrtInf => rw [← Nat.zero_add f.infBits]; rfl
end Sys2Proof.Machine

/-! PROOFS. The statement of 44_rv32f.md about rounding (O18). -/

namespace Sys2Proof.Machine

/-! ### The place of a number -/

theorem abs_signReal_mul (neg : Bool) {a : ℝ} (h : 0 ≤ a) : |signReal neg * a| = a := by
  cases neg <;> simp [signReal, abs_of_nonneg h]

theorem abs_signInt_mul (neg : Bool) (k : ℕ) (b : ℝ) (h : 0 ≤ b) :
    |((signInt neg * (k : ℤ) : ℤ) : ℝ) * b| = k * b := by
  have hkb : (0 : ℝ) ≤ k * b := by positivity
  cases neg <;> simp [signInt, abs_of_nonneg h]

theorem signInt_mul_eq_iff (neg : Bool) (k : ℕ) (b a : ℝ) :
    ((signInt neg * (k : ℤ) : ℤ) : ℝ) * b = signReal neg * a ↔ k * b = a := by
  cases neg <;> simp [signInt, signReal]

theorem signReal_mul_neg_iff (neg : Bool) {a : ℝ} (h : 0 < a) : signReal neg * a < 0 ↔ neg = true := by
  cases neg <;> simp [signReal, h, h.le]

theorem signReal_mul_pos_iff (neg : Bool) {a : ℝ} (h : 0 < a) : 0 < signReal neg * a ↔ neg = false := by
  cases neg <;> simp [signReal, h, h.le]

/-- The leading bit of `m * 2^e` is worth 2 to the power `e + log2 m`. -/
theorem magnitude_bounds {m : ℕ} (hm : m ≠ 0) (e : ℤ) :
    (2 : ℝ) ^ (e + m.log2) ≤ m * 2 ^ e ∧ (m : ℝ) * 2 ^ e < 2 ^ (e + m.log2 + 1) := by
  have hpos : (0 : ℝ) < 2 ^ e := by positivity
  have hlow : ((2 : ℝ) ^ m.log2) ≤ m := by exact_mod_cast Nat.log2_self_le hm
  have hhigh : (m : ℝ) < 2 ^ (m.log2 + 1) := by exact_mod_cast Nat.lt_log2_self (n := m)
  rw [add_assoc, zpow_add₀ two_ne_zero, zpow_add₀ two_ne_zero, mul_comm (m : ℝ)]
  exact ⟨mul_le_mul_of_nonneg_left (by exact_mod_cast hlow) hpos.le,
    mul_lt_mul_of_pos_left (by exact_mod_cast hhigh) hpos⟩

/-- A number has one place. -/
theorem place_unique {a : ℝ} {l l' : ℤ} (h : (2 : ℝ) ^ l ≤ a) (h1 : a < 2 ^ (l + 1)) (h' : (2 : ℝ) ^ l' ≤ a)
    (h1' : a < 2 ^ (l' + 1)) : l = l' := by
  have hlt : l < l' + 1 := (zpow_lt_zpow_iff_right₀ one_lt_two).1 (h.trans_lt h1')
  have hgt : l' < l + 1 := (zpow_lt_zpow_iff_right₀ one_lt_two).1 (h'.trans_lt h1)
  omega

/-! ### The rounded integer -/

section
variable {rm : RMode} {neg : Bool} {m : ℕ} {e q : ℤ} {n : ℕ}

theorem roundAt_close (rm : RMode) (neg : Bool) (m : ℕ) (e q : ℤ) :
    |(m : ℝ) * 2 ^ e / 2 ^ q - (roundAt rm neg m e q).1| < 1 := by
  have h := roundsToInt_close (roundAt_rounds rm neg m e q).1
  have hs : signReal neg * ((m : ℝ) * 2 ^ e / 2 ^ q) - ((signInt neg * ((roundAt rm neg m e q).1 : ℤ) : ℤ) : ℝ) =
      signReal neg * ((m : ℝ) * 2 ^ e / 2 ^ q - (roundAt rm neg m e q).1) := by
    cases neg <;> simp [signReal, signInt]
    ring
  rwa [hs, abs_mul, show |signReal neg| = 1 by cases neg <;> simp [signReal], one_mul] at h

/-- Rounding does not pass a whole number. -/
theorem roundAt_le (h : (m : ℝ) * 2 ^ e < n * 2 ^ q) : (roundAt rm neg m e q).1 ≤ n := by
  have hclose := abs_lt.1 (roundAt_close rm neg m e q)
  have hlt : (m : ℝ) * 2 ^ e / 2 ^ q < n := (div_lt_iff₀ (by positivity)).2 h
  have : ((roundAt rm neg m e q).1 : ℝ) < n + 1 := by linarith [hclose.1]
  exact Nat.lt_succ_iff.1 (by exact_mod_cast this)

theorem le_roundAt (h : (n : ℝ) * 2 ^ q ≤ m * 2 ^ e) : n ≤ (roundAt rm neg m e q).1 := by
  have hclose := abs_lt.1 (roundAt_close rm neg m e q)
  have hle : (n : ℝ) ≤ m * 2 ^ e / 2 ^ q := (le_div_iff₀ (by positivity)).2 h
  have : (n : ℝ) < (roundAt rm neg m e q).1 + 1 := by linarith [hclose.2]
  exact Nat.lt_succ_iff.1 (by exact_mod_cast this)

theorem roundAt_exact_iff (rm : RMode) (neg : Bool) (m : ℕ) (e q : ℤ) :
    (roundAt rm neg m e q).2 = false ↔ ((roundAt rm neg m e q).1 : ℝ) * 2 ^ q = m * 2 ^ e := by
  rw [← Bool.not_eq_true, (roundAt_rounds rm neg m e q).2, not_not, eq_div_iff (by positivity)]

end

/-! ### The parts of a result -/

section
variable (f : FFmt) (rm : RMode) (neg : Bool) (m : ℕ) (e : ℤ)

/-- The exponent of the last bit, with no bound on the exponent. -/
def lastPlace : ℤ := e + m.log2 - f.fracBits

/-- The exponent of the last bit of the result: of a subnormal the smallest. -/
def resultPlace : ℤ := max (lastPlace f m e) f.qMin

/-- The result in units of its last bit. -/
def resultUnits : ℕ := (roundAt rm neg m e (resultPlace f m e)).1

/-- The same with no bound on the exponent. -/
def freeUnits : ℕ := (roundAt rm neg m e (lastPlace f m e)).1

/-- How far above the smallest place that of the result is. -/
def placeOffset : ℕ := (resultPlace f m e - f.qMin).toNat

/-- The result is tiny: with no bound on the exponent it is below the smallest normal number (R403). -/
def isTiny : Bool :=
  decide (lastPlace f m e < f.qMin) &&
    !(decide (lastPlace f m e + 1 = f.qMin) && decide (freeUnits f rm neg m e = 2 ^ (f.fracBits + 1)))

/-- The magnitude bits of a result that does not overflow. -/
def resultBits : ℕ := placeOffset f m e * 2 ^ f.fracBits + resultUnits f rm neg m e

/-- `roundTo` in these parts. -/
theorem roundTo_eq {m : ℕ} (hm : m ≠ 0) :
    roundTo f rm neg m e =
      if f.infBits ≤ resultBits f rm neg m e then
        ⟨f.signBits neg + (if overflowsToInf rm neg then f.infBits else f.infBits - 1), flagOF ||| flagNX⟩
      else
        ⟨f.signBits neg + resultBits f rm neg m e,
          flagIf (roundAt rm neg m e (resultPlace f m e)).2 flagNX |||
            flagIf (isTiny f rm neg m e && (roundAt rm neg m e (resultPlace f m e)).2) flagUF⟩ := by
  rw [roundTo, if_neg hm, resultBits, ← Nat.shiftLeft_eq]
  rfl

section
variable {m : ℕ} (hm : m ≠ 0)
include hm

theorem resultUnits_le : resultUnits f rm neg m e ≤ 2 ^ (f.fracBits + 1) := by
  refine roundAt_le ((magnitude_bounds hm e).2.trans_le ?_)
  rw [Nat.cast_pow, Nat.cast_ofNat, ← zpow_natCast, ← zpow_add₀ two_ne_zero]
  refine zpow_le_zpow_right₀ one_le_two ?_
  have : lastPlace f m e ≤ resultPlace f m e := le_max_left _ _
  rw [lastPlace] at this
  push_cast
  omega

theorem two_pow_le_freeUnits : 2 ^ f.fracBits ≤ freeUnits f rm neg m e := by
  refine le_roundAt (le_trans (le_of_eq ?_) (magnitude_bounds hm e).1)
  rw [Nat.cast_pow, Nat.cast_ofNat, ← zpow_natCast, ← zpow_add₀ two_ne_zero, lastPlace]
  congr 1
  omega

theorem freeUnits_le : freeUnits f rm neg m e ≤ 2 ^ (f.fracBits + 1) := by
  refine roundAt_le ((magnitude_bounds hm e).2.trans_le (le_of_eq ?_))
  rw [Nat.cast_pow, Nat.cast_ofNat, ← zpow_natCast, ← zpow_add₀ two_ne_zero, lastPlace]
  congr 1
  push_cast
  omega

/-- Above the smallest place the result has all its bits. -/
theorem placeOffset_cases : placeOffset f m e = 0 ∨ 2 ^ f.fracBits ≤ resultUnits f rm neg m e := by
  rcases le_total (lastPlace f m e) f.qMin with h | h
  · left
    rw [placeOffset, resultPlace, max_eq_right h]
    omega
  · right
    rw [resultUnits, resultPlace, max_eq_left h]
    exact two_pow_le_freeUnits f rm neg e hm

end

theorem two_zpow_resultPlace : (2 : ℝ) ^ resultPlace f m e = 2 ^ placeOffset f m e * 2 ^ f.qMin := by
  have h : f.qMin ≤ resultPlace f m e := le_max_right _ _
  rw [← zpow_natCast, placeOffset, Int.toNat_of_nonneg (by omega), ← zpow_add₀ two_ne_zero, Int.sub_add_cancel]

end


/-! ### Overflow and underflow (R403) -/

section
variable {f : FFmt} (hf : f = fmtS ∨ f = fmtD) (rm : RMode) (neg : Bool) {m : ℕ} (hm : m ≠ 0) (e : ℤ)

theorem two_zpow_eLimit (f : FFmt) (hE : 2 ≤ 2 ^ f.expBits) :
    (2 : ℝ) ^ f.eLimit = (2 ^ (f.fracBits + (2 ^ f.expBits - 2)) : ℕ) * 2 ^ f.qMin := by
  rw [Nat.cast_pow, Nat.cast_ofNat, ← zpow_natCast, ← zpow_add₀ two_ne_zero, FFmt.eLimit]
  congr 1
  push_cast [Nat.cast_sub hE]
  ring

include hf hm

/-- A result reaches the encoding of infinity when it reaches the limit of the format. -/
theorem overflows_iff :
    f.infBits ≤ resultBits f rm neg m e ↔
      (2 : ℝ) ^ f.eLimit ≤ resultUnits f rm neg m e * 2 ^ resultPlace f m e := by
  have hE : 2 ≤ 2 ^ f.expBits := by rcases hf with rfl | rfl <;> decide
  rw [resultBits, overflow_iff hf (resultUnits_le f rm neg e hm) (placeOffset_cases f rm neg e hm), two_zpow_eLimit f hE,
    two_zpow_resultPlace, ← mul_assoc, mul_le_mul_iff_left₀ (by positivity)]
  exact_mod_cast Iff.rfl

omit hf in
/-- A result is tiny when, with no bound on the exponent, it is below the smallest normal number. -/
theorem isTiny_iff :
    isTiny f rm neg m e = true ↔ (freeUnits f rm neg m e : ℝ) * 2 ^ lastPlace f m e < 2 ^ (f.qMin + f.fracBits) := by
  have hlow := two_pow_le_freeUnits f rm neg e hm
  have hhigh := freeUnits_le f rm neg e hm
  simp only [isTiny, Bool.and_eq_true, decide_eq_true_eq, Bool.not_eq_true', Bool.and_eq_false_imp, decide_eq_false_iff_not]
  generalize freeUnits f rm neg m e = k at *
  generalize lastPlace f m e = q
  have hq : (0 : ℝ) < 2 ^ q := by positivity
  have hlow' : (2 : ℝ) ^ f.fracBits ≤ k := by exact_mod_cast hlow
  have hhigh' : (k : ℝ) ≤ 2 ^ (f.fracBits + 1) := by exact_mod_cast hhigh
  rcases lt_trichotomy (q + 1) f.qMin with h | h | h
  · refine iff_of_true ⟨by omega, fun h' => absurd h' h.ne⟩ ?_
    calc (k : ℝ) * 2 ^ q ≤ 2 ^ (f.fracBits + 1) * 2 ^ q := mul_le_mul_of_nonneg_right hhigh' hq.le
      _ = 2 ^ ((f.fracBits : ℤ) + 1 + q) := by rw [zpow_add₀ two_ne_zero]; norm_cast
      _ < 2 ^ (f.qMin + f.fracBits) := zpow_lt_zpow_right₀ one_lt_two (by omega)
  · have hlimit : (2 : ℝ) ^ (f.qMin + f.fracBits) = 2 ^ (f.fracBits + 1) * 2 ^ q := by
      rw [← h, show q + 1 + f.fracBits = (f.fracBits : ℤ) + 1 + q by ring, zpow_add₀ two_ne_zero]; norm_cast
    rw [hlimit, mul_lt_mul_iff_left₀ hq]
    constructor
    · rintro ⟨-, hk⟩
      exact_mod_cast lt_of_le_of_ne hhigh (hk h)
    · intro hk
      have : k < 2 ^ (f.fracBits + 1) := by exact_mod_cast hk
      exact ⟨by omega, fun _ => by omega⟩
  · refine iff_of_false (fun h' => by omega) (not_lt.2 ?_)
    calc (2 : ℝ) ^ (f.qMin + f.fracBits) ≤ 2 ^ ((f.fracBits : ℤ) + q) := zpow_le_zpow_right₀ one_le_two (by omega)
      _ = 2 ^ f.fracBits * 2 ^ q := by rw [zpow_add₀ two_ne_zero]; norm_cast
      _ ≤ k * 2 ^ q := mul_le_mul_of_nonneg_right hlow' hq.le

omit hm in
theorem unpack_inf : f.unpack (f.signBits neg + f.infBits) = .inf neg := by
  rw [unpack_signBits hf neg _ (by rcases hf with rfl | rfl <;> decide)]
  rcases hf with rfl | rfl <;> rfl

omit hm in
/-- The largest finite number. -/
theorem unpack_largest :
    f.unpack (f.signBits neg + (f.infBits - 1)) =
      .fin neg (2 ^ (f.fracBits + 1) - 1) (f.eLimit - f.fracBits - 1) := by
  rw [unpack_signBits hf neg _ (by rcases hf with rfl | rfl <;> decide)]
  rcases hf with rfl | rfl <;> norm_num [fmtS, fmtD, FFmt.infBits, FFmt.eLimit, FFmt.qMin, Nat.shiftLeft_eq]

end

/-- An overflow gives the largest finite number in the modes that round towards zero there. -/
theorem overflowsToInf_iff {rm : RMode} {neg : Bool} {v : ℝ} (hneg : v < 0 ↔ neg = true) (hpos : 0 < v ↔ neg = false) :
    (rm = .rtz ∨ (rm = .rdn ∧ 0 < v) ∨ (rm = .rup ∧ v < 0)) ↔ overflowsToInf rm neg = false := by
  rw [hneg, hpos]
  cases rm <;> cases neg <;> decide

/-- The flags of a result that does not overflow. -/
theorem flags_eq (inexact tiny : Bool) :
    flagIf inexact flagNX ||| flagIf (tiny && inexact) flagUF =
      if inexact = false then 0 else if tiny = true then flagUF ||| flagNX else flagNX := by
  cases inexact <;> cases tiny <;> decide

section
variable {f : FFmt} (hf : f = fmtS ∨ f = fmtD) {rm : RMode} {neg : Bool} {m : ℕ} (hm : m ≠ 0) {e : ℤ}
include hf hm

/-- Below the limit the result is the rounded number, with the flags of R403. -/
theorem roundTo_below (h : ¬ f.infBits ≤ resultBits f rm neg m e) :
    ∃ m' e', f.unpack (roundTo f rm neg m e).bits = .fin neg m' e' ∧
      (m' : ℝ) * 2 ^ e' = resultUnits f rm neg m e * 2 ^ resultPlace f m e ∧
      (roundTo f rm neg m e).flags =
        if (resultUnits f rm neg m e : ℝ) * 2 ^ resultPlace f m e = m * 2 ^ e then 0
        else if (freeUnits f rm neg m e : ℝ) * 2 ^ lastPlace f m e < 2 ^ (f.qMin + f.fracBits) then flagUF ||| flagNX
        else flagNX := by
  rw [roundTo_eq f rm neg e hm, if_neg h]
  obtain ⟨m', e', hun, hval⟩ := unpack_encoding hf neg _ _ (not_le.1 h) (resultUnits_le f rm neg e hm)
    (placeOffset_cases f rm neg e hm)
  refine ⟨m', e', hun, ?value, ?flags⟩
  case value =>
    have hplace : f.qMin + (placeOffset f m e : ℤ) = resultPlace f m e := by
      have hle : f.qMin ≤ resultPlace f m e := le_max_right _ _
      rw [placeOffset, Int.toNat_of_nonneg (by omega)]
      omega
    rw [hval, hplace]
  case flags =>
    simp only [flags_eq, roundAt_exact_iff, isTiny_iff rm neg hm e]
    rfl

/-- From the limit on it is infinity or the largest finite number. -/
theorem roundTo_above (h : f.infBits ≤ resultBits f rm neg m e) :
    (roundTo f rm neg m e).flags = flagOF ||| flagNX ∧
      f.unpack (roundTo f rm neg m e).bits =
        if overflowsToInf rm neg = false then .fin neg (2 ^ (f.fracBits + 1) - 1) (f.eLimit - f.fracBits - 1)
        else .inf neg := by
  rw [roundTo_eq f rm neg e hm, if_pos h]
  refine ⟨rfl, ?_⟩
  cases overflowsToInf rm neg
  · exact unpack_largest hf neg
  · exact unpack_inf hf neg

end

/-- Settles O18: the place of the number gives the last bit of the result, the rounded integer its bits. -/
theorem roundingIsCorrect : Obligations.RoundingIsCorrect := by
  unfold Obligations.RoundingIsCorrect
  intro f rm neg m e hf hm l q k ku hl hl' hq hk hku
  have hX : (0 : ℝ) < m * 2 ^ e := by positivity
  have hneg := signReal_mul_neg_iff neg hX
  have hpos := signReal_mul_pos_iff neg hX
  rw [num_fin_real] at *
  rw [abs_signReal_mul neg hX.le] at hl hl'
  obtain ⟨hp, hp'⟩ := magnitude_bounds hm e
  obtain rfl : l = e + m.log2 := place_unique hl hl' hp hp'
  obtain rfl : q = resultPlace f m e := by rw [hq, max_comm]; rfl
  rw [mul_div_assoc] at hk hku
  obtain rfl : k = signInt neg * (resultUnits f rm neg m e : ℤ) := roundsToInt_unique hk (roundAt_rounds rm neg m e _).1
  obtain rfl : ku = signInt neg * (freeUnits f rm neg m e : ℤ) := roundsToInt_unique hku (roundAt_rounds rm neg m e _).1
  have hresult := abs_signInt_mul neg (resultUnits f rm neg m e) (2 ^ resultPlace f m e) (by positivity)
  have hfree := abs_signInt_mul neg (freeUnits f rm neg m e) (2 ^ lastPlace f m e) (by positivity)
  have hlimit := overflows_iff hf rm neg hm e
  rw [hresult]
  refine ⟨fun hlt => ?below, fun hle => ?above⟩
  case below =>
    obtain ⟨m', e', hun, hval, hflags⟩ := roundTo_below hf hm (mt hlimit.1 (not_le.2 hlt))
    refine ⟨neg, m', e', hun, hneg.symm, hval, hflags.trans ?_⟩
    simp only [signInt_mul_eq_iff]
    rw [← hfree]
    rfl
  case above =>
    obtain ⟨hflags, hun⟩ := roundTo_above hf hm (hlimit.2 hle)
    refine ⟨hflags, ?_⟩
    simp only [overflowsToInf_iff hneg hpos]
    split_ifs with ho
    · exact ⟨neg, hneg.symm, hun.trans (if_pos ho)⟩
    · exact ⟨neg, hneg.symm, hun.trans (if_neg ho)⟩

end Sys2Proof.Machine

/-! PROOFS. The statement of 44_rv32f.md about arithmetic that is exact and then rounded once (O19). -/

namespace Sys2Proof.Machine

/-! ### Numbers that round alike -/

theorem SameHalves.lt_iff {u u' : ℝ} (h : SameHalves u u') (j : ℤ) : u < j ↔ u' < j := by
  have := (h (2 * j)).1
  push_cast at this
  rwa [mul_div_cancel_left₀ _ two_ne_zero] at this

theorem SameHalves.gt_iff {u u' : ℝ} (h : SameHalves u u') (j : ℤ) : (j : ℝ) < u ↔ (j : ℝ) < u' := by
  have := (h (2 * j)).2
  push_cast at this
  rwa [mul_div_cancel_left₀ _ two_ne_zero] at this

theorem SameHalves.eq_iff {u u' : ℝ} (h : SameHalves u u') (j : ℤ) : u = j ↔ u' = j := by
  have := h.eqv (2 * j)
  push_cast at this
  rwa [mul_div_cancel_left₀ _ two_ne_zero] at this

theorem roundsToInt_iff_of_sameHalves {rm : RMode} {u u' : ℝ} (h : SameHalves u u') {k : ℤ} :
    RoundsToInt rm u k ↔ RoundsToInt rm u' k := ⟨roundsToInt_sameHalves h, roundsToInt_sameHalves h.symm⟩

/-- No half of a unit `2^q`, from the place `p` on, separates the two numbers. -/
def SameFrom (p : ℤ) (v v' : ℝ) : Prop := ∀ q, p ≤ q → SameHalves (v / 2 ^ q) (v' / 2 ^ q)

section
variable {p : ℤ} {v v' : ℝ} (h : SameFrom p v v')
include h

theorem SameFrom.symm : SameFrom p v' v := fun q hq => (h q hq).symm

theorem SameFrom.neg_iff : v < 0 ↔ v' < 0 := by
  have hz := (h p le_rfl).lt_iff 0
  have hpos : (0 : ℝ) < 2 ^ p := by positivity
  rwa [Int.cast_zero, div_lt_iff₀ hpos, div_lt_iff₀ hpos, zero_mul] at hz

theorem SameFrom.pos_iff : 0 < v ↔ 0 < v' := by
  have hz := (h p le_rfl).gt_iff 0
  have hpos : (0 : ℝ) < 2 ^ p := by positivity
  rwa [Int.cast_zero, lt_div_iff₀ hpos, lt_div_iff₀ hpos, zero_mul] at hz

theorem SameFrom.abs_lt_iff {l : ℤ} (hl : p ≤ l) : |v| < 2 ^ l ↔ |v'| < 2 ^ l := by
  have hpos : (0 : ℝ) < 2 ^ l := by positivity
  have hlt := (h l hl).lt_iff 1
  have hgt := (h l hl).gt_iff (-1)
  push_cast at hlt hgt
  rw [div_lt_one hpos, div_lt_one hpos] at hlt
  rw [lt_div_iff₀ hpos, lt_div_iff₀ hpos, neg_one_mul] at hgt
  rw [abs_lt, abs_lt, hlt, hgt]

theorem SameFrom.eq_iff {q : ℤ} (hq : p ≤ q) (k : ℤ) : (k : ℝ) * 2 ^ q = v ↔ (k : ℝ) * 2 ^ q = v' := by
  have hpos : (2 : ℝ) ^ q ≠ 0 := by positivity
  have := (h q hq).eq_iff k
  rwa [div_eq_iff hpos, div_eq_iff hpos, eq_comm, eq_comm (a := v')] at this

/-- Numbers that no half of a unit in the last place separates have the same result. -/
theorem IsRounded.congr {f : FFmt} {rm : RMode} {r : FOut} (hbig : (2 : ℝ) ^ (p + f.fracBits) ≤ |v'|)
    (hr : IsRounded f rm v r) : IsRounded f rm v' r := by
  intro l q k ku hl hl' hq hk hku
  have hp : p + f.fracBits < l + 1 := (zpow_lt_zpow_iff_right₀ one_lt_two).1 (hbig.trans_lt hl')
  have hpq : p ≤ q := by omega
  rw [← not_lt, ← h.abs_lt_iff (by omega), not_lt] at hl
  rw [← h.abs_lt_iff (by omega)] at hl'
  rw [← roundsToInt_iff_of_sameHalves (h _ hpq)] at hk
  rw [← roundsToInt_iff_of_sameHalves (h _ (by omega))] at hku
  have := hr l q k ku hl hl' hq hk hku
  simpa only [h.neg_iff, h.pos_iff, h.eq_iff hpq] using this

end

theorem SameHalves.signed {u u' : ℝ} (h : SameHalves u u') (neg : Bool) :
    SameHalves (signReal neg * u) (signReal neg * u') := by
  cases neg with
  | false => simpa [signReal] using h
  | true => simpa [signReal] using h.neg

/-! ### Operations, rounded -/

/-- An integer in units of `2^e` as a value. -/
theorem num_ofInt (v : ℤ) (e : ℤ) : (FVal.fin (decide (v < 0)) v.natAbs e).num = v * 2 ^ e := by
  rcases lt_or_ge v 0 with h | h
  · simp [FVal.num, h, abs_of_neg]
  · simp [FVal.num, not_lt.2 h, abs_of_nonneg h]

/-- A quotient has enough bits before its sticky bit. -/
theorem two_pow_le_quotient {m1 m2 : ℕ} (f : FFmt) (h1 : m1 ≠ 0) (h2 : m2 ≠ 0) :
    2 ^ (f.fracBits + 1) ≤ (m1 <<< (f.work + m2.log2 + 1)) / m2 := by
  rw [Nat.le_div_iff_mul_le (Nat.pos_of_ne_zero h2), Nat.shiftLeft_eq]
  calc 2 ^ (f.fracBits + 1) * m2 ≤ 2 ^ (f.fracBits + 1) * 2 ^ (m2.log2 + 1) :=
        Nat.mul_le_mul_left _ Nat.lt_log2_self.le
    _ = 2 ^ (f.fracBits + 1 + (m2.log2 + 1)) := (pow_add ..).symm
    _ ≤ 2 ^ (f.work + m2.log2 + 1) := Nat.pow_le_pow_right two_pos (by rw [FFmt.work]; omega)
    _ ≤ m1 * 2 ^ (f.work + m2.log2 + 1) := Nat.le_mul_of_pos_left _ (Nat.pos_of_ne_zero h1)

/-- A root has enough bits before its sticky bit. -/
theorem two_pow_le_isqrt {m k : ℕ} (f : FFmt) (hm : m ≠ 0) (hk : 2 * f.work ≤ k) :
    2 ^ (f.fracBits + 1) ≤ isqrt (m <<< k) := by
  have hbig : 2 ^ f.work * 2 ^ f.work ≤ m <<< k := by
    rw [← pow_add, ← two_mul, Nat.shiftLeft_eq]
    exact (Nat.pow_le_pow_right two_pos hk).trans (Nat.le_mul_of_pos_left _ (Nat.pos_of_ne_zero hm))
  have hroot : 2 ^ f.work < isqrt (m <<< k) + 1 :=
    Nat.mul_self_lt_mul_self_iff.1 (hbig.trans_lt (isqrt_spec (m <<< k)).2)
  exact (Nat.pow_le_pow_right two_pos (by rw [FFmt.work]; omega)).trans (Nat.lt_succ_iff.1 hroot)

section
variable {f : FFmt} (hf : f = fmtS ∨ f = fmtD) (rm : RMode)
include hf

theorem roundTo_isRounded {neg : Bool} {m : ℕ} {e : ℤ} (h : (FVal.fin neg m e).num ≠ 0) :
    IsRounded f rm (((FVal.fin neg m e).num : ℚ) : ℝ) (roundTo f rm neg m e) :=
  roundingIsCorrect f rm neg m e hf (mt num_eq_zero_iff.2 h)

/-- One sticky bit stands for all the bits that were left out: `N` is the whole part of `x`. -/
theorem roundTo_sticky (neg : Bool) {x : ℝ} {N : ℕ} (p : ℤ) {exact : Prop} [Decidable exact]
    (hN : 2 ^ (f.fracBits + 1) ≤ N) (hle : (N : ℝ) ≤ x) (hlt : x < N + 1) (hexact : exact ↔ x = N) :
    IsRounded f rm (signReal neg * (x * 2 ^ p)) (roundTo f rm neg (2 * N + if exact then 0 else 1) (p - 1)) := by
  obtain ⟨y, hy, hval⟩ : ∃ y : ℝ, ((x = N ∧ y = N) ∨ ((N : ℝ) < x ∧ y = N + 1 / 2)) ∧
      ((2 * N + if exact then 0 else 1 : ℕ) : ℝ) * 2 ^ (p - 1) = y * 2 ^ p := by
    rw [zpow_sub_one₀ two_ne_zero]
    by_cases h : exact
    · exact ⟨N, .inl ⟨hexact.1 h, rfl⟩, by rw [if_pos h]; push_cast; ring⟩
    · exact ⟨N + 1 / 2, .inr ⟨lt_of_le_of_ne hle fun hx => h (hexact.2 hx.symm), rfl⟩, by rw [if_neg h]; push_cast; ring⟩
  have hpow : 0 < 2 ^ (f.fracBits + 1) := by positivity
  have hr := roundingIsCorrect f rm neg _ (p - 1) hf (show (2 * N + if exact then 0 else 1) ≠ 0 by omega)
  rw [num_fin_real, hval] at hr
  refine IsRounded.congr (p := p + 1) (fun q hq => ?same) ?big hr
  case same =>
    have hunit : ∀ a : ℝ, signReal neg * (a * 2 ^ p) / 2 ^ q = signReal neg * (a / 2 ^ (q - p).toNat) := fun a => by
      rw [← zpow_natCast, Int.toNat_of_nonneg (by omega), zpow_sub₀ two_ne_zero]
      field_simp
    rw [hunit, hunit]
    exact ((sticky_sameHalves x y N hlt hy _ (by omega)).symm).signed neg
  case big =>
    have hNx : (2 : ℝ) ^ (f.fracBits + 1) ≤ x := le_trans (by exact_mod_cast hN) hle
    have hx : 0 ≤ x * 2 ^ p := mul_nonneg ((by positivity : (0 : ℝ) ≤ _).trans hNx) (by positivity)
    rw [abs_signReal_mul neg hx, show p + 1 + (f.fracBits : ℤ) = (f.fracBits + 1 : ℕ) + p by push_cast; ring,
      zpow_add₀ two_ne_zero, zpow_natCast]
    exact mul_le_mul_of_nonneg_right hNx (by positivity)

theorem addFin_isRounded {n1 n2 : Bool} {m1 m2 : ℕ} {e1 e2 : ℤ}
    (h : (FVal.fin n1 m1 e1).num + (FVal.fin n2 m2 e2).num ≠ 0) :
    IsRounded f rm (((FVal.fin n1 m1 e1).num + (FVal.fin n2 m2 e2).num : ℚ) : ℝ) (addFin f rm n1 m1 e1 n2 m2 e2) := by
  have hsum := mt (sumUnits_eq_zero_iff n1 m1 e1 n2 m2 e2).1 h
  have hnum := num_add_eq_sumUnits n1 m1 e1 n2 m2 e2
  rw [← num_ofInt] at hnum
  rw [addFin_nonzero f rm n1 m1 e1 n2 m2 e2 hsum, hnum]
  exact roundTo_isRounded hf rm (hnum ▸ h)

theorem fDiv_isRounded {n1 n2 : Bool} {m1 m2 : ℕ} {e1 e2 : ℤ} (h1 : m1 ≠ 0) (h2 : m2 ≠ 0) :
    IsRounded f rm (((FVal.fin n1 m1 e1).num / (FVal.fin n2 m2 e2).num : ℚ) : ℝ)
      (fDiv f rm (.fin n1 m1 e1) (.fin n2 m2 e2)) := by
  have hm2 : (0 : ℝ) < m2 := by exact_mod_cast Nat.pos_of_ne_zero h2
  have hbits := two_pow_le_quotient f h1 h2
  generalize hk : f.work + m2.log2 + 1 = k at hbits
  have hresult : fDiv f rm (.fin n1 m1 e1) (.fin n2 m2 e2) =
      roundTo f rm (n1 != n2) (2 * ((m1 <<< k) / m2) + if (m1 <<< k) % m2 = 0 then 0 else 1) (e1 - e2 - k - 1) := by
    rw [← hk]
    exact if_neg h2
  have hvalue : (((FVal.fin n1 m1 e1).num / (FVal.fin n2 m2 e2).num : ℚ) : ℝ) =
      signReal (n1 != n2) * (((m1 <<< k : ℕ) : ℝ) / m2 * 2 ^ (e1 - e2 - k)) := by
    rw [Rat.cast_div, num_fin_real, num_fin_real, Nat.shiftLeft_eq, zpow_sub₀ two_ne_zero, zpow_sub₀ two_ne_zero]
    push_cast
    cases n1 <;> cases n2 <;> simp [signReal] <;> field_simp
  rw [hresult, hvalue]
  refine roundTo_sticky hf rm _ _ hbits Nat.cast_div_le ?_ ?_
  · rw [div_lt_iff₀ hm2]
    exact_mod_cast (mul_comm m2 _).symm ▸ Nat.lt_mul_div_succ (m1 <<< k) (Nat.pos_of_ne_zero h2)
  · rw [div_eq_iff hm2.ne', ← Nat.cast_mul, Nat.cast_inj]
    have := Nat.div_add_mod' (m1 <<< k) m2
    omega

theorem fSqrt_isRounded {m : ℕ} {e : ℤ} (hm : m ≠ 0) :
    IsRounded f rm (Real.sqrt (((FVal.fin false m e).num : ℚ) : ℝ)) (fSqrt f rm (.fin false m e)) := by
  generalize hk : 2 * f.work + (e % 2).toNat = k
  obtain ⟨hle, hlt⟩ := isqrt_spec (m <<< k)
  have hresult : fSqrt f rm (.fin false m e) = roundTo f rm false
      (2 * isqrt (m <<< k) + if isqrt (m <<< k) * isqrt (m <<< k) = m <<< k then 0 else 1) ((e - k) / 2 - 1) := by
    rw [← hk]
    exact if_neg hm
  have hvalue : Real.sqrt (((FVal.fin false m e).num : ℚ) : ℝ) =
      signReal false * (Real.sqrt (m <<< k : ℕ) * 2 ^ ((e - k) / 2)) := by
    have hsquare : (m : ℝ) * 2 ^ e = (m <<< k : ℕ) * (2 ^ ((e - k) / 2)) ^ 2 := by
      have heven : e = k + ((e - k) / 2 + (e - k) / 2) := by omega
      rw [sq, ← zpow_add₀ two_ne_zero, Nat.shiftLeft_eq, Nat.cast_mul, Nat.cast_pow, Nat.cast_ofNat, mul_assoc,
        ← zpow_natCast, ← zpow_add₀ two_ne_zero, ← heven]
    rw [num_fin_real, signReal, if_neg Bool.false_ne_true, one_mul, one_mul, hsquare, Real.sqrt_mul (by positivity),
      Real.sqrt_sq (by positivity)]
  rw [hresult, hvalue]
  refine roundTo_sticky hf rm _ _ (two_pow_le_isqrt f hm (by omega)) ?_ ?_ ?_
  · exact Real.le_sqrt_of_sq_le (by rw [sq]; exact_mod_cast hle)
  · rw [Real.sqrt_lt' (by positivity), sq]
    exact_mod_cast hlt
  · rw [Real.sqrt_eq_iff_mul_self_eq (by positivity) (by positivity), eq_comm]
    exact_mod_cast Iff.rfl

end

/-- Settles O19: each operation hands its exact result, up to a sticky bit, to one rounding. -/
theorem arithmeticIsRounded : Obligations.ArithmeticIsRounded := by
  unfold Obligations.ArithmeticIsRounded
  intro f rm x y z hf hx hy hz
  obtain ⟨n1, m1, e1, rfl⟩ := exists_fin_of_isFin hx
  obtain ⟨n2, m2, e2, rfl⟩ := exists_fin_of_isFin hy
  obtain ⟨n3, m3, e3, rfl⟩ := exists_fin_of_isFin hz
  refine ⟨fun h => ?add, fun h => ?sub, fun h => ?mul, fun h1 h2 => ?div, fun h => ?fma, fun h => ?sqrt, fun h => ?convert,
    fun v hv => ?ofInt⟩
  case add => exact addFin_isRounded hf rm h
  case sub =>
    rw [sub_eq_add_neg, ← num_negate] at h ⊢
    exact addFin_isRounded hf rm h
  case mul =>
    rw [← num_mul] at h ⊢
    exact roundTo_isRounded hf rm h
  case div => exact fDiv_isRounded hf rm (mt num_eq_zero_iff.2 h1) (mt num_eq_zero_iff.2 h2)
  case fma =>
    rw [← num_mul] at h ⊢
    exact addFin_isRounded hf rm h
  case sqrt =>
    have hm : m1 ≠ 0 := mt num_eq_zero_iff.2 h.ne'
    obtain rfl := sign_of_num_pos h
    exact fSqrt_isRounded hf rm hm
  case convert => exact roundTo_isRounded hf rm h
  case ofInt =>
    have hnum : (FVal.fin (decide (v < 0)) v.natAbs 0).num = v := by rw [num_ofInt, zpow_zero, mul_one]
    have hr := roundTo_isRounded hf rm (neg := decide (v < 0)) (m := v.natAbs) (e := 0) (by rw [hnum]; exact_mod_cast hv)
    rw [hnum, Rat.cast_intCast] at hr
    exact hr

end Sys2Proof.Machine

/-! PROOFS. The statement of 44_rv32f.md and 45_rv32d.md about conversions (O25). -/

namespace Sys2Proof.Machine

/-! ### Conversions to integers (R421, R422) -/

section
variable {lo hi : Int} {rm : RMode}

theorem signInt_mul (n : Bool) (k : ℕ) : signInt n * (k : ℤ) = if n then -(k : ℤ) else k := by
  cases n <;> simp [signInt]

theorem toInt_fin (n : Bool) (m : Nat) (e : Int) :
    toInt lo hi rm (.fin n m e) =
      if signInt n * ((roundAt rm n m e 0).1 : ℤ) < lo then (lo, flagNV)
      else if hi < signInt n * ((roundAt rm n m e 0).1 : ℤ) then (hi, flagNV)
      else (signInt n * ((roundAt rm n m e 0).1 : ℤ), flagIf (roundAt rm n m e 0).2 flagNX) := by
  rw [signInt_mul]
  rfl

/-- The integer a finite value rounds to, or the nearer end of the range. -/
theorem toInt_rounds {n : Bool} {m : Nat} {e : Int} {k : ℤ}
    (hk : RoundsToInt rm (((FVal.fin n m e).num : ℚ) : ℝ) k) :
    toInt lo hi rm (.fin n m e) =
      if k < lo then (lo, flagNV) else if hi < k then (hi, flagNV)
      else (k, if (k : ℚ) = (FVal.fin n m e).num then 0 else flagNX) := by
  have hround := (roundAt_rounds rm n m e 0).1
  rw [zpow_zero, div_one, ← num_fin_real] at hround
  have hexact := roundAt_exact_iff rm n m e 0
  rw [← signInt_mul_eq_iff n, ← num_fin_real, zpow_zero, mul_one, ← roundsToInt_unique hk hround] at hexact
  have hcast : ((k : ℝ) = ((FVal.fin n m e).num : ℚ)) ↔ (k : ℚ) = (FVal.fin n m e).num := by exact_mod_cast Iff.rfl
  rw [toInt_fin, ← roundsToInt_unique hk hround]
  simp only [← hcast, ← hexact]
  cases (roundAt rm n m e 0).2 <;> rfl

end

/-- An instruction that writes what `toInt` gives. -/
theorem toIntDone_of_run {i : Instr} {s : State} {rd : Reg} {mode : RMode} {x : FVal} {lo hi : Int} (hrange : lo ≤ hi)
    (run : exec i s = finishX rd (BitVec.ofInt 32 (toInt lo hi mode x).1) (toInt lo hi mode x).2 s) :
    ToIntDone i s rd mode x lo hi := by
  obtain ⟨t, ht, hdone⟩ := finishX_done s rd (BitVec.ofInt 32 (toInt lo hi mode x).1) (toInt lo hi mode x).2
  refine ⟨t, _, _, run.trans ht, hdone, fun h => ?nan, ?inf, ?negInf, fun hx k hk => ?fin⟩
  case nan =>
    cases x with
    | nan b => exact ⟨rfl, rfl⟩
    | inf _ | fin _ _ _ => cases h
  case inf =>
    rintro rfl
    exact ⟨rfl, rfl⟩
  case negInf =>
    rintro rfl
    exact ⟨rfl, rfl⟩
  case fin =>
    obtain ⟨n, m, e, rfl⟩ := exists_fin_of_isFin hx
    rw [toInt_rounds hk]
    refine ⟨fun h => ?_, fun h => ?_, fun hlo hhi => ?_⟩
    · rw [if_pos h]
      exact ⟨rfl, rfl⟩
    · rw [if_neg (by omega), if_pos h]
      exact ⟨rfl, rfl⟩
    · rw [if_neg (by omega), if_neg (by omega)]
      exact ⟨rfl, rfl⟩

section
variable {i : Instr} {s : State} {has : Bool} {rd : Reg} {rm : BitVec 3} {mode : RMode}

/-- To a signed integer (R421, R463). -/
theorem toIntDone_signed (x : State → FVal) (hr : FpReady s has) (hm : resolveRm rm s.csr.fcsr.frm = some mode)
    (guarded : exec i s = fpRounded has i rm s fun mode s =>
      finishX rd (toSigned mode (x s)).1 (toSigned mode (x s)).2 s) :
    ToIntDone i s rd mode (x s) (-2147483648) 2147483647 :=
  toIntDone_of_run (by decide) (exec_fpRounded hr hm guarded)

/-- To an unsigned integer (R422, R464). -/
theorem toIntDone_unsigned (x : State → FVal) (hr : FpReady s has) (hm : resolveRm rm s.csr.fcsr.frm = some mode)
    (guarded : exec i s = fpRounded has i rm s fun mode s =>
      finishX rd (toUnsigned mode (x s)).1 (toUnsigned mode (x s)).2 s) :
    ToIntDone i s rd mode (x s) 0 4294967295 :=
  toIntDone_of_run (by decide) (exec_fpRounded hr hm guarded)

end

/-- Settles O25: to an integer the value is rounded and bounded; the others write their operation's result. -/
theorem conversionResults : Obligations.ConversionResults := by
  unfold Obligations.ConversionResults
  intro s rd rs1 rm mode hm
  refine ⟨fun hr => ⟨?ws, ?wus, ?sw, ?swu⟩, fun hr => ⟨?wd, ?wud, ?sd, ?ds, ?dw, ?dwu⟩,
    fun f => ⟨rfl, fun b => ⟨?nan, rfl, fun e => roundTo_zero f mode b e⟩⟩⟩
  case ws => exact toIntDone_signed (fun t => t.valS rs1) hr hm rfl
  case wus => exact toIntDone_unsigned (fun t => t.valS rs1) hr hm rfl
  case sw => exact singleDone_of_rounded (fun m t => ofInt fmtS m (t.getX rs1).toInt) hr hm rfl
  case swu => exact singleDone_of_rounded (fun m t => ofInt fmtS m (t.getX rs1).toNat) hr hm rfl
  case wd => exact toIntDone_signed (fun t => t.valD rs1) hr hm rfl
  case wud => exact toIntDone_unsigned (fun t => t.valD rs1) hr hm rfl
  case sd => exact singleDone_of_rounded (fun m t => fConvert fmtS m (t.valD rs1)) hr hm rfl
  case ds => exact doubleDone_of_rounded (fun m t => fConvert fmtD m (t.valS rs1)) hr hm rfl
  case dw => exact doubleDone_of_rounded (fun m t => ofInt fmtD m (t.getX rs1).toInt) hr hm rfl
  case dwu => exact doubleDone_of_rounded (fun m t => ofInt fmtD m (t.getX rs1).toNat) hr hm rfl
  case nan => cases b <;> rfl

end Sys2Proof.Machine

/-! PROOFS. The statements of 46_system.md about ECALL and EBREAK (O28), MRET (O29), WFI and sleep (O30), CSR
instructions that only read (O32), and samples of encodings (O56). -/

namespace Sys2Proof.Machine

/-- Settles O56: each word is decoded by its fields. -/
theorem decodeSamples : Obligations.DecodeSamples := by
  unfold Obligations.DecodeSamples
  decide

/-! ### ECALL and EBREAK (R360, R489, R492) -/

section
variable {i : Instr} {s : State}

/-- An instruction that raises, with no imprecise fault waiting, enters its exception. -/
theorem entered_of_raise {e : Exc} {code : BitVec 12} (hw : s.pendingFault = none) (run : exec i s = raise e s)
    (hc : e.code.num = code) :
    ∃ t, exec i s = .next t ∧ ExceptionEntered s t code s.pc ∧ t.pendingFault = none := by
  subst hc
  exact ⟨_, run.trans (raise_eq e s hw), takeException_entered e s.pc s, hw⟩

/-- Settles O28: each raises its exception and does nothing else. -/
theorem environmentCalls : Obligations.EnvironmentCalls := by
  unfold Obligations.EnvironmentCalls
  refine fun s hw => ⟨?ecall, entered_of_raise hw rfl rfl, fun hc => ?cEbreak⟩
  case ecall =>
    refine entered_of_raise hw rfl ?_
    cases s.priv <;> rfl
  case cEbreak => exact entered_of_raise hw (whenLegal_of hc ..) rfl

/-! ### MRET (R490, R491) -/

theorem exec_mret_machine (hm : s.priv = .machine) : exec .mret s = returnFromTrap s :=
  whenLegal_of (by rw [hm]; rfl) ..

theorem exec_mret_user (hu : s.priv = .user) : exec .mret s = illegal .mret s := by
  show whenLegal (s.priv == .machine) .mret s returnFromTrap = _
  rw [hu]
  rfl

/-- MRET where no fault waits and the saved mode exists. -/
theorem exec_mret (hm : s.priv = .machine) (hw : s.pendingFault = none)
    (hp : s.csr.mstatus.mpp = .machine ∨ s.cfg.hasUmode = true) : exec .mret s = .next s.afterMret := by
  rw [exec_mret_machine hm, returnFromTrap_eq hw hp, retireAt_eq]
  rfl

theorem afterMret_leaves {c : Csrs} {cfg : Config} (free : Nat)
    (h : cfg.hasNestedStack = false ∨ c.mcause.interrupt = true) : c.afterMret cfg free = c.leaveTrap cfg.hasUmode :=
  if_neg (by rintro ⟨h1, h2⟩; simp [h1, h2] at h)

theorem afterMret_pops {c : Csrs} {cfg : Config} (free : Nat) (hs : cfg.hasNestedStack = true)
    (hi : c.mcause.interrupt = false) : c.afterMret cfg free = c.leaveTrapPop cfg free := if_pos ⟨hs, hi⟩

/-- What MRET leaves alone beside the CSRs. -/
theorem afterMret_frame (s : State) : EntryFrame s s.afterMret :=
  ⟨fun _ => rfl, fun _ => rfl, ⟨fun _ => rfl, rfl⟩, rfl, rfl, rfl, rfl, rfl, rfl, rfl, rfl, rfl, rfl⟩

end

end Sys2Proof.Machine

namespace Sys2Proof.Laws

open Machine

/-- Settles O29: MRET is illegal in User Mode, and in Machine Mode it pops the state stack or not. -/
theorem returnFromTrap : Obligations.ReturnFromTrap := by
  unfold Obligations.ReturnFromTrap
  refine fun s hw => ⟨fun hu => ?user, fun hm hp => ?machine⟩
  case user =>
    rw [TrapsIllegal, exec_mret_user hu]
    exact illegal_taken _ s hw
  case machine =>
    have hcsr : s.afterMret.csr = (s.csr.afterMret s.cfg s.free).counted := rfl
    refine ⟨_, exec_mret hm hw hp, rfl, rfl, rfl, afterMret_frame s, rfl, rfl, hw, fun h => ?leave, fun hs hi => ?pop⟩
    case leave =>
      rw [hcsr, afterMret_leaves s.free h]
      rfl
    case pop =>
      rw [hcsr, afterMret_pops s.free hs hi]
      exact ⟨rfl, storeMpp_stored _ _ _⟩

end Sys2Proof.Laws

namespace Sys2Proof.Machine

/-! ### WFI and sleep (R494, 60_exceptions.md R597 to R600) -/

/-- What the events before a step of a sleeping hart leave alone: of its CSRs they change only the flags of ECC errors. -/
structure SleepKept (s t : State) : Prop where
  asleep : t.asleep = s.asleep
  x : t.x = s.x
  f : t.f = s.f
  pc : t.pc = s.pc
  priv : t.priv = s.priv
  mcycle : t.mcycle = s.mcycle
  csr : ∃ single double, t.csr = { s.csr with mecc := { s.csr.mecc with sramid := single, ramid := double } }
  pendingFault : t.pendingFault = s.pendingFault
  cfg : t.cfg = s.cfg

theorem SleepKept.refl (s : State) : SleepKept s s := ⟨rfl, rfl, rfl, rfl, rfl, rfl, ⟨_, _, rfl⟩, rfl, rfl⟩

theorem SleepKept.trans {s t u : State} (h : SleepKept s t) (k : SleepKept t u) : SleepKept s u := by
  obtain ⟨_, _, hc⟩ := h.csr
  obtain ⟨a, b, kc⟩ := k.csr
  exact ⟨k.asleep.trans h.asleep, k.x.trans h.x, k.f.trans h.f, k.pc.trans h.pc, k.priv.trans h.priv,
    k.mcycle.trans h.mcycle, ⟨a, b, by rw [kc, hc]⟩, k.pendingFault.trans h.pendingFault, k.cfg.trans h.cfg⟩

/-- The TIMER and the ECLIC have no part in it. -/
theorem sleepKept_setTimer (s : State) (t : Timer) : SleepKept s (s.setTimer t) := by
  rw [setTimer_shape]
  exact ⟨rfl, rfl, rfl, rfl, rfl, rfl, ⟨_, _, rfl⟩, rfl, rfl⟩

theorem sleepKept_eccNoted {s u : State} {met : EccHit → Prop} (h : EccNoted s u met) : SleepKept s u := by
  rw [h.rest]
  exact ⟨rfl, rfl, rfl, rfl, rfl, rfl, ⟨_, _, rfl⟩, rfl, rfl⟩

/-- An event other than a reset; the D-cache of a sleeping hart copies nothing back (log 31). -/
theorem sleepKept_input (s : State) (i : Input) (hs : s.asleep = true) (hi : ∀ keep, i ≠ .reset keep) :
    SleepKept s (s.input i) := by
  cases i with
  | tick =>
    show SleepKept s s.tick
    unfold State.tick
    split
    · exact .refl s
    · exact sleepKept_setTimer s _
  | irq id level =>
    simp only [State.input]
    split <;> exact ⟨rfl, rfl, rfl, rfl, rfl, rfl, ⟨_, _, rfl⟩, rfl, rfl⟩
  | nmiEdge =>
    simp only [State.input]
    split <;> exact ⟨rfl, rfl, rfl, rfl, rfl, rfl, ⟨_, _, rfl⟩, rfl, rfl⟩
  | rxEvt level => exact ⟨rfl, rfl, rfl, rfl, rfl, rfl, ⟨_, _, rfl⟩, rfl, rfl⟩
  | reset keep => exact absurd rfl (hi keep)
  | busWrite a b =>
    show SleepKept s (s.busWrite a b)
    unfold State.busWrite
    split
    · exact .refl s
    · exact .refl s
    · simp only
      split <;> exact ⟨rfl, rfl, rfl, rfl, rfl, rfl, ⟨_, _, rfl⟩, rfl, rfl⟩
  | eccHit hit => exact ⟨rfl, rfl, rfl, rfl, rfl, rfl, ⟨_, _, rfl⟩, rfl, rfl⟩
  | eccOther origin unit double =>
    have h := input_eccOther s origin unit double
    split at h
    · obtain ⟨u, hN, hu⟩ := h
      rw [hu]
      exact (sleepKept_eccNoted hN).trans ⟨rfl, rfl, rfl, rfl, rfl, rfl, ⟨_, _, rfl⟩, rfl, rfl⟩
    · rw [h]
      exact .refl s
  | eccEvict =>
    have h := input_eccEvict s rfl
    rw [if_neg (by simp [hs])] at h
    rw [h]
    exact .refl s

/-- The events before a step, none of them a reset, of a hart that sleeps. -/
theorem sleepKept_arrive {s : State} (hs : s.asleep = true)
    (h : ∀ g rest, s.inputs = g :: rest → ∀ k, Input.reset k ∉ g) : SleepKept s (arrive s) :=
  arrive_rel (fun s t => s.asleep = true → SleepKept s t) (fun s _ => .refl s)
    (fun _ _ _ h k hs => (h hs).trans (k ((h hs).asleep.trans hs)))
    (fun _ _ => ⟨rfl, rfl, rfl, rfl, rfl, rfl, ⟨_, _, rfl⟩, rfl, rfl⟩)
    (fun _ _ _ => ⟨rfl, rfl, rfl, rfl, rfl, rfl, ⟨_, _, rfl⟩, rfl, rfl⟩)
    (fun i => ∀ keep, i ≠ .reset keep) (fun s i hi hs => sleepKept_input s i hs hi) s
    (fun g rest hg _ hi keep he => h g rest hg keep (he ▸ hi)) hs

/-- Only a write of another bus master ends a reservation, beside a reset (43_rv32a.md R381). -/
theorem input_resv (s : State) (i : Input) (hi : ∀ keep, i ≠ .reset keep) :
    (s.input i).resv = s.resv ∨ (s.input i).resv = none ∧ ∃ a b, i = .busWrite a b := by
  have timer : ∀ t, (s.setTimer t).resv = s.resv := fun t => by rw [setTimer_shape]
  cases i with
  | tick =>
    refine .inl ?_
    show s.tick.resv = s.resv
    unfold State.tick
    split
    · rfl
    · exact timer _
  | irq id level =>
    refine .inl ?_
    simp only [State.input]
    split <;> rfl
  | nmiEdge =>
    refine .inl ?_
    simp only [State.input]
    split <;> rfl
  | rxEvt level => exact .inl rfl
  | reset keep => exact absurd rfl (hi keep)
  | busWrite a b =>
    show (s.busWrite a b).resv = s.resv ∨ (s.busWrite a b).resv = none ∧ _
    unfold State.busWrite
    split
    · exact .inl rfl
    · exact .inl rfl
    · simp only
      split
      · exact .inr ⟨rfl, a, b, rfl⟩
      · exact .inl rfl
  | eccHit hit => exact .inl rfl
  | eccOther origin unit double =>
    have h := input_eccOther s origin unit double
    split at h
    · obtain ⟨u, hN, hu⟩ := h
      rw [hu, hN.rest]
      exact .inl rfl
    · rw [h]
      exact .inl rfl
  | eccEvict =>
    refine .inl ?_
    show s.eccEvict.resv = s.resv
    unfold State.eccEvict
    split
    · simp only
      split
      · obtain ⟨p, hp⟩ := noteFault_shape (s.noteEcc .dcache true)
          ⟨if Config.freeEvictIsStore s.free then .storeAmoAccessFault else .loadAccessFault, none, .keep⟩
        rw [hp]
        rfl
      · rfl
    · rfl

/-- The reservation after the events before a step, none of them a reset. -/
theorem arrive_resv {s : State} (h : ∀ g rest, s.inputs = g :: rest → ∀ k, Input.reset k ∉ g) :
    (arrive s).resv = s.resv ∨
      (arrive s).resv = none ∧ ∃ g rest a b, s.inputs = g :: rest ∧ Input.busWrite a b ∈ g := by
  have no_reset : ∀ g rest, s.inputs = g :: rest → ∀ i ∈ g, ∀ keep, i ≠ .reset keep :=
    fun g rest hg i hi keep he => h g rest hg keep (he ▸ hi)
  by_cases hb : ∃ g rest a b, s.inputs = g :: rest ∧ Input.busWrite a b ∈ g
  · have kept_or_lost := arrive_rel (fun s t => t.resv = s.resv ∨ t.resv = none) (fun _ => .inl rfl)
      (fun _ _ _ h k => k.elim (fun k => h.imp k.trans k.trans) .inr) (fun _ => .inl rfl) (fun _ _ => .inl rfl)
      (fun i => ∀ keep, i ≠ .reset keep) (fun s i hi => (input_resv s i hi).imp_right And.left) s no_reset
    exact kept_or_lost.imp_right fun hn => ⟨hn, hb⟩
  · refine .inl <| arrive_rel (fun s t => t.resv = s.resv) (fun _ => rfl) (fun _ _ _ h k => k.trans h)
      (fun _ => rfl) (fun _ _ => rfl) (fun i => (∀ keep, i ≠ .reset keep) ∧ ∀ a b, i ≠ .busWrite a b)
      (fun s i hi => ?_) s fun g rest hg i hi => ⟨no_reset g rest hg i hi, fun a b he => hb ⟨g, rest, a, b, hg, he ▸ hi⟩⟩
    exact (input_resv s i hi.1).resolve_right fun ⟨_, a, b, he⟩ => hi.2 a b he

/-- When a sleeping hart wakes (60_exceptions.md R600). -/
theorem wakes_iff (s : State) : wakes s = true ↔ NmiReady s ∨
    (s.csr.wfe = false ∧ ∃ r, presented s.cfg s.eclic = some r) ∨ (s.csr.wfe = true ∧ s.rxEvt = true) := by
  rw [wakes, Bool.or_eq_true, nmiTaken_iff]
  cases s.csr.wfe <;> simp [Option.isSome_iff_exists]

/-- The step of a sleeping hart is a test of the wake-up conditions (60_exceptions.md R599). -/
theorem step_asleep {s : State} (h : (arrive s).asleep = true) :
    ∃ m, step s = .next { arrive s with asleep := !wakes (arrive s), mcycle := m, eccHits := [],
                                        free := (arrive s).free + 1 } ∧
      ((arrive s).csr.mcountinhibit.cy = true → m = (arrive s).mcycle) := by
  have hsleep : sleepStep (arrive s) = (arrive s).withAsleep (!wakes (arrive s)) := by
    have stays : (arrive s).withAsleep true = arrive s := by rw [← h]; rfl
    unfold sleepStep
    cases wakes (arrive s) with
    | true => rfl
    | false => exact stays.symm
  have hact : actStep (arrive s) = .next ((arrive s).withAsleep (!wakes (arrive s))) := by
    rw [actStep, if_pos h, hsleep]
  obtain ⟨t, ht, hshape, hm⟩ := thenSettle_next ((arrive s).withAsleep (!wakes (arrive s)))
  refine ⟨t.mcycle, ?_, hm⟩
  rw [step, hact, ht]
  exact congrArg _ hshape

/-- WFI where no fault waits. -/
theorem exec_wfi {s : State} (hw : s.pendingFault = none) :
    exec .wfi s = .next (((s.withAsleep true).withCsr s.csr.counted).withPc (s.pc + 4)) := by
  show execWfi s = _
  rw [execWfi, hw]
  exact retire_eq 4 _

/-- Settles O30: WFI only sleeps, the events leave a sleeping hart alone, and its step only tests whether it wakes. -/
theorem sleepResults : Obligations.SleepResults := by
  unfold Obligations.SleepResults
  refine fun s => ⟨fun hw => ?wfi, ?events, ?step, rfl, fun ha => ?awake⟩
  case wfi =>
    exact ⟨_, exec_wfi hw, rfl, rfl, rfl, fun _ => rfl, fun _ => rfl, ⟨fun _ => rfl, rfl⟩, rfl, rfl, rfl, rfl, rfl, rfl,
      hw, rfl, rfl, rfl, rfl, rfl, rfl, rfl, rfl, rfl⟩
  case events =>
    rintro u rfl hs hr
    have kept := sleepKept_arrive hs hr
    obtain ⟨single, double, hc⟩ := kept.csr
    exact ⟨kept.asleep.trans hs, fun r => by simp only [State.getX, kept.x], fun r => by simp only [State.getF, kept.f],
      kept.pc, kept.priv, kept.mcycle, by rw [hc], kept.pendingFault, kept.cfg, arrive_resv hr⟩
  case step =>
    rintro u rfl hs
    obtain ⟨m, ht, hm⟩ := step_asleep hs
    refine ⟨_, ht, fun _ => rfl, fun _ => rfl, ⟨fun _ => rfl, rfl⟩, rfl, rfl, rfl, rfl, rfl, rfl, rfl, rfl, rfl, rfl,
      rfl, rfl, rfl, hm, ?_⟩
    rw [← wakes_iff]
    simp
  case awake => rw [State.coreSleepValue, ha, Bool.false_and]

/-! ### CSR instructions that only read (R480, R484, R485, R487, R488) -/

/-- A CSR instruction that does not write gets the value of the CSR. -/
theorem csrInstr_reads {s : State} {i : Instr} {form : CsrForm} {rd : Reg} {a : CsrAddr} {c : Csr} {field : BitVec 5}
    (ha : Csr.ofAddr a = some c) (hc : c.isPoint = false) (hp : c.permitted s false = true)
    (hn : form.writes field = false) : csrInstr i form rd a field s = writeRd 4 rd (csrRead s c) s := by
  rw [csrInstr_permitted ha (by rw [hn]; exact hp), csrDispatch_plain hc, csrPlain, if_neg (by simp [hn]), retireCsr,
    if_neg (by simp)]
  rfl

/-- Settles O32: with the field 0 the four instructions do not write. -/
theorem csrReadResults : Obligations.CsrReadResults := by
  unfold Obligations.CsrReadResults
  intro s a c rd ha hc hp
  have reads : ∀ {i : Instr} {form : CsrForm}, exec i s = csrInstr i form rd a 0 s → form.writes 0 = false →
      ∃ t, exec i s = .next t ∧ DoneX s t rd (csrRead s c) (s.pc + 4) := fun run hn =>
    done_of_writeRd (run.trans (csrInstr_reads ha hc hp hn)) rfl
  exact ⟨reads (form := .rs) rfl rfl, reads (form := .rc) rfl rfl, reads (form := .rsi) rfl rfl,
    reads (form := .rci) rfl rfl⟩

end Sys2Proof.Machine

/-! PROOFS. The statements of 46_system.md about the access points: mscratchcsw, mscratchcswl and the pushes (O36), and the
forms of CSR instructions a model stops on (O37). -/

namespace Sys2Proof.Machine

/-! ### Reaching an access point -/

section
variable {s : State} {i : Instr} {form : CsrForm} {rd : Reg} {a : CsrAddr} {c : Csr} {field : BitVec 5}

/-- Every access point may be accessed in Machine Mode. -/
theorem point_permitted (hm : s.priv = .machine) (hc : c.isPoint = true) (wr : Bool) : c.permitted s wr = true := by
  rw [permitted_iff, hm]
  cases c with
  | mnxti | jalmnxti | mscratchcsw | mscratchcswl | pushmsubm | pushmcause | pushmepc => exact ⟨rfl, rfl, rfl⟩
  | _ => cases hc

/-- In Machine Mode a CSR instruction on an access point is its operation (R501). -/
theorem exec_point (run : exec i s = csrInstr i form rd a field s) (hm : s.priv = .machine)
    (ha : Csr.ofAddr a = some c) (hc : c.isPoint = true) : exec i s = csrDispatch form rd c field s :=
  run.trans (csrInstr_permitted ha (point_permitted hm hc _))

end

/-- The six CSR instructions (R483 to R488). -/
theorem exec_csrrw (rd : Reg) (a : CsrAddr) (field : BitVec 5) (s : State) :
    exec (.csrrw rd a field) s = csrInstr (.csrrw rd a field) .rw rd a field s := rfl

theorem exec_csrrs (rd : Reg) (a : CsrAddr) (field : BitVec 5) (s : State) :
    exec (.csrrs rd a field) s = csrInstr (.csrrs rd a field) .rs rd a field s := rfl

theorem exec_csrrc (rd : Reg) (a : CsrAddr) (field : BitVec 5) (s : State) :
    exec (.csrrc rd a field) s = csrInstr (.csrrc rd a field) .rc rd a field s := rfl

theorem exec_csrrwi (rd : Reg) (a : CsrAddr) (field : BitVec 5) (s : State) :
    exec (.csrrwi rd a field) s = csrInstr (.csrrwi rd a field) .rwi rd a field s := rfl

theorem exec_csrrsi (rd : Reg) (a : CsrAddr) (field : BitVec 5) (s : State) :
    exec (.csrrsi rd a field) s = csrInstr (.csrrsi rd a field) .rsi rd a field s := rfl

theorem exec_csrrci (rd : Reg) (a : CsrAddr) (field : BitVec 5) (s : State) :
    exec (.csrrci rd a field) s = csrInstr (.csrrci rd a field) .rci rd a field s := rfl

/-! ### What an access point leaves alone -/

theorem PointFrame.refl (s : State) : PointFrame s s :=
  ⟨fun _ => rfl, ⟨fun _ => rfl, rfl⟩, rfl, rfl, rfl, rfl, rfl, rfl, rfl, rfl, rfl, rfl, rfl, rfl, rfl, rfl⟩

section
variable {s t : State} (h : PointFrame s t)
include h

theorem PointFrame.withCsr (c : Csrs) : PointFrame s (t.withCsr c) := { h with }

theorem PointFrame.withEclic (e : Eclic) : PointFrame s (t.withEclic e) := { h with }

theorem PointFrame.withPc (p : Word) : PointFrame s (t.withPc p) := { h with }

theorem PointFrame.setX (rd : Reg) (v : Word) : PointFrame s (t.setX rd v) := by
  unfold State.setX
  split
  · exact h
  · exact { h with }

theorem PointFrame.completed (len : Word) : PointFrame s (t.completed len) := (h.withCsr _).withPc _

end

/-! ### The scratch exchange (R497, R498) -/

section
variable {s : State} {i : Instr} {rd rs1 : Reg}

theorem scratchDone_of {b : Bool} {swap : Prop} (run : exec i s = scratchSwap b rd (s.getX rs1) s)
    (hb : b = true ↔ swap) : ScratchDone i s rd rs1 swap := by
  have h := PointFrame.refl s
  cases b with
  | true =>
    refine ⟨_, run.trans (retire_completed 4 _), by simp [State.completed], by simp [State.completed],
      ((h.withCsr _).setX _ _).completed _, fun _ => ⟨wroteX_setX (s.withCsr _) rd _, ?_⟩, fun h => absurd (hb.1 rfl) h⟩
    simp [State.completed, Csrs.counted]
  | false =>
    refine ⟨_, run.trans (retire_completed 4 _), by simp [State.completed], by simp [State.completed],
      (h.setX _ _).completed _, fun h => absurd (hb.2 h) nofun, fun _ => ⟨wroteX_setX s rd _, ?_⟩⟩
    simp [State.completed]

/-- Settles O36: the two exchanges by their conditions, the three pushes as stores. -/
theorem scratchAndPushResults : Obligations.ScratchAndPushResults := by
  unfold Obligations.ScratchAndPushResults
  refine fun s rd rs1 u ea hm => ⟨?csw, ?cswl, fun hw hea hp => ?push⟩
  case csw =>
    exact scratchDone_of (exec_point (c := .mscratchcsw) (exec_csrrw rd 0x348 rs1 s) hm rfl rfl) (by simp)
  case cswl =>
    refine scratchDone_of (exec_point (c := .mscratchcswl) (exec_csrrw rd 0x349 rs1 s) hm rfl rfl) ?_
    rw [bne_iff_ne, ne_eq, Bool.eq_iff_iff, beq_iff_eq, beq_iff_eq]
    rfl
  case push =>
    subst hea
    have stores : ∀ {a : CsrAddr} {v : Word}, exec (.csrrwi 0 a u) s =
        storeX 4 (s.getX 2 + BitVec.ofNat 32 (4 * u.toNat)) 4 (v.setWidth 64) s →
        ∃ t, exec (.csrrwi 0 a u) s = .next t ∧
          DoneStore s t (s.getX 2 + BitVec.ofNat 32 (4 * u.toNat)) 4 (v.zeroExtend 64) (s.pc + 4) := fun {_ v} run => by
      rw [run]
      exact storeX_done 4 (v.setWidth 64) hw (by decide) hp
    exact ⟨stores (exec_push (c := .pushmsubm) u s.csr.msubm.word hm rfl rfl rfl rfl rfl),
      stores (exec_push (c := .pushmcause) u s.csr.causeRead hm rfl rfl rfl rfl rfl),
      stores (exec_push (c := .pushmepc) u s.csr.mepc hm rfl rfl rfl rfl rfl)⟩

end

/-! ### Forms that are not defined (93_implementation_defined.md A4) -/

/-- The forms the access points define (R493 to R499). -/
inductive PointForm : Csr → CsrForm → Reg → Prop
  | set (rd : Reg) : PointForm .mnxti .rsi rd
  | clear (rd : Reg) : PointForm .mnxti .rci rd
  | jump (rd : Reg) : PointForm .jalmnxti .rw rd
  | swap (rd : Reg) : PointForm .mscratchcsw .rw rd
  | swapLevel (rd : Reg) : PointForm .mscratchcswl .rw rd
  | pushSubm : PointForm .pushmsubm .rwi 0
  | pushCause : PointForm .pushmcause .rwi 0
  | pushEpc : PointForm .pushmepc .rwi 0

/-- Of every other form the dispatch makes a stop. -/
theorem csrDispatch_undefined {c : Csr} {form : CsrForm} {rd : Reg} (field : BitVec 5) (s : State)
    (hc : c.isPoint = true) (h : ¬ PointForm c form rd) : csrDispatch form rd c field s = .refused .csrForm := by
  cases c with
  | mnxti =>
    cases form with
    | rsi => exact absurd (.set rd) h
    | rci => exact absurd (.clear rd) h
    | rw | rs | rc | rwi => rfl
  | jalmnxti => exact if_neg fun hf : form = .rw => h (hf ▸ .jump rd)
  | mscratchcsw => exact if_neg fun hf : form = .rw => h (hf ▸ .swap rd)
  | mscratchcswl => exact if_neg fun hf : form = .rw => h (hf ▸ .swapLevel rd)
  | pushmsubm => exact if_neg fun ⟨(hf : form = .rwi), (hr : rd = 0#5)⟩ => h (hf ▸ hr ▸ .pushSubm)
  | pushmcause => exact if_neg fun ⟨(hf : form = .rwi), (hr : rd = 0#5)⟩ => h (hf ▸ hr ▸ .pushCause)
  | pushmepc => exact if_neg fun ⟨(hf : form = .rwi), (hr : rd = 0#5)⟩ => h (hf ▸ hr ▸ .pushEpc)
  | _ => cases hc

/-- The address `a` is that of the access point `c`, if `c` is one (10_state.md R31). -/
def PointAddr (a : CsrAddr) (c : Csr) : Prop :=
  (c = .mnxti → a = 0x345#12) ∧ (c = .jalmnxti → a = 0x7ED#12) ∧ (c = .mscratchcsw → a = 0x348#12) ∧
  (c = .mscratchcswl → a = 0x349#12) ∧ (c = .pushmsubm → a = 0x7EB#12) ∧ (c = .pushmcause → a = 0x7EE#12) ∧
  (c = .pushmepc → a = 0x7EF#12)

theorem point_addr {a : CsrAddr} {c : Csr} (h : Csr.ofAddr a = some c) : PointAddr a c := by
  refine forall_ofAddr (P := PointAddr) ?_ ?_ ?_ h <;> unfold PointAddr <;> decide

/-! ### Writes that turn ECC error injection on (20_memory.md R211) -/

theorem and_injection_bits (v : Word) : v &&& 0x00180030#32 ≠ 0 ↔
    v.getLsbD 20 = true ∨ v.getLsbD 19 = true ∨ v.getLsbD 5 = true ∨ v.getLsbD 4 = true := by
  have bit : ∀ k, (v &&& 0x00180030#32).getLsbD k = (v.getLsbD k && (0x00180030#32).getLsbD k) :=
    fun k => BitVec.getLsbD_and
  constructor
  · refine not_imp_comm.1 fun h => ?_
    simp only [not_or, Bool.not_eq_true] at h
    obtain ⟨h20, h19, h5, h4⟩ := h
    apply BitVec.eq_of_getLsbD_eq
    intro k hk
    rw [bit]
    interval_cases k <;> simp [h20, h19, h5, h4, -BitVec.getLsbD_eq_getElem]
  · intro h hz
    have clear : ∀ k, (v.getLsbD k && (0x00180030#32).getLsbD k) = false := fun k => by rw [← bit, hz]; simp
    rcases h with h | h | h | h
    · simpa [h, -BitVec.getLsbD_eq_getElem] using clear 20
    · simpa [h, -BitVec.getLsbD_eq_getElem] using clear 19
    · simpa [h, -BitVec.getLsbD_eq_getElem] using clear 5
    · simpa [h, -BitVec.getLsbD_eq_getElem] using clear 4

/-- A write is refused exactly where it turns injection on and mecc_lock is open. -/
theorem csrWriteRefused_iff (s : State) (c : Csr) (v : Word) :
    csrWriteRefused s c v = true ↔ s.csr.meccLock = false ∧ Injects c v := by
  rw [Injects, and_injection_bits]
  cases c with
  | milmCtl | mdlmCtl => simp [csrWriteRefused]
  | mcacheCtl => simp [csrWriteRefused, or_assoc]
  | _ => simp [csrWriteRefused]

/-- The CSRs of such a write are no access points, and Machine Mode may write them where they exist. -/
theorem Injects.permitted {s : State} {c : Csr} {v : Word} (h : Injects c v) (hm : s.priv = .machine)
    (he : c.existsIn s.cfg = true) : c.isPoint = false ∧ c.permitted s true = true := by
  obtain ⟨rfl | rfl, -⟩ | ⟨rfl, -⟩ := h <;> exact ⟨rfl, permitted_mrw hm he rfl rfl⟩

theorem csrInstr_injects {s : State} {i : Instr} {form : CsrForm} {rd : Reg} {a : CsrAddr} {c : Csr} {field : BitVec 5}
    (ha : Csr.ofAddr a = some c) (hm : s.priv = .machine) (he : c.existsIn s.cfg = true)
    (hl : s.csr.meccLock = false) (hw : form.writes field = true)
    (h : Injects c (form.value (csrRead s c) (form.operand field s))) :
    csrInstr i form rd a field s = .refused .eccInjection := by
  obtain ⟨hc, hp⟩ := h.permitted hm he
  rw [csrInstr_permitted ha (by rw [hw]; exact hp), csrDispatch_plain hc, csrPlain, if_pos hw,
    if_pos ((csrWriteRefused_iff s c _).2 ⟨hl, h⟩)]

/-- Settles O37: the access points by the forms they define, the other CSRs by what a write injects. -/
theorem refusedCsrForms : Obligations.RefusedCsrForms := by
  unfold Obligations.RefusedCsrForms
  refine fun s a c rd f hm ha => ⟨fun hc => ?points, fun hl he old x u ho hx hu => ?injection⟩
  case points =>
    obtain ⟨mnxti, jalmnxti, mscratchcsw, mscratchcswl, pushmsubm, pushmcause, pushmepc⟩ := point_addr ha
    have stops : ∀ {i : Instr} {form : CsrForm}, exec i s = csrInstr i form rd a f s → ¬ PointForm c form rd →
        exec i s = .refused .csrForm := fun run h => (exec_point run hm ha hc).trans (csrDispatch_undefined f s hc h)
    refine ⟨stops (exec_csrrs rd a f s) nofun, stops (exec_csrrc rd a f s) nofun,
      fun hj hs hl => stops (exec_csrrw rd a f s) fun h => ?rw,
      fun hn => ⟨stops (exec_csrrsi rd a f s) fun h => ?rsi, stops (exec_csrrci rd a f s) fun h => ?rci⟩,
      fun hn => stops (exec_csrrwi rd a f s) fun h => ?rwi⟩
    case rw =>
      cases h with
      | jump => exact hj (jalmnxti rfl)
      | swap => exact hs (mscratchcsw rfl)
      | swapLevel => exact hl (mscratchcswl rfl)
    case rsi => cases h; exact hn (mnxti rfl)
    case rci => cases h; exact hn (mnxti rfl)
    case rwi =>
      cases h with
      | pushSubm => exact hn ⟨rfl, .inl (pushmsubm rfl)⟩
      | pushCause => exact hn ⟨rfl, .inr (.inl (pushmcause rfl))⟩
      | pushEpc => exact hn ⟨rfl, .inr (.inr (pushmepc rfl))⟩
  case injection =>
    subst ho hx hu
    have stops : ∀ {i : Instr} {form : CsrForm}, exec i s = csrInstr i form rd a f s → form.writes f = true →
        Injects c (form.value (csrRead s c) (form.operand f s)) → exec i s = .refused .eccInjection :=
      fun run hw h => run.trans (csrInstr_injects ha hm he hl hw h)
    refine ⟨fun h => ?rw, fun h => ?rwi, fun hf => ⟨fun h => ?rs, fun h => ?rc, fun h => ?rsi, fun h => ?rci⟩⟩
    case rw => exact stops (exec_csrrw rd a f s) rfl h
    case rwi => exact stops (exec_csrrwi rd a f s) rfl h
    case rs => exact stops (exec_csrrs rd a f s) (bne_iff_ne.2 hf) h
    case rc => exact stops (exec_csrrc rd a f s) (bne_iff_ne.2 hf) h
    case rsi => exact stops (exec_csrrsi rd a f s) (bne_iff_ne.2 hf) h
    case rci => exact stops (exec_csrrci rd a f s) (bne_iff_ne.2 hf) h

end Sys2Proof.Machine

/-! PROOFS. The statement of 46_system.md about mnxti and jalmnxti (O35). -/

namespace Sys2Proof.Machine

/-! ### The read of the vector table (60_exceptions.md R564) -/

section
variable {s : State} {id : Nat}

theorem vectorTableRead_traps (ha : FetchAllowed s .machine (tableWord s id))
    (ht : EccTraps s .fetch (tableWord s id, 4)) : vectorTableRead s id =
      .exc ⟨.instrAccessFault, some (tableWord s id), .keep⟩ (s.notedAt .fetch (tableWord s id)) := by
  simp only [vectorTableRead, tableWord_eq, checkFetch_traps ha ht]

theorem vectorTableRead_arrives (ha : FetchAllowed s .machine (tableWord s id))
    (ht : ¬ EccTraps s .fetch (tableWord s id, 4)) : vectorTableRead s id =
      .ok (busWord s Config.freeTablePort (tableWord s id) ^^^
        wrongWord (usedAt s .fetch (tableWord s id)) (tableWord s id)) (s.notedAt .fetch (tableWord s id)) := by
  simp only [vectorTableRead, tableWord_eq, checkFetch_arrives ha ht]

theorem vectorTableRead_refused {d : BitVec 2} (h : FetchRefused s .machine (tableWord s id) d) :
    ∃ detail, vectorTableRead s id = .exc ⟨.instrAccessFault, some (tableWord s id), detail⟩ s ∧
      ∀ old free, detailBits detail old free = d := by
  obtain ⟨detail, hx, hd⟩ := checkFetch_refused h
  exact ⟨detail, by simp only [vectorTableRead, tableWord_eq, hx], hd⟩

theorem EccUnit.region_of_serves {u : EccUnit} {path : AccessPath} {a : Word} (h : u.serves s path a = true) :
    region s.cfg a ∈ [Region.ilm, .dlm, .system] := by
  cases u with
  | ilm | dlm => simp [beq_iff_eq.1 h]
  | icache | dcache => simp [beq_iff_eq.1 (Bool.and_eq_true_iff.1 h).2]

/-- Beside the ILM, the DLM and the system bus no access meets an ECC error (20_memory.md R210). -/
theorem usedAt_of_region {path : AccessPath} {a : Word} (h : region s.cfg a ∉ [Region.ilm, .dlm, .system]) :
    usedAt s path a = [] := by
  have met : eccMet s path ([(a, 4)].map partOf) = [] := by
    rw [List.eq_nil_iff_forall_not_mem]
    intro x hx
    obtain ⟨-, p, hp, -, hs, -⟩ := (mem_eccMet s path _ x).1 hx
    obtain rfl := List.mem_singleton.1 hp
    exact h (EccUnit.region_of_serves hs)
  rw [usedAt, met]
  rfl

/-- A word that arrives with wrong bits is the word of a memory that holds them so. -/
theorem busWord_delivered {port : Nat → Nat → Byte} {m : Memory} {a : Word}
    (hm : ∀ b, ByteArrives s (EccMet s .fetch [(a, 4)]) m b) :
    busWord s port a ^^^ wrongWord (usedAt s .fetch a) a = busWord { s with eccHits := [], mem := m } port a := by
  by_cases hr : region s.cfg a ∈ [Region.ilm, .dlm, .system]
  · rw [busWord_found { s with eccHits := [], mem := m }, foundWord]
    simp only [foundByte_mem (s := { s with eccHits := [], mem := m }) hr]
    refine (busWord_arrives (wordArrives_mem hr fun k _ => hm _)).trans ?_
    simp [memWord]
  · rw [usedAt_of_region hr, arrives_right]
    cases h : region s.cfg a with
    | timer | eclic | ppi | fio => simp only [busWord, h]
    | ilm | dlm | system => simp [h] at hr

end

/-! ### What is done with the handler address (R493, R495) -/

/-- An instruction that takes a handler address: what it does with it, and with none (R493, R495). -/
def handlerThen (id : Nat) (taken : Word → State → State) (s : State) : Out :=
  match handlerAddr s id with
  | .ok t u => .next (taken t u)
  | .exc e u => raise e u
  | .refuse q => .refused q

/-- The claim of an interrupt, if there is one to claim. -/
def State.claimOpt (s : State) : Option Request → State
  | none => s
  | some r => s.claimIrq r

/-- mnxti gives `v`: it sets or clears MIE, and makes its claim (R493). -/
def State.mnxtiGives (s : State) (set : Bool) (rd : Reg) (uimm : BitVec 5) (claimed : Option Request) (v : Word) :
    State := (((s.mnxtiStatus set uimm).claimOpt claimed).setX rd v).completed 4

/-- `mstatus.MIE <- 1`. -/
def State.enableIrqs (s : State) : State := s.withCsr { s.csr with mstatus := { s.csr.mstatus with mie := true } }

/-- The state after an instruction completes and the next one is at `p`. -/
def State.continuesAt (s : State) (p : Word) : State := (s.withCsr s.csr.counted).withPc p

/-- jalmnxti at `pc` jumps to the handler at `v`: it makes its claim, and sets MIE (R495). -/
def State.jumpsToHandler (s : State) (rd : Reg) (pc : Word) (r : Request) (v : Word) : State :=
  ((s.claimIrq r).enableIrqs.setX rd pc).continuesAt (evenAddr v)

theorem eccBlind_mnxtiStatus (set : Bool) (uimm : BitVec 5) : EccBlind fun s => s.mnxtiStatus set uimm := by
  refine ⟨fun s c o l => ?_, fun s m => ?_, fun s l => ?_⟩ <;> (unfold State.mnxtiStatus; split <;> rfl)

theorem eccBlind_claimOpt (claimed : Option Request) : EccBlind fun s => s.claimOpt claimed := by
  cases claimed <;> exact ⟨fun _ _ _ _ => rfl, fun _ _ => rfl, fun _ _ => rfl⟩

theorem eccBlind_mnxtiGives (set : Bool) (rd : Reg) (uimm : BitVec 5) (claimed : Option Request) (v : Word) :
    EccBlind fun s => s.mnxtiGives set rd uimm claimed v :=
  (eccBlind_completed 4).comp ((eccBlind_setX rd v).comp ((eccBlind_claimOpt claimed).comp (eccBlind_mnxtiStatus set uimm)))

theorem eccBlind_jumpsToHandler (rd : Reg) (pc : Word) (r : Request) (v : Word) :
    EccBlind fun s => s.jumpsToHandler rd pc r v := by
  have leave : EccBlind fun s => s.continuesAt (evenAddr v) := ⟨fun _ _ _ _ => rfl, fun _ _ => rfl, fun _ _ => rfl⟩
  have claim : EccBlind fun s => (s.claimIrq r).enableIrqs := ⟨fun _ _ _ _ => rfl, fun _ _ => rfl, fun _ _ => rfl⟩
  exact leave.comp ((eccBlind_setX rd pc).comp claim)

section
variable {s : State} {r : Request} {rd rs1 : Reg} {u : BitVec 5}

/-- mnxti without a next interrupt gives 0 (R493). -/
theorem mnxtiOp_none (set : Bool) (h : ∀ r, ¬ NextInterrupt s r) :
    mnxtiOp set rd u s = .next (s.mnxtiGives set rd u none 0) := by
  rw [mnxtiOp, nextNonVectored_none s h]
  exact retire_completed 4 _

theorem mnxtiOp_next (set : Bool) (h : NextInterrupt s r) :
    mnxtiOp set rd u s =
      handlerThen r.id (fun v t => t.mnxtiGives set rd u (if u = 0#5 then none else some r) v) s := by
  simp only [mnxtiOp, (nextNonVectored_iff s r).2 h, handlerThen]
  cases handlerAddr s r.id with
  | ok v t =>
    refine (retire_completed 4 _).trans ?_
    by_cases hu : u = 0#5
    · simp only [hu, if_true]; rfl
    · simp only [hu, if_false]; rfl
  | exc | refuse => rfl

/-- jalmnxti without a next interrupt does nothing (R495). -/
theorem jalmnxtiOp_none (h : ∀ r, ¬ NextInterrupt s r) : jalmnxtiOp rd s = retire 4 s := by
  rw [jalmnxtiOp, nextNonVectored_none s h]

theorem jalmnxtiOp_next (h : NextInterrupt s r) :
    jalmnxtiOp rd s = handlerThen r.id (fun v t => t.jumpsToHandler rd s.pc r v) s := by
  simp only [jalmnxtiOp, (nextNonVectored_iff s r).2 h, handlerThen]
  cases handlerAddr s r.id with
  | ok v t => exact (retireAt_eq _ _).trans rfl
  | exc | refuse => rfl

end

/-! ### What mnxti leaves (R493) -/

/-- Storing back the mode that MPP holds keeps it, if it is one of the core's (10_state.md R43). -/
theorem storeMpp_bits {cfg : Config} {p : Priv} (free : Nat) (h : cfg.hasUmode = false → p = .machine) :
    storeMpp cfg free p.bits = p := by
  cases hu : cfg.hasUmode with
  | false => obtain rfl := h hu; rfl
  | true => cases p <;> simp [storeMpp, Priv.bits, hu]

/-- Storing back what mstatus reads, but for its low five bits, changes MIE alone. -/
theorem Mstatus.write_word {m : Mstatus} {cfg : Config} {v : Word} (free : Nat)
    (h : cfg.hasUmode = false → m.mpp = .machine) (hv : ∀ k, 5 ≤ k → v.getLsbD k = m.word.getLsbD k) :
    m.write cfg free v = { m with mie := v.getLsbD 3 } := by
  obtain ⟨-, mpie, -, fs, xs, mprv, sum, -⟩ := mstatus_layout m
  have field : ∀ k, 5 ≤ k → v.extractLsb' k 2 = m.word.extractLsb' k 2 := fun k hk => by
    apply BitVec.eq_of_getLsbD_eq
    intro j _
    rw [BitVec.getLsbD_extractLsb', BitVec.getLsbD_extractLsb', hv (k + j) (by omega)]
  have hfs : (if (cfg.hasF || cfg.hasD) = true then m.fs else m.fs) = m.fs := ite_self _
  rw [Mstatus.write, hv 7 (by decide), hv 17 (by decide), hv 18 (by decide), field 11 (by decide), field 13 (by decide),
    field 15 (by decide), mpie, mstatus_mpp, fs, xs, mprv, sum, storeMpp_bits free h, hfs]

/-- The read-modify-write of mnxti changes MIE, where the immediate has bit 3. -/
theorem mnxtiStatus_eq {s : State} (set : Bool) (u : BitVec 5)
    (h : s.cfg.hasUmode = false → s.csr.mstatus.mpp = .machine) :
    s.mnxtiStatus set u = s.withCsr { s.csr with mstatus := { s.csr.mstatus with
      mie := if set then s.csr.mstatus.mie || u.getLsbD 3 else s.csr.mstatus.mie && !u.getLsbD 3 } } := by
  obtain ⟨mie, -⟩ := mstatus_layout s.csr.mstatus
  unfold State.mnxtiStatus
  split
  · next hu =>
    subst hu
    cases set <;> simp <;> rfl
  · have high : ∀ k, 5 ≤ k → (u.setWidth 32).getLsbD k = false := fun k hk => by
      rw [BitVec.getLsbD_setWidth, BitVec.getLsbD_of_ge u k hk, Bool.and_false]
    simp only [csrWrite, Csrs.write]
    rw [Mstatus.write_word s.free h fun k hk => ?_]
    · cases set <;> simp [mie, -BitVec.getLsbD_eq_getElem]
    · by_cases hk32 : k < 32
      · cases set <;> simp [high k hk, hk32, -BitVec.getLsbD_eq_getElem]
      · rw [BitVec.getLsbD_of_ge _ k (by omega), BitVec.getLsbD_of_ge _ k (by omega)]

theorem PointFrame.claimOpt {s t : State} (h : PointFrame s t) (claimed : Option Request) :
    PointFrame s (t.claimOpt claimed) := by
  cases claimed with
  | none => exact h
  | some r => exact (h.withCsr _).withEclic _

/-- mnxti completes as R493 says. -/
theorem mnxtiDone_of {i : Instr} {s : State} {rd : Reg} {set : Bool} {u : BitVec 5} {claimed : Option Request} {v : Word}
    (h : s.cfg.hasUmode = false → s.csr.mstatus.mpp = .machine)
    (run : exec i s = .next (s.mnxtiGives set rd u claimed v)) : MnxtiDone i s rd set u claimed v := by
  have hs := mnxtiStatus_eq set u h
  have frame : PointFrame s (s.mnxtiGives set rd u claimed v) := by
    rw [State.mnxtiGives, hs]
    exact ((((PointFrame.refl s).withCsr _).claimOpt claimed).setX rd v).completed 4
  refine ⟨_, run, ?x, ?pc, ?csr, ?unclaimed, ?claim, frame⟩ <;> rw [State.mnxtiGives, hs]
  case x =>
    cases claimed <;> exact wroteX_setX _ rd v
  case pc =>
    cases claimed <;> simp [State.completed, State.claimOpt, State.claimIrq]
  case csr =>
    cases claimed <;> simp [State.completed, State.claimOpt, State.claimIrq, mnxtiCsrs, Csrs.counted]
  case unclaimed =>
    rintro rfl
    simp [State.completed, State.claimOpt]
  case claim =>
    rintro r rfl
    simpa [State.completed, State.claimOpt, State.claimIrq] using claim_ipCleared s.eclic r.id

/-- jalmnxti completes as R495 says. -/
theorem jumpsToHandler_does (s : State) (rd : Reg) (pc : Word) (r : Request) (v : Word) {t : State}
    (ht : t = s.jumpsToHandler rd pc r v) : WroteX s t rd pc ∧ t.pc = v &&& 0xFFFFFFFE#32 ∧
      t.csr = { s.csr.counted with
        mstatus := { s.csr.mstatus with mie := true }
        mcause := { s.csr.mcause with exccode := BitVec.ofNat 12 r.id }
        mintstatus := { s.csr.mintstatus with mil := r.level } } ∧
      IpCleared s.eclic t.eclic r.id ∧ PointFrame s t := by
  subst ht
  refine ⟨wroteX_setX ((s.claimIrq r).enableIrqs) rd pc, rfl, ?csr, ?eclic, ?frame⟩
  case csr => simp [State.jumpsToHandler, State.continuesAt, State.enableIrqs, State.claimIrq, Csrs.counted]
  case eclic =>
    simpa [State.jumpsToHandler, State.continuesAt, State.enableIrqs, State.claimIrq] using claim_ipCleared s.eclic r.id
  case frame => exact (((((PointFrame.refl s).withCsr _).withEclic _).withCsr _).setX rd pc).withCsr _ |>.withPc _

/-! ### Instructions that read the vector table -/

section
variable {s : State} {i : Instr} {r : Request}

/-- An instruction that reads the vector table takes a handler address, whatever memory holds and whatever errors there
are. -/
theorem readsTable_runs (h : ReadsTable s i) (hm : s.priv = .machine) (hn : NextInterrupt s r) :
    s.cfg.mnxtiReturns = .handler ∧
      ∃ taken : Word → State → State, (∀ v, EccBlind (taken v)) ∧ RunsAs s i (handlerThen r.id taken) := by
  cases h with
  | jump rd rs1 h =>
    exact ⟨h, fun v t => t.jumpsToHandler rd s.pc r v, fun v => eccBlind_jumpsToHandler rd s.pc r v, fun m l =>
      (exec_point (s := { s with eccHits := l, mem := m }) (c := .jalmnxti) (exec_csrrw rd 0x7ED rs1 _) hm rfl rfl).trans
        (jalmnxtiOp_next hn)⟩
  | set rd u h =>
    exact ⟨h, _, fun v => eccBlind_mnxtiGives true rd u _ v, fun m l =>
      (exec_point (s := { s with eccHits := l, mem := m }) (c := .mnxti) (exec_csrrsi rd 0x345 u _) hm rfl rfl).trans
        (mnxtiOp_next true hn)⟩
  | clear rd u h =>
    exact ⟨h, _, fun v => eccBlind_mnxtiGives false rd u _ v, fun m l =>
      (exec_point (s := { s with eccHits := l, mem := m }) (c := .mnxti) (exec_csrrci rd 0x345 u _) hm rfl rfl).trans
        (mnxtiOp_next false hn)⟩

theorem handlerAddr_table {id : Nat} (h : s.cfg.mnxtiReturns = .handler) : handlerAddr s id = vectorTableRead s id := by
  simp only [handlerAddr, h]

theorem handlerThen_ok {taken : Word → State → State} {id : Nat} {v : Word} {u : State}
    (h : handlerAddr s id = .ok v u) : handlerThen id taken s = .next (taken v u) := by
  simp only [handlerThen, h]

theorem handlerThen_exc {taken : Word → State → State} {id : Nat} {e : Exc} {u : State}
    (h : handlerAddr s id = .exc e u) : handlerThen id taken s = raise e u := by
  simp only [handlerThen, h]

/-- A read that the PMP or the bus refuses raises (R495; of mnxti log 19). -/
theorem readsTable_refused {d : BitVec 2} (h : ReadsTable s i) (hm : s.priv = .machine) (hn : NextInterrupt s r)
    (hw : s.pendingFault = none) (hd : FetchRefused s .machine (tableWord s r.id) d) :
    ∃ t, exec i s = .next t ∧ ExceptionEntered s t 1 s.pc ∧ t.csr.mtval = tableWord s r.id ∧ t.csr.mdcause = d ∧
      t.pendingFault = none := by
  obtain ⟨hh, taken, -, run⟩ := readsTable_runs h hm hn
  obtain ⟨detail, hx, hdetail⟩ := vectorTableRead_refused hd
  refine ⟨takeException ⟨.instrAccessFault, some (tableWord s r.id), detail⟩ s.pc s, ?_, takeException_entered _ _ _, rfl,
    hdetail _ _, hw⟩
  rw [exec_here run, handlerThen_exc ((handlerAddr_table hh).trans hx), raise_eq _ s hw]

/-- A read that meets an error which traps raises, after the errors are recorded (log 50). -/
theorem readsTable_traps (h : ReadsTable s i) (hm : s.priv = .machine) (hn : NextInterrupt s r)
    (ha : FetchAllowed s .machine (tableWord s r.id)) (ht : EccTraps s .fetch (tableWord s r.id, 4))
    (hw : s.pendingFault = none) :
    ∃ v t, EccNoted s v (EccMet s .fetch [(tableWord s r.id, 4)]) ∧ exec i s = .next t ∧ ExceptionEntered v t 1 s.pc ∧
      t.csr.mtval = tableWord s r.id ∧ t.csr.mdcause = s.csr.mdcause ∧ t.pendingFault = none := by
  obtain ⟨hh, taken, -, run⟩ := readsTable_runs h hm hn
  have hN := notedAt_noted s .fetch (tableWord s r.id)
  obtain ⟨-, hpc, hpf, hmd, -⟩ := hN.same_fetch
  have hv := hpf.trans hw
  refine ⟨_, takeException ⟨.instrAccessFault, some (tableWord s r.id), .keep⟩ s.pc _, hN, ?_, takeException_entered _ _ _,
    rfl, hmd, hv⟩
  rw [exec_here run, handlerThen_exc ((handlerAddr_table hh).trans (vectorTableRead_traps ha ht)), raise_eq _ _ hv, hpc]

/-- A read whose errors do not trap: the instruction uses the word as it arrives (log 50). -/
theorem readsTable_delivered (h : ReadsTable s i) (hm : s.priv = .machine) (hn : NextInterrupt s r)
    (ha : FetchAllowed s .machine (tableWord s r.id)) (ht : ¬ EccTraps s .fetch (tableWord s r.id, 4)) {m : Memory}
    (har : ∀ b, ByteArrives s (EccMet s .fetch [(tableWord s r.id, 4)]) m b) :
    EccDelivered i s .load (EccMet s .fetch [(tableWord s r.id, 4)]) m := by
  obtain ⟨hh, taken, blind, run⟩ := readsTable_runs h hm hn
  have hN := notedAt_noted s .fetch (tableWord s r.id)
  have clean : vectorTableRead { s with eccHits := [], mem := m } r.id =
      .ok (busWord { s with eccHits := [], mem := m } Config.freeTablePort (tableWord s r.id))
        { s with eccHits := [], mem := m } := by
    rw [vectorTableRead_arrives (s := { s with eccHits := [], mem := m }) ha (not_traps_none rfl _), usedAt_none rfl,
      notedAt_none rfl, arrives_right]
    rfl
  refine eccDelivered_of (blind _) hN ?_
    ((run m []).trans (handlerThen_ok ((handlerAddr_table (s := { s with eccHits := [], mem := m }) hh).trans clean)))
    (OnlyMem.refl _) (OnlyMem.refl _) ?_
  · rw [exec_here run, handlerThen_ok ((handlerAddr_table hh).trans (vectorTableRead_arrives ha ht)), busWord_delivered har]
  · rw [if_pos rfl, hN.eq_withEcc]
    exact ⟨fun _ => rfl, rfl⟩

end

/-- Settles O35: without a next interrupt, with its handler address, and where the read of the table fails or meets
errors. -/
theorem interruptClaimResults : Obligations.InterruptClaimResults := by
  unfold Obligations.InterruptClaimResults
  intro s rd rs1 u hm hpp
  have set := exec_point (c := .mnxti) (exec_csrrsi rd 0x345 u s) hm rfl rfl
  have clear := exec_point (c := .mnxti) (exec_csrrci rd 0x345 u s) hm rfl rfl
  have jump := exec_point (c := .jalmnxti) (exec_csrrw rd 0x7ED rs1 s) hm rfl rfl
  refine ⟨fun hn => ⟨?set0, ?clear0, ?jump0⟩, ?taken, ?refused, ?errors⟩
  case set0 => exact mnxtiDone_of hpp (set.trans (mnxtiOp_none true hn))
  case clear0 => exact mnxtiDone_of hpp (clear.trans (mnxtiOp_none false hn))
  case jump0 =>
    rw [jump.trans (jalmnxtiOp_none hn)]
    exact retireAt_done (s.pc + 4) s 0
  case taken =>
    rintro r _ _ handler hn rfl rfl he hh
    have address := handlerAddr_plain he hh
    exact ⟨mnxtiDone_of hpp (set.trans ((mnxtiOp_next true hn).trans (handlerThen_ok address))),
      mnxtiDone_of hpp (clear.trans ((mnxtiOp_next false hn).trans (handlerThen_ok address))),
      _, jump.trans ((jalmnxtiOp_next hn).trans (handlerThen_ok address)), jumpsToHandler_does s rd s.pc r handler rfl⟩
  case refused =>
    rintro i r _ d hi hn rfl hw hd
    exact readsTable_refused hi hm hn hw hd
  case errors =>
    rintro i r _ _ hi hn rfl ha rfl
    exact ⟨fun ht hw => readsTable_traps hi hm hn ha ht hw, fun ht m har => readsTable_delivered hi hm hn ha ht har⟩

end Sys2Proof.Machine

/-! PROOFS. The statement of 46_system.md about CSR instructions that write (O33). -/

namespace Sys2Proof.Machine

/-! ### What a register holds after a write, bit by bit (R482) -/

/-- A word is another one under a mask if its bits are. -/
theorem eq_and_of_bits {x v mask : Word} (h : ∀ k < 32, x.getLsbD k = (v.getLsbD k && mask.getLsbD k)) :
    x = v &&& mask :=
  BitVec.eq_of_getLsbD_eq fun k hk => by rw [h k hk, BitVec.getLsbD_and]

/-- The low bits of a word. -/
theorem setWidth_setWidth_eq_and (v : Word) {n : Nat} (hn : n ≤ 32) :
    (v.setWidth n).setWidth 32 = v &&& BitVec.ofNat 32 (2 ^ n - 1) := by
  apply BitVec.eq_of_toNat_eq
  have hp : 2 ^ n ≤ 2 ^ 32 := Nat.pow_le_pow_right (by decide) hn
  have hv := Nat.mod_lt v.toNat (Nat.two_pow_pos n)
  rw [BitVec.toNat_setWidth, BitVec.toNat_setWidth, BitVec.toNat_and, BitVec.toNat_ofNat,
    Nat.mod_eq_of_lt (a := 2 ^ n - 1) (by omega), Nat.and_two_pow_sub_one_eq_mod, Nat.mod_eq_of_lt (b := 2 ^ 32) (by omega)]

theorem extractLow_setWidth (v : Word) {n : Nat} (hn : n ≤ 32) :
    (v.extractLsb' 0 n).setWidth 32 = v &&& BitVec.ofNat 32 (2 ^ n - 1) := by
  rw [← setWidth_setWidth_eq_and v hn]
  congr 1
  exact BitVec.eq_of_toNat_eq (by simp)

theorem ofBool_setWidth (v : Word) : (BitVec.ofBool (v.getLsbD 0)).setWidth 32 = v &&& 1#32 := by
  refine eq_and_of_bits fun k hk => ?_
  cases k with
  | zero => simp
  | succ k => simp

theorem fcsr_stored (v : Word) : (0#24 ++ v.extractLsb' 5 3 ++ v.extractLsb' 0 5 : Word) = v &&& 0xFF#32 := by
  refine eq_and_of_bits fun k hk => ?_
  interval_cases k <;> simp only [getLsbD_append_cases] <;> simp

theorem msubm_stored (v : Word) : Msubm.word ⟨v.extractLsb' 8 2, v.extractLsb' 6 2⟩ = v &&& 0x3C0#32 := by
  refine eq_and_of_bits fun k hk => ?_
  interval_cases k <;> simp only [Msubm.word, getLsbD_append_cases] <;> simp

theorem savedCause_stored (v : Word) : (SavedCause.ofWord v).word = v &&& 0xF8FF0FFF#32 := by
  refine eq_and_of_bits fun k hk => ?_
  interval_cases k <;> simp only [SavedCause.word, SavedCause.ofWord, causeWord, getLsbD_append_cases] <;> simp

theorem mcause_stored (v : Word) (mpp : BitVec 2) :
    causeWord (v.getLsbD 31) (v.getLsbD 30) mpp (v.getLsbD 27) (v.extractLsb' 16 8) (v.extractLsb' 0 12) &&& 0xCFFFFFFF#32 =
      v &&& 0xC8FF0FFF#32 := by
  refine eq_and_of_bits fun k hk => ?_
  interval_cases k <;> simp only [causeWord, BitVec.getLsbD_and, getLsbD_append_cases] <;> simp

theorem mstatus_stored (cfg : Config) (free : Nat) (m : Mstatus) (v : Word) :
    (m.write cfg free v).word &&& 0x00078088#32 = v &&& 0x00078088#32 := by
  refine eq_and_of_bits fun k hk => ?_
  interval_cases k <;> simp only [Mstatus.write, Mstatus.word, BitVec.getLsbD_and, getLsbD_append_cases] <;> simp

theorem saveStatus_stored (l1 l2 : SaveLevel) (v : Word) :
    saveStatusWord { l1 with ptyp := v.extractLsb' 6 2, mpp := v.extractLsb' 1 2, mpie := v.getLsbD 0 }
      { l2 with ptyp := v.extractLsb' 14 2, mpp := v.extractLsb' 9 2, mpie := v.getLsbD 8 } = v &&& 0xC7C7#32 := by
  refine eq_and_of_bits fun k hk => ?_
  interval_cases k <;> simp only [saveStatusWord, getLsbD_append_cases] <;> simp

theorem mtvt2_stored (v : Word) :
    (v.extractLsb' 2 30 ++ 0#1 ++ BitVec.ofBool (v.getLsbD 0) : Word) = v &&& 0xFFFFFFFD#32 := by
  refine eq_and_of_bits fun k hk => ?_
  interval_cases k <;> simp only [getLsbD_append_cases] <;> simp

theorem mcounteren_stored (v : Word) :
    (0#29 ++ BitVec.ofBool (v.getLsbD 2) ++ BitVec.ofBool (v.getLsbD 1) ++ BitVec.ofBool (v.getLsbD 0) : Word) =
      v &&& 0x7#32 := by
  refine eq_and_of_bits fun k hk => ?_
  interval_cases k <;> simp only [getLsbD_append_cases] <;> simp

theorem mcountinhibit_stored (v : Word) :
    (0#29 ++ BitVec.ofBool (v.getLsbD 2) ++ 0#1 ++ BitVec.ofBool (v.getLsbD 0) : Word) = v &&& 0x5#32 := by
  refine eq_and_of_bits fun k hk => ?_
  interval_cases k <;> simp only [getLsbD_append_cases] <;> simp

/-- milm_ctl and mdlm_ctl, frozen by mecc_lock. -/
theorem localMem_stored (lock : Bool) (bpa : BitVec 22) (m : LocalMemCtl) (v : Word) :
    (m.write lock v).word bpa =
      if lock then m.word bpa else (m.word bpa &&& 0xFFFFFFF1#32) ||| (v &&& 0xE#32) := by
  cases lock with
  | true => rfl
  | false =>
    simp only [Bool.false_eq_true, if_false]
    apply BitVec.eq_of_getLsbD_eq
    intro k hk
    interval_cases k <;>
      simp only [LocalMemCtl.write, LocalMemCtl.word, BitVec.getLsbD_or, BitVec.getLsbD_and, getLsbD_append_cases] <;> simp

/-- mcache_ctl, whose ECC bits mecc_lock freezes. -/
theorem cache_stored (c : Csrs) (v : Word) :
    cacheWord (c.writeCache v).dcache (c.writeCache v).icache (c.writeCache v).icScpdMod =
      if c.meccLock then (cacheWord c.dcache c.icache c.icScpdMod &&& 0x001E003C#32) ||| (v &&& 0x00010003#32)
        else v &&& 0x001F003F#32 := by
  cases hl : c.meccLock with
  | true =>
    simp only [if_true]
    apply BitVec.eq_of_getLsbD_eq
    intro k hk
    interval_cases k <;>
      simp only [Csrs.writeCache, CacheCtl.write, hl, cacheWord, BitVec.getLsbD_or, BitVec.getLsbD_and,
        getLsbD_append_cases] <;> simp
  | false =>
    refine eq_and_of_bits fun k hk => ?_
    interval_cases k <;>
      simp only [Csrs.writeCache, CacheCtl.write, hl, cacheWord, getLsbD_append_cases] <;> simp

/-- mmisc_ctl, where MISALIGN and BPU are storage in some cores only. -/
theorem mmisc_stored (cfg : Config) (m : MmiscCtl) (v : Word) :
    (m.write cfg v).word = (v &&& 0x200#32) ||| ((if cfg.hasMisaligned then v else m.word) &&& 0x40#32) |||
      ((if cfg.hasBpu then v else m.word) &&& 0x8#32) := by
  have choice : ∀ (b : Bool) (k : Nat),
      (if b then v else m.word).getLsbD k = if b then v.getLsbD k else m.word.getLsbD k := fun b k => by cases b <;> rfl
  apply BitVec.eq_of_getLsbD_eq
  intro k hk
  simp only [BitVec.getLsbD_or, BitVec.getLsbD_and, choice]
  interval_cases k <;> simp only [MmiscCtl.write, MmiscCtl.word, getLsbD_append_cases] <;> simp

/-- mecc_code, of which mecc_lock freezes Code. -/
theorem mecc_stored (cfg : Config) (lock : Bool) (m : MeccCode) (v : Word) :
    (m.write cfg lock v).word &&& 0xFFFFFE00#32 = v &&& 0x1F1F0000#32 ∧
    (m.write cfg lock v).word.extractLsb' 0 9 = if lock then m.word.extractLsb' 0 9
      else v.extractLsb' 0 9 &&& BitVec.ofNat 9 (2 ^ min 9 cfg.eccCodeWidth - 1) := by
  have code : ∀ m : MeccCode, m.word.extractLsb' 0 9 = m.code := fun m => by
    apply BitVec.eq_of_getLsbD_eq
    intro k hk
    simp only [MeccCode.word, BitVec.getLsbD_extractLsb', getLsbD_append_cases]
    simp [hk]
  constructor
  · refine eq_and_of_bits fun k hk => ?_
    interval_cases k <;> simp only [MeccCode.write, MeccCode.word, BitVec.getLsbD_and, getLsbD_append_cases] <;> simp
  · rw [code, code, ← eccCodeMask_eq]
    rfl

theorem meccLock_stored (lock : Bool) (v : Word) : (BitVec.ofBool (lock || v.getLsbD 0)).setWidth 32 =
    ((BitVec.ofBool lock).setWidth 32 ||| v) &&& 0x1#32 := by
  refine eq_and_of_bits fun k hk => ?_
  cases k with
  | zero => simp
  | succ k => simp

/-! ### What a register reads after a write -/

theorem mstatus_keeps (s : State) (v : Word) : CsrKeeps s .mstatus v (csrRead s .mstatus)
    (s.csr.mstatus.write s.cfg s.free v).word := by
  obtain ⟨-, -, -, fs, xs, -, -, sd, zeros⟩ := mstatus_layout (s.csr.mstatus.write s.cfg s.free v)
  refine ⟨mstatus_stored .., zeros, ?_, ?_, ?_⟩
  · rw [fs]
    show (if _ then _ else _ : BitVec 2) = _
    split
    · rfl
    · exact (mstatus_fs s.csr.mstatus).symm
  · rw [fs, xs, sd]
    simp
  · rw [mstatus_mpp]
    exact storeMpp_stored _ _ _

theorem mcause_keeps (s : State) (v : Word) : CsrKeeps s .mcause v (csrRead s .mcause)
    (s.csr.writeCause s.cfg s.free v).causeRead := by
  have mpp : (s.csr.writeCause s.cfg s.free v).causeRead.extractLsb' 28 2 =
      (storeMpp s.cfg s.free (v.extractLsb' 28 2)).bits := cause_mpp ..
  refine ⟨mcause_stored v _, ?_⟩
  rw [mpp]
  exact storeMpp_stored _ _ _

theorem mtvt_keeps (s : State) (v : Word) : CsrKeeps s .mtvt v (csrRead s .mtvt)
    (clearLow (mtvtZeros s.cfg.numInterrupt) v) := fun h =>
  ⟨_, clearLow_toNat _ v, mtvtZeros_spec _ h⟩

theorem pmpcfg_keeps (s : State) (k : Nat) (v : Word) : CsrKeeps s (.pmpcfg k) v (csrRead s (.pmpcfg k))
    (pmpcfgWord (writePmpcfg s.csr.pmp k v) k) := fun j hj hl => by
  have old : s.csr.pmp[4 * k + j]? = some s.csr.pmp[4 * k + j] := List.getElem?_eq_getElem hl
  rw [pmpcfg_byte hj old, pmpcfgWord_byte _ _ _ hj, pmpByte, writePmpcfg_entry _ _ _ _ hj, old]
  exact writeCfg_stored _ _

theorem pmpaddr_keeps (s : State) (n : Nat) (v : Word) : CsrKeeps s (.pmpaddr n) v (csrRead s (.pmpaddr n))
    (((s.csr.pmp.modify n (·.writeAddr v))[n]?.getD .zero).addr.setWidth 32) := fun e he => by
  have new : (s.csr.pmp.modify n (·.writeAddr v))[n]? = some (e.writeAddr v) := by
    rw [List.getElem?_modify_eq, he]
    rfl
  have old : csrRead s (.pmpaddr n) = e.addr.setWidth 32 := by simp [csrRead, he]
  rw [new, old, Option.getD_some, PmpEntry.writeAddr]
  split
  · rfl
  · exact setWidth_setWidth_eq_and v (by decide)

/-- The table of R482: what each CSR reads once a value has been written to it. -/
theorem csrRead_csrWrite (s : State) (c : Csr) (v : Word) : CsrKeeps s c v (csrRead s c) (csrRead (csrWrite s c v) c) := by
  cases c with
  | fflags => exact extractLow_setWidth v (by decide)
  | frm => exact extractLow_setWidth v (by decide)
  | fcsr => exact fcsr_stored v
  | mstatus => exact mstatus_keeps s v
  | mcounteren => exact mcounteren_stored v
  | mtvt => exact mtvt_keeps s v
  | mcountinhibit => exact mcountinhibit_stored v
  | mcause => exact mcause_keeps s v
  | pmpcfg k => exact pmpcfg_keeps s k v
  | pmpaddr n => exact pmpaddr_keeps s n v
  | milmCtl => exact localMem_stored s.csr.meccLock s.cfg.ilmBpa s.csr.milm v
  | mdlmCtl => exact localMem_stored s.csr.meccLock s.cfg.dlmBpa s.csr.mdlm v
  | meccCode => exact mecc_stored s.cfg s.csr.meccLock s.csr.mecc v
  | msubm => exact msubm_stored v
  | mdcause | msavedcause1 | msavedcause2 => exact extractLow_setWidth v (by decide)
  | mcacheCtl =>
    show csrRead (s.writeCache v) .mcacheCtl = _
    simp only [csrRead, writeCache_csr]
    exact cache_stored s.csr v
  | mmiscCtl => exact mmisc_stored s.cfg s.csr.mmisc v
  | msavestatus => exact saveStatus_stored s.csr.save1 s.csr.save2 v
  | msavecause1 | msavecause2 => exact savedCause_stored v
  | meccLock => exact meccLock_stored s.csr.meccLock v
  | mtvt2 => exact mtvt2_stored v
  | ucode | wfe | sleepvalue => exact ofBool_setWidth v
  | mcycle | minstret => exact setWidth_append _ v
  | mcycleh | minstreth => exact extractLsb_append v _
  | misa | mnvec | mintstatus | mie | mip | txevt | mtvec | mscratch | mtval | mepc | msaveepc1 | msaveepc2 => rfl
  | _ => trivial

/-! ### What a write leaves alone -/

section
variable {s t : State} {c : Csr} {v : Word} (h : CsrFrame s t c v)
include h

theorem CsrFrame.setX (rd : Reg) (w : Word) : CsrFrame s (t.setX rd w) c v := by
  unfold State.setX
  split
  · exact h
  · exact { h with }

theorem CsrFrame.withPc (p : Word) : CsrFrame s (t.withPc p) c v := { h with }

theorem CsrFrame.completed (len : Word) : CsrFrame s (t.completed len) c v := { h with }

end

section
variable (s : State) {c : Csr} (v : Word)

theorem csrWrite_mcacheCtl_csr : (csrWrite s .mcacheCtl v).csr = s.csr.writeCache v := writeCache_csr s v

/-- A write leaves minstret alone, but for its own two registers. -/
theorem csrWrite_minstret (hl : c ≠ .minstret) (hh : c ≠ .minstreth) : (csrWrite s c v).csr.minstret = s.csr.minstret := by
  by_cases hc : c = .mcacheCtl
  · subst hc
    rw [csrWrite_mcacheCtl_csr]
    rfl
  · rw [csrWrite_csr s c v hc]
    cases c with
    | minstret => exact absurd rfl hl
    | minstreth => exact absurd rfl hh
    | _ => rfl

theorem csrWrite_mcountinhibit (hi : c ≠ .mcountinhibit) :
    (csrWrite s c v).csr.mcountinhibit = s.csr.mcountinhibit := by
  by_cases hc : c = .mcacheCtl
  · subst hc
    rw [csrWrite_mcacheCtl_csr]
    rfl
  · rw [csrWrite_csr s c v hc]
    cases c with
    | mcountinhibit => exact absurd rfl hi
    | _ => rfl

/-- A write changes the storage of its CSR only. -/
theorem csrWrite_only (c : Csr) : CsrOnly c s.csr (csrWrite s c v).csr := by
  by_cases hc : c = .mcacheCtl
  · subst hc
    rw [csrWrite_mcacheCtl_csr]
    rfl
  · rw [csrWrite_csr s c v hc]
    exact write_only _ _ _ _ _ hc

/-- What a write stores does not depend on minstret, but for its own two registers. -/
theorem csrWrite_withMinstret (n : BitVec 64) (hl : c ≠ .minstret) (hh : c ≠ .minstreth) :
    (csrWrite (s.withCsr { s.csr with minstret := n }) c v).csr = { (csrWrite s c v).csr with minstret := n } := by
  by_cases hc : c = .mcacheCtl
  · subst hc
    rw [csrWrite_mcacheCtl_csr, csrWrite_mcacheCtl_csr]
    rfl
  · rw [csrWrite_csr _ c v hc, csrWrite_csr s c v hc]
    cases c with
    | minstret => exact absurd rfl hl
    | minstreth => exact absurd rfl hh
    | _ => rfl

/-- So its CSR is all that differs from the CSRs before, the count apart. -/
theorem csrWrite_counted_only (hl : c ≠ .minstret) (hh : c ≠ .minstreth) :
    CsrOnly c { s.csr with minstret := (csrWrite s c v).csr.counted.minstret } (csrWrite s c v).csr.counted := by
  have h := csrWrite_only (s.withCsr { s.csr with minstret := (csrWrite s c v).csr.counted.minstret }) v c
  rw [csrWrite_withMinstret s v _ hl hh] at h
  exact h

theorem getX_csrWrite (c : Csr) (r : Reg) : (csrWrite s c v).getX r = s.getX r := by
  rw [State.getX, State.getX, csrWrite_x]

/-- The old value goes to `x[rd]`. -/
theorem csrWrite_wroteX (c : Csr) (rd : Reg) (w : Word) : WroteX s ((csrWrite s c v).setX rd w) rd w := fun r => by
  rw [wroteX_setX (csrWrite s c v) rd w r, getX_csrWrite]

end

/-- What a CSR reads does not depend on the integer registers. -/
theorem csrRead_setX (s : State) (rd : Reg) (w : Word) (c : Csr) : csrRead (s.setX rd w) c = csrRead s c := by
  unfold State.setX
  split
  · rfl
  · cases c <;> rfl

theorem csrRead_withPc (s : State) (p : Word) (c : Csr) : csrRead (s.withPc p) c = csrRead s c := by
  cases c <;> rfl

/-- The count of the instruction shows in minstret only. -/
theorem csrKeeps_completed {s t : State} {c : Csr} {v old : Word} (hl : c ≠ .minstret) (hh : c ≠ .minstreth)
    (h : CsrKeeps s c v old (csrRead t c)) : CsrKeeps s c v old (csrRead (t.completed 4) c) := by
  cases c with
  | minstret => exact absurd rfl hl
  | minstreth => exact absurd rfl hh
  | instret | instreth => trivial
  | _ => exact h

/-! ### The six CSR instructions -/

section
variable {s : State} {i : Instr} {form : CsrForm} {rd : Reg} {a : CsrAddr} {c : Csr} {field : BitVec 5} {v : Word}

/-- A CSR instruction that writes (R480, R482). -/
theorem exec_csrWrite (run : exec i s = csrInstr i form rd a field s) (ha : Csr.ofAddr a = some c)
    (hc : c.isPoint = false) (hp : c.permitted s true = true) (hw : form.writes field = true)
    (hv : form.value (csrRead s c) (form.operand field s) = v) (hr : csrWriteRefused s c v = false) :
    exec i s = retireCsr c true ((csrWrite s c v).setX rd (csrRead s c)) := by
  subst hv
  rw [run, csrInstr_permitted ha (by rw [hw]; exact hp), csrDispatch_plain hc, csrPlain, if_pos hw,
    if_neg (by rw [hr]; exact Bool.false_ne_true)]

/-- A write of minstret stands as it is (10_state.md R63). -/
theorem csrWriteDone_uncounted (hm : c = .minstret ∨ c = .minstreth)
    (run : exec i s = retireCsr c true ((csrWrite s c v).setX rd (csrRead s c))) : CsrWriteDone i s rd c v := by
  rw [retireCsr, if_pos ⟨rfl, hm⟩] at run
  refine ⟨_, run, csrWrite_wroteX s v c rd _, ?pc, ?only, fun hl hh => absurd hm (by simp [hl, hh]), ?inhibit, ?keeps,
    ((csrWrite_frame s c v).setX rd _).withPc _⟩
  case pc => rw [State.withPc_pc, State.setX_pc, csrWrite_pc]
  case only =>
    rw [if_pos hm, State.withPc_csr, State.setX_csr]
    exact csrWrite_only s v c
  case inhibit =>
    rintro rfl
    simp at hm
  case keeps =>
    rw [csrRead_withPc, csrRead_setX]
    exact csrRead_csrWrite s c v

/-- Every other write is counted. -/
theorem csrWriteDone_counted (hl : c ≠ .minstret) (hh : c ≠ .minstreth)
    (run : exec i s = retireCsr c true ((csrWrite s c v).setX rd (csrRead s c))) : CsrWriteDone i s rd c v := by
  have hn : ¬ (c = .minstret ∨ c = .minstreth) := not_or.2 ⟨hl, hh⟩
  rw [retireCsr, if_neg fun h => hn h.2, retire_completed] at run
  have csr : (((csrWrite s c v).setX rd (csrRead s c)).completed 4).csr = (csrWrite s c v).csr.counted :=
    congrArg Csrs.counted (State.setX_csr ..)
  have minstret := csrWrite_minstret s v hl hh
  refine ⟨_, run, csrWrite_wroteX s v c rd _, ?pc, ?only, fun _ _ hi => ?count, fun _ => ?inhibit, ?keeps,
    ((csrWrite_frame s c v).setX rd _).completed 4⟩
  case pc =>
    show ((csrWrite s c v).setX rd _).pc + 4 = _
    rw [State.setX_pc, csrWrite_pc]
  case only =>
    rw [if_neg hn, csr]
    exact csrWrite_counted_only s v hl hh
  case count =>
    rw [csr, Csrs.counted, Csrs.counted, minstret, csrWrite_mcountinhibit s v hi]
  case inhibit =>
    rw [csr, Csrs.counted, minstret]
    show (if _ then _ else _ : BitVec 64) = _ ∨ (if _ then _ else _ : BitVec 64) = _
    split
    · exact .inl rfl
    · exact .inr rfl
  case keeps =>
    refine csrKeeps_completed hl hh ?_
    rw [csrRead_setX]
    exact csrRead_csrWrite s c v

end

/-- Settles O33: each of the six writes, and completes with its own count or without. -/
theorem csrWriteResults : Obligations.CsrWriteResults := by
  unfold Obligations.CsrWriteResults
  intro s a c rd field old x u ha hc hp ho hx hu
  subst ho hx hu
  have done : ∀ {i : Instr} {form : CsrForm} {v : Word}, exec i s = csrInstr i form rd a field s →
      form.writes field = true → form.value (csrRead s c) (form.operand field s) = v →
      csrWriteRefused s c v = false → CsrWriteDone i s rd c v := fun run hw hv hr => by
    have run := exec_csrWrite run ha hc hp hw hv hr
    by_cases hm : c = .minstret ∨ c = .minstreth
    · exact csrWriteDone_uncounted hm run
    · obtain ⟨hl, hh⟩ := not_or.1 hm
      exact csrWriteDone_counted hl hh run
  refine ⟨?rw, ?rwi, fun hf => ⟨?rs, ?rc, ?rsi, ?rci⟩⟩
  case rw => exact done (exec_csrrw rd a field s) rfl rfl
  case rwi => exact done (exec_csrrwi rd a field s) rfl rfl
  case rs => exact done (exec_csrrs rd a field s) (bne_iff_ne.2 hf) rfl
  case rc => exact done (exec_csrrc rd a field s) (bne_iff_ne.2 hf) rfl
  case rsi => exact done (exec_csrrsi rd a field s) (bne_iff_ne.2 hf) rfl
  case rci => exact done (exec_csrrci rd a field s) (bne_iff_ne.2 hf) rfl

end Sys2Proof.Machine

/-! PROOFS. The statements of 60_exceptions.md: how the mode changes (O58), imprecise faults (O42), the entries of the
NMI (O44) and of interrupts (O45), the arbitration of the ECLIC (O46) and its registers (O47), and the TIMER (O48). -/

namespace Sys2Proof.Machine

/-! ### The vector-table read of interrupt entry (60_exceptions.md R560, R564) -/

section
variable {s : State} {r : Request} {a : Word}

/-- A fetch, or the read of a vector table, changes only the records of ECC errors, whether it succeeds or raises. -/
def Res.Notes {α : Type} (s : State) : Res α → Prop
  | .ok _ t => ∃ met, EccNoted s t met
  | .exc _ t => ∃ met, EccNoted s t met
  | .refuse _ => True

theorem eccEffect_notes (s : State) (path : AccessPath) (ps : List Part) (code : ExcCode) :
    (eccEffect s path ps code).Notes s := by
  unfold eccEffect
  simp only
  split
  · exact ⟨_, noteHits_noted _ s⟩
  · exact ⟨_, noteHits_noted _ s⟩

theorem checkFetch_notes (s : State) (p : Priv) (a : Word) : (checkFetch s p a).Notes s := by
  unfold checkFetch
  split
  · split
    · exact ⟨_, noted_nothing s⟩
    · exact eccEffect_notes s _ _ _
  · exact ⟨_, noted_nothing s⟩

theorem vectorTableRead_notes (s : State) (id : Nat) : (vectorTableRead s id).Notes s := by
  unfold vectorTableRead
  have hc := checkFetch_notes s .machine (s.csr.mtvt + 4 * BitVec.ofNat 32 id)
  simp only
  split
  · next h => rw [h] at hc; exact hc
  · exact trivial
  · next h => rw [h] at hc; exact hc

/-- Where no error can be met, the vector-table read finds the word that is there. -/
theorem vectorTableRead_clean {id : Nat} {w : Word} {u : State} (h : s.eccHits = [])
    (hv : vectorTableRead s id = .ok w u) : w = foundWord s Config.freeTablePort (tableWord s id) := by
  have hmet : (eccMet s .fetch [⟨tableWord s id, 4⟩]).isEmpty = true := by simp [eccMet, h]
  cases hp : pmpCheck s .machine .fetch (tableWord s id) with
  | false => rw [vectorTableRead_pmp hp] at hv; cases hv
  | true =>
    cases hb : busError s.cfg .fetch (tableWord s id) 4 with
    | true => rw [vectorTableRead_bus hp hb] at hv; cases hv
    | false =>
      rw [vectorTableRead_plain (plainFetch_iff.2 ⟨hp, hb, hmet⟩)] at hv
      cases hv
      rfl

end

/-! ### How the mode changes (60_exceptions.md R520) -/

/-- What taking a trap in `s` leaves in `t`, the pc apart (60_exceptions.md R520, R533, R535). -/
structure TrapTaken (s t : State) : Prop where
  mie : t.csr.mstatus.mie = false
  typ : t.csr.msubm.typ ≠ 0
  resv : t.resv = none
  mtvec : t.csr.mtvec = s.csr.mtvec

section
variable {s t u : State}

theorem UserKept.mtvec (h : UserKept s t) : t.csr.mtvec = s.csr.mtvec := congrArg (·.mtvec) h.csr

theorem takeException_csr (e : Exc) (epc : Word) (s : State) : (takeException e epc s).csr =
    s.csr.enterException e epc s.priv s.cfg.hasNestedStack s.free := rfl

/-- Exception entry, from a state that has the trap vector of `s`, is at mtvec (60_exceptions.md R530). -/
theorem takeException_trapTaken (e : Exc) (epc : Word) (h : u.csr.mtvec = s.csr.mtvec) :
    TrapTaken s (takeException e epc u) ∧ TrapEntryPc s (takeException e epc u).pc := by
  refine ⟨⟨?_, ?_, rfl, ?_⟩, .mtvec (by rw [← h]; rfl)⟩
  all_goals rw [takeException_csr, enterException_eq]
  · exact (by decide : (2#2) ≠ 0)
  · exact h

/-- The NMI enters at mtvec or at the reset vector (60_exceptions.md R545). -/
theorem takeNmi_trapTaken (h : nmiTaken s = true) : TrapTaken s (takeNmi s) ∧ TrapEntryPc s (takeNmi s).pc := by
  have hcsr : (takeNmi s).csr = s.csr.enterNmi s.pc s.priv s.cfg.hasNestedStack := rfl
  have hpc : (takeNmi s).pc = nmiEntry s := rfl
  refine ⟨⟨?_, ?_, rfl, ?_⟩, ?_⟩
  case refine_4 =>
    cases hf : s.csr.mmisc.nmiCauseFff with
    | true => exact .mtvec (by rw [hpc, nmiEntry, hf]; rfl)
    | false => exact .nmi ((nmiTaken_iff s).1 h) hf (by rw [hpc, nmiEntry, hf]; rfl)
  all_goals rw [hcsr, enterNmi_eq]
  exact (by decide : (3#2) ≠ 0)

/-- Interrupt entry is at mtvt2, mtvec or the word of the vector table; where that cannot be read, the exception on top
of the entry is at mtvec (60_exceptions.md R564, R565). -/
theorem takeIrq_trapTaken {r : Request} (hr : irqAllowed s = some r) (h : takeIrq r s = .next t) :
    TrapTaken s t ∧ TrapEntryPc s t.pc := by
  have ready := (irqAllowed_iff s r).1 hr
  have typ1 : (1#2) ≠ 0 := by decide
  unfold takeIrq at h
  split at h
  · next hs =>
    have hnotes := vectorTableRead_notes (s.enterIrq r true) r.id
    split at h
    · next w e hread =>
      rw [hread] at hnotes
      obtain ⟨met, hN⟩ := hnotes
      cases h
      have clean := fun hn => vectorTableRead_clean (s := s.enterIrq r true) hn hread
      refine ⟨?_, .vector r w e ready hs hread clean (evenAddr_eq w)⟩
      rw [hN.eq_withEcc]
      exact ⟨rfl, typ1, rfl, rfl⟩
    · next x e hread =>
      rw [hread] at hnotes
      obtain ⟨met, hN⟩ := hnotes
      cases h
      exact takeException_trapTaken _ _ (by rw [hN.eq_withEcc]; rfl)
    · cases h
  · next hs =>
    cases h
    refine ⟨⟨rfl, typ1, rfl, rfl⟩, ?_⟩
    cases he : s.csr.mtvt2.en with
    | true => exact .mtvt2 r ready (by simpa using hs) he (if_pos he)
    | false => exact .mtvec (if_neg (by simp [he]))

/-- The middle of a step leaves User Mode only by a trap. -/
theorem Acted.leaves_user (h : Acted s u) (hs : s.priv = .user) (hu : u.priv = .machine) :
    TrapTaken s u ∧ TrapEntryPc s u.pc := by
  have stays : u.priv = s.priv → TrapTaken s u ∧ TrapEntryPc s u.pc := fun he =>
    absurd (hu.symm.trans (he.trans hs)) nofun
  cases h with
  | sleep _ =>
    refine stays ?_
    unfold sleepStep
    split <;> rfl
  | fault e _ => exact takeException_trapTaken _ _ rfl
  | nmi hn => exact takeNmi_trapTaken hn
  | irq r hr _ ht => exact takeIrq_trapTaken hr ht
  | ran i hw hr _ =>
    cases hr with
    | done hd => exact stays (hw.trans hd).priv
    | trap hd e epc =>
      have kept := (hw.trans hd).userKept hs
      exact takeException_trapTaken _ _ kept.mtvec
    | mret _ hm _ => exact absurd (hm.symm.trans (hw.priv.trans hs)) nofun

/-- The middle of a step leaves Machine Mode only by an MRET with MPP = User. -/
theorem Acted.leaves_machine (h : Acted s u) (hs : s.priv = .machine) (hu : u.priv = .user) :
    ∃ s', fetch s = .ok (encode .mret) s' ∧ s'.csr.mstatus.mpp = .user ∧ u.pc = s'.csr.mepc := by
  have stays : u.priv ≠ .machine := by rw [hu]; nofun
  cases h with
  | sleep _ =>
    refine absurd ?_ stays
    unfold sleepStep
    split <;> exact hs
  | fault e _ => exact absurd rfl stays
  | nmi _ => exact absurd rfl stays
  | irq r _ _ ht => exact absurd (takeIrq_priv ht) stays
  | ran i hw hr hi =>
    cases hr with
    | done hd => exact absurd ((hw.trans hd).priv.trans hs) stays
    | trap _ e epc => exact absurd rfl stays
    | mret hm _ _ =>
      obtain ⟨c, hf, hd⟩ := hi hm
      obtain ⟨-, henc⟩ := Laws.encodes_of_decode hd
      exact ⟨_, henc ▸ hf, hu, rfl⟩

end

/-- Settles O58: the events change no mode, the middle of the step changes it as the two lemmas above say, and its end
touches neither mode, pc, CSRs nor reservation. -/
theorem modeChanges : Obligations.ModeChanges := by
  unfold Obligations.ModeChanges
  intro s t ht hreset
  obtain ⟨u, hu, rfl⟩ := step_acts ht
  have harrived := userKept_arrive hreset
  obtain ⟨m, hm⟩ := settle_frame u
  rw [hm]
  refine ⟨fun hs ht => hu.leaves_machine (harrived.priv.trans hs) ht, fun hs ht => ?_⟩
  obtain ⟨taken, entry⟩ := hu.leaves_user (harrived.priv.trans hs) ht
  exact ⟨taken.mie, taken.typ, taken.resv, taken.mtvec.trans harrived.mtvec, entry⟩

/-! ### Imprecise access faults (60_exceptions.md R526, R597) -/

section
variable {s : State} {i : Instr} {k : AccessKind} {b : Word} {pmp : Bool}

theorem isImprecise_accessFault (hk : k ≠ .fetch) (hp : s.cfg.preciseAccessFaults = false) (b : Word) (pmp : Bool) :
    isImprecise s (accessFault k b pmp) = true := by
  cases k with
  | fetch => exact absurd rfl hk
  | load | store | amo => simp [isImprecise, accessFault, faultCode, hp]

/-- A refused access retires where access faults are imprecise, and its fault waits. -/
theorem accessFault_waits {len : Word} {failed : State → State} (hk : k ≠ .fetch)
    (hp : s.cfg.preciseAccessFaults = false) (hf : FailEffect i failed)
    (run : exec i s = failAccess len failed (accessFault k b pmp) s) :
    ∃ t, exec i s = .next t ∧ RetiresWithFault i s t len (dataFaultCode k) b (if pmp then .pmp else .bus) := by
  rw [run, ← faultCode_num hk]
  exact failAccess_imprecise hf (isImprecise_accessFault hk hp b pmp) rfl

/-- The state after a fault that waits has been entered: it waits no longer (60_exceptions.md R526). -/
def State.faultEntered (s : State) (e : Exc) : State := takeException e s.pc (s.withPendingFault none)

theorem faultEntered_entered (s : State) (e : Exc) :
    ExceptionEntered { s with pendingFault := none } (s.faultEntered e) e.code.num s.pc :=
  takeException_entered e s.pc (s.withPendingFault none)

theorem raise_waiting {e p : Exc} (h : s.pendingFault = some p) : raise e s = .next (s.faultEntered p) := by
  rw [raise, h]
  rfl

theorem returnFromTrap_waiting {p : Exc} (h : s.pendingFault = some p) :
    returnFromTrap s = .next (s.faultEntered p) := by
  rw [returnFromTrap, h]
  rfl

theorem execWfi_waiting {p : Exc} (h : s.pendingFault = some p) : execWfi s = .next (s.faultEntered p) := by
  rw [execWfi, h]
  rfl

/-- Before an NMI or an interrupt a waiting fault is entered (60_exceptions.md R526, R528). -/
theorem boundaryTrap_waiting {p : Exc} (h : s.pendingFault = some p) (hd : NmiReady s ∨ ∃ r, IrqReady s r) :
    boundaryTrap s = some (.next (s.faultEntered p)) := by
  have due : faultDue s = true := by
    rw [faultDue, Bool.or_eq_true, Bool.or_eq_true, nmiTaken_iff, Option.isSome_iff_exists]
    exact .inl (hd.imp_right fun ⟨r, hr⟩ => ⟨r, (irqAllowed_iff s r).2 hr⟩)
  rw [boundaryTrap, h]
  exact if_pos due

/-- A step at whose boundary a waiting fault is entered. -/
theorem step_waiting {p : Exc} (hq : Quiet s) (ha : s.asleep = false) (h : s.pendingFault = some p)
    (hd : NmiReady s ∨ ∃ r, IrqReady s r) :
    ∃ t, step s = .next t ∧ t.pendingFault = none ∧ t.pc = s.csr.mtvec &&& 0xFFFFFFFC#32 ∧
      t.csr.mcause.exccode = p.code.num ∧ t.csr.mepc = s.pc &&& 0xFFFFFFFE#32 ∧ t.csr.msubm.typ = 2 ∧
      t.nmiPending = s.nmiPending ∧ t.eclic = s.eclic := by
  have hb : boundaryTrap s.endPulses = some (.next (s.endPulses.faultEntered p)) := boundaryTrap_waiting h hd
  obtain ⟨t, ht, m, rfl⟩ := step_of_boundary hq ha hb
  exact ⟨_, ht, rfl, rfl, rfl, rfl, rfl, rfl, rfl⟩

end

/-- Settles O42: a refused access retires with its fault waiting, and what waits is entered by each of the five. -/
theorem impreciseFaults : Obligations.ImpreciseFaults := by
  unfold Obligations.ImpreciseFaults
  refine fun s => ⟨fun i len k ea n b pmp hp h hu hb => ?access, fun i k ea b pmp hp hA h ha hb => ?atomic,
    fun e he => ⟨⟨_, execWfi_waiting he, faultEntered_entered s e, rfl, ?mtval⟩,
      ⟨_, raise_waiting he, faultEntered_entered s e, rfl⟩, ⟨_, raise_waiting he, faultEntered_entered s e, rfl⟩,
      fun hm => ⟨_, (exec_mret_machine hm).trans (returnFromTrap_waiting he), faultEntered_entered s e, rfl⟩,
      fun hq hs hd => step_waiting hq hs he hd⟩⟩
  case access =>
    obtain ⟨_, hf, run⟩ := (dataAccess_runs h).fails (checkData_fails hu hb)
    exact accessFault_waits h.not_fetch hp hf run
  case atomic =>
    obtain ⟨_, hf, run⟩ := (atomicAccess_runs hA h).fails (checkAtomic_fails ha hb)
    exact accessFault_waits h.not_fetch hp hf run
  case mtval =>
    intro v hv
    show e.tval.getD _ = v
    rw [hv]
    rfl

/-! ### Traps at a step boundary (60_exceptions.md R528, R545) -/

theorem boundaryTrap_nmi {s : State} (hw : s.pendingFault = none) (hn : NmiReady s) :
    boundaryTrap s = some (.next (takeNmi s)) := by
  rw [boundaryTrap, hw]
  exact if_pos ((nmiTaken_iff s).2 hn)

theorem boundaryTrap_irq {s : State} {r : Request} (hw : s.pendingFault = none) (hn : ¬ NmiReady s) (hr : IrqReady s r)
    (hm : s.csr.mtvec.extractLsb' 0 6 = 3#6) : boundaryTrap s = some (takeIrq r s) := by
  have hm : eclicMode s = true := beq_iff_eq.2 hm
  rw [boundaryTrap, hw]
  simp only [(irqAllowed_iff s r).2 hr, hm, if_true, if_neg (mt (nmiTaken_iff s).1 hn)]

theorem enterNmi_stack (c : Csrs) (pc : Word) (p : Priv) (b : Bool) : StackAtEntry b c (c.enterNmi pc p b) := by
  cases b
  · exact ⟨rfl, rfl⟩
  · exact ⟨rfl, rfl, rfl, rfl, rfl, rfl, rfl⟩

end Sys2Proof.Machine

namespace Sys2Proof.Laws

open Machine

/-- Settles O44: the NMI comes before any interrupt, and nothing but its latch and msubm decides whether it is taken. -/
theorem nmiEntry : Obligations.NmiEntry := by
  unfold Obligations.NmiEntry
  intro s hq ha hw hn
  obtain ⟨t, ht, m, rfl⟩ := step_of_boundary hq ha (boundaryTrap_nmi (s := s.endPulses) hw hn)
  refine ⟨_, ht, ?frame, rfl, rfl, rfl, rfl, rfl, enterNmi_stack s.csr s.pc s.priv _, enterNmi_eq s.csr s.pc s.priv _⟩
  case frame => exact ⟨fun _ => rfl, fun _ => rfl, ⟨fun _ => rfl, rfl⟩, rfl, rfl, rfl, rfl, rfl, rfl, rfl, rfl, rfl⟩

end Sys2Proof.Laws

namespace Sys2Proof.Machine

/-! ### Interrupt entry (60_exceptions.md R559 to R566) -/

section
variable {s : State} {r : Request} {a : Word}

/-- The checks of a fetch ask for the entries of the PMP and the lock, not for what interrupt entry changes. -/
theorem pmpCheck_enterIrq (s : State) (r : Request) (minhv : Bool) (a : Word) :
    pmpCheck (s.enterIrq r minhv) .machine .fetch a = pmpCheck s .machine .fetch a := by
  have hcfg : (s.enterIrq r minhv).cfg = s.cfg := rfl
  have hpmp : (s.enterIrq r minhv).csr.pmp = s.csr.pmp := rfl
  simp [pmpCheck, hcfg, hpmp]

theorem plainFetch_enterIrq (s : State) (r : Request) (minhv : Bool) (a : Word) :
    plainFetch (s.enterIrq r minhv) .machine a = plainFetch s .machine a := by
  rw [plainFetch, pmpCheck_enterIrq]
  rfl

theorem fetchAllowed_enterIrq (minhv : Bool) (h : FetchAllowed s .machine a) :
    FetchAllowed (s.enterIrq r minhv) .machine a := ⟨(pmpCheck_enterIrq ..).trans h.1, h.2⟩

theorem fetchRefused_enterIrq (minhv : Bool) {d : BitVec 2} (h : FetchRefused s .machine a d) :
    FetchRefused (s.enterIrq r minhv) .machine a d := by
  rw [FetchRefused, pmpCheck_enterIrq]
  exact h

theorem eccOn_enterIrq (s : State) (r : Request) (minhv : Bool) (u : EccUnit) :
    eccOn (s.enterIrq r minhv).csr u = eccOn s.csr u := by cases u <;> rfl

theorem noteHits_enterIrq (l : List EccHit) (s : State) (r : Request) (minhv : Bool) :
    (s.enterIrq r minhv).noteHits l = (s.noteHits l).enterIrq r minhv := by
  induction l generalizing s with
  | nil => rfl
  | cons h rest ih =>
    have hn : h.noticed (s.enterIrq r minhv).csr = h.noticed s.csr := eccOn_enterIrq s r minhv h.unit
    unfold State.noteHits
    rw [hn, ← ih]
    split
    · cases h.double <;> rfl
    · rfl

/-- Errors that the table read meets are recorded beside the entry. -/
theorem notedAt_enterIrq (s : State) (r : Request) (minhv : Bool) (a : Word) :
    (s.enterIrq r minhv).notedAt .fetch a = (s.notedAt .fetch a).enterIrq r minhv := noteHits_enterIrq _ s r minhv

end

/-! Where the entry leads (R564, R565). -/

section
variable {s u : State} {r : Request}

theorem takeIrq_direct (hs : r.shv = false) :
    takeIrq r s = .next ((s.enterIrq r s.csr.mcause.minhv).withPc (nonVectoredEntry s.csr)) := by
  rw [takeIrq, hs]
  rfl

/-- The word of the vector table was read, from the state `u` in which the errors it met are recorded. -/
theorem takeIrq_read {w : Word} (hs : r.shv = true)
    (hv : vectorTableRead (s.enterIrq r true) r.id = .ok w (u.enterIrq r true)) :
    takeIrq r s = .next { u with csr := irqCsrs u r false, priv := .machine, resv := none, eclic := u.eclic.claim r.id,
                                 pc := w &&& 0xFFFFFFFE#32 } := by
  rw [takeIrq, if_pos hs, hv]
  rfl

/-- The word of the vector table was not read. -/
theorem takeIrq_unread {e : Exc} (hs : r.shv = true)
    (hv : vectorTableRead (s.enterIrq r true) r.id = .exc e (u.enterIrq r true)) :
    takeIrq r s = .next { u with
      csr := (irqCsrs u r true).enterException e (Config.freeMepc s.free) .machine u.cfg.hasNestedStack u.free
      priv := .machine, resv := none, pc := u.csr.mtvec &&& 0xFFFFFFFC#32 } := by
  rw [takeIrq, if_pos hs, hv]
  rfl

end

/-- What every interrupt entry of a step from `s` sets or leaves alone, beside the CSRs, the pc and the ECLIC; the
errors that the read of the vector table met are recorded in `u`. -/
structure IrqTaken (s u t : State) : Prop where
  frame : BoundaryFrame s { t with eccOut := .none }
  eccOut : t.eccOut = u.eccOut
  nmiPending : t.nmiPending = s.nmiPending
  priv : t.priv = .machine
  resv : t.resv = none

section
variable {s u t e : State} {met : EccHit → Prop} {r : Request}

theorem EccNoted.exists_withEcc (h : EccNoted s u met) : ∃ c o, u = s.withEcc c o s.eccHits := ⟨_, _, h.eq_withEcc⟩

/-- Without an error the ECC outputs are low. -/
theorem IrqTaken.boundaryFrame (h : IrqTaken s s.afterPulses t) : BoundaryFrame s t := by
  have hout : { t with eccOut := .none } = t := congrArg (fun o => { t with eccOut := o }) h.eccOut.symm
  exact hout ▸ h.frame

/-- The step of an interrupt entry that leads to `e`. -/
theorem step_takeIrq (hq : Quiet s) (ha : s.asleep = false)
    (hb : boundaryTrap s.endPulses = some (takeIrq r s.endPulses)) (hN : EccNoted s.afterPulses u met)
    (run : takeIrq r s.afterPulses = .next e)
    (he : e = { u with csr := e.csr, eclic := e.eclic, pc := e.pc, priv := .machine, resv := none }) :
    ∃ t, step s = .next t ∧ IrqTaken s u t ∧ t.csr = e.csr ∧ t.eclic = e.eclic ∧ t.pc = e.pc := by
  obtain ⟨t, ht, m, hm⟩ := step_of_boundary hq ha (hb.trans (congrArg some run))
  refine ⟨t, ht, ?_, by rw [hm], by rw [hm], by rw [hm]⟩
  generalize e.csr = d, e.eclic = ec, e.pc = p at he
  subst he
  obtain ⟨c, o, hu⟩ := hN.exists_withEcc
  subst hm hu
  exact ⟨⟨fun _ => rfl, fun _ => rfl, ⟨fun _ => rfl, rfl⟩, rfl, rfl, rfl, rfl, rfl, rfl, rfl, rfl, rfl⟩, rfl, rfl, rfl,
    rfl⟩

/-- Recording errors leaves alone what interrupt entry reads of the CSRs. -/
theorem irqCsrs_noted (hN : EccNoted s.afterPulses u met) (minhv : Bool) :
    irqCsrs u r minhv = { irqCsrs s r minhv with mecc := u.csr.mecc } := by
  obtain ⟨c, o, hu⟩ := hN.exists_withEcc
  subst hu
  rfl

/-- The step of an interrupt entry whose word of the vector table is read. -/
theorem step_takeIrq_read {w : Word} (hq : Quiet s) (ha : s.asleep = false)
    (hb : boundaryTrap s.endPulses = some (takeIrq r s.endPulses)) (hN : EccNoted s.afterPulses u met)
    (hs : r.shv = true)
    (hv : vectorTableRead (s.afterPulses.enterIrq r true) r.id = .ok w (u.enterIrq r true)) :
    ∃ t, step s = .next t ∧ IrqTaken s u t ∧ IpCleared s.eclic t.eclic r.id ∧
      t.csr = { irqCsrs s r false with mecc := u.csr.mecc } ∧ t.pc = w &&& 0xFFFFFFFE#32 := by
  obtain ⟨t, ht, taken, hcsr, heclic, hpc⟩ := step_takeIrq hq ha hb hN (takeIrq_read hs hv) rfl
  refine ⟨t, ht, taken, ?_, hcsr.trans (irqCsrs_noted hN false), hpc⟩
  rw [heclic, show u.eclic = s.eclic by rw [hN.eq_withEcc]; rfl]
  exact claim_ipCleared s.eclic r.id

/-- The state stack holds nothing of mecc_code. -/
theorem StackAtEntry.of_mecc {b : Bool} {c d : Csrs} {e : MeccCode} (h : StackAtEntry b { c with mecc := e } d) :
    StackAtEntry b c d := by
  cases b with
  | false => exact h
  | true =>
    obtain ⟨level2, epc, cause, dcause, ptyp, mpp, mpie⟩ := h
    exact ⟨level2, epc, cause, dcause, ptyp, mpp, mpie⟩

/-- The step of an interrupt entry whose word of the vector table is not read. -/
theorem step_takeIrq_unread {a : Word} {detail : Detail} {d : BitVec 2} (hq : Quiet s) (ha : s.asleep = false)
    (hb : boundaryTrap s.endPulses = some (takeIrq r s.endPulses)) (hN : EccNoted s.afterPulses u met)
    (hs : r.shv = true)
    (hv : vectorTableRead (s.afterPulses.enterIrq r true) r.id =
      .exc ⟨.instrAccessFault, some a, detail⟩ (u.enterIrq r true))
    (hd : ∀ free, detailBits detail s.csr.mdcause free = d) :
    ∃ t, step s = .next t ∧ IrqTaken s u t ∧ t.eclic = s.eclic ∧
      t.csr = { failedReadCsrs s r a d t.csr with mecc := u.csr.mecc } ∧
      StackAtEntry s.cfg.hasNestedStack (irqCsrs s r true) t.csr ∧ t.pc = s.csr.mtvec &&& 0xFFFFFFFC#32 := by
  obtain ⟨t, ht, taken, hcsr, heclic, hpc⟩ := step_takeIrq hq ha hb hN (takeIrq_unread hs hv) rfl
  replace hcsr : t.csr = (irqCsrs u r true).enterException ⟨.instrAccessFault, some a, detail⟩
    (Config.freeMepc s.free) .machine u.cfg.hasNestedStack u.free := hcsr
  have hshape := enterException_eq (irqCsrs u r true) ⟨.instrAccessFault, some a, detail⟩
    (Config.freeMepc s.free) .machine u.cfg.hasNestedStack u.free
  have hstack := enterException_stack (irqCsrs u r true) ⟨.instrAccessFault, some a, detail⟩
    (Config.freeMepc s.free) .machine u.cfg.hasNestedStack u.free
  rw [← hcsr] at hshape hstack
  obtain ⟨c, o, hu⟩ := hN.exists_withEcc
  obtain rfl := hd u.free
  subst hu
  exact ⟨t, ht, taken, heclic, hshape, hstack.of_mecc, hpc⟩

end

end Sys2Proof.Machine

namespace Sys2Proof.Laws

open Machine

/-- Settles O45: the entry goes to the shared address, to the word of the vector table, or, where that is refused or
meets an error that traps, on to an exception. -/
theorem interruptEntry : Obligations.InterruptEntry := by
  unfold Obligations.InterruptEntry
  rintro s r a hq ha hw hn hr hm rfl
  have hb : boundaryTrap s.endPulses = some (takeIrq r s.endPulses) := boundaryTrap_irq (s := s.endPulses) hw hn hr hm
  have clean := noted_nothing s.afterPulses
  refine ⟨fun hs => ?direct, fun hs hp => ?read, fun detail hs hf => ?refused, fun met hs hal hmet => ?errors⟩
  case direct =>
    obtain ⟨t, ht, taken, hcsr, heclic, hpc⟩ := step_takeIrq hq ha hb clean (takeIrq_direct hs) rfl
    exact ⟨t, ht, taken.boundaryFrame, taken.nmiPending, taken.priv, taken.resv, heclic, hcsr, hpc⟩
  case read =>
    have hp : plainFetch (s.afterPulses.enterIrq r true) .machine (tableWord s r.id) = true :=
      (plainFetch_enterIrq ..).trans hp
    obtain ⟨t, ht, taken, hip, hcsr, hpc⟩ := step_takeIrq_read hq ha hb clean hs (vectorTableRead_plain hp)
    exact ⟨t, ht, taken.boundaryFrame, taken.nmiPending, taken.priv, taken.resv, hip, hcsr, hpc⟩
  case refused =>
    obtain ⟨_, hx, hd⟩ := vectorTableRead_refused (s := s.afterPulses.enterIrq r true) (fetchRefused_enterIrq true hf)
    obtain ⟨t, ht, taken, heclic, hcsr, hstack, hpc⟩ := step_takeIrq_unread hq ha hb clean hs hx (hd _)
    exact ⟨t, ht, taken.boundaryFrame, taken.nmiPending, taken.priv, taken.resv, heclic, hcsr, hstack, hpc⟩
  case errors =>
    subst hmet
    have hN : EccNoted s.afterPulses (s.afterPulses.notedAt .fetch (tableWord s r.id))
        (EccMet s .fetch [(tableWord s r.id, 4)]) := notedAt_noted s.afterPulses .fetch _
    have hal : FetchAllowed (s.afterPulses.enterIrq r true) .machine (tableWord s r.id) :=
      fetchAllowed_enterIrq true hal
    refine ⟨s.afterPulses.notedAt .fetch (tableWord s r.id), ?_⟩
    by_cases ht : EccTraps s .fetch (tableWord s r.id, 4)
    · have hv := vectorTableRead_traps (s := s.afterPulses.enterIrq r true) hal ht
      rw [notedAt_enterIrq] at hv
      obtain ⟨t, hstep, taken, heclic, hcsr, hstack, hpc⟩ := step_takeIrq_unread hq ha hb hN hs hv fun _ => rfl
      exact ⟨t, hN, hstep, taken.frame, taken.eccOut, taken.nmiPending, taken.priv, taken.resv,
        fun _ => ⟨heclic, hcsr, hstack, hpc⟩, fun hnot => absurd ht hnot⟩
    · have hv := vectorTableRead_arrives (s := s.afterPulses.enterIrq r true) hal ht
      rw [notedAt_enterIrq] at hv
      obtain ⟨t, hstep, taken, hip, hcsr, hpc⟩ := step_takeIrq_read hq ha hb hN hs hv
      refine ⟨t, hN, hstep, taken.frame, taken.eccOut, taken.nmiPending, taken.priv, taken.resv,
        fun htrap => absurd htrap ht, fun _ m har => ⟨hip, hcsr, ?_⟩⟩
      rw [hpc]
      exact congrArg (· &&& 0xFFFFFFFE#32) (busWord_arrives (s := s.afterPulses.enterIrq r true) har)

end Sys2Proof.Laws

namespace Sys2Proof.Machine

/-! ### The arbitration of the ECLIC (60_exceptions.md R579 to R582) -/

section
variable {cfg : Config} {e : Eclic} {i : Nat} {src : EclicSrc}

theorem eclicCandidate_iff : EclicCandidate e i src ↔ e.srcs[i]? = some src ∧ src.active = true := by
  rw [EclicCandidate, EclicSrc.active, Bool.and_eq_true]

/-- The source `i` of the ECLIC as the arbitration compares it. -/
def Eclic.candidate (cfg : Config) (e : Eclic) (i : Nat) (src : EclicSrc) : Candidate :=
  candidateOf cfg.clicIntCtlBits e.nlbits i src

theorem candidate_key (cfg : Config) (e : Eclic) (i : Nat) (src : EclicSrc) :
    (e.candidate cfg i src).key = toLex (srcLevel cfg e src, toLex (srcPriority cfg e src, i)) := rfl

theorem eclicWinner_iff : EclicWinner cfg e i src ↔ EclicCandidate e i src ∧
    ∀ j other, EclicCandidate e j other → (e.candidate cfg j other).key ≤ (e.candidate cfg i src).key := by
  simp only [candidate_key]
  rfl

/-- Two winners are the same source: their keys hold their numbers. -/
theorem EclicWinner.unique {j : Nat} {other : EclicSrc} (h : EclicWinner cfg e i src) (k : EclicWinner cfg e j other) :
    i = j ∧ src = other := by
  rw [eclicWinner_iff] at h k
  obtain ⟨hi, hmax⟩ := h
  obtain ⟨hj, kmax⟩ := k
  have hkey := le_antisymm (kmax i src hi) (hmax j other hj)
  rw [candidate_key, candidate_key] at hkey
  obtain rfl : i = j := congrArg (fun key => (ofLex (ofLex key).2).2) hkey
  exact ⟨rfl, Option.some.inj (hi.1.symm.trans hj.1)⟩

theorem arbitrate_winner {c : Candidate} (h : arbitrate cfg.clicIntCtlBits e.nlbits 0 e.srcs none = some c) :
    ∃ i src, EclicWinner cfg e i src ∧ c = e.candidate cfg i src := by
  obtain ⟨-, spec⟩ := arbitrate_spec cfg.clicIntCtlBits e.nlbits e.srcs 0 none nofun
  obtain ⟨hone, -, hmax⟩ := spec c h
  obtain ⟨i, src, hi, hactive, rfl⟩ := hone.resolve_left nofun
  simp only [Nat.zero_add] at hmax ⊢
  refine ⟨i, src, eclicWinner_iff.2 ⟨eclicCandidate_iff.2 ⟨hi, hactive⟩, fun j other hj => ?_⟩, rfl⟩
  obtain ⟨hj, hactive⟩ := eclicCandidate_iff.1 hj
  exact hmax j other hj hactive

/-- The arbitration finds the winner and nothing else. -/
theorem arbitrate_eq_some_iff {c : Candidate} : arbitrate cfg.clicIntCtlBits e.nlbits 0 e.srcs none = some c ↔
    ∃ i src, EclicWinner cfg e i src ∧ c = e.candidate cfg i src := by
  refine ⟨arbitrate_winner, ?_⟩
  rintro ⟨i, src, hw, rfl⟩
  obtain ⟨hi, hactive⟩ := eclicCandidate_iff.1 hw.1
  obtain ⟨spec, -⟩ := arbitrate_spec cfg.clicIntCtlBits e.nlbits e.srcs 0 none nofun
  cases h : arbitrate cfg.clicIntCtlBits e.nlbits 0 e.srcs none with
  | none => exact absurd ((spec h).2 i src hi) (by simp [hactive])
  | some c =>
    obtain ⟨j, other, hj, rfl⟩ := arbitrate_winner h
    obtain ⟨rfl, rfl⟩ := hw.unique hj
    rfl

end

/-- Settles O46: the arbitration finds the winner, and its level is compared with mth. -/
theorem eclicArbitration : Obligations.EclicArbitration := by
  unfold Obligations.EclicArbitration
  intro cfg e r
  have level : ∀ i src, (e.candidate cfg i src).level.toNat = srcLevel cfg e src := fun _ _ => rfl
  constructor
  · intro h
    unfold presented at h
    split at h
    · cases h
    · next c hc =>
      obtain ⟨i, src, hw, rfl⟩ := arbitrate_eq_some_iff.1 hc
      split at h
      · next hm =>
        cases h
        exact ⟨src, hw, by simpa [BitVec.ult, level] using hm, level i src, rfl⟩
      · cases h
  · rintro ⟨src, hw, hm, hl, hs⟩
    obtain ⟨id, rl, shv⟩ := r
    have hc := arbitrate_eq_some_iff.2 ⟨id, src, hw, rfl⟩
    obtain rfl : rl = (e.candidate cfg id src).level := BitVec.eq_of_toNat_eq hl
    obtain rfl := hs
    have hult : e.mth.ult (e.candidate cfg id src).level = true := by simpa [BitVec.ult, level] using hm
    simp only [presented, hc, hult, if_true]
    rfl

/-! ### Loads and stores of device registers (60_exceptions.md R583, R589) -/

section
variable {s : State} {i : Instr} {rd : Reg} {ea v : Word} {n : Nat}

/-- A device register that an access may reach: of the ECLIC with any size, of the TIMER as a word. -/
structure DeviceAt (s : State) (ea : Word) (n : Nat) : Prop where
  region : region s.cfg ea = .eclic ∨ region s.cfg ea = .timer ∧ n = 4
  aligned : n ∣ ea.toNat
  small : n ≠ 8

theorem DeviceAt.meets_nothing (h : DeviceAt s ea n) (path : AccessPath) :
    (eccMet s path [⟨ea, n⟩]).isEmpty = true := by
  refine eccMet_device fun p hp => ?_
  obtain rfl := List.mem_singleton.1 hp
  exact h.region.imp_right fun hr => .inl hr.1

theorem DeviceAt.checked {k : AccessKind} (h : DeviceAt s ea n) (hk : k ≠ .fetch)
    (hp : pmpCheck s s.priv k ea = true) : checkData s k ea n = .ok [⟨ea, n⟩] s :=
  checkData_device h.region h.aligned h.small hk hp

theorem dataLoad_device (h : DeviceAt s ea n) (hp : pmpCheck s s.priv .load ea = true) :
    dataLoad s ea n = .ok (joinBytes (partRead s ⟨ea, n⟩)) s := by
  simp only [dataLoad, h.checked (k := .load) nofun hp,
    eccEffect_none _ (h.meets_nothing .load), List.flatMap_singleton,
    spoilBytes_nil]

theorem dataStore_device (h : DeviceAt s ea n) (hp : pmpCheck s s.priv .store ea = true) (v : DWord) :
    dataStore s ea n v = .ok () (partWrite s ⟨ea, n⟩ (splitBytes n v)) := by
  simp only [dataStore, h.checked (k := .store) nofun hp,
    eccEffect_none _ (h.meets_nothing .store), spoilUnits_nil, writeParts]
  rw [List.take_of_length_le (length_splitBytes n v).le]

/-- A load of a device register completes with its bytes. -/
theorem done_of_deviceLoad {ext : DWord → Word} (run : exec i s = loadX 4 rd ea n ext s) (h : DeviceAt s ea n)
    (hp : pmpCheck s s.priv .load ea = true) (value : ext (joinBytes (partRead s ⟨ea, n⟩)) = v) :
    ∃ t, exec i s = .next t ∧ DoneX s t rd v (s.pc + 4) := by
  rw [run, ← value, loadX, dataLoad_device h hp]
  exact writeRd_done 4 rd _ s

/-- A store to a device register completes with what the device makes of it. -/
theorem exec_deviceStore {v : DWord} (run : exec i s = storeX 4 ea n v s) (h : DeviceAt s ea n)
    (hp : pmpCheck s s.priv .store ea = true) :
    exec i s = .next ((partWrite s ⟨ea, n⟩ (splitBytes n v)).completed 4) := by
  rw [run, storeX, dataStore_device h hp]
  exact retire_completed 4 _

end

/-! The bytes of a value. -/

theorem joinBytes_byte (b0 : Byte) : (joinBytes [b0]).setWidth 8 = b0 := by
  simp [joinBytes]

theorem joinBytes_half (b0 b1 : Byte) : (joinBytes [b0, b1]).setWidth 16 = b1 ++ b0 := by
  have h0 := b0.isLt
  have h1 := b1.isLt
  have e1 : (joinBytes [b1]).toNat = b1.toNat := by simp [joinBytes]; omega
  apply BitVec.eq_of_toNat_eq
  rw [BitVec.toNat_setWidth, joinBytes_cons_toNat _ _ (by omega), e1, append_toNat]
  omega

/-- The low bytes of a register, the least significant first. -/
theorem splitBytes_word {n : Nat} (w : Word) (hn : n ≤ 4) :
    splitBytes n (w.setWidth 64) = (List.range n).map fun k => w.extractLsb' (8 * k) 8 := by
  refine List.ext_getElem (by simp) fun k hk _ => ?_
  rw [length_splitBytes] at hk
  rw [getElem_splitBytes, byteAt, List.getElem_map, List.getElem_range]
  apply BitVec.eq_of_getLsbD_eq
  intro j hj
  simp only [BitVec.getLsbD_extractLsb', BitVec.getLsbD_setWidth]
  rw [decide_eq_true (show 8 * k + j < 64 by omega), Bool.true_and]

theorem joinBytes_splitBytes (w : Word) : (joinBytes (splitBytes 4 (w.setWidth 64))).setWidth 32 = w := by
  rw [splitBytes_word w (by decide)]
  refine (joinBytes_word ..).trans ?_
  show w.extractLsb' 24 8 ++ w.extractLsb' 16 8 ++ w.extractLsb' 8 8 ++ w.extractLsb' 0 8 = w
  apply BitVec.eq_of_toNat_eq
  simp only [Machine.append_toNat, BitVec.extractLsb'_toNat, Nat.shiftRight_eq_div_pow]
  omega

/-! ### The ECLIC's registers (60_exceptions.md R570 to R578, R583) -/

/-! What a write makes of a source, register by register. -/

section
variable (src : EclicSrc)

theorem writeIp_eq (b : Bool) :
    src.writeIp b = { src with ip := (src.writeIp b).ip, held := (src.writeIp b).held } := by
  unfold EclicSrc.writeIp
  split <;> rfl

theorem writeIp_pending (b : Bool) : (src.writeIp b).pending = if src.isEdge then b else src.line := by
  unfold EclicSrc.writeIp
  by_cases h : src.isEdge = true
  · rw [if_pos h, if_pos h]
    exact if_pos h
  · rw [if_neg h, if_neg h]
    exact if_neg h

theorem setTrig_eq (trig : BitVec 2) (d : Bool) :
    src.setTrig trig d =
      { src with trig := trig, ip := (src.setTrig trig d).ip, held := (src.setTrig trig d).held } := by
  unfold EclicSrc.setTrig
  split
  · next h => subst h; rfl
  · simp only
    split <;> rfl

/-- A source that is neither active nor pending stays so when trig changes (log 15). -/
theorem setTrig_inactive (trig : BitVec 2) (d : Bool) (hl : src.line = false) (hp : src.pending = false) :
    (src.setTrig trig d).pending = false := by
  unfold EclicSrc.setTrig
  split
  · exact hp
  · simp only [hl, hp]
    split
    · simp [EclicSrc.pending]
    · next h => simp [EclicSrc.pending, EclicSrc.isEdge, -BitVec.getLsbD_eq_getElem, h]

theorem ctlRead_write (n : Nat) (b : Byte) :
    ({ src with ctl := b &&& ~~~ctlOnes n } : EclicSrc).ctlRead n = b ||| ctlOnes n := by
  show (b &&& ~~~ctlOnes n) ||| ctlOnes n = _
  generalize ctlOnes n = ones
  ext i hi
  simp
  cases ones[i] <;> simp

/-- The register byte `k` of a source is written. -/
theorem srcWriteByte_stored (cfg : Config) {k : Nat} (hk : k < 4) (d : Bool) (b : Byte) :
    SrcStored cfg src (src.writeByte cfg.clicIntCtlBits k d b) k b := by
  refine ⟨srcWriteByte_line src _ k d b, ?_, ?_, ?_, ?_⟩
  · rintro rfl
    refine ⟨writeIp_eq src _, fun ht => ?_, fun ht => ?_⟩
    · exact (writeIp_pending src _).trans (if_pos ht)
    · have hlevel : src.isEdge ≠ true := by rw [EclicSrc.isEdge, ht]; nofun
      refine ⟨(writeIp_pending src _).trans (if_neg hlevel), fun hh => ?_⟩
      show src.writeIp _ = src
      rw [EclicSrc.writeIp, if_neg hlevel, ← hh]
  · rintro rfl
    rfl
  · rintro rfl
    refine ⟨?_, fun ht => ?_, fun hl hp => setTrig_inactive src _ d hl hp⟩
    · exact congrArg (fun u : EclicSrc => { u with shv := b.getLsbD 0 }) (setTrig_eq src (b.extractLsb' 1 2) d)
    · show ({ src.setTrig (b.extractLsb' 1 2) d with shv := b.getLsbD 0 } : EclicSrc).pending = _
      rw [EclicSrc.setTrig, if_pos ht]
      rfl
  · rintro rfl
    exact ⟨rfl, ctlRead_write src _ b⟩

end

/-! What a write makes of the registers. -/

section
variable (cfg : Config) (free : Nat) (e : Eclic)

theorem writeByte_at {i k : Nat} (hi : i < 4096) (hk : k < 4) (b : Byte) :
    e.writeByte cfg free (0x1000 + 4 * i + k) b = { e with
      srcs := e.srcs.modify i fun src => src.writeByte cfg.clicIntCtlBits k (Config.freeIp free i) b } := by
  rw [Eclic.writeByte, if_neg (by omega), if_neg (by omega), if_pos (by omega),
    show (0x1000 + 4 * i + k - 0x1000) / 4 = i by omega, show (0x1000 + 4 * i + k - 0x1000) % 4 = k by omega]

theorem writeByte_stored (off : Nat) (b : Byte) : EclicStored cfg e (e.writeByte cfg free off b) off b := by
  refine ⟨?_, ?_, fun h0 hB hr => writeByte_none h0 hB (by omega) cfg free e b, ?_⟩
  · rintro rfl
    rfl
  · rintro rfl
    rfl
  · rintro i k rfl hi hk
    rw [writeByte_at cfg free e hi hk]
    refine ⟨rfl, rfl, by simp, fun j hj => ?_, fun src src' hs hs' => ?_⟩
    · simp [Ne.symm hj]
    · simp only [List.getElem?_modify, hs, if_true, Option.map_eq_map, Option.map_some, Option.some.injEq] at hs'
      subst hs'
      exact srcWriteByte_stored src cfg hk _ b

theorem writeBytes_stored (bytes : List Byte) (off : Nat) :
    EclicBytesStored cfg e (e.writeBytes cfg free off bytes) off bytes := by
  induction bytes generalizing e off with
  | nil => rfl
  | cons b rest ih => exact ⟨e.writeByte cfg free off b, writeByte_stored cfg free e off b, ih _ _⟩

theorem eclic_readBytes (off n : Nat) :
    e.readBytes cfg off n = (List.range n).map fun k => eclicByte cfg e (off + k) := by
  induction n generalizing off with
  | zero => rfl
  | succ n ih =>
    rw [Eclic.readBytes, ih, eclic_readByte, List.range_succ_eq_map, List.map_cons, List.map_map]
    simp only [Function.comp_def, Nat.succ_eq_add_one, Nat.add_zero, Nat.add_assoc, Nat.add_comm 1]

end

section
variable {s : State} {i : Instr} {ea v : Word} {off n : Nat}

theorem partRead_eclic (hr : region s.cfg ea = .eclic) (ho : ea.toNat = s.cfg.eclicBase.toNat + off) :
    partRead s ⟨ea, n⟩ = (List.range n).map fun k => eclicByte s.cfg s.eclic (off + k) := by
  simp only [partRead, hr, toNat_sub_base ho, eclic_readBytes]

theorem partWrite_eclic (hr : region s.cfg ea = .eclic) (ho : ea.toNat = s.cfg.eclicBase.toNat + off)
    (bytes : List Byte) : partWrite s ⟨ea, n⟩ bytes =
      (s.keepOld ea).withEclic (s.eclic.writeBytes s.cfg s.free off bytes) := by
  simp only [partWrite, hr, toNat_sub_base ho]

/-- A store of `n` bytes to the ECLIC writes its bytes to the registers, in rising order. -/
theorem eclicStoreDone_of (run : exec i s = storeX 4 ea n (v.setWidth 64) s) (hr : region s.cfg ea = .eclic)
    (ho : ea.toNat = s.cfg.eclicBase.toNat + off) (ha : n ∣ ea.toNat) (hn : n ≤ 4)
    (hp : pmpCheck s s.priv .store ea = true) :
    EclicStoreDone i s ea off ((List.range n).map fun k => v.extractLsb' (8 * k) 8) := by
  refine ⟨_, exec_deviceStore run ⟨.inl hr, ha, by omega⟩ hp, ?_⟩
  rw [partWrite_eclic hr ho, splitBytes_word v hn]
  exact ⟨fun _ => rfl, fun _ => rfl, ⟨fun _ => rfl, keepOld_stale s ea⟩, rfl, rfl, rfl,
    ⟨rfl, rfl, rfl, rfl, rfl, rfl, rfl, rfl, rfl, rfl, rfl, rfl, rfl, rfl⟩, writeBytes_stored _ _ _ _ _⟩

end

theorem extByte_eq_sext (w : DWord) : extByte w = sext (w.setWidth 8) := (sext_eq_signExtend _).symm

theorem extHalf_eq_sext (w : DWord) : extHalf w = sext (w.setWidth 16) := (sext_eq_signExtend _).symm

/-- Settles O47: an aligned access of the ECLIC has one part, whose bytes are those of the registers. -/
theorem eclicRegisters : Obligations.EclicRegisters := by
  unfold Obligations.EclicRegisters
  rintro s rd rs1 rs2 imm ea off byte hea hr ho rfl
  obtain rfl : ea = eaI s rs1 imm := hea.trans (eaI_eq s rs1 imm).symm
  have read := fun n => partRead_eclic (n := n) hr ho
  have at1 : DeviceAt s (eaI s rs1 imm) 1 := ⟨.inl hr, one_dvd _, by decide⟩
  refine ⟨fun hp => ⟨?lbu, ?lb, fun h2 => ?half, fun h4 => ?lw⟩,
    fun hp => ⟨eclicStoreDone_of rfl hr ho (one_dvd _) (by decide) hp,
      fun h2 => eclicStoreDone_of rfl hr ho h2 (by decide) hp, fun h4 => eclicStoreDone_of rfl hr ho h4 (by decide) hp⟩⟩
  case lbu =>
    refine done_of_deviceLoad rfl at1 hp ?_
    rw [read]
    exact congrArg (·.zeroExtend 32) (joinBytes_byte _)
  case lb =>
    refine done_of_deviceLoad rfl at1 hp ?_
    rw [read, extByte_eq_sext]
    exact congrArg sext (joinBytes_byte _)
  case half =>
    have at2 : DeviceAt s (eaI s rs1 imm) 2 := ⟨.inl hr, h2, by decide⟩
    constructor
    · refine done_of_deviceLoad rfl at2 hp ?_
      rw [read]
      exact congrArg (·.zeroExtend 32) (joinBytes_half _ _)
    · refine done_of_deviceLoad rfl at2 hp ?_
      rw [read, extHalf_eq_sext]
      exact congrArg sext (joinBytes_half _ _)
  case lw =>
    refine done_of_deviceLoad rfl ⟨.inl hr, h4, by decide⟩ hp ?_
    rw [read]
    exact joinBytes_word ..

/-! ### The TIMER's registers (60_exceptions.md R588 to R596) -/

section
variable {s : State} {ea : Word} {off n : Nat}

theorem partRead_timer (hr : region s.cfg ea = .timer) (ho : ea.toNat = s.cfg.timerBase.toNat + off) :
    partRead s ⟨ea, n⟩ = splitBytes n ((BitVec.ofNat 32 (timerWord s.timer off)).setWidth 64) := by
  simp only [partRead, hr, toNat_sub_base ho, timer_readWord]

theorem partWrite_timer (hr : region s.cfg ea = .timer) (ho : ea.toNat = s.cfg.timerBase.toNat + off) (v : Word) :
    partWrite s ⟨ea, 4⟩ (splitBytes 4 (v.setWidth 64)) = (s.keepOld ea).setTimer (s.timer.writeWord off v) := by
  simp only [partWrite, hr, toNat_sub_base ho, joinBytes_splitBytes]

/-- New register values of the TIMER change it and the ECLIC, whose lines it drives (60_exceptions.md R591). -/
theorem setTimer_eq (s : State) (u : Timer) :
    s.setTimer u = { s with timer := timerCleared s.timer u, eclic := (s.setTimer u).eclic } := by
  rw [← setTimer_timer]
  exact setTimer_shape s u

end

/-- Settles O48: a word access reads or writes one register, and what is new in the registers drives the lines. -/
theorem timerRegisters : Obligations.TimerRegisters := by
  unfold Obligations.TimerRegisters
  intro s rd rs1 rs2 imm ea off hea hr ho ha
  obtain rfl : ea = eaI s rs1 imm := hea.trans (eaI_eq s rs1 imm).symm
  have word : DeviceAt s (eaI s rs1 imm) 4 := ⟨.inr ⟨hr, rfl⟩, ha, by decide⟩
  refine ⟨fun hp => ?load, fun hp => ?store, fun h => if_pos h, fun h => ?tick⟩
  case load =>
    refine done_of_deviceLoad rfl word hp ?_
    rw [partRead_timer hr ho]
    exact joinBytes_splitBytes _
  case store =>
    have run : exec (.sw rs2 rs1 imm) s =
        .next (((s.keepOld (eaI s rs1 imm)).setTimer (s.timer.writeWord off (s.getX rs2))).completed 4) := by
      rw [exec_deviceStore rfl word hp, partWrite_timer hr ho]
    have lines := setTimer_lines (s.keepOld (eaI s rs1 imm)) (s.timer.writeWord off (s.getX rs2))
    have driven := setTimer_driven (s.keepOld (eaI s rs1 imm)) (s.timer.writeWord off (s.getX rs2))
    have shape := setTimer_eq (s.keepOld (eaI s rs1 imm)) (s.timer.writeWord off (s.getX rs2))
    refine ⟨_, s.timer.writeWord off (s.getX rs2), run, timer_writeWord _ _ _, ?_⟩
    generalize (s.keepOld (eaI s rs1 imm)).setTimer (s.timer.writeWord off (s.getX rs2)) = d at lines driven shape ⊢
    generalize d.eclic = e at driven shape
    subst shape
    exact ⟨rfl, lines, fun _ => rfl, fun _ => rfl, ⟨fun _ => rfl, keepOld_stale _ _⟩, rfl, rfl, rfl,
      ⟨rfl, rfl, rfl, rfl, rfl, rfl, rfl, rfl, rfl, rfl, rfl, rfl, rfl, rfl⟩, driven⟩
  case tick =>
    have run : s.input .tick = s.setTimer { s.timer with mtime := s.timer.mtime + 1 } := if_neg (by rw [h]; nofun)
    exact ⟨_, _, run, rfl, setTimer_eq s _, setTimer_lines s _, setTimer_driven s _⟩

end Sys2Proof.Machine

/-! PROOFS. The statements of 70_reset_and_hazards.md: what only a reset undoes (O60), and that the reset state meets the
invariant (O52). -/

namespace Sys2Proof.Machine

/-! ### What no write unlocks (10_state.md R74; 11_state_nuclei_csr.md R131)

As for the invariant, the two structures below say the relation field by field: what an update does not write carries
over as it stands. -/

/-- Every locked PMP entry of `l` is in `m` as it was. -/
def PmpLocksKept (l m : List PmpEntry) : Prop :=
  ∀ (n : Nat) (e : PmpEntry), l[n]? = some e → e.lock = true → m[n]? = some e

/-- The locked PMP entries of `c` are in `d` as they were, and with mecc_lock closed so is what it freezes. -/
structure Csrs.LocksKept (c d : Csrs) : Prop where
  pmp : PmpLocksKept c.pmp d.pmp
  lock : c.meccLock = true → d.meccLock = true
  milm : c.meccLock = true → d.milm = c.milm
  mdlm : c.meccLock = true → d.mdlm = c.mdlm
  dcache : c.meccLock = true → d.dcache = { c.dcache with en := d.dcache.en }
  icache : c.meccLock = true → d.icache = { c.icache with en := d.icache.en }
  code : c.meccLock = true → d.mecc.code = c.mecc.code

/-- The configuration and everything only a reset undoes are in `t` as in `s` (70_reset_and_hazards.md R623). -/
structure LocksKept (s t : State) : Prop where
  cfg : t.cfg = s.cfg
  csr : s.csr.LocksKept t.csr
  softReset : s.timer.msftrst = true → t.timer.msftrst = true

theorem PmpLocksKept.trans {l m k : List PmpEntry} (h : PmpLocksKept l m) (g : PmpLocksKept m k) : PmpLocksKept l k :=
  fun n e he hl => g n e (h n e he hl) hl

theorem Csrs.LocksKept.refl (c : Csrs) : c.LocksKept c :=
  ⟨fun _ _ h _ => h, id, fun _ => rfl, fun _ => rfl, fun _ => rfl, fun _ => rfl, fun _ => rfl⟩

theorem Csrs.LocksKept.eccFrozen {c d : Csrs} (h : c.LocksKept d) (hl : c.meccLock = true) : EccFrozen c d :=
  ⟨h.lock hl, h.milm hl, h.mdlm hl, h.dcache hl, h.icache hl, h.code hl⟩

theorem Csrs.LocksKept.trans {c d e : Csrs} (h : c.LocksKept d) (g : d.LocksKept e) : c.LocksKept e where
  pmp := h.pmp.trans g.pmp
  lock hl := g.lock (h.lock hl)
  milm hl := (g.milm (h.lock hl)).trans (h.milm hl)
  mdlm hl := (g.mdlm (h.lock hl)).trans (h.mdlm hl)
  dcache hl := by rw [g.dcache (h.lock hl), h.dcache hl]
  icache hl := by rw [g.icache (h.lock hl), h.icache hl]
  code hl := (g.code (h.lock hl)).trans (h.code hl)

theorem LocksKept.refl (s : State) : LocksKept s s := ⟨rfl, .refl _, id⟩

theorem LocksKept.trans {s t u : State} (h : LocksKept s t) (g : LocksKept t u) : LocksKept s u :=
  ⟨g.cfg.trans h.cfg, h.csr.trans g.csr, fun hr => g.softReset (h.softReset hr)⟩

/-! ### Writes of the locked registers (46_system.md R482) -/

/-- A change of one PMP entry that leaves a locked one alone. -/
theorem pmpLocksKept_modify (l : List PmpEntry) (i : Nat) {f : PmpEntry → PmpEntry}
    (hf : ∀ e, e.lock = true → f e = e) : PmpLocksKept l (l.modify i f) := fun n e he hl => by
  by_cases hi : i = n
  · subst hi
    rw [List.getElem?_modify_eq, he]
    exact congrArg some (hf e hl)
  · rw [List.getElem?_modify_ne _ _ hi, he]

theorem writeCfg_locked {e : PmpEntry} (b : Byte) (h : e.lock = true) : e.writeCfg b = e := if_pos h

theorem writeAddr_locked {e : PmpEntry} (v : Word) (h : e.lock = true) : e.writeAddr v = e := if_pos h

/-- pmpcfg<k> is written byte by byte, each to an entry of its own. -/
theorem pmpLocksKept_writePmpcfg (l : List PmpEntry) (k : Nat) (v : Word) : PmpLocksKept l (writePmpcfg l k v) := by
  have write_byte : ∀ (m : List PmpEntry) (i : Nat) (b : Byte), PmpLocksKept m (m.modify i (·.writeCfg b)) :=
    fun m i b => pmpLocksKept_modify m i fun _ => writeCfg_locked b
  exact (((write_byte _ _ _).trans (write_byte _ _ _)).trans (write_byte _ _ _)).trans (write_byte _ _ _)

/-- With mecc_lock closed a write of mcache_ctl stores the enable of a cache only. -/
theorem cacheCtl_write_locked {lock : Bool} (hl : lock = true) (m : CacheCtl) (rwd rwt excp ecc en : Bool) :
    m.write lock rwd rwt excp ecc en = { m with en := (m.write lock rwd rwt excp ecc en).en } := by
  subst hl
  rfl

theorem locksKept_writeCache (c : Csrs) (v : Word) : c.LocksKept (c.writeCache v) :=
  { Csrs.LocksKept.refl c with
    dcache := fun hl => cacheCtl_write_locked hl ..
    icache := fun hl => cacheCtl_write_locked hl .. }

/-- Of the CSRs a write stores in, six hold what a lock freezes; each of them looks at the lock, and mecc_lock itself
only closes. -/
theorem locksKept_write (c : Csrs) (cfg : Config) (free : Nat) (r : Csr) (v : Word) :
    c.LocksKept (c.write cfg free r v) := by
  have kept := Csrs.LocksKept.refl c
  cases r with
  | pmpcfg k => exact { kept with pmp := pmpLocksKept_writePmpcfg c.pmp k v }
  | pmpaddr n => exact { kept with pmp := pmpLocksKept_modify c.pmp n fun _ => writeAddr_locked v }
  | milmCtl => exact { kept with milm := fun hl => if_pos hl }
  | mdlmCtl => exact { kept with mdlm := fun hl => if_pos hl }
  | meccCode => exact { kept with code := fun hl => if_pos hl }
  | meccLock => exact { kept with lock := fun hl => Bool.or_eq_true_iff.2 (.inl hl) }
  | _ => exact { kept with }

theorem locksKept_withCsr {s : State} {c : Csrs} (h : s.csr.LocksKept c) : LocksKept s (s.withCsr c) :=
  { LocksKept.refl s with csr := h }

theorem locksKept_csrWrite (s : State) (c : Csr) (v : Word) : LocksKept s (csrWrite s c v) := by
  have kept := LocksKept.refl s
  cases c with
  | mcacheCtl =>
    show LocksKept s (s.writeCache v)
    rw [writeCache_shape]
    exact { kept with csr := locksKept_writeCache s.csr v }
  | txevt =>
    unfold csrWrite
    simp only
    split
    · exact { kept with }
    · exact kept
  | mcycle | mcycleh => exact { kept with }
  | _ => exact locksKept_withCsr (locksKept_write s.csr s.cfg s.free _ v)

/-! ### The other updates of the state -/

theorem timerCleared_msftrst (t u : Timer) : (timerCleared t u).msftrst = u.msftrst := by
  unfold timerCleared
  split <;> rfl

theorem locksKept_setTimer (s : State) {u : Timer} (hu : s.timer.msftrst = true → u.msftrst = true) :
    LocksKept s (s.setTimer u) := by
  rw [setTimer_eq]
  exact { LocksKept.refl s with softReset := fun hr => (timerCleared_msftrst _ u).trans (hu hr) }

/-- SRAMID and RAMID are no part of what mecc_lock freezes (11_state_nuclei_csr.md R130). -/
theorem locksKept_noteEcc (s : State) (u : EccUnit) (double : Bool) : LocksKept s (s.noteEcc u double) := by
  have hcsr : s.csr.LocksKept (s.csr.noteEcc u double) := by
    unfold Csrs.noteEcc
    split <;> exact { Csrs.LocksKept.refl s.csr with }
  exact { LocksKept.refl s with csr := hcsr }

theorem locksKept_withPendingFault (s : State) (p : Option Exc) : LocksKept s (s.withPendingFault p) :=
  { LocksKept.refl s with }

theorem locksKept_noteFault (s : State) (e : Exc) : LocksKept s (s.noteFault e) := by
  obtain ⟨p, hp⟩ := noteFault_shape s e
  rw [hp]
  exact locksKept_withPendingFault s p

/-! ### Traps and returns -/

theorem locksKept_pushIf (c : Csrs) (hasStack : Bool) : c.LocksKept (c.pushIf hasStack) := by
  cases hasStack <;> exact { Csrs.LocksKept.refl c with }

theorem locksKept_takeException (e : Exc) (epc : Word) (s : State) : LocksKept s (takeException e epc s) :=
  { LocksKept.refl s with csr := { locksKept_pushIf s.csr s.cfg.hasNestedStack with } }

theorem locksKept_takeNmi (s : State) : LocksKept s (takeNmi s) :=
  { LocksKept.refl s with csr := { locksKept_pushIf s.csr s.cfg.hasNestedStack with } }

theorem locksKept_enterIrq (s : State) (r : Request) (minhv : Bool) : LocksKept s (s.enterIrq r minhv) :=
  { LocksKept.refl s with csr := { Csrs.LocksKept.refl s.csr with } }

theorem locksKept_afterMret (s : State) : LocksKept s s.afterMret := by
  have hcsr : s.csr.LocksKept (s.csr.afterMret s.cfg s.free) := by
    unfold Csrs.afterMret
    split <;> exact { Csrs.LocksKept.refl s.csr with }
  exact { LocksKept.refl s with csr := { hcsr with } }

/-! ### Everything an instruction and a step can do -/

/-- Of the working changes of an instruction only CSR writes and writes of the TIMER reach what a lock protects. -/
theorem Work.locksKept {s t : State} (h : Work s t) : LocksKept s t := by
  induction h with
  | refl => exact .refl s
  | setX _ r v ih =>
    refine ih.trans ?_
    unfold State.setX
    split <;> exact { LocksKept.refl _ with }
  | timer _ u hu ih => exact ih.trans (locksKept_setTimer _ hu)
  | noteEcc _ u double ih => exact ih.trans (locksKept_noteEcc _ u double)
  | noteFault _ e _ ih => exact ih.trans (locksKept_noteFault _ e)
  | csr _ c v _ ih => exact ih.trans (locksKept_csrWrite _ c v)
  | _ => rename_i ih; exact { ih with csr := { ih.csr with } }

theorem Ran.locksKept {i : Instr} {s t : State} (h : Ran i s t) : LocksKept s t := by
  cases h with
  | done hw => exact hw.locksKept
  | trap hw e epc =>
    exact (hw.locksKept.trans (locksKept_withPendingFault _ none)).trans (locksKept_takeException e epc _)
  | mret _ _ _ => exact locksKept_afterMret s

/-- Interrupt entry, also where it ends in the exception of a failed vector-table read. -/
theorem takeIrq_locksKept {s t : State} {r : Request} (h : takeIrq r s = .next t) : LocksKept s t := by
  unfold takeIrq at h
  split at h
  · have hentered := locksKept_enterIrq s r true
    have hwork := vectorTableRead_works (s.enterIrq r true) r.id
    split at h
    · next hread =>
      rw [hread] at hwork
      have hread := hentered.trans (Work.locksKept hwork)
      cases h
      exact { hread with csr := { hread.csr with } }
    · next x e hread =>
      rw [hread] at hwork
      cases h
      exact (hentered.trans (Work.locksKept hwork)).trans (locksKept_takeException x _ e)
    · cases h
  · cases h
    exact { locksKept_enterIrq s r _ with }

theorem Acted.locksKept {s t : State} (h : Acted s t) : LocksKept s t := by
  cases h with
  | sleep _ =>
    unfold sleepStep
    split <;> exact { LocksKept.refl s with }
  | fault e _ => exact (locksKept_withPendingFault s none).trans (locksKept_takeException e s.pc _)
  | nmi _ => exact locksKept_takeNmi s
  | irq r _ _ ht => exact takeIrq_locksKept ht
  | ran i hw hr _ => exact hw.locksKept.trans hr.locksKept

theorem locksKept_settle (s : State) : LocksKept s (settle s) := by
  obtain ⟨m, hm⟩ := settle_frame s
  rw [hm]
  exact { LocksKept.refl s with }

/-! ### The environment's events -/

theorem locksKept_input (s : State) (i : Input) (hi : ∀ keep, i ≠ .reset keep) : LocksKept s (s.input i) := by
  have kept := LocksKept.refl s
  cases i with
  | tick =>
    show LocksKept s s.tick
    unfold State.tick
    split
    · exact kept
    · exact locksKept_setTimer s id
  | irq id level =>
    unfold State.input
    simp only
    split <;> exact { kept with }
  | nmiEdge =>
    unfold State.input
    simp only
    split <;> exact { kept with }
  | rxEvt level => exact { kept with }
  | reset keep => exact absurd rfl (hi keep)
  | busWrite a b =>
    show LocksKept s (s.busWrite a b)
    unfold State.busWrite
    split
    · exact kept
    · exact kept
    · simp only
      split <;> exact { kept with }
  | eccHit hit => exact { kept with }
  | eccOther origin u double =>
    show LocksKept s (s.eccElsewhere origin u double)
    have hnoted := locksKept_noteEcc s u double
    unfold State.eccElsewhere
    split
    · simp only
      split
      · exact { hnoted with }
      · exact hnoted
    · exact kept
  | eccEvict =>
    show LocksKept s s.eccEvict
    have hnoted := locksKept_noteEcc s .dcache true
    unfold State.eccEvict
    split
    · simp only
      split
      · exact hnoted.trans (locksKept_noteFault _ _)
      · exact hnoted
    · exact kept

theorem locksKept_arrive {s : State} (h : ∀ g rest, s.inputs = g :: rest → ∀ k, Input.reset k ∉ g) :
    LocksKept s (arrive s) :=
  arrive_rel LocksKept .refl (fun _ _ _ => .trans) (fun s => { LocksKept.refl s with })
    (fun s _ => { LocksKept.refl s with }) (fun i => ∀ keep, i ≠ .reset keep) locksKept_input s
    fun g rest hg _ hi keep he => h g rest hg keep (he ▸ hi)

/-- No event changes the configuration, a reset no more than the others. -/
theorem input_cfg (s : State) (i : Input) : (s.input i).cfg = s.cfg := by
  cases i with
  | reset keep => rfl
  | _ => exact LocksKept.cfg (locksKept_input s _ (by nofun))

theorem arrive_cfg (s : State) : (arrive s).cfg = s.cfg :=
  arrive_rel (fun s t => t.cfg = s.cfg) (fun _ => rfl) (fun _ _ _ h g => g.trans h) (fun _ => rfl) (fun _ _ => rfl)
    (fun _ => True) (fun s i _ => input_cfg s i) s fun _ _ _ _ _ => trivial

/-- Settles O60: no event but a reset, no part of the middle of a step and not its end opens a lock or clears the
request. -/
theorem onlyResetUndoes : Obligations.OnlyResetUndoes := by
  unfold Obligations.OnlyResetUndoes
  intro s t ht
  obtain ⟨u, hu, rfl⟩ := step_acts ht
  have hstep : LocksKept (arrive s) (settle u) := hu.locksKept.trans (locksKept_settle u)
  refine ⟨hstep.cfg.trans (arrive_cfg s), fun hreset => ?_⟩
  have kept := (locksKept_arrive hreset).trans hstep
  exact ⟨kept.csr.pmp, kept.csr.eccFrozen, kept.softReset⟩

/-! ### The reset state (R621, R622) -/

/-- Both lines the TIMER drives are low, as mtime 0 is below mtimecmp and MSIP is clear. -/
theorem resetWith_fieldInv {cfg : Config} (h : cfg.resetVector.getLsbD 0 = false) :
    (State.resetWith cfg).FieldInv := by
  have hlow : ∀ {id : Nat} {src : EclicSrc}, (State.resetWith cfg).eclic.srcs[id]? = some src → src.line = false :=
    fun {id src} hs => by
      have hmem : src ∈ List.replicate cfg.numInterrupt EclicSrc.zero := List.mem_of_getElem? hs
      rw [List.eq_of_mem_replicate hmem]
      rfl
  exact { pc := h, resetVector := h, priv := fun _ => rfl
          csr := reset_csrs_inv cfg
          mem := ⟨Memory.wf_empty, nofun⟩
          srcs := List.length_replicate
          software := fun _ hs => hlow hs
          compare := fun _ hs => by
            rw [hlow hs]
            exact iff_of_false (by decide) (by decide : ¬ (0xFFFFFFFFFFFFFFFF#64).toNat ≤ (0#64).toNat)
          resv := nofun, faults := nofun }

/-- Settles O52: clause by clause; the reset vector of the default configuration is even. -/
theorem resetMeetsInvariant : Obligations.ResetMeetsInvariant := by
  unfold Obligations.ResetMeetsInvariant
  have hreset : ∀ cfg : Config, cfg.resetVector.getLsbD 0 = false → (State.resetWith cfg).Inv :=
    fun cfg h => (inv_iff_fieldInv _).2 (resetWith_fieldInv h)
  exact ⟨hreset Config.default (by decide), hreset⟩

end Sys2Proof.Machine
